-- ==== Sys2Proof/Word.lean ====
section
/-! DEFINITION. The plainest types: words, bytes, the names of the device's parts (spec 00, 01, 02), and the records that
commands carry (messages, tokens, flits, sheets). Nothing here computes. -/

namespace Sys2Proof

abbrev Byte := BitVec 8
abbrev Word := BitVec 32
/-- A croft of the device, numbered 0-63; croft c lies in quarter c / 16 (spec 00). -/
abbrev Croft := Fin 64
abbrev Quarter := Fin 4
/-- A field within its croft (R87). -/
abbrev FieldIx := Fin 4
/-- A causeway port, 0-31; quarter q owns ports 8q to 8q+7. -/
abbrev Port := Fin 32
/-- A device HBM stack number h = 3q + s (R53). -/
abbrev Stack := Fin 12
abbrev Ring := Fin 8

/-- The three streams of a croft (R122). -/
inductive Strm where
  | F | B | U
deriving DecidableEq, Repr

/-- The kinds of register page (R51, R52, R53). A block of several pages has one kind per page. -/
inductive PageKind where
  | gateId | gateEvt | bellMaster | watch | power | reset | paths
  | mailbox | book | hostRings | mill
  | quarter | commons | pound | reeve0 | reeve1 | reeve2 | reeve3 | dyke | bellRcv
  | port0 | port1 | hbm0 | hbm1 | hbm2 | hbm3
  | croft | stream | field | sluice | tally | vector | check | barn
deriving DecidableEq, Repr

/-- A register page: its kind and its `ID.INSTANCE` (R53). -/
structure Page where
  kind : PageKind
  inst : Nat
deriving DecidableEq, Repr

/-- The entry windows of R49 and R287. -/
inductive Window where
  | ledger (q : Quarter)
  | route (q : Quarter)
  | millGroup
  | millLayer
deriving DecidableEq, Repr

/-- What an error-correcting read finds (R363, R368): nothing, a single-bit error, an uncorrectable error that one
re-read clears, or one that persists; or a misread that the code does not see and a second read does not repeat (R219). -/
inductive EccCase where
  | clean | corrected | retried | uncorrectable | misread
deriving DecidableEq, Repr

/-- The memories the ECC of R362 and R368 protects; the key of the map they lie in is the address. -/
inductive EccMem where
  | barn | commons
deriving DecidableEq, Repr

/-- An ECC finding of a command's reads, the read half of its partial writes included (R362, R363, R368): the space (0 barn, 1 commons,
2 HBM), a byte address in it, which names the word of 8 bytes it lies in, and what is found. -/
structure MemErr where
  sp : Fin 3
  addr : Nat
  case : EccCase
deriving DecidableEq, Repr

/-- What hardware does to a register in the clk of a software write to it (R8, R46): the bits it sets, the bits it clears, and whether the
page's `LOCKED` is set in that clk; and what the read half of a checksum slot's write finds (R362). -/
structure SameClk where
  set : BitVec 64 := 0
  clr : BitVec 64 := 0
  lock : Bool := false
  errs : List MemErr := []
deriving DecidableEq, Repr

/-- Where a fault strikes (R116, R402): a product, the run register as a product is added to it or as the fold reads it, the
accumulator as a fold or a drain reads it, or a path. -/
inductive CheckKind where
  | residue | runParity | runFold | accParity | path
deriving DecidableEq, Repr

/-- A memory that a patrol scrub reads (R366, R368): an HBM stack, a barn or a commons. -/
inductive ScrubMem where
  | hbm (h : Stack) | barn (c : Croft) | commons (q : Quarter)
deriving DecidableEq, Repr

/-- A hardware fault in one cell in one k-step or drained row: by how much the product (or the register) is off, and which of the
register's stored parity bits are flipped. Where nothing is off and nothing flipped, only the checker is at fault (R403). In ganged mode
`limb` says that the fault lies in a limb product that another cell's multiplier forms for this cell: that cell's gang slot, and the
product's weight 256, 16, 16 or 1 by its index (R97, R116). -/
structure CellErr where
  field : FieldIx
  row : Fin 256
  col : Fin 256
  kind : CheckKind
  delta : Int
  flips : BitVec 3 := 0
  limb : Option (Fin 4 × Fin 4) := none
deriving DecidableEq, Repr

/-- A fault in a watch tile (R402, R404): whether the twin's croft has it, its k-step, and the fault. -/
structure WatchErr where
  twin : Bool
  k : Fin 1024
  err : CellErr
deriving DecidableEq, Repr

/-- A causeway message: the header of R339 field by field, its payload, and what the receiver can tell of it besides:
whether the CRC held, whether a reserved header bit was set, and the channel its flits carried (R347). -/
structure Msg where
  typ : BitVec 4
  sub : BitVec 4
  hops : BitVec 6 := 0
  ddev : BitVec 17 := 0
  dq : BitVec 2 := 0
  dcroft : BitVec 4 := 0
  dunit : BitVec 2 := 0
  sdev : BitVec 17 := 0
  sq : BitVec 2 := 0
  scroft : BitVec 4 := 0
  sbell : BitVec 32 := 0
  daddr : BitVec 40 := 0
  len : BitVec 16 := 0
  rsig : BitVec 6 := 0
  rsen : Bool := false
  rfmt : BitVec 4 := 0
  rop : BitVec 2 := 0
  saddr : BitVec 24 := 0
  lsig : BitVec 6 := 0
  lsen : Bool := false
  pbytes : BitVec 8 := 0
  payload : List Byte := []
  crcOk : Bool := true
  rsvBit : Bool := false
  vc : BitVec 2 := 0
deriving DecidableEq, Repr

/-- Where a message reaches a pound from: a causeway port of the device, or another quarter through the gate (R18). -/
inductive MsgSrc where
  | port (p : Port)
  | gate (q : Quarter)
deriving DecidableEq, Repr

/-- A message from mill to mill, with where it comes in. -/
structure MsgIn where
  src : MsgSrc
  msg : Msg
deriving DecidableEq, Repr

/-- A bell token (R261). `rsv` says that a reserved bit of the payload was set. -/
structure Token where
  bell : BitVec 64
  step : BitVec 48
  attempt : BitVec 16
  period : BitVec 26
  slack : BitVec 8
  flags : BitVec 8
  acc : BitVec 32
  lead : BitVec 24
  batch : BitVec 64
  rsv : Bool := false
deriving DecidableEq, Repr

/-- A bell acknowledgement (R268). -/
structure Ack where
  bell : BitVec 64
  count : BitVec 18
  anom : Bool
  holdReq : Bool
deriving DecidableEq, Repr

/-- One entry of a channel peak list (R228): a channel and a magnitude as S32 bits without sign. -/
structure Peak where
  chan : Nat
  mag : Nat
deriving DecidableEq, Repr

/-- The counts of one tally slot or one sheet record (R226, R232). Widths are capped where they are stored. -/
structure Counts where
  gid : Nat := 0
  total : Nat := 0
  sat : Nat := 0
  zero : Nat := 0
  nonz : Nat := 0
  ovfb : Nat := 0
  amax : Nat := 0
deriving DecidableEq, Repr

/-- A peak record (R232): group, croft within the quarter, list. -/
structure PeakRec where
  group : Nat
  croft : Nat
  peaks : List Peak
deriving DecidableEq, Repr

/-- A partial or final sheet on its way (R241): the records of entries in range, and peak records. -/
structure Sheet where
  recs : List (Nat × Counts) := []
  peaks : List PeakRec := []
deriving DecidableEq, Repr

/-- A data, null or link-control flit (R330): header fields and the payload, and whether CRC and FEC found it good. -/
structure Flit where
  seq : BitVec 12 := 0
  vc : BitVec 2 := 0
  kind : BitVec 2 := 0
  ackseq : BitVec 12 := 0
  ackv : Bool := false
  som : Bool := false
  eom : Bool := false
  replay : Bool := false
  vlen : BitVec 8 := 0
  crvc : BitVec 2 := 0
  crcnt : BitVec 8 := 0
  payload : List Byte := []
deriving DecidableEq, Repr

/-- The contents of an IDENT control flit (R328). -/
structure Ident where
  device : BitVec 17
  port : BitVec 5
  epoch : BitVec 32
  credits : List Nat
deriving DecidableEq, Repr

/-- How the host's configuration software leaves the MSI-X capability of the function (R380, R396): the enable and the function mask. -/
structure MsixCtl where
  enable : Bool := true
  mask : Bool := false
deriving DecidableEq, Repr

/-- Which clock lost lock or failed (R460). -/
inductive ClockLoss where
  | quarterTree (q : Quarter) | gatePll | millPll | memoryPhy | moduleRef | causewayRef (q : Quarter)
deriving DecidableEq, Repr

/-- The two transports of the steward (R482, R489). `host` is the mailbox page or the CXL DOE mailbox. -/
inductive Transport where
  | host | mctp
deriving DecidableEq, Repr

/-- The body of a mailbox request as carried over MCTP; over the mailbox page it lies in `BUFFER`. -/
abbrev Bytes := List Byte

end Sys2Proof
end

