-- ==== Sys2Proof/Syntax.lean ====
section
/-! DEFINITION. The commands of the block: one constructor per row of spec/opcode_table.json, in the table's order.
The operands are what the spec says a command carries; where a command's effect depends on something only the hardware
or the world outside decides (an error found by a check, a measured value, the module clk `t` at which it acts), that is
an operand too. `(c, st, w, t)` is a stream instruction: the croft, its stream, the 128-bit word (R142) and the issue clk.
An operand with a default (`reads`, `errs`: the errors that the command's reads and the read halves of its writes find; the clk of a message
between mills) comes last; the default says that nothing of the kind occurred, or that the command acts in the present clk. The copy
commands of the host rings carry one list of operands, of which each reads those that its source gives (R393). -/

namespace Sys2Proof

inductive Instr where
  /-- REGISTER_WRITE -/
  | registerWrite (addr : BitVec 26) (size : Nat) (v : BitVec 64) (same : SameClk := {})
  /-- EVENT_RAW_CLEAR -/
  | eventRawClear (pg : Page) (mask hwset : BitVec 16)
  /-- EVENT_FORCE -/
  | eventForce (pg : Page) (mask hwset : BitVec 16)
  /-- EVENT_MESSAGE -/
  | eventMessage
  /-- LOCK -/
  | lock (pg : Page) (v : Word)
  /-- LOCK_ALL -/
  | lockAll (v : Word)
  /-- ENTRY_SNAPSHOT_READ -/
  | entrySnapshotRead (addr : BitVec 26) (size : Nat)
  /-- ENTRY_WORD_WRITE -/
  | entryWordWrite (w : Window) (ix word : Nat) (v : Word)
  /-- RWS_COMMIT -/
  | rwsCommit
  /-- QUARTER_PATH_FLIT -/
  | quarterPathFlit (q : Quarter) (into : Bool) (come : List Nat) (crcOk : Bool := true)
  /-- CROFT_RUN_WRITE -/
  | croftRunWrite (c : Croft) (v : Bool)
  /-- STREAMS_STOPPED -/
  | streamsStopped (c : Croft)
  /-- ICACHE_FILL -/
  | icacheFill (c : Croft) (st : Strm) (parity : Bool) (errs : List MemErr := [])
  /-- JUMP -/
  | jump (c : Croft) (st : Strm) (w : BitVec 128) (t : Nat)
  /-- LOOP -/
  | loop (c : Croft) (st : Strm) (w : BitVec 128) (t : Nat)
  /-- HALT -/
  | halt (c : Croft) (st : Strm) (w : BitVec 128) (t : Nat)
  /-- WAIT_BELL -/
  | waitBell (c : Croft) (st : Strm) (w : BitVec 128) (t : Nat)
  /-- NOP -/
  | nop (c : Croft) (st : Strm) (w : BitVec 128) (t : Nat)
  /-- SIGNAL -/
  | signal (c : Croft) (st : Strm) (w : BitVec 128) (t : Nat)
  /-- SIGNAL_SET -/
  | signalSet (c : Croft) (st : Strm) (w : BitVec 128) (t : Nat)
  /-- WAIT -/
  | wait (c : Croft) (st : Strm) (w : BitVec 128) (t : Nat)
  /-- WAIT_SATISFIED -/
  | waitSatisfied (c : Croft) (st : Strm) (t : Nat)
  /-- CLAIM -/
  | claim (c : Croft) (st : Strm) (w : BitVec 128) (t : Nat)
  /-- CLAIM_GRANT -/
  | claimGrant (c : Croft) (st : Strm) (t : Nat)
  /-- RELEASE -/
  | release (c : Croft) (st : Strm) (w : BitVec 128) (t : Nat)
  /-- GANG -/
  | gang (c : Croft) (st : Strm) (w : BitVec 128) (t : Nat)
  /-- MASK -/
  | mask (c : Croft) (st : Strm) (w : BitVec 128) (t : Nat)
  /-- WIDE_RUN -/
  | wideRun (c : Croft) (st : Strm) (w : BitVec 128) (t : Nat)
  /-- WIDE_DRAIN -/
  | wideDrain (c : Croft) (st : Strm) (w : BitVec 128) (t : Nat)
  /-- RUN -/
  | run (c : Croft) (st : Strm) (w : BitVec 128) (t : Nat)
  /-- LOAD -/
  | load (c : Croft) (st : Strm) (w : BitVec 128) (t : Nat)
  /-- DRAIN -/
  | drain (c : Croft) (st : Strm) (w : BitVec 128) (t : Nat) (errs : List MemErr := [])
  /-- STANDALONE_LOAD -/
  | standaloneLoad (c : Croft) (f : FieldIx) (t : Nat) (errs : List MemErr := [])
  /-- PASS_READY -/
  | passReady (c : Croft) (t : Nat)
  /-- DYKE_GRANT -/
  | dykeGrant (q : Quarter) (t : Nat)
  /-- LANE_LINE_READ -/
  | laneLineRead (c : Croft) (img line : Nat) (errs : List MemErr := [])
  /-- KSTEP -/
  | kstep (c : Croft) (errs : List CellErr) (t : Nat) (reads : List MemErr := [])
  /-- PASS_END -/
  | passEnd (c : Croft) (t : Nat)
  /-- DYKE_RELEASE -/
  | dykeRelease (c : Croft) (t : Nat)
  /-- DRAIN_ROW -/
  | drainRow (c : Croft) (f : FieldIx) (errs : List CellErr) (t : Nat) (reads : List MemErr := [])
  /-- DRAIN_ROW_WRITE -/
  | drainRowWrite (c : Croft) (f : FieldIx) (t : Nat) (reads : List MemErr := [])
  /-- INJ_RESIDUE -/
  | injResidue (c : Croft) (f : FieldIx)
  /-- INJ_RUN_PARITY -/
  | injRunParity (c : Croft) (f : FieldIx)
  /-- INJ_ACC_PARITY -/
  | injAccParity (c : Croft) (f : FieldIx)
  /-- ACC_DATA_READ -/
  | accDataRead (c : Croft) (f : FieldIx)
  /-- MOVE -/
  | move (c : Croft) (st : Strm) (w : BitVec 128) (t : Nat)
  /-- STASH -/
  | stash (c : Croft) (st : Strm) (w : BitVec 128) (t : Nat)
  /-- UNSTASH -/
  | unstash (c : Croft) (st : Strm) (w : BitVec 128) (t : Nat)
  /-- CHECK -/
  | check (c : Croft) (st : Strm) (w : BitVec 128) (t : Nat)
  /-- DESC_COPY -/
  | descCopy (c : Croft) (errs : List MemErr) (t : Nat)
  /-- DESC_FILL -/
  | descFill (c : Croft) (errs : List MemErr) (t : Nat)
  /-- DESC_LANE -/
  | descLane (c : Croft) (errs : List MemErr) (t : Nat)
  /-- DESC_SEAL -/
  | descSeal (c : Croft) (errs : List MemErr) (t : Nat)
  /-- DESC_VERIFY -/
  | descVerify (c : Croft) (errs : List MemErr) (t : Nat)
  /-- DESC_STASH -/
  | descStash (c : Croft) (errs : List MemErr) (t : Nat)
  /-- DESC_UNSTASH -/
  | descUnstash (c : Croft) (errs : List MemErr) (t : Nat)
  /-- DESC_COMPLETE -/
  | descComplete (c : Croft) (t : Nat) (wait : Nat := 0)
  /-- CSUM_DATA_WRITE -/
  | csumDataWrite (c : Croft) (v : Word)
  /-- VOP -/
  | vop (c : Croft) (st : Strm) (w : BitVec 128) (t : Nat)
  /-- VOP_ADD -/
  | vopAdd (c : Croft) (pathBad : Bool) (t : Nat) (reads : List MemErr := [])
  /-- VOP_SUB -/
  | vopSub (c : Croft) (pathBad : Bool) (t : Nat) (reads : List MemErr := [])
  /-- VOP_MUL -/
  | vopMul (c : Croft) (pathBad : Bool) (t : Nat) (reads : List MemErr := [])
  /-- VOP_MIN -/
  | vopMin (c : Croft) (pathBad : Bool) (t : Nat) (reads : List MemErr := [])
  /-- VOP_MAX -/
  | vopMax (c : Croft) (pathBad : Bool) (t : Nat) (reads : List MemErr := [])
  /-- VOP_ABS -/
  | vopAbs (c : Croft) (pathBad : Bool) (t : Nat) (reads : List MemErr := [])
  /-- VOP_NEG -/
  | vopNeg (c : Croft) (pathBad : Bool) (t : Nat) (reads : List MemErr := [])
  /-- VOP_CMP_LT -/
  | vopCmpLt (c : Croft) (pathBad : Bool) (t : Nat) (reads : List MemErr := [])
  /-- VOP_CMP_LE -/
  | vopCmpLe (c : Croft) (pathBad : Bool) (t : Nat) (reads : List MemErr := [])
  /-- VOP_CMP_EQ -/
  | vopCmpEq (c : Croft) (pathBad : Bool) (t : Nat) (reads : List MemErr := [])
  /-- VOP_SEL -/
  | vopSel (c : Croft) (pathBad : Bool) (t : Nat) (reads : List MemErr := [])
  /-- VOP_COPY -/
  | vopCopy (c : Croft) (pathBad : Bool) (t : Nat) (reads : List MemErr := [])
  /-- VOP_FMA -/
  | vopFma (c : Croft) (pathBad : Bool) (t : Nat) (reads : List MemErr := [])
  /-- VOP_CVT -/
  | vopCvt (c : Croft) (pathBad : Bool) (t : Nat) (reads : List MemErr := [])
  /-- VOP_CVT_JIT -/
  | vopCvtJit (c : Croft) (pathBad : Bool) (t : Nat) (reads : List MemErr := [])
  /-- VOP_CVT_HDR -/
  | vopCvtHdr (c : Croft) (pathBad : Bool) (t : Nat) (reads : List MemErr := [])
  /-- VOP_RED_SUM -/
  | vopRedSum (c : Croft) (pathBad : Bool) (t : Nat) (reads : List MemErr := [])
  /-- VOP_RED_MAX -/
  | vopRedMax (c : Croft) (pathBad : Bool) (t : Nat) (reads : List MemErr := [])
  /-- VOP_EXP2 -/
  | vopExp2 (c : Croft) (pathBad : Bool) (t : Nat) (reads : List MemErr := [])
  /-- VOP_LOG2 -/
  | vopLog2 (c : Croft) (pathBad : Bool) (t : Nat) (reads : List MemErr := [])
  /-- VOP_RECIP -/
  | vopRecip (c : Croft) (pathBad : Bool) (t : Nat) (reads : List MemErr := [])
  /-- VOP_RSQRT -/
  | vopRsqrt (c : Croft) (pathBad : Bool) (t : Nat) (reads : List MemErr := [])
  /-- VOP_SINPI -/
  | vopSinpi (c : Croft) (pathBad : Bool) (t : Nat) (reads : List MemErr := [])
  /-- VOP_COSPI -/
  | vopCospi (c : Croft) (pathBad : Bool) (t : Nat) (reads : List MemErr := [])
  /-- VOP_TANH -/
  | vopTanh (c : Croft) (pathBad : Bool) (t : Nat) (reads : List MemErr := [])
  /-- VOP_SIGMOID -/
  | vopSigmoid (c : Croft) (pathBad : Bool) (t : Nat) (reads : List MemErr := [])
  /-- VOP_COMPLETE -/
  | vopComplete (c : Croft) (t : Nat)
  /-- TALLY_OPEN -/
  | tallyOpen (c : Croft) (st : Strm) (w : BitVec 128) (t : Nat) (busy : Bool := false)
  /-- TALLY_CLOSE -/
  | tallyClose (c : Croft) (st : Strm) (w : BitVec 128) (t : Nat) (busy : Bool := false)
  /-- TALLY_DELIVERY_LAND -/
  | tallyDeliveryLand (q : Quarter) (t : Nat)
  /-- SLOT_KEY_READ -/
  | slotKeyRead (c : Croft)
  /-- SEND -/
  | send (c : Croft) (st : Strm) (w : BitVec 128) (t : Nat)
  /-- RECV -/
  | recv (c : Croft) (st : Strm) (w : BitVec 128) (t : Nat)
  /-- REDUCE -/
  | reduce (c : Croft) (st : Strm) (w : BitVec 128) (t : Nat)
  /-- SEQ_SELECT -/
  | seqSelect (c : Croft) (st : Strm) (w : BitVec 128) (t : Nat)
  /-- SEQ_ADVANCE -/
  | seqAdvance (c : Croft) (st : Strm) (w : BitVec 128) (t : Nat)
  /-- POUND_CHUNK_GRANT -/
  | poundChunkGrant (q : Quarter) (t : Nat) (reads : List (Croft × MemErr) := [])
  /-- ABANDON_REACH -/
  | abandonReach (c : Croft) (t : Nat)
  /-- LATE_ABANDON -/
  | lateAbandon (c : Croft) (st : Strm) (t : Nat)
  /-- BELL_START -/
  | bellStart (t : Nat)
  /-- HOLD_NOW -/
  | holdNow
  /-- RESUME -/
  | resume (t : Nat)
  /-- TOKEN_SEND -/
  | tokenSend (t : Nat)
  /-- BELL_TOKEN -/
  | bellToken (p : Port) (tok : Token) (t : Nat)
  /-- TOKEN_FORWARD -/
  | tokenForward (p : Port) (t : Nat)
  /-- BELL_EDGE -/
  | bellEdge (t : Nat)
  /-- ACK_SEND -/
  | ackSend (t : Nat)
  /-- BELL_ACK -/
  | bellAck (p : Port) (a : Ack) (t : Nat)
  /-- ACK_MISSING -/
  | ackMissing (t : Nat)
  /-- BELL_LOST -/
  | bellLost (t : Nat)
  /-- SHEET_SEND -/
  | sheetSend (q : Quarter) (t : Nat)
  /-- PARTIAL_SHEET -/
  | partialSheet (src : MsgSrc) (m : Msg) (sh : Sheet) (t : Nat)
  /-- FINAL_SHEET -/
  | finalSheet (src : MsgSrc) (m : Msg) (sh : Sheet) (t : Nat := 0)
  /-- DECISION_PASS_DONE -/
  | decisionPassDone (q : Quarter) (t : Nat)
  /-- REEVE_ENABLE_WRITE -/
  | reeveEnableWrite (q : Quarter) (v : Bool)
  /-- SHEET_DATA_READ -/
  | sheetDataRead (q : Quarter) (peak : Bool)
  /-- MILL_ENABLE_WRITE -/
  | millEnableWrite (v : Bool)
  /-- CHUNK -/
  | chunk (tag : BitVec 64) (data : List (BitVec 16)) (t : Nat)
  /-- CHUNK_CONSUME -/
  | chunkConsume (layer : Nat)
  /-- PHASE1_DONE -/
  | phase1Done (layer : Nat) (t : Nat)
  /-- PHASE2_LAYER -/
  | phase2Layer (t : Nat) (reads : List (Quarter × MemErr) := [])
  /-- PHASE2_DONE -/
  | phase2Done (t : Nat) (reads : List (Quarter × MemErr) := [])
  /-- SECURE_LAYER_SEND -/
  | secureLayerSend (reads : List (Quarter × MemErr) := [])
  /-- SECURE_BEGIN -/
  | secureBegin (m : MsgIn) (t : Nat := 0)
  /-- SECURE_DATA -/
  | secureData (m : MsgIn) (t : Nat := 0)
  /-- SECURE_LAYER_END -/
  | secureLayerEnd (m : MsgIn) (t : Nat := 0)
  /-- SECURE_ACK -/
  | secureAck (m : MsgIn) (t : Nat)
  /-- SECURE_COMPLETE -/
  | secureComplete (m : MsgIn) (t : Nat := 0)
  /-- SECURE_ACK_TIMEOUT -/
  | secureAckTimeout
  /-- SEC_NOW -/
  | secNow
  /-- FILL_GO -/
  | fillGo
  /-- FILL_REQUEST -/
  | fillRequest (m : MsgIn) (t : Nat := 0)
  /-- FILL_DATA -/
  | fillData (m : MsgIn) (t : Nat := 0) (reads : List (Quarter × MemErr) := [])
  /-- FILL_END -/
  | fillEnd (m : MsgIn) (t : Nat := 0)
  /-- FILL_REFUSE -/
  | fillRefuse (m : MsgIn) (t : Nat := 0)
  /-- FILL_TIMEOUT -/
  | fillTimeout
  /-- NO_SPARE -/
  | noSpare
  /-- REPLAY_APPEND -/
  | replayAppend
  /-- CATCHUP_DELIVERY -/
  | catchupDelivery (t : Nat) (reads : List MemErr := []) (sh : Sheet := {})
  /-- PORT_ENABLE_WRITE -/
  | portEnableWrite (p : Port) (v : Bool)
  /-- PORT_RETRAIN -/
  | portRetrain (p : Port)
  /-- EQ_DONE -/
  | eqDone (p : Port) (lanesOk : BitVec 8)
  /-- ALIGN_DONE -/
  | alignDone (p : Port) (partner : Option Bool)
  /-- IDENT -/
  | ident (p : Port) (id : Ident)
  /-- MEASURE_REQUEST -/
  | measureRequest (p : Port) (t2 t3 : Nat)
  /-- MEASURE_RESPONSE -/
  | measureResponse (p : Port) (t1 t4 diff : Nat)
  /-- LINK_DOWN -/
  | linkDown (p : Port)
  /-- TRAIN_TIMEOUT -/
  | trainTimeout (p : Port)
  /-- FLIT_SLOT -/
  | flitSlot (p : Port) (t : Nat)
  /-- FLIT_RECEIVE -/
  | flitReceive (p : Port) (fl : Flit) (crcOk fecOk : Bool) (corrected : Nat) (uncorr : Nat := 0)
  /-- ACK -/
  | ack (p : Port) (ackseq : BitVec 12)
  /-- NAK -/
  | nak (p : Port) (expected : BitVec 12)
  /-- CREDIT -/
  | credit (p : Port) (c0 c1 c2 c3 : BitVec 16)
  /-- REPLAY_TIMEOUT -/
  | replayTimeout (p : Port)
  /-- CREDIT_STALL -/
  | creditStall (p : Port) (vc : Fin 4)
  /-- FEC_GROUP_END -/
  | fecGroupEnd (p : Port)
  /-- PUT -/
  | put (src : MsgSrc) (m : Msg) (t : Nat) (reads : List MemErr := [])
  /-- GET_REQUEST -/
  | getRequest (src : MsgSrc) (m : Msg) (t : Nat) (reads : List MemErr := [])
  /-- GET_RESPONSE -/
  | getResponse (src : MsgSrc) (m : Msg) (t : Nat) (reads : List MemErr := [])
  /-- GET_TIMEOUT -/
  | getTimeout (q : Quarter) (t : Nat)
  /-- REDUCE_PUT -/
  | reducePut (src : MsgSrc) (m : Msg) (t : Nat) (reads : List MemErr := [])
  /-- REDUCE_RELEASE -/
  | reduceRelease (q : Quarter) (t : Nat) (reads : List MemErr := [])
  /-- CTRL_DEVICE_FAILED -/
  | ctrlDeviceFailed (p : Port)
  /-- ECHO_REQUEST -/
  | echoRequest (src : MsgSrc) (m : Msg) (t : Nat)
  /-- ECHO_REPLY -/
  | echoReply (src : MsgSrc) (m : Msg) (t : Nat)
  /-- ECC_WRITEBACK -/
  | eccWriteback (mem : EccMem)
  /-- SCRUB_READ -/
  | scrubRead (mem : ScrubMem) (line : Nat) (e : EccCase) (t : Nat)
  /-- HBM_TEMP_READ -/
  | hbmTempRead (h : Stack) (degC : Nat)
  /-- SLOW_SCRUB_PASS -/
  | slowScrubPass (ch : Fin 24) (ce ue : Nat)
  /-- HBM_CSUM_DATA_WRITE -/
  | hbmCsumDataWrite (h : Stack) (v : Word) (errs : List MemErr := [])
  /-- HOST_MEM_READ -/
  | hostMemRead (x : Nat) (e : EccCase) (t : Nat)
  /-- HOST_MEM_WRITE -/
  | hostMemWrite (x : Nat) (data : List Byte) (poison : Bool) (errs : List MemErr := [])
  /-- SQ_DOORBELL -/
  | sqDoorbell (r : Ring) (v : Word)
  /-- CQ_DOORBELL -/
  | cqDoorbell (r : Ring) (v : Word)
  /-- RING_ENABLE -/
  | ringEnable (r : Ring)
  /-- RING_DISABLE -/
  | ringDisable (r : Ring)
  /-- ABORT -/
  | abort (r : Ring)
  /-- HOST_NOP -/
  | hostNop (r : Ring)
  /-- COPY_IN -/
  | copyIn (r : Ring) (lines : Nat) (errs : List MemErr) (hostErr : Bool)
  /-- COPY_OUT -/
  | copyOut (r : Ring) (lines : Nat) (errs : List MemErr) (hostErr : Bool)
  /-- SEAL -/
  | seal (r : Ring) (lines : Nat) (errs : List MemErr) (hostErr : Bool)
  /-- SLOW_WRITE -/
  | slowWrite (r : Ring) (lines : Nat) (errs : List MemErr) (hostErr : Bool)
  /-- SLOW_READ -/
  | slowRead (r : Ring) (lines : Nat) (errs : List MemErr) (hostErr : Bool)
  /-- CROFT_START -/
  | croftStart (r : Ring)
  /-- CROFT_STOP -/
  | croftStop (r : Ring)
  /-- BELL_WAIT -/
  | bellWait (r : Ring)
  /-- COMMAND_COMPLETE -/
  | commandComplete (r : Ring) (writeOk : Bool)
  /-- IRQ_DELAY_EXPIRE -/
  | irqDelayExpire (r : Ring)
  /-- HOST_LINK_LOSS -/
  | hostLinkLoss
  /-- HOST_LINK_UP -/
  | hostLinkUp (width : Nat) (rate32 flit68 : Bool) (cfg : MsixCtl := {})
  /-- FLR -/
  | flr
  /-- FLR_DONE -/
  | flrDone (cfg : MsixCtl := {})
  /-- CHECK_DIAGNOSIS -/
  | checkDiagnosis (c : Croft) (t : Nat)
  /-- WATCH_SLOT -/
  | watchSlot (t : Nat)
  /-- WATCH_COMPARE -/
  | watchCompare (xs xt : List Word) (t : Nat) (errs : List WatchErr := [])
  /-- INJ_TWIN -/
  | injTwin
  /-- QUARANTINE -/
  | quarantine (c : Croft)
  /-- QUARANTINE_CLR -/
  | quarantineClr (c : Croft)
  /-- POWER_ON -/
  | powerOn (sealsLost : List Nat) (cfgOk : Bool)
  /-- INPUT_LOSS -/
  | inputLoss
  /-- BROWNOUT -/
  | brownout (mv : BitVec 16)
  /-- BROWNOUT_END -/
  | brownoutEnd (minMv : BitVec 16)
  /-- UNDERVOLT -/
  | undervolt (mv : BitVec 16)
  /-- OVERVOLT -/
  | overvolt (mv : BitVec 16)
  /-- OVERVOLT_RESET -/
  | overvoltReset (mv : BitVec 16)
  /-- POWER_HIGH -/
  | powerHigh (watts : BitVec 12)
  /-- RAIL_SAMPLE -/
  | railSample (rail : Fin 64) (mv ma : BitVec 16) (tripped : Bool)
  /-- TEMP_SAMPLE -/
  | tempSample (sensor : Fin 76) (degC : Int)
  /-- PLL_UNLOCK -/
  | pllUnlock (which : ClockLoss)
  /-- QPOWER_SAMPLE -/
  | qpowerSample (q : Quarter) (watts : BitVec 10)
  /-- WARM -/
  | warm (key : BitVec 16)
  /-- WARM_DONE -/
  | warmDone (cfg : MsixCtl := {})
  /-- QUARTER_RESET -/
  | quarterReset (q : Quarter)
  /-- QUARTER_DONE -/
  | quarterDone (q : Quarter)
  /-- CROFT_RESET -/
  | croftReset (c : Croft)
  /-- CROFT_DONE -/
  | croftDone (c : Croft)
  /-- PORT_RESET -/
  | portReset (p : Port)
  /-- PARK -/
  | park (q : Quarter) (v : Bool)
  /-- PARKED -/
  | parked (q : Quarter)
  /-- UNPARKED -/
  | unparked (q : Quarter)
  /-- FALLOW -/
  | fallow (v : Bool)
  /-- FALLOW_ENTERED -/
  | fallowEntered
  /-- FALLOW_LEFT -/
  | fallowLeft
  /-- MODULE_RESET_DONE -/
  | moduleResetDone (cfg : MsixCtl := {})
  /-- PERST_FALL -/
  | perstFall
  /-- PERST_RISE -/
  | perstRise
  /-- MILL_LINK_DEGRADED -/
  | millLinkDegraded (l : Fin 2) (up full : Bool)
  /-- HEARTBEAT -/
  | heartbeat
  /-- STEWARD_LOST -/
  | stewardLost
  /-- GET_INFO -/
  | getInfo (tr : Transport) (req : Bytes)
  /-- GET_NONCE -/
  | getNonce (tr : Transport) (req : Bytes)
  /-- OPEN_PERSIST -/
  | openPersist (tr : Transport) (req : Bytes)
  /-- ERASE_CONFIG -/
  | eraseConfig (tr : Transport) (req : Bytes)
  /-- ERASE_BOOK -/
  | eraseBook (tr : Transport) (req : Bytes)
  /-- BOOK_ERASE_DONE -/
  | bookEraseDone
  /-- SET_OWNER -/
  | setOwner (tr : Transport) (req : Bytes) (strap : Bool)
  /-- OWNER_FW_ACTIVATE -/
  | ownerFwActivate (tr : Transport) (req : Bytes)
  /-- CLOSE_PERSIST -/
  | closePersist (tr : Transport) (req : Bytes)
  /-- PERSIST_WINDOW_EXPIRE -/
  | persistWindowExpire
  /-- NONCE_EXPIRE -/
  | nonceExpire
  /-- FW_WRITE -/
  | fwWrite (tr : Transport) (req : Bytes)
  /-- FW_STAGE -/
  | fwStage (tr : Transport) (req : Bytes)
  /-- FW_ACTIVATE -/
  | fwActivate (tr : Transport) (req : Bytes)
  /-- POWER_CYCLE -/
  | powerCycle (tr : Transport)
  /-- MODULE_RESET -/
  | moduleReset (tr : Transport)
  /-- GET_VERSION -/
  | getVersion (tr : Transport)
  /-- GET_CAPABILITIES -/
  | getCapabilities (tr : Transport)
  /-- NEGOTIATE_ALGORITHMS -/
  | negotiateAlgorithms (tr : Transport)
  /-- GET_DIGESTS -/
  | getDigests (tr : Transport)
  /-- GET_CERTIFICATE -/
  | getCertificate (tr : Transport) (slot : BitVec 8) (off len : BitVec 16)
  /-- CHALLENGE -/
  | challenge (tr : Transport) (slot : BitVec 8) (nonce : Bytes)
  /-- GET_MEASUREMENTS -/
  | getMeasurements (tr : Transport) (index : BitVec 8) (sign : Bool) (nonce : Bytes)
  /-- SPDM_UNSUPPORTED -/
  | spdmUnsupported (tr : Transport) (code : BitVec 8)
  /-- HOURS_COMMIT -/
  | hoursCommit (ticks : Nat)
  /-- RECORD_WRITE -/
  | recordWrite (ticks : Nat)
  /-- CURSOR_WRITE -/
  | cursorWrite (slot : BitVec 14)
  /-- WINDOW_READ -/
  | windowRead
  /-- NEXT -/
  | next
  /-- PREV -/
  | prev
  /-- OLDEST -/
  | oldest
  /-- NEWEST -/
  | newest
  /-- SIGNAL_DETECTED -/
  | signalDetected (p : Port)
  /-- HBM_TRAIN_FAIL -/
  | hbmTrainFail (h : Stack)
  /-- SELF_REFRESH_RETURN -/
  | selfRefreshReturn (h : Stack)
  /-- CXL_RESET -/
  | cxlReset
deriving DecidableEq, Repr

end Sys2Proof
end

