-- ==== Sys2Proof/Decode.lean ====
section
/-! DEFINITION. The command a word spells. The opcode table gives no row any bits, so no word of its own spells a command; the
128-bit words that streams fetch are given to their rows by the opcode map of R165. -/

namespace Sys2Proof

/-- No row of spec/opcode_table.json has bits: a word spells no command. -/
def decodeTableWord (_nbits _w : Nat) : Option Instr := none

/-- The instruction that a stream's word names by bits [7:0] (R159, R165); none where the opcode is reserved. -/
def streamInstr (c : Croft) (st : Strm) (w : BitVec 128) (busy : Bool) (t : Nat) : Option Instr :=
  match w.toNat % 256 with
  | 0x01 => some (.jump c st w t)
  | 0x02 => some (.loop c st w t)
  | 0x03 => some (.halt c st w t)
  | 0x04 => some (.waitBell c st w t)
  | 0x05 => some (.nop c st w t)
  | 0x10 => some (.signal c st w t)
  | 0x11 => some (.signalSet c st w t)
  | 0x12 => some (.wait c st w t)
  | 0x13 => some (.claim c st w t)
  | 0x14 => some (.release c st w t)
  | 0x20 => some (.run c st w t)
  | 0x21 => some (.drain c st w t [])
  | 0x22 => some (.load c st w t)
  | 0x23 => some (.mask c st w t)
  | 0x24 => some (.gang c st w t)
  | 0x25 => some (.wideRun c st w t)
  | 0x26 => some (.wideDrain c st w t)
  | 0x30 => some (.move c st w t)
  | 0x31 => some (.stash c st w t)
  | 0x32 => some (.unstash c st w t)
  | 0x33 => some (.check c st w t)
  | 0x40 => some (.vop c st w t)
  | 0x50 => some (.tallyOpen c st w t busy)
  | 0x51 => some (.tallyClose c st w t busy)
  | 0x60 => some (.send c st w t)
  | 0x61 => some (.recv c st w t)
  | 0x62 => some (.reduce c st w t)
  | 0x70 => some (.seqSelect c st w t)
  | 0x71 => some (.seqAdvance c st w t)
  | _ => none

end Sys2Proof
end

