-- ==== Sys2Proof/Config.lean ====
section
/-! DEFINITION. What an implementation fixes and the values the spec leaves free. None has a body: nothing can be proved of
what such a value is. -/

namespace Sys2Proof.Config

/-- A byte of a memory region whose contents a reset left undefined (R465): region, its epoch, address. -/
opaque freeByte : Nat → Nat → Nat → Byte
/-- A tile-checksum slot that nothing has written (R218): epoch, slot. -/
opaque freeCsum : Nat → Nat → Word
/-- A field accumulator after a reset left it undefined (R119, R465): epoch, cell. -/
opaque freeAcc : Nat → Nat → BitVec 36
/-- The n-th free word drawn where the spec leaves a value open; the state counts the draws. -/
opaque freeWord : Nat → Word
/-- The coefficient tables of R153, published in the vector set: function, table 0 to 3, index. -/
opaque coeff : Nat → Nat → Nat → Word
/-- The payload of a partial or final sheet (R241), of which the spec lays down the records and their order but no layout of the whole. -/
opaque sheetBytes : Sheet → List Byte
/-- The marker block that begins a group of codewords, by the group count (R322): its lane-deskew pattern is laid down nowhere. -/
opaque markerBlock : Nat → BitVec 2048
/-- The contents of an IDENT control flit and of a MEASURE response, after the type in byte 0 (R328, R333). -/
opaque identBytes : Ident → List Byte
opaque measureBytes : Nat → List Byte
/-- `RSQRT` of +infinity, as an S32 code: R154 states no result there. -/
opaque rsqrtInf : Word
/-- SHA-256 of a byte string, as its standard defines it (R474). -/
opaque sha256 : List Byte → List Byte
/-- ECDSA verification on P-256 over SHA-256 (R474, R484): public key, message, signature. -/
opaque ecdsaVerify : List Byte → List Byte → List Byte → Bool
/-- ECDSA signature with the identity key and the nonce of RFC 6979 (R473): message. -/
opaque ecdsaSign : List Byte → List Byte
/-- A firmware certificate verifies against the Vildun root and permits an image type (R475): certificate, type. -/
opaque x509Verify : List Byte → Nat → Bool
/-- The public key of a firmware certificate. -/
opaque certKey : List Byte → List Byte
/-- The firmware slots as manufactured: slot, byte offset (R471). -/
opaque factoryFlash : Nat → Nat → Byte
/-- The module's serial number (R484), the nonce key of R485, and measurement 7 (R481): part number, serial number, revisions. -/
opaque serial : Nat
opaque nonceKey : List Byte
opaque identityInfo : List Byte
/-- What the straps MADDR[2:0] show when they are sampled for the n-th time (R509). -/
opaque maddr : Nat → BitVec 3
/-- Digest of the boot ROM (R481) and the certificate chain of slot 0 (R479). -/
opaque bootRomDigest : List Byte
opaque certChain : List Byte
/-- Trims and calibration values as manufactured (R14, R471). -/
opaque factoryTrims : List Byte
opaque factoryCalibration : List Byte
/-- The silicon revision (R37), identity data of the gate identity page for which the spec lays down no register offset. -/
opaque siliconRevision : Nat
/-- The bytes of a configuration generation (R471), of which measurement 6 is the digest: trims, calibration, stored RWS values, owner
key, floors, active slots, nonce counter. -/
opaque configImage : List Byte → List Byte → List (Nat × Word) → List Byte → List Nat → List Nat → Nat → List Byte
/-- What an SPDM signature covers (R480), of which the DMTF standard fixes the layout: measurements, request. -/
opaque spdmTranscript : List Byte → List Byte → List Byte

end Sys2Proof.Config
end

