-- ==== Sys2Proof/Machine/Bits.lean ====
section
/-! DEFINITION. Bit fields, sign extension, byte order and the CRCs (R5, R6, R12, R331, R339, R363, R498). -/

namespace Sys2Proof.Machine

/-- `bits(x, h, l)` of R12. -/
def bits (x hi lo : Nat) : Nat := (x >>> lo) % 2 ^ (hi - lo + 1)

def bit (x i : Nat) : Bool := x.testBit i

/-- `sext(x, n)` of R12. -/
def sext (x n : Nat) : Int := if x.testBit (n - 1) then (x : Int) - 2 ^ n else x

/-- `wrap(x, n)` of R12 on integers: the two's-complement code of n bits. -/
def wrapInt (x : Int) (n : Nat) : Nat := (x % (2 ^ n : Nat)).toNat

def b2n (b : Bool) : Nat := if b then 1 else 0

/-- `n` bytes of `x`, least significant first (R6). -/
def leBytes : Nat → Nat → List Byte
  | 0, _ => []
  | n + 1, x => BitVec.ofNat 8 x :: leBytes n (x / 256)

/-- The number that bytes spell, least significant first (R6). -/
def ofLe : List Byte → Nat
  | [] => 0
  | b :: bs => b.toNat + 256 * ofLe bs

/-- `n` bytes, most significant first, for the few structures whose standard fixes that order. -/
def beBytes (n x : Nat) : List Byte := (leBytes n x).reverse

/-- Append a low field: `cat hi w lo` puts `lo`, of `w` bits, under `hi`. -/
def cat (hi w lo : Nat) : Nat := hi * 2 ^ w + lo % 2 ^ w

/-- One bit of a reflected CRC. -/
def crcStepR (poly : Nat) (c : Nat) : Nat := if c.testBit 0 then (c >>> 1) ^^^ poly else c >>> 1

def crcByteR (poly : Nat) (c : Nat) (b : Byte) : Nat :=
  let x := c ^^^ b.toNat
  crcStepR poly (crcStepR poly (crcStepR poly (crcStepR poly (crcStepR poly (crcStepR poly (crcStepR poly
    (crcStepR poly x)))))))

/-- CRC-32C: polynomial 0x1EDC6F41 reflected, initial value and final inversion all ones. -/
def crc32c (bs : List Byte) : Nat := (bs.foldl (crcByteR 0x82F63B78) 0xFFFFFFFF) ^^^ 0xFFFFFFFF

end Sys2Proof.Machine
end

