-- ==== Sys2Proof/Machine/Pages.lean ====
section
/-! DEFINITION. The register pages and the address map (R30, R35, R51 to R53): where each page lies, its `ID`, its number of
events, and what a register field is (R7). -/

namespace Sys2Proof.Machine

/-- The access codes of R7. -/
inductive Acc where
  | rw | ro | w1c | w1s | wo | rws | rwl
deriving DecidableEq, Repr

/-- The further condition a register table sets on a software write: croft stopped, reeve disabled, bell not running,
held or outside its token window, ring disabled, mill disabled or held. -/
inductive Cond where
  | always | croftStopped | reeveDisabled | bellHeld | bellToken | ringDisabled | millHeld
deriving DecidableEq, Repr

/-- Encodings of a field that its table marks reserved (R9). -/
inductive Rsv where
  | ok
  | above (n : Nat)
  | below (n : Nat)
  | outside (lo hi : Nat)
deriving DecidableEq, Repr

/-- One row of a register table. -/
structure Fld where
  page : PageKind
  off : Nat
  hi : Nat
  lo : Nat
  acc : Acc
  cond : Cond := .always
  rsv : Rsv := .ok
  reset : Nat := 0
deriving DecidableEq, Repr

/-- Whether a value is a reserved encoding. -/
def rsvHit : Rsv → Nat → Bool
  | .ok, _ => false
  | .above n, v => decide (n < v)
  | .below n, v => decide (v < n)
  | .outside lo hi, v => decide (v < lo) || decide (hi < v)

/-- Offset of quarter q (R51). -/
def quarterBase (q : Nat) : Nat := 0x01000000 + q * 0x00400000

/-- Offset of croft c (R52). -/
def croftBase (c : Nat) : Nat := quarterBase (c / 16) + 0x100000 + (c % 16) * 0x10000

def portBase (p : Nat) : Nat := quarterBase (p / 8) + 0x040000 + (p % 8) * 0x2000

def hbmBase (h : Nat) : Nat := quarterBase (h / 3) + 0x050000 + (h % 3) * 0x4000

/-- BAR0 offset of a page (R51, R52). -/
def pageBase (k : PageKind) (i : Nat) : Nat :=
  match k with
  | .gateId => 0x0 | .gateEvt => 0x1000 | .bellMaster => 0x2000 | .watch => 0x3000 | .power => 0x4000
  | .reset => 0x5000 | .paths => 0x6000
  | .mailbox => 0x100000 | .book => 0x101000 | .hostRings => 0x200000 | .mill => 0x300000
  | .quarter => quarterBase i
  | .commons => quarterBase i + 0x10000
  | .pound => quarterBase i + 0x20000
  | .reeve0 => quarterBase i + 0x30000
  | .reeve1 => quarterBase i + 0x31000
  | .reeve2 => quarterBase i + 0x32000
  | .reeve3 => quarterBase i + 0x33000
  | .dyke => quarterBase i + 0x38000
  | .bellRcv => quarterBase i + 0x60000
  | .port0 => portBase i
  | .port1 => portBase i + 0x1000
  | .hbm0 => hbmBase i
  | .hbm1 => hbmBase i + 0x1000
  | .hbm2 => hbmBase i + 0x2000
  | .hbm3 => hbmBase i + 0x3000
  | .croft => croftBase i
  | .stream => croftBase (i / 3) + (1 + i % 3) * 0x1000
  | .field => croftBase (i / 4) + (4 + i % 4) * 0x1000
  | .sluice => croftBase i + 0x8000
  | .tally => croftBase i + 0x9000
  | .vector => croftBase i + 0xA000
  | .check => croftBase i + 0xB000
  | .barn => croftBase i + 0xC000

/-- The block-type code of a page's `ID` (R52, R53). -/
def pageType : PageKind → Nat
  | .gateId => 1 | .gateEvt => 2 | .bellMaster => 3 | .watch => 4 | .power => 5 | .reset => 6 | .paths => 7
  | .mailbox => 8 | .book => 9 | .hostRings => 0xA | .mill => 0xB
  | .quarter => 0x10 | .commons => 0x11 | .pound => 0x12
  | .reeve0 => 0x13 | .reeve1 => 0x13 | .reeve2 => 0x13 | .reeve3 => 0x13
  | .dyke => 0x14 | .bellRcv => 0x15 | .port0 => 0x16 | .port1 => 0x16
  | .hbm0 => 0x17 | .hbm1 => 0x17 | .hbm2 => 0x17 | .hbm3 => 0x17
  | .croft => 0x20 | .stream => 0x21 | .field => 0x22 | .sluice => 0x23 | .tally => 0x24 | .vector => 0x25
  | .check => 0x26 | .barn => 0x27

/-- `ID` (R36). -/
def pageId (p : Page) : Nat := p.inst * 65536 + pageType p.kind

/-- How many events the page's event table names; they are bits 0 up (R38). -/
def pageEvents : PageKind → Nat
  | .gateId => 1 | .gateEvt => 1 | .bellMaster => 9 | .watch => 9 | .power => 8 | .reset => 8 | .paths => 3
  | .mailbox => 6 | .book => 2 | .hostRings => 8 | .mill => 13
  | .quarter => 1 | .commons => 3 | .pound => 10 | .reeve0 => 13 | .reeve1 => 0 | .reeve2 => 0 | .reeve3 => 0
  | .dyke => 2 | .bellRcv => 3 | .port0 => 8 | .port1 => 4 | .hbm0 => 8 | .hbm1 => 0 | .hbm2 => 0 | .hbm3 => 0
  | .croft => 5 | .stream => 4 | .field => 9 | .sluice => 4 | .tally => 2 | .vector => 3 | .check => 9 | .barn => 3

/-- How many pages of a kind the device has. -/
def pageCount : PageKind → Nat
  | .gateId => 1 | .gateEvt => 1 | .bellMaster => 1 | .watch => 1 | .power => 1 | .reset => 1 | .paths => 1
  | .mailbox => 1 | .book => 1 | .hostRings => 1 | .mill => 1
  | .quarter => 4 | .commons => 4 | .pound => 4 | .reeve0 => 4 | .reeve1 => 4 | .reeve2 => 4 | .reeve3 => 4
  | .dyke => 4 | .bellRcv => 4 | .port0 => 32 | .port1 => 32 | .hbm0 => 12 | .hbm1 => 12 | .hbm2 => 12 | .hbm3 => 12
  | .croft => 64 | .stream => 192 | .field => 256 | .sluice => 64 | .tally => 64 | .vector => 64 | .check => 64
  | .barn => 64

/-- The quarter a page belongs to; none for the gate, steward, rings and mill pages. -/
def pageQuarter (p : Page) : Option Nat :=
  match p.kind with
  | .gateId | .gateEvt | .bellMaster | .watch | .power | .reset | .paths | .mailbox | .book | .hostRings | .mill => none
  | .quarter | .commons | .pound | .reeve0 | .reeve1 | .reeve2 | .reeve3 | .dyke | .bellRcv => some p.inst
  | .port0 | .port1 => some (p.inst / 8)
  | .hbm0 | .hbm1 | .hbm2 | .hbm3 => some (p.inst / 3)
  | .croft | .sluice | .tally | .vector | .check | .barn => some (p.inst / 16)
  | .stream => some (p.inst / 48)
  | .field => some (p.inst / 64)

/-- The page of a croft by its number (R52). -/
def croftPageAt (c n : Nat) : Option Page :=
  if n = 0 then some ⟨.croft, c⟩
  else if n < 4 then some ⟨.stream, 3 * c + (n - 1)⟩
  else if n < 8 then some ⟨.field, 4 * c + (n - 4)⟩
  else if n = 8 then some ⟨.sluice, c⟩
  else if n = 9 then some ⟨.tally, c⟩
  else if n = 10 then some ⟨.vector, c⟩
  else if n = 11 then some ⟨.check, c⟩
  else if n = 12 then some ⟨.barn, c⟩
  else none

/-- The page at an offset of quarter q (R52). -/
def quarterPageAt (q o : Nat) : Option Page :=
  let n := o / 0x1000
  if n = 0 then some ⟨.quarter, q⟩
  else if n = 0x10 then some ⟨.commons, q⟩
  else if n = 0x20 then some ⟨.pound, q⟩
  else if n = 0x30 then some ⟨.reeve0, q⟩
  else if n = 0x31 then some ⟨.reeve1, q⟩
  else if n = 0x32 then some ⟨.reeve2, q⟩
  else if n = 0x33 then some ⟨.reeve3, q⟩
  else if n = 0x38 then some ⟨.dyke, q⟩
  else if 0x40 ≤ n ∧ n < 0x50 then
    some ⟨if n % 2 = 0 then .port0 else .port1, 8 * q + (n - 0x40) / 2⟩
  else if 0x50 ≤ n ∧ n < 0x5C then
    some ⟨match n % 4 with | 0 => .hbm0 | 1 => .hbm1 | 2 => .hbm2 | _ => .hbm3, 3 * q + (n - 0x50) / 4⟩
  else if n = 0x60 then some ⟨.bellRcv, q⟩
  else if 0x100 ≤ n ∧ n < 0x200 then croftPageAt (16 * q + (n - 0x100) / 16) (n % 16)
  else none

/-- The page that holds a BAR0 address, if the map lists one (R51). -/
def pageAt (a : Nat) : Option Page :=
  if a < 0x7000 then
    (match a / 0x1000 with
      | 0 => some ⟨.gateId, 0⟩ | 1 => some ⟨.gateEvt, 0⟩ | 2 => some ⟨.bellMaster, 0⟩ | 3 => some ⟨.watch, 0⟩
      | 4 => some ⟨.power, 0⟩ | 5 => some ⟨.reset, 0⟩ | _ => some ⟨.paths, 0⟩)
  else if a / 0x1000 = 0x100 then some ⟨.mailbox, 0⟩
  else if a / 0x1000 = 0x101 then some ⟨.book, 0⟩
  else if a / 0x1000 = 0x200 then some ⟨.hostRings, 0⟩
  else if a / 0x1000 = 0x300 then some ⟨.mill, 0⟩
  else if 0x01000000 ≤ a ∧ a < 0x02000000 then
    quarterPageAt ((a - 0x01000000) / 0x400000) (a % 0x400000)
  else none

def allKinds : List PageKind :=
  ([.gateId, .gateEvt, .bellMaster, .watch, .power, .reset, .paths, .mailbox, .book, .hostRings, .mill] : List PageKind) ++
  ([.quarter, .commons, .pound, .reeve0, .reeve1, .reeve2, .reeve3, .dyke, .bellRcv, .port0, .port1] : List PageKind) ++
  ([.hbm0, .hbm1, .hbm2, .hbm3, .croft, .stream, .field, .sluice, .tally, .vector, .check, .barn] : List PageKind)

/-- Every page of the device. -/
def allPages : List Page := allKinds.flatMap (fun k => (List.range (pageCount k)).map (fun i => ⟨k, i⟩))

def fAddr (f : Fld) (inst : Nat) : Nat := pageBase f.page inst + f.off

/-- Addresses of the header registers (R35). -/
def rawAddr (p : Page) : Nat := pageBase p.kind p.inst + 0x10
def enableAddr (p : Page) : Nat := pageBase p.kind p.inst + 0x14
def sevAddr (p : Page) : Nat := pageBase p.kind p.inst + 0x1C
def lockAddr (p : Page) : Nat := pageBase p.kind p.inst + 0x20

end Sys2Proof.Machine
end

