-- ==== Sys2Proof/Machine/Fields.lean ====
section
/-! DEFINITION. The register tables of the spec, one `Fld` per row: page, offset, bits, access code, the condition of a
write, the reserved encodings and the reset value. The rules are those that give each block's register table: R36, R43, R48, R121,
R156 to R158, R224, R225, R255 to R257, R282, R283, R319, R354 to R357, R377 to R379, R398, R425, R426, R448, R468 to
R470, R492, R504, and the tables of R42, R240, R246 that are not in one of these. -/

namespace Sys2Proof.Machine

/-! gateEvt -/

def gateEvt_VECTOR_MAP_NOTE_VEC : Fld := { page := .gateEvt, off := 0x48, hi := 5, lo := 0, acc := .rwl, reset := 0x3c }
def gateEvt_VECTOR_MAP_WARN_VEC : Fld := { page := .gateEvt, off := 0x48, hi := 13, lo := 8, acc := .rwl, reset := 0x3d }
def gateEvt_VECTOR_MAP_ERROR_VEC : Fld := { page := .gateEvt, off := 0x48, hi := 21, lo := 16, acc := .rwl, reset := 0x3e }
def gateEvt_VECTOR_MAP_FAULT_VEC : Fld := { page := .gateEvt, off := 0x48, hi := 29, lo := 24, acc := .rwl, reset := 0x3f }
def gateEvt_EVENT_SEVERITY : Fld := { page := .gateEvt, off := 0x1c, hi := 31, lo := 0, acc := .rwl, reset := 0x1 }
def gateEvt_SUMMARY : Fld := { page := .gateEvt, off := 0x40, hi := 14, lo := 0, acc := .ro }
def gateEvt_QUEUE_DROPS : Fld := { page := .gateEvt, off := 0x4c, hi := 31, lo := 0, acc := .ro }

/-! field -/

def field_CTRL_INJ_RESIDUE : Fld := { page := .field, off := 0x8, hi := 0, lo := 0, acc := .w1s }
def field_CTRL_INJ_RUN_PARITY : Fld := { page := .field, off := 0x8, hi := 1, lo := 1, acc := .w1s }
def field_CTRL_INJ_ACC_PARITY : Fld := { page := .field, off := 0x8, hi := 2, lo := 2, acc := .w1s }
def field_STATUS_BUSY : Fld := { page := .field, off := 0xc, hi := 0, lo := 0, acc := .ro }
def field_STATUS_DRAINING : Fld := { page := .field, off := 0xc, hi := 1, lo := 1, acc := .ro }
def field_STATUS_GANGED : Fld := { page := .field, off := 0xc, hi := 2, lo := 2, acc := .ro }
def field_STATUS_WIDE : Fld := { page := .field, off := 0xc, hi := 3, lo := 3, acc := .ro }
def field_STATUS_OWNER : Fld := { page := .field, off := 0xc, hi := 5, lo := 4, acc := .ro }
def field_STATUS_QUARANTINED : Fld := { page := .field, off := 0xc, hi := 6, lo := 6, acc := .ro }
def field_STATUS_INJ_ARMED : Fld := { page := .field, off := 0xc, hi := 7, lo := 7, acc := .ro }
def field_EVENT_SEVERITY : Fld := { page := .field, off := 0x1c, hi := 31, lo := 0, acc := .rwl, reset := 0x240aa }
def field_PASS_COUNT : Fld := { page := .field, off := 0x40, hi := 31, lo := 0, acc := .ro }
def field_PASS_FMT_FMT_A : Fld := { page := .field, off := 0x44, hi := 3, lo := 0, acc := .ro }
def field_PASS_FMT_FMT_W : Fld := { page := .field, off := 0x44, hi := 7, lo := 4, acc := .ro }
def field_PASS_FMT_FMT_OUT : Fld := { page := .field, off := 0x44, hi := 11, lo := 8, acc := .ro }
def field_PASS_FMT_ROTATE : Fld := { page := .field, off := 0x44, hi := 12, lo := 12, acc := .ro }
def field_PASS_FMT_JIT : Fld := { page := .field, off := 0x44, hi := 13, lo := 13, acc := .ro }
def field_PASS_FMT_OUTLIERS : Fld := { page := .field, off := 0x44, hi := 14, lo := 14, acc := .ro }
def field_PASS_FMT_KEEP : Fld := { page := .field, off := 0x44, hi := 15, lo := 15, acc := .ro }
def field_PLOT_MASK_ROWS : Fld := { page := .field, off := 0x48, hi := 15, lo := 0, acc := .ro }
def field_PLOT_MASK_COLS : Fld := { page := .field, off := 0x48, hi := 31, lo := 16, acc := .ro }
def field_EDGE_MASK_ROWS : Fld := { page := .field, off := 0x4c, hi := 15, lo := 0, acc := .ro }
def field_EDGE_MASK_COLS : Fld := { page := .field, off := 0x4c, hi := 31, lo := 16, acc := .ro }
def field_PASS_K : Fld := { page := .field, off := 0x50, hi := 24, lo := 0, acc := .ro }
def field_WIDE_STEPS : Fld := { page := .field, off := 0x54, hi := 31, lo := 0, acc := .ro }
def field_TRUNC_RUNS : Fld := { page := .field, off := 0x58, hi := 31, lo := 0, acc := .ro }
def field_OVERFLOW_BLOCKS : Fld := { page := .field, off := 0x5c, hi := 31, lo := 0, acc := .ro }
def field_NAN_ROWS : Fld := { page := .field, off := 0x60, hi := 31, lo := 0, acc := .ro }
def field_CHECK_COUNT : Fld := { page := .field, off := 0x64, hi := 31, lo := 0, acc := .ro }
def field_CHECK_CAPTURE_ROW : Fld := { page := .field, off := 0x68, hi := 7, lo := 0, acc := .ro }
def field_CHECK_CAPTURE_COL : Fld := { page := .field, off := 0x68, hi := 15, lo := 8, acc := .ro }
def field_CHECK_CAPTURE_KIND : Fld := { page := .field, off := 0x68, hi := 17, lo := 16, acc := .ro }
def field_CHECK_CAPTURE_VALID : Fld := { page := .field, off := 0x68, hi := 31, lo := 31, acc := .w1c }
def field_CHECK_PASS : Fld := { page := .field, off := 0x6c, hi := 31, lo := 0, acc := .ro }
def field_ACC_SEL_ROW : Fld := { page := .field, off := 0x70, hi := 7, lo := 0, acc := .rw }
def field_ACC_SEL_COL : Fld := { page := .field, off := 0x70, hi := 15, lo := 8, acc := .rw }
def field_ACC_DATA_LO : Fld := { page := .field, off := 0x74, hi := 31, lo := 0, acc := .ro }
def field_ACC_DATA_HI_ACC : Fld := { page := .field, off := 0x78, hi := 3, lo := 0, acc := .ro }
def field_ACC_DATA_HI_VALID : Fld := { page := .field, off := 0x78, hi := 31, lo := 31, acc := .ro }
def field_LANE_DELAY : Fld := { page := .field, off := 0x7c, hi := 3, lo := 0, acc := .ro }

/-! croft -/

def croft_CTRL_RUN : Fld := { page := .croft, off := 0x8, hi := 0, lo := 0, acc := .rw }
def croft_STATUS_RUNNING : Fld := { page := .croft, off := 0xc, hi := 0, lo := 0, acc := .ro }
def croft_STATUS_STOPPING : Fld := { page := .croft, off := 0xc, hi := 1, lo := 1, acc := .ro }
def croft_STATUS_IDLE : Fld := { page := .croft, off := 0xc, hi := 2, lo := 2, acc := .ro }
def croft_STATUS_PARKED : Fld := { page := .croft, off := 0xc, hi := 3, lo := 3, acc := .ro }
def croft_STATUS_QUARANTINED : Fld := { page := .croft, off := 0xc, hi := 4, lo := 4, acc := .ro }
def croft_EVENT_SEVERITY : Fld := { page := .croft, off := 0x1c, hi := 31, lo := 0, acc := .rwl, reset := 0x10a }
def croft_EVENT_SUMMARY : Fld := { page := .croft, off := 0x40, hi := 12, lo := 0, acc := .ro }
def croft_PROG_REGION_BASE : Fld := { page := .croft, off := 0x44, hi := 7, lo := 0, acc := .rwl, cond := .croftStopped }
def croft_PROG_REGION_SIZE : Fld := { page := .croft, off := 0x44, hi := 12, lo := 8, acc := .rwl, cond := .croftStopped, rsv := .above 16, reset := 0x10 }
def croft_SIG_SEL : Fld := { page := .croft, off := 0x48, hi := 5, lo := 0, acc := .rw }
def croft_SIG_VALUE : Fld := { page := .croft, off := 0x4c, hi := 15, lo := 0, acc := .rw, cond := .croftStopped }
def croft_REPLAY_KEEP_LO : Fld := { page := .croft, off := 0x50, hi := 31, lo := 0, acc := .rw }
def croft_REPLAY_KEEP_HI : Fld := { page := .croft, off := 0x54, hi := 31, lo := 0, acc := .rw }
def croft_IDLE_CLK : Fld := { page := .croft, off := 0x58, hi := 31, lo := 0, acc := .ro }
def croft_REPLAY_COUNT : Fld := { page := .croft, off := 0x5c, hi := 31, lo := 0, acc := .ro }
def croft_SLOT_SEL : Fld := { page := .croft, off := 0x60, hi := 4, lo := 0, acc := .rw }
def croft_SLOT_POS : Fld := { page := .croft, off := 0x64, hi := 31, lo := 0, acc := .rw, cond := .croftStopped }
def croft_SLOT_MB : Fld := { page := .croft, off := 0x68, hi := 15, lo := 0, acc := .rw, cond := .croftStopped }
def croft_SLOT_STASH : Fld := { page := .croft, off := 0x6c, hi := 25, lo := 0, acc := .rw, cond := .croftStopped }
def croft_SLOT_STASH_LEN : Fld := { page := .croft, off := 0x70, hi := 25, lo := 0, acc := .rw, cond := .croftStopped }
def croft_SLOT_STASH_CUR : Fld := { page := .croft, off := 0x74, hi := 25, lo := 0, acc := .rw, cond := .croftStopped }

/-! stream -/

def stream_STATUS_STATE : Fld := { page := .stream, off := 0xc, hi := 3, lo := 0, acc := .ro }
def stream_STATUS_LATE : Fld := { page := .stream, off := 0xc, hi := 4, lo := 4, acc := .ro }
def stream_STATUS_WAIT_SIG : Fld := { page := .stream, off := 0xc, hi := 10, lo := 5, acc := .ro }
def stream_STATUS_CLAIM_HELD : Fld := { page := .stream, off := 0xc, hi := 14, lo := 11, acc := .ro }
def stream_STATUS_CLAIM_WAIT : Fld := { page := .stream, off := 0xc, hi := 18, lo := 15, acc := .ro }
def stream_EVENT_SEVERITY : Fld := { page := .stream, off := 0x1c, hi := 31, lo := 0, acc := .rwl, reset := 0x68 }
def stream_ENTRY : Fld := { page := .stream, off := 0x40, hi := 19, lo := 4, acc := .rw }
def stream_PC : Fld := { page := .stream, off := 0x44, hi := 19, lo := 0, acc := .ro }
def stream_SEGMENT : Fld := { page := .stream, off := 0x48, hi := 31, lo := 0, acc := .ro }
def stream_LATE_COUNT : Fld := { page := .stream, off := 0x4c, hi := 31, lo := 0, acc := .ro }
def stream_LATE_MAX : Fld := { page := .stream, off := 0x50, hi := 31, lo := 0, acc := .ro }
def stream_ABANDON_COUNT : Fld := { page := .stream, off := 0x54, hi := 31, lo := 0, acc := .ro }
def stream_FAULT_INFO : Fld := { page := .stream, off := 0x58, hi := 7, lo := 0, acc := .ro }
def stream_FAULT_PC : Fld := { page := .stream, off := 0x5c, hi := 19, lo := 0, acc := .ro }
def stream_ICACHE_MISS : Fld := { page := .stream, off := 0x60, hi := 31, lo := 0, acc := .ro }
def stream_SLOT : Fld := { page := .stream, off := 0x64, hi := 4, lo := 0, acc := .ro }
def stream_RETIRED : Fld := { page := .stream, off := 0x68, hi := 31, lo := 0, acc := .ro }

/-! vector -/

def vector_STATUS_BUSY : Fld := { page := .vector, off := 0xc, hi := 0, lo := 0, acc := .ro }
def vector_STATUS_OWNER : Fld := { page := .vector, off := 0xc, hi := 2, lo := 1, acc := .ro }
def vector_EVENT_SEVERITY : Fld := { page := .vector, off := 0x1c, hi := 31, lo := 0, acc := .rwl, reset := 0x2 }
def vector_OP_COUNT : Fld := { page := .vector, off := 0x40, hi := 31, lo := 0, acc := .ro }
def vector_BUSY_CLK : Fld := { page := .vector, off := 0x44, hi := 31, lo := 0, acc := .ro }
def vector_SPECIAL_COUNT : Fld := { page := .vector, off := 0x48, hi := 31, lo := 0, acc := .ro }
def vector_SAT_COUNT : Fld := { page := .vector, off := 0x4c, hi := 31, lo := 0, acc := .ro }
def vector_NAN_COUNT : Fld := { page := .vector, off := 0x50, hi := 31, lo := 0, acc := .ro }

/-! sluice -/

def sluice_STATUS_BUSY : Fld := { page := .sluice, off := 0xc, hi := 0, lo := 0, acc := .ro }
def sluice_STATUS_QDEPTH : Fld := { page := .sluice, off := 0xc, hi := 5, lo := 1, acc := .ro }
def sluice_EVENT_SEVERITY : Fld := { page := .sluice, off := 0x1c, hi := 31, lo := 0, acc := .rwl, reset := 0xca }
def sluice_DESC_COUNT : Fld := { page := .sluice, off := 0x40, hi := 31, lo := 0, acc := .ro }
def sluice_LINES_MOVED : Fld := { page := .sluice, off := 0x44, hi := 31, lo := 0, acc := .ro }
def sluice_CSUM_RETRY_COUNT : Fld := { page := .sluice, off := 0x48, hi := 31, lo := 0, acc := .ro }
def sluice_CSUM_FAULT_COUNT : Fld := { page := .sluice, off := 0x4c, hi := 31, lo := 0, acc := .ro }
def sluice_FAULT_ADDR_LO : Fld := { page := .sluice, off := 0x50, hi := 31, lo := 0, acc := .ro }
def sluice_FAULT_ADDR_HI_ADDR : Fld := { page := .sluice, off := 0x54, hi := 5, lo := 0, acc := .ro }
def sluice_FAULT_ADDR_HI_SPACE : Fld := { page := .sluice, off := 0x54, hi := 7, lo := 6, acc := .ro }
def sluice_FAULT_ADDR_HI_VALID : Fld := { page := .sluice, off := 0x54, hi := 31, lo := 31, acc := .w1c }
def sluice_INVALID_INFO_DESC : Fld := { page := .sluice, off := 0x58, hi := 23, lo := 0, acc := .ro }
def sluice_INVALID_INFO_CAUSE : Fld := { page := .sluice, off := 0x58, hi := 27, lo := 24, acc := .ro }
def sluice_INVALID_INFO_VALID : Fld := { page := .sluice, off := 0x58, hi := 31, lo := 31, acc := .w1c }
def sluice_STASH_IN : Fld := { page := .sluice, off := 0x5c, hi := 31, lo := 0, acc := .ro }
def sluice_STASH_OUT : Fld := { page := .sluice, off := 0x60, hi := 31, lo := 0, acc := .ro }
def sluice_HDR_BAD_COUNT : Fld := { page := .sluice, off := 0x64, hi := 31, lo := 0, acc := .ro }
def sluice_WAIT_CLK : Fld := { page := .sluice, off := 0x68, hi := 31, lo := 0, acc := .ro }

/-! barn -/

def barn_STATUS_LANE_ACTIVE : Fld := { page := .barn, off := 0xc, hi := 0, lo := 0, acc := .ro }
def barn_EVENT_SEVERITY : Fld := { page := .barn, off := 0x1c, hi := 31, lo := 0, acc := .rwl, reset := 0xa }
def barn_RING_ASIZE : Fld := { page := .barn, off := 0x40, hi := 7, lo := 0, acc := .rw, rsv := .above 192 }
def barn_RING_WSIZE : Fld := { page := .barn, off := 0x40, hi := 15, lo := 8, acc := .rw, rsv := .above 192 }
def barn_CSUM_SEL_TILE : Fld := { page := .barn, off := 0x44, hi := 13, lo := 0, acc := .rw }
def barn_CSUM_SEL_SPACE : Fld := { page := .barn, off := 0x44, hi := 16, lo := 16, acc := .rw }
def barn_CSUM_DATA : Fld := { page := .barn, off := 0x48, hi := 31, lo := 0, acc := .rw }
def barn_LANE_HDR_COUNT : Fld := { page := .barn, off := 0x4c, hi := 31, lo := 0, acc := .ro }
def barn_LANE_WAIT_CLK : Fld := { page := .barn, off := 0x50, hi := 31, lo := 0, acc := .ro }

/-! reeve0 -/

def reeve0_CTRL_ENABLE : Fld := { page := .reeve0, off := 0x8, hi := 0, lo := 0, acc := .rw }
def reeve0_STATUS_REDUCING : Fld := { page := .reeve0, off := 0xc, hi := 0, lo := 0, acc := .ro }
def reeve0_STATUS_DECIDING : Fld := { page := .reeve0, off := 0xc, hi := 1, lo := 1, acc := .ro }
def reeve0_STATUS_HOLD_REQ : Fld := { page := .reeve0, off := 0xc, hi := 2, lo := 2, acc := .ro }
def reeve0_STATUS_BANK : Fld := { page := .reeve0, off := 0xc, hi := 3, lo := 3, acc := .ro }
def reeve0_EVENT_SEVERITY : Fld := { page := .reeve0, off := 0x1c, hi := 31, lo := 0, acc := .rwl, reset := 0xb86411 }
def reeve0_RANGE_LO : Fld := { page := .reeve0, off := 0x40, hi := 13, lo := 0, acc := .rwl, cond := .reeveDisabled }
def reeve0_RANGE_HI : Fld := { page := .reeve0, off := 0x40, hi := 29, lo := 16, acc := .rwl, cond := .reeveDisabled, reset := 0x3fff }
def reeve0_PLAN_CTRL : Fld := { page := .reeve0, off := 0x44, hi := 3, lo := 0, acc := .rwl, cond := .reeveDisabled, rsv := .above 8 }
def reeve0_PLAN_PARENT_DEVICE : Fld := { page := .reeve0, off := 0x48, hi := 16, lo := 0, acc := .rwl, cond := .reeveDisabled }
def reeve0_PLAN_PARENT_QUARTER : Fld := { page := .reeve0, off := 0x48, hi := 18, lo := 17, acc := .rwl, cond := .reeveDisabled }
def reeve0_PLAN_PARENT_VALID : Fld := { page := .reeve0, off := 0x48, hi := 31, lo := 31, acc := .rwl, cond := .reeveDisabled }
def reeve0_PLAN_CHILD_DEVICE (k : Nat) : Fld := { page := .reeve0, off := 0x04C + 4 * k, hi := 16, lo := 0, acc := .rwl, cond := .reeveDisabled }
def reeve0_PLAN_CHILD_QUARTER (k : Nat) : Fld := { page := .reeve0, off := 0x04C + 4 * k, hi := 18, lo := 17, acc := .rwl, cond := .reeveDisabled }
def reeve0_PLAN_CHILD_VALID (k : Nat) : Fld := { page := .reeve0, off := 0x04C + 4 * k, hi := 31, lo := 31, acc := .rwl, cond := .reeveDisabled }
def reeve0_WIDEN_BUDGET : Fld := { page := .reeve0, off := 0x6c, hi := 23, lo := 0, acc := .rwl, cond := .reeveDisabled }
def reeve0_WIDEN_USED : Fld := { page := .reeve0, off := 0x70, hi := 23, lo := 0, acc := .rw, cond := .reeveDisabled }
def reeve0_STORM_FRAC : Fld := { page := .reeve0, off := 0x74, hi := 15, lo := 0, acc := .rwl, cond := .reeveDisabled, reset := 0x1000 }
def reeve0_SHEET_COUNT : Fld := { page := .reeve0, off := 0x78, hi := 31, lo := 0, acc := .ro }
def reeve0_DECIDE_MARGIN : Fld := { page := .reeve0, off := 0x7c, hi := 31, lo := 0, acc := .ro }
def reeve0_EVENT_GROUP_GROUP (k : Nat) : Fld := { page := .reeve0, off := 0x080 + 4 * k, hi := 13, lo := 0, acc := .ro }
def reeve0_EVENT_GROUP_VALID (k : Nat) : Fld := { page := .reeve0, off := 0x080 + 4 * k, hi := 31, lo := 31, acc := .w1c }

/-! reeve3 -/

def reeve3_SHEET_SEL : Fld := { page := .reeve3, off := 0x40, hi := 13, lo := 0, acc := .rw }
def reeve3_SHEET_DATA (k : Nat) : Fld := { page := .reeve3, off := 0x044 + 4 * k, hi := 31, lo := 0, acc := .ro }
def reeve3_PEAK_SEL : Fld := { page := .reeve3, off := 0x80, hi := 9, lo := 0, acc := .rw }
def reeve3_PEAK_KEY_GROUP : Fld := { page := .reeve3, off := 0x84, hi := 13, lo := 0, acc := .ro }
def reeve3_PEAK_KEY_CROFT : Fld := { page := .reeve3, off := 0x84, hi := 19, lo := 16, acc := .ro }
def reeve3_PEAK_KEY_VALID : Fld := { page := .reeve3, off := 0x84, hi := 31, lo := 31, acc := .ro }
def reeve3_PEAK_LO_PEAK (k : Nat) : Fld := { page := .reeve3, off := 0x088 + 8 * k, hi := 30, lo := 0, acc := .ro }
def reeve3_PEAK_LO_VALID (k : Nat) : Fld := { page := .reeve3, off := 0x088 + 8 * k, hi := 31, lo := 31, acc := .ro }
def reeve3_PEAK_HI (k : Nat) : Fld := { page := .reeve3, off := 0x08C + 8 * k, hi := 9, lo := 0, acc := .ro }
def reeve3_EVENT_SEVERITY : Fld := { page := .reeve3, off := 0x1c, hi := 31, lo := 0, acc := .rwl }

/-! tally -/

def tally_STATUS_OPEN : Fld := { page := .tally, off := 0xc, hi := 6, lo := 0, acc := .ro }
def tally_EVENT_SEVERITY : Fld := { page := .tally, off := 0x1c, hi := 31, lo := 0, acc := .rwl, reset := 0x1 }
def tally_SLOT_SEL : Fld := { page := .tally, off := 0x40, hi := 5, lo := 0, acc := .rw }
def tally_SLOT_KEY_GROUP : Fld := { page := .tally, off := 0x44, hi := 13, lo := 0, acc := .ro }
def tally_SLOT_KEY_OPEN : Fld := { page := .tally, off := 0x44, hi := 31, lo := 31, acc := .ro }
def tally_SLOT_TOTAL_LO : Fld := { page := .tally, off := 0x48, hi := 31, lo := 0, acc := .ro }
def tally_SLOT_TOTAL_HI : Fld := { page := .tally, off := 0x4c, hi := 15, lo := 0, acc := .ro }
def tally_SLOT_SAT_LO : Fld := { page := .tally, off := 0x50, hi := 31, lo := 0, acc := .ro }
def tally_SLOT_SAT_HI : Fld := { page := .tally, off := 0x54, hi := 7, lo := 0, acc := .ro }
def tally_SLOT_ZERO_LO : Fld := { page := .tally, off := 0x58, hi := 31, lo := 0, acc := .ro }
def tally_SLOT_ZERO_HI : Fld := { page := .tally, off := 0x5c, hi := 7, lo := 0, acc := .ro }
def tally_SLOT_NONZ_LO : Fld := { page := .tally, off := 0x60, hi := 31, lo := 0, acc := .ro }
def tally_SLOT_NONZ_HI : Fld := { page := .tally, off := 0x64, hi := 15, lo := 0, acc := .ro }
def tally_SLOT_OVFB : Fld := { page := .tally, off := 0x68, hi := 31, lo := 0, acc := .ro }
def tally_SLOT_AMAX : Fld := { page := .tally, off := 0x6c, hi := 30, lo := 0, acc := .ro }
def tally_UNCOUNTED_ROWS : Fld := { page := .tally, off := 0x70, hi := 31, lo := 0, acc := .ro }
def tally_DELIVERIES : Fld := { page := .tally, off := 0x74, hi := 31, lo := 0, acc := .ro }

/-! bellMaster -/

def bellMaster_CTRL_MASTER : Fld := { page := .bellMaster, off := 0x8, hi := 0, lo := 0, acc := .rwl, cond := .bellHeld }
def bellMaster_CTRL_START : Fld := { page := .bellMaster, off := 0x8, hi := 1, lo := 1, acc := .wo }
def bellMaster_CTRL_HOLD_NOW : Fld := { page := .bellMaster, off := 0x8, hi := 2, lo := 2, acc := .wo }
def bellMaster_CTRL_RESUME : Fld := { page := .bellMaster, off := 0x8, hi := 3, lo := 3, acc := .wo }
def bellMaster_STATUS_RUNNING : Fld := { page := .bellMaster, off := 0xc, hi := 0, lo := 0, acc := .ro }
def bellMaster_STATUS_HELD : Fld := { page := .bellMaster, off := 0xc, hi := 1, lo := 1, acc := .ro }
def bellMaster_STATUS_ANOMALOUS : Fld := { page := .bellMaster, off := 0xc, hi := 2, lo := 2, acc := .ro }
def bellMaster_STATUS_DEVICE_A : Fld := { page := .bellMaster, off := 0xc, hi := 3, lo := 3, acc := .ro }
def bellMaster_EVENT_SEVERITY : Fld := { page := .bellMaster, off := 0x1c, hi := 31, lo := 0, acc := .rwl, reset := 0x3a1b6 }
def bellMaster_PERIOD : Fld := { page := .bellMaster, off := 0x40, hi := 25, lo := 0, acc := .rw, cond := .bellToken, rsv := .outside 2000 50000000, reset := 0x186a0 }
def bellMaster_SLACK : Fld := { page := .bellMaster, off := 0x44, hi := 7, lo := 0, acc := .rw, cond := .bellToken, rsv := .above 250, reset := 0x32 }
def bellMaster_STEP_PATTERN_STEP_BELLS : Fld := { page := .bellMaster, off := 0x48, hi := 15, lo := 0, acc := .rw, cond := .bellHeld, rsv := .below 3, reset := 0x4 }
def bellMaster_STEP_PATTERN_VERDICT_IDX : Fld := { page := .bellMaster, off := 0x48, hi := 31, lo := 16, acc := .rw, cond := .bellHeld, reset := 0x2 }
def bellMaster_LEAD : Fld := { page := .bellMaster, off := 0x4c, hi := 23, lo := 0, acc := .rw, cond := .bellToken, rsv := .above 240000, reset := 0x2ee0 }
def bellMaster_SECURE_N : Fld := { page := .bellMaster, off := 0x50, hi := 31, lo := 0, acc := .rw, cond := .bellHeld }
def bellMaster_ATTEMPT_LIMIT : Fld := { page := .bellMaster, off := 0x54, hi := 15, lo := 0, acc := .rw, cond := .bellHeld, rsv := .below 1, reset := 0x8 }
def bellMaster_TREE_SIZE : Fld := { page := .bellMaster, off := 0x58, hi := 17, lo := 0, acc := .rwl, reset := 0x1 }
def bellMaster_ACK_WAIT : Fld := { page := .bellMaster, off := 0x5c, hi := 23, lo := 0, acc := .rwl, reset := 0x2ee0 }
def bellMaster_UP_PORT_PORT : Fld := { page := .bellMaster, off := 0x60, hi := 4, lo := 0, acc := .rwl }
def bellMaster_UP_PORT_VALID : Fld := { page := .bellMaster, off := 0x60, hi := 31, lo := 31, acc := .rwl }
def bellMaster_CHILD_PORTS : Fld := { page := .bellMaster, off := 0x64, hi := 31, lo := 0, acc := .rwl }
def bellMaster_BELL_LO : Fld := { page := .bellMaster, off := 0x68, hi := 31, lo := 0, acc := .rw, cond := .bellToken }
def bellMaster_BELL_HI : Fld := { page := .bellMaster, off := 0x6c, hi := 31, lo := 0, acc := .rw, cond := .bellToken }
def bellMaster_STEP_LO : Fld := { page := .bellMaster, off := 0x70, hi := 31, lo := 0, acc := .rw, cond := .bellToken }
def bellMaster_STEP_HI : Fld := { page := .bellMaster, off := 0x74, hi := 15, lo := 0, acc := .rw, cond := .bellToken }
def bellMaster_ATTEMPT : Fld := { page := .bellMaster, off := 0x78, hi := 15, lo := 0, acc := .rw, cond := .bellToken }
def bellMaster_BATCH_LO : Fld := { page := .bellMaster, off := 0x7c, hi := 31, lo := 0, acc := .rw, cond := .bellToken }
def bellMaster_BATCH_HI : Fld := { page := .bellMaster, off := 0x80, hi := 31, lo := 0, acc := .rw, cond := .bellToken }
def bellMaster_INDEX : Fld := { page := .bellMaster, off := 0x84, hi := 15, lo := 0, acc := .ro }
def bellMaster_FLAGS : Fld := { page := .bellMaster, off := 0x88, hi := 7, lo := 0, acc := .ro }
def bellMaster_ABANDONED : Fld := { page := .bellMaster, off := 0x8c, hi := 31, lo := 0, acc := .ro }
def bellMaster_TOKEN_MARGIN : Fld := { page := .bellMaster, off := 0x90, hi := 31, lo := 0, acc := .ro }
def bellMaster_ACK_MARGIN : Fld := { page := .bellMaster, off := 0x94, hi := 31, lo := 0, acc := .ro }

/-! bellRcv -/

def bellRcv_CTRL_NAN_DRAIN_ABANDON : Fld := { page := .bellRcv, off := 0x8, hi := 0, lo := 0, acc := .rw }
def bellRcv_CTRL_NAN_VOP_ABANDON : Fld := { page := .bellRcv, off := 0x8, hi := 1, lo := 1, acc := .rw }
def bellRcv_STATUS_HELD : Fld := { page := .bellRcv, off := 0xc, hi := 0, lo := 0, acc := .ro }
def bellRcv_STATUS_ANOM : Fld := { page := .bellRcv, off := 0xc, hi := 1, lo := 1, acc := .ro }
def bellRcv_EVENT_SEVERITY : Fld := { page := .bellRcv, off := 0x1c, hi := 31, lo := 0, acc := .rwl, reset := 0x1 }
def bellRcv_BATCH_SIG_SIG : Fld := { page := .bellRcv, off := 0x40, hi := 5, lo := 0, acc := .rwl }
def bellRcv_BATCH_SIG_WAYS : Fld := { page := .bellRcv, off := 0x40, hi := 9, lo := 8, acc := .rwl }
def bellRcv_BATCH_SIG_EN : Fld := { page := .bellRcv, off := 0x40, hi := 31, lo := 31, acc := .rwl }
def bellRcv_BATCH_CROFTS : Fld := { page := .bellRcv, off := 0x44, hi := 15, lo := 0, acc := .rwl }
def bellRcv_EDGE_COUNT : Fld := { page := .bellRcv, off := 0x48, hi := 31, lo := 0, acc := .ro }
def bellRcv_STEP_EDGES : Fld := { page := .bellRcv, off := 0x4c, hi := 31, lo := 0, acc := .ro }
def bellRcv_ABANDON_SRC : Fld := { page := .bellRcv, off := 0x50, hi := 31, lo := 0, acc := .ro }

/-! mill -/

def mill_CTRL_ENABLE : Fld := { page := .mill, off := 0x8, hi := 0, lo := 0, acc := .rw }
def mill_STATUS_PHASE1 : Fld := { page := .mill, off := 0xc, hi := 0, lo := 0, acc := .ro }
def mill_STATUS_PHASE2 : Fld := { page := .mill, off := 0xc, hi := 1, lo := 1, acc := .ro }
def mill_STATUS_LINK0_UP : Fld := { page := .mill, off := 0xc, hi := 2, lo := 2, acc := .ro }
def mill_STATUS_LINK1_UP : Fld := { page := .mill, off := 0xc, hi := 3, lo := 3, acc := .ro }
def mill_STATUS_HOLD_REQ : Fld := { page := .mill, off := 0xc, hi := 4, lo := 4, acc := .ro }
def mill_EVENT_SEVERITY : Fld := { page := .mill, off := 0x1c, hi := 31, lo := 0, acc := .rwl, reset := 0x2a5d2aa }
def mill_SEED_LO : Fld := { page := .mill, off := 0x40, hi := 31, lo := 0, acc := .rw, cond := .millHeld }
def mill_SEED_HI : Fld := { page := .mill, off := 0x44, hi := 31, lo := 0, acc := .rw, cond := .millHeld }
def mill_STEP_LO : Fld := { page := .mill, off := 0x48, hi := 31, lo := 0, acc := .ro }
def mill_STEP_HI_STEP : Fld := { page := .mill, off := 0x4c, hi := 15, lo := 0, acc := .ro }
def mill_STEP_HI_ATTEMPT : Fld := { page := .mill, off := 0x4c, hi := 31, lo := 16, acc := .ro }
def mill_CHUNKS_IN : Fld := { page := .mill, off := 0x50, hi := 31, lo := 0, acc := .ro }
def mill_FROZEN_HITS : Fld := { page := .mill, off := 0x54, hi := 31, lo := 0, acc := .ro }
def mill_COMMITS : Fld := { page := .mill, off := 0x58, hi := 31, lo := 0, acc := .ro }
def mill_MASTER_SAT_COUNT : Fld := { page := .mill, off := 0x5c, hi := 31, lo := 0, acc := .ro }
def mill_NONFINITE_COUNT : Fld := { page := .mill, off := 0x60, hi := 31, lo := 0, acc := .ro }
def mill_WSAT_COUNT : Fld := { page := .mill, off := 0x64, hi := 31, lo := 0, acc := .ro }
def mill_WZERO_COUNT : Fld := { page := .mill, off := 0x68, hi := 31, lo := 0, acc := .ro }
def mill_REORDER_PEAK : Fld := { page := .mill, off := 0x6c, hi := 17, lo := 0, acc := .rw }
def mill_PHASE1_CLK : Fld := { page := .mill, off := 0x70, hi := 31, lo := 0, acc := .ro }
def mill_PHASE2_CLK : Fld := { page := .mill, off := 0x74, hi := 31, lo := 0, acc := .ro }
def mill_FAULT_LAYER_LAYER : Fld := { page := .mill, off := 0x78, hi := 12, lo := 0, acc := .ro }
def mill_FAULT_LAYER_EVENT : Fld := { page := .mill, off := 0x78, hi := 19, lo := 16, acc := .ro }
def mill_FAULT_LAYER_VALID : Fld := { page := .mill, off := 0x78, hi := 31, lo := 31, acc := .w1c }
def mill_GRAN_CTRL_MODE : Fld := { page := .mill, off := 0x80, hi := 0, lo := 0, acc := .rw, cond := .millHeld }
def mill_GRAN_CTRL_CATCHUP : Fld := { page := .mill, off := 0x80, hi := 1, lo := 1, acc := .rw, cond := .millHeld }
def mill_GRAN_CTRL_FILL_GO : Fld := { page := .mill, off := 0x80, hi := 2, lo := 2, acc := .wo }
def mill_GRAN_CTRL_SEC_NOW : Fld := { page := .mill, off := 0x80, hi := 3, lo := 3, acc := .w1s }
def mill_GRAN_CTRL_NO_SPARE : Fld := { page := .mill, off := 0x80, hi := 4, lo := 4, acc := .wo }
def mill_GRAN_STATUS_SECURING : Fld := { page := .mill, off := 0x84, hi := 0, lo := 0, acc := .ro }
def mill_GRAN_STATUS_COPY_VALID : Fld := { page := .mill, off := 0x84, hi := 1, lo := 1, acc := .ro }
def mill_GRAN_STATUS_FILLING : Fld := { page := .mill, off := 0x84, hi := 2, lo := 2, acc := .ro }
def mill_GRAN_STATUS_FILL_DONE : Fld := { page := .mill, off := 0x84, hi := 3, lo := 3, acc := .w1c }
def mill_GRAN_STATUS_FILL_FAIL : Fld := { page := .mill, off := 0x84, hi := 4, lo := 4, acc := .w1c }
def mill_GRAN_STATUS_REPLAY_FULL : Fld := { page := .mill, off := 0x84, hi := 5, lo := 5, acc := .ro }
def mill_GRAN_STATUS_DIVERGED : Fld := { page := .mill, off := 0x84, hi := 6, lo := 6, acc := .w1c }
def mill_GRAN_STATUS_CATCHUP_END : Fld := { page := .mill, off := 0x84, hi := 7, lo := 7, acc := .w1c }
def mill_GRAN_STATUS_BUDDY_VALID : Fld := { page := .mill, off := 0x84, hi := 8, lo := 8, acc := .ro }
def mill_SECURED_STEP_LO : Fld := { page := .mill, off := 0x88, hi := 31, lo := 0, acc := .ro }
def mill_SECURED_STEP_HI : Fld := { page := .mill, off := 0x8c, hi := 15, lo := 0, acc := .ro }
def mill_SECURED_BELL_LO : Fld := { page := .mill, off := 0x90, hi := 31, lo := 0, acc := .ro }
def mill_SECURED_BELL_HI : Fld := { page := .mill, off := 0x94, hi := 31, lo := 0, acc := .ro }
def mill_EPOCH : Fld := { page := .mill, off := 0x98, hi := 31, lo := 0, acc := .rw, cond := .millHeld }
def mill_FILL_SRC_DEVICE : Fld := { page := .mill, off := 0x9c, hi := 16, lo := 0, acc := .rw, cond := .millHeld }
def mill_FILL_SRC_KIND : Fld := { page := .mill, off := 0x9c, hi := 18, lo := 17, acc := .rw, cond := .millHeld, rsv := .above 2 }
def mill_FILL_BYTES_LO : Fld := { page := .mill, off := 0xa0, hi := 31, lo := 0, acc := .ro }
def mill_FILL_BYTES_HI : Fld := { page := .mill, off := 0xa4, hi := 31, lo := 0, acc := .ro }
def mill_SEC_TIME : Fld := { page := .mill, off := 0xa8, hi := 31, lo := 0, acc := .ro }
def mill_REPLAY_USED : Fld := { page := .mill, off := 0xac, hi := 28, lo := 0, acc := .ro }
def mill_KEEP_DEVICE (k : Nat) : Fld := { page := .mill, off := 0x0C0 + 4 * k, hi := 16, lo := 0, acc := .rw, cond := .millHeld }
def mill_KEEP_VALID (k : Nat) : Fld := { page := .mill, off := 0x0C0 + 4 * k, hi := 31, lo := 31, acc := .rw, cond := .millHeld }

/-! port0 -/

def port0_CTRL_ENABLE : Fld := { page := .port0, off := 0x8, hi := 0, lo := 0, acc := .rw }
def port0_CTRL_RETRAIN : Fld := { page := .port0, off := 0x8, hi := 1, lo := 1, acc := .wo }
def port0_CTRL_ALLOW_X4 : Fld := { page := .port0, off := 0x8, hi := 2, lo := 2, acc := .rws, reset := 0x1 }
def port0_CTRL_MEDIUM : Fld := { page := .port0, off := 0x8, hi := 3, lo := 3, acc := .rws }
def port0_STATUS_STATE : Fld := { page := .port0, off := 0xc, hi := 2, lo := 0, acc := .ro }
def port0_STATUS_X4 : Fld := { page := .port0, off := 0xc, hi := 3, lo := 3, acc := .ro }
def port0_STATUS_UPPER : Fld := { page := .port0, off := 0xc, hi := 4, lo := 4, acc := .ro }
def port0_EVENT_SEVERITY : Fld := { page := .port0, off := 0x1c, hi := 31, lo := 0, acc := .rwl, reset := 0x96d8 }
def port0_PEER_ID_DEVICE : Fld := { page := .port0, off := 0x40, hi := 16, lo := 0, acc := .ro }
def port0_PEER_ID_PORT : Fld := { page := .port0, off := 0x40, hi := 21, lo := 17, acc := .ro }
def port0_PEER_ID_VALID : Fld := { page := .port0, off := 0x40, hi := 31, lo := 31, acc := .ro }
def port0_PEER_EXPECT_DEVICE : Fld := { page := .port0, off := 0x44, hi := 16, lo := 0, acc := .rwl }
def port0_PEER_EXPECT_PORT : Fld := { page := .port0, off := 0x44, hi := 21, lo := 17, acc := .rwl }
def port0_PEER_EXPECT_CHECK : Fld := { page := .port0, off := 0x44, hi := 31, lo := 31, acc := .rwl }
def port0_EPOCH_TX : Fld := { page := .port0, off := 0x48, hi := 31, lo := 0, acc := .rw }
def port0_EPOCH_EXPECT : Fld := { page := .port0, off := 0x4c, hi := 31, lo := 0, acc := .rw }
def port0_PEER_EPOCH : Fld := { page := .port0, off := 0x50, hi := 31, lo := 0, acc := .ro }
def port0_DELAY : Fld := { page := .port0, off := 0x54, hi := 23, lo := 0, acc := .ro }
def port0_DELAY_PREV : Fld := { page := .port0, off := 0x58, hi := 23, lo := 0, acc := .ro }
def port0_TRAIN_COUNT : Fld := { page := .port0, off := 0x5c, hi := 31, lo := 0, acc := .ro }
def port0_TRAIN_FAIL : Fld := { page := .port0, off := 0x60, hi := 31, lo := 0, acc := .ro }
def port0_LANES_ACTIVE : Fld := { page := .port0, off := 0x64, hi := 7, lo := 0, acc := .ro }
def port0_LANES_FAILED : Fld := { page := .port0, off := 0x64, hi := 15, lo := 8, acc := .ro }
def port0_ECHO_RTT : Fld := { page := .port0, off := 0x68, hi := 31, lo := 0, acc := .ro }

/-! port1 -/

def port1_STATUS_UNACKED : Fld := { page := .port1, off := 0xc, hi := 8, lo := 0, acc := .ro }
def port1_EVENT_SEVERITY : Fld := { page := .port1, off := 0x1c, hi := 31, lo := 0, acc := .rwl, reset := 0xa4 }
def port1_FLITS_TX : Fld := { page := .port1, off := 0x40, hi := 31, lo := 0, acc := .ro }
def port1_FLITS_RX : Fld := { page := .port1, off := 0x44, hi := 31, lo := 0, acc := .ro }
def port1_REPLAYS : Fld := { page := .port1, off := 0x48, hi := 31, lo := 0, acc := .ro }
def port1_CRC_ERR : Fld := { page := .port1, off := 0x4c, hi := 31, lo := 0, acc := .ro }
def port1_FEC_CORR : Fld := { page := .port1, off := 0x50, hi := 31, lo := 0, acc := .ro }
def port1_FEC_UNCORR : Fld := { page := .port1, off := 0x54, hi := 31, lo := 0, acc := .ro }
def port1_CREDIT (k : Nat) : Fld := { page := .port1, off := 0x058 + 4 * k, hi := 8, lo := 0, acc := .ro }
def port1_FEC_LIMIT : Fld := { page := .port1, off := 0x68, hi := 31, lo := 0, acc := .rws, reset := 0x10000 }
def port1_REPLAY_PEAK : Fld := { page := .port1, off := 0x6c, hi := 8, lo := 0, acc := .rw }

/-! pound -/

def pound_STATUS_STAGED : Fld := { page := .pound, off := 0xc, hi := 8, lo := 0, acc := .ro }
def pound_EVENT_SEVERITY : Fld := { page := .pound, off := 0x1c, hi := 31, lo := 0, acc := .rwl, reset := 0xa6aaa }
def pound_SEND_BASE : Fld := { page := .pound, off := 0x40, hi := 19, lo := 0, acc := .rwl }
def pound_RWIN_BASE : Fld := { page := .pound, off := 0x44, hi := 19, lo := 0, acc := .rwl }
def pound_STAGE_BASE : Fld := { page := .pound, off := 0x48, hi := 19, lo := 0, acc := .rwl }
def pound_STAGE_LEN : Fld := { page := .pound, off := 0x4c, hi := 20, lo := 0, acc := .rwl }
def pound_GET_TIMEOUT : Fld := { page := .pound, off := 0x50, hi := 19, lo := 0, acc := .rw, reset := 0x3e8 }
def pound_MSG_TX : Fld := { page := .pound, off := 0x54, hi := 31, lo := 0, acc := .ro }
def pound_MSG_RX : Fld := { page := .pound, off := 0x58, hi := 31, lo := 0, acc := .ro }
def pound_DISCARDS : Fld := { page := .pound, off := 0x5c, hi := 31, lo := 0, acc := .ro }
def pound_DISCARD_INFO_SDEV : Fld := { page := .pound, off := 0x60, hi := 16, lo := 0, acc := .ro }
def pound_DISCARD_INFO_SQ : Fld := { page := .pound, off := 0x60, hi := 18, lo := 17, acc := .ro }
def pound_DISCARD_INFO_TYPE : Fld := { page := .pound, off := 0x60, hi := 22, lo := 19, acc := .ro }
def pound_DISCARD_INFO_UNTRUSTED : Fld := { page := .pound, off := 0x60, hi := 23, lo := 23, acc := .ro }
def pound_DISCARD_INFO_VALID : Fld := { page := .pound, off := 0x60, hi := 31, lo := 31, acc := .w1c }
def pound_DISCARD_BELL : Fld := { page := .pound, off := 0x64, hi := 31, lo := 0, acc := .ro }
def pound_STAGE_PEAK : Fld := { page := .pound, off := 0x68, hi := 20, lo := 0, acc := .rw }

/-! quarter -/

def quarter_DEVICE_ID : Fld := { page := .quarter, off := 0x80, hi := 16, lo := 0, acc := .rwl }
def quarter_ROUTE_CTRL : Fld := { page := .quarter, off := 0x84, hi := 5, lo := 0, acc := .rwl, rsv := .below 1, reset := 0x30 }
def quarter_EVENT_SEVERITY : Fld := { page := .quarter, off := 0x1c, hi := 31, lo := 0, acc := .rwl, reset := 0x2 }
def quarter_EVENT_SUMMARY_CROFT : Fld := { page := .quarter, off := 0x40, hi := 15, lo := 0, acc := .ro }
def quarter_EVENT_SUMMARY_BLOCK : Fld := { page := .quarter, off := 0x44, hi := 16, lo := 0, acc := .ro }
def quarter_DISCARD_COUNT : Fld := { page := .quarter, off := 0x48, hi := 31, lo := 0, acc := .ro }

/-! hbm0 -/

def hbm0_CTRL_SCRUB_EN : Fld := { page := .hbm0, off := 0x8, hi := 0, lo := 0, acc := .rws, reset := 0x1 }
def hbm0_STATUS_TRAINED : Fld := { page := .hbm0, off := 0xc, hi := 0, lo := 0, acc := .ro }
def hbm0_STATUS_SELF_REFRESH : Fld := { page := .hbm0, off := 0xc, hi := 1, lo := 1, acc := .ro }
def hbm0_STATUS_HOT : Fld := { page := .hbm0, off := 0xc, hi := 2, lo := 2, acc := .ro }
def hbm0_EVENT_SEVERITY : Fld := { page := .hbm0, off := 0x1c, hi := 31, lo := 0, acc := .rwl, reset := 0xded4 }
def hbm0_CE_COUNT : Fld := { page := .hbm0, off := 0x40, hi := 31, lo := 0, acc := .ro }
def hbm0_UE_RETRY_COUNT : Fld := { page := .hbm0, off := 0x44, hi := 31, lo := 0, acc := .ro }
def hbm0_UE_COUNT : Fld := { page := .hbm0, off := 0x48, hi := 31, lo := 0, acc := .ro }
def hbm0_POISON_COUNT : Fld := { page := .hbm0, off := 0x4c, hi := 6, lo := 0, acc := .ro }
def hbm0_ERR_ADDR_LO : Fld := { page := .hbm0, off := 0x50, hi := 31, lo := 0, acc := .ro }
def hbm0_ERR_ADDR_HI_ADDR : Fld := { page := .hbm0, off := 0x54, hi := 5, lo := 0, acc := .ro }
def hbm0_ERR_ADDR_HI_VALID : Fld := { page := .hbm0, off := 0x54, hi := 31, lo := 31, acc := .w1c }
def hbm0_CE_LIMIT : Fld := { page := .hbm0, off := 0x58, hi := 31, lo := 0, acc := .rws, reset := 0x1000 }
def hbm0_SCRUB_PASSES : Fld := { page := .hbm0, off := 0x5c, hi := 31, lo := 0, acc := .ro }
def hbm0_TEMP : Fld := { page := .hbm0, off := 0x60, hi := 7, lo := 0, acc := .ro }

/-! hbm1 -/

def hbm1_CSUM_SEL : Fld := { page := .hbm1, off := 0x40, hi := 25, lo := 0, acc := .rw, rsv := .above 56524799 }
def hbm1_CSUM_DATA : Fld := { page := .hbm1, off := 0x44, hi := 31, lo := 0, acc := .rw }
def hbm1_POISON_SEL : Fld := { page := .hbm1, off := 0x48, hi := 5, lo := 0, acc := .rw }
def hbm1_POISON_ADDR_LO : Fld := { page := .hbm1, off := 0x4c, hi := 31, lo := 0, acc := .ro }
def hbm1_POISON_ADDR_HI_ADDR : Fld := { page := .hbm1, off := 0x50, hi := 5, lo := 0, acc := .ro }
def hbm1_POISON_ADDR_HI_VALID : Fld := { page := .hbm1, off := 0x50, hi := 31, lo := 31, acc := .ro }
def hbm1_EVENT_SEVERITY : Fld := { page := .hbm1, off := 0x1c, hi := 31, lo := 0, acc := .rwl }

/-! commons -/

def commons_EVENT_SEVERITY : Fld := { page := .commons, off := 0x1c, hi := 31, lo := 0, acc := .rwl, reset := 0x34 }
def commons_CE_COUNT : Fld := { page := .commons, off := 0x40, hi := 31, lo := 0, acc := .ro }
def commons_UE_RETRY_COUNT : Fld := { page := .commons, off := 0x44, hi := 31, lo := 0, acc := .ro }
def commons_UE_COUNT : Fld := { page := .commons, off := 0x48, hi := 31, lo := 0, acc := .ro }
def commons_ERR_ADDR_ADDR : Fld := { page := .commons, off := 0x4c, hi := 25, lo := 0, acc := .ro }
def commons_ERR_ADDR_VALID : Fld := { page := .commons, off := 0x4c, hi := 31, lo := 31, acc := .w1c }

/-! hostRings -/

def hostRings_STATUS_RUNNING : Fld := { page := .hostRings, off := 0xc, hi := 7, lo := 0, acc := .ro }
def hostRings_STATUS_ERROR : Fld := { page := .hostRings, off := 0xc, hi := 15, lo := 8, acc := .ro }
def hostRings_EVENT_SEVERITY : Fld := { page := .hostRings, off := 0x1c, hi := 31, lo := 0, acc := .rwl, reset := 0x1460 }
def hostRings_LINK_WIDTH : Fld := { page := .hostRings, off := 0x40, hi := 4, lo := 0, acc := .ro, reset := 0x10 }
def hostRings_LINK_RATE : Fld := { page := .hostRings, off := 0x40, hi := 5, lo := 5, acc := .ro }
def hostRings_LINK_FLIT256 : Fld := { page := .hostRings, off := 0x40, hi := 6, lo := 6, acc := .ro, reset := 0x1 }
def hostRings_RETRAIN_COUNT : Fld := { page := .hostRings, off := 0x44, hi := 31, lo := 0, acc := .ro }
def hostRings_CMD_COUNT : Fld := { page := .hostRings, off := 0x48, hi := 31, lo := 0, acc := .ro }
def hostRings_SQ_BASE_HI (k : Nat) : Fld := { page := .hostRings, off := 0x080 + 0x20 * k + 0x4, hi := 31, lo := 0, acc := .rw, cond := .ringDisabled }
def hostRings_CQ_BASE_HI (k : Nat) : Fld := { page := .hostRings, off := 0x080 + 0x20 * k + 0xc, hi := 31, lo := 0, acc := .rw, cond := .ringDisabled }
def hostRings_RING_CFG_SQ_LOG (k : Nat) : Fld := { page := .hostRings, off := 0x080 + 0x20 * k + 0x10, hi := 4, lo := 0, acc := .rw, cond := .ringDisabled, rsv := .outside 4 16, reset := 0x8 }
def hostRings_RING_CFG_CQ_LOG (k : Nat) : Fld := { page := .hostRings, off := 0x080 + 0x20 * k + 0x10, hi := 12, lo := 8, acc := .rw, cond := .ringDisabled, rsv := .outside 4 16, reset := 0x8 }
def hostRings_RING_CFG_VEC (k : Nat) : Fld := { page := .hostRings, off := 0x080 + 0x20 * k + 0x10, hi := 21, lo := 16, acc := .rw, cond := .ringDisabled, reset := k }
def hostRings_RING_CFG_PRIO (k : Nat) : Fld := { page := .hostRings, off := 0x080 + 0x20 * k + 0x10, hi := 22, lo := 22, acc := .rw, cond := .ringDisabled }
def hostRings_RING_CTRL_EN (k : Nat) : Fld := { page := .hostRings, off := 0x080 + 0x20 * k + 0x14, hi := 0, lo := 0, acc := .rw }
def hostRings_RING_CTRL_ABORT (k : Nat) : Fld := { page := .hostRings, off := 0x080 + 0x20 * k + 0x14, hi := 1, lo := 1, acc := .w1s }
def hostRings_RING_STATUS_STATE (k : Nat) : Fld := { page := .hostRings, off := 0x080 + 0x20 * k + 0x18, hi := 1, lo := 0, acc := .ro }
def hostRings_RING_STATUS_SQ_HEAD (k : Nat) : Fld := { page := .hostRings, off := 0x080 + 0x20 * k + 0x18, hi := 31, lo := 16, acc := .ro }
def hostRings_IRQ_CFG_IRQ_COUNT (k : Nat) : Fld := { page := .hostRings, off := 0x080 + 0x20 * k + 0x1c, hi := 7, lo := 0, acc := .rw, rsv := .below 1, reset := 0x1 }
def hostRings_IRQ_CFG_IRQ_DELAY (k : Nat) : Fld := { page := .hostRings, off := 0x080 + 0x20 * k + 0x1c, hi := 17, lo := 8, acc := .rw }
def hostRings_SQ_BASE_LO (k : Nat) : Fld := { page := .hostRings, off := 0x080 + 0x20 * k + 0x0, hi := 31, lo := 12, acc := .rw, cond := .ringDisabled }
def hostRings_CQ_BASE_LO (k : Nat) : Fld := { page := .hostRings, off := 0x080 + 0x20 * k + 0x8, hi := 31, lo := 12, acc := .rw, cond := .ringDisabled }

/-! watch -/

def watch_CTRL_SHARE : Fld := { page := .watch, off := 0x8, hi := 2, lo := 0, acc := .rw, cond := .bellHeld, rsv := .above 4 }
def watch_CTRL_INJ_TWIN : Fld := { page := .watch, off := 0x8, hi := 3, lo := 3, acc := .w1s }
def watch_STATUS_SLOT_ACTIVE : Fld := { page := .watch, off := 0xc, hi := 0, lo := 0, acc := .ro }
def watch_STATUS_VOTE_PENDING : Fld := { page := .watch, off := 0xc, hi := 1, lo := 1, acc := .ro }
def watch_STATUS_OWED : Fld := { page := .watch, off := 0xc, hi := 4, lo := 2, acc := .ro }
def watch_STATUS_HOLD_REQ : Fld := { page := .watch, off := 0xc, hi := 5, lo := 5, acc := .ro }
def watch_STATUS_SUBJECT : Fld := { page := .watch, off := 0xc, hi := 11, lo := 6, acc := .ro }
def watch_EVENT_SEVERITY : Fld := { page := .watch, off := 0x1c, hi := 31, lo := 0, acc := .rwl, reset := 0x34fd9 }
def watch_SEED_LO : Fld := { page := .watch, off := 0x40, hi := 31, lo := 0, acc := .rw, cond := .bellHeld }
def watch_SEED_HI : Fld := { page := .watch, off := 0x44, hi := 31, lo := 0, acc := .rw, cond := .bellHeld }
def watch_SLOT_LO : Fld := { page := .watch, off := 0x48, hi := 31, lo := 0, acc := .rw, cond := .bellHeld }
def watch_SLOT_HI : Fld := { page := .watch, off := 0x4c, hi := 15, lo := 0, acc := .rw, cond := .bellHeld }
def watch_SLOTS : Fld := { page := .watch, off := 0x50, hi := 13, lo := 0, acc := .ro }
def watch_QUARANTINE_LO : Fld := { page := .watch, off := 0x54, hi := 31, lo := 0, acc := .w1s }
def watch_QUARANTINE_HI : Fld := { page := .watch, off := 0x58, hi := 31, lo := 0, acc := .w1s }
def watch_QUARANTINE_CLR_LO : Fld := { page := .watch, off := 0x5c, hi := 31, lo := 0, acc := .wo }
def watch_QUARANTINE_CLR_HI : Fld := { page := .watch, off := 0x60, hi := 31, lo := 0, acc := .wo }
def watch_QUAR_WINDOW : Fld := { page := .watch, off := 0x64, hi := 31, lo := 0, acc := .rw, reset := 0x1000 }
def watch_QVAR_SIG_SIG : Fld := { page := .watch, off := 0x68, hi := 5, lo := 0, acc := .rwl, rsv := .above 59 }
def watch_QVAR_SIG_EN : Fld := { page := .watch, off := 0x68, hi := 31, lo := 31, acc := .rwl }
def watch_QVAR_CROFTS_LO_Q0 : Fld := { page := .watch, off := 0x6c, hi := 15, lo := 0, acc := .rwl }
def watch_QVAR_CROFTS_LO_Q1 : Fld := { page := .watch, off := 0x6c, hi := 31, lo := 16, acc := .rwl }
def watch_QVAR_CROFTS_HI_Q2 : Fld := { page := .watch, off := 0x70, hi := 15, lo := 0, acc := .rwl }
def watch_QVAR_CROFTS_HI_Q3 : Fld := { page := .watch, off := 0x70, hi := 31, lo := 16, acc := .rwl }
def watch_MISSED : Fld := { page := .watch, off := 0x74, hi := 31, lo := 0, acc := .ro }
def watch_MISMATCHES : Fld := { page := .watch, off := 0x78, hi := 31, lo := 0, acc := .ro }
def watch_ROTATIONS : Fld := { page := .watch, off := 0x7c, hi := 31, lo := 0, acc := .ro }
def watch_VOTE_INFO_SUBJECT : Fld := { page := .watch, off := 0x80, hi := 5, lo := 0, acc := .ro }
def watch_VOTE_INFO_TWIN : Fld := { page := .watch, off := 0x80, hi := 13, lo := 8, acc := .ro }
def watch_VOTE_INFO_THIRD : Fld := { page := .watch, off := 0x80, hi := 21, lo := 16, acc := .ro }
def watch_VOTE_INFO_OUTCOME : Fld := { page := .watch, off := 0x80, hi := 26, lo := 24, acc := .ro }
def watch_VOTE_INFO_INJECTED : Fld := { page := .watch, off := 0x80, hi := 27, lo := 27, acc := .ro }
def watch_VOTE_INFO_VALID : Fld := { page := .watch, off := 0x80, hi := 31, lo := 31, acc := .w1c }
def watch_PERSIST_LO : Fld := { page := .watch, off := 0x84, hi := 31, lo := 0, acc := .ro }
def watch_PERSIST_HI_ADDR : Fld := { page := .watch, off := 0x88, hi := 5, lo := 0, acc := .ro }
def watch_PERSIST_HI_SPACE : Fld := { page := .watch, off := 0x88, hi := 7, lo := 6, acc := .ro }
def watch_PERSIST_HI_QUARTER : Fld := { page := .watch, off := 0x88, hi := 9, lo := 8, acc := .ro }
def watch_PERSIST_HI_CROFT : Fld := { page := .watch, off := 0x88, hi := 13, lo := 10, acc := .ro }
def watch_PERSIST_HI_VALID : Fld := { page := .watch, off := 0x88, hi := 31, lo := 31, acc := .w1c }

/-! check -/

def check_STATUS_DIAG_QUEUE : Fld := { page := .check, off := 0xc, hi := 2, lo := 0, acc := .ro }
def check_STATUS_FAULT_ARMED : Fld := { page := .check, off := 0xc, hi := 3, lo := 3, acc := .ro }
def check_EVENT_SEVERITY : Fld := { page := .check, off := 0x1c, hi := 31, lo := 0, acc := .rwl, reset := 0x2f4e9 }
def check_MARK_ROW (k : Nat) : Fld := { page := .check, off := 0x040 + 4 * k, hi := 7, lo := 0, acc := .ro }
def check_MARK_COL (k : Nat) : Fld := { page := .check, off := 0x040 + 4 * k, hi := 15, lo := 8, acc := .ro }
def check_MARK_FIELD (k : Nat) : Fld := { page := .check, off := 0x040 + 4 * k, hi := 17, lo := 16, acc := .ro }
def check_MARK_KIND (k : Nat) : Fld := { page := .check, off := 0x040 + 4 * k, hi := 19, lo := 18, acc := .ro }
def check_MARK_VALID (k : Nat) : Fld := { page := .check, off := 0x040 + 4 * k, hi := 31, lo := 31, acc := .ro }
def check_DIAG_INFO_FIELD : Fld := { page := .check, off := 0x60, hi := 1, lo := 0, acc := .ro }
def check_DIAG_INFO_KIND : Fld := { page := .check, off := 0x60, hi := 3, lo := 2, acc := .ro }
def check_DIAG_INFO_CHECKER : Fld := { page := .check, off := 0x60, hi := 4, lo := 4, acc := .ro }
def check_DIAG_INFO_FORCED : Fld := { page := .check, off := 0x60, hi := 5, lo := 5, acc := .ro }
def check_DIAG_INFO_VALID : Fld := { page := .check, off := 0x60, hi := 31, lo := 31, acc := .w1c }
def check_CHECKER_FAULTS : Fld := { page := .check, off := 0x64, hi := 31, lo := 0, acc := .ro }
def check_RESULT_FAULTS : Fld := { page := .check, off := 0x68, hi := 31, lo := 0, acc := .ro }
def check_PATH_FAULTS : Fld := { page := .check, off := 0x6c, hi := 31, lo := 0, acc := .ro }
def check_LAST_FAULT_STEP_LO : Fld := { page := .check, off := 0x70, hi := 31, lo := 0, acc := .ro }
def check_LAST_FAULT_STEP_HI : Fld := { page := .check, off := 0x74, hi := 15, lo := 0, acc := .ro }
def check_BARN_CE_COUNT : Fld := { page := .check, off := 0x78, hi := 31, lo := 0, acc := .ro }
def check_BARN_UE_RETRY_COUNT : Fld := { page := .check, off := 0x7c, hi := 31, lo := 0, acc := .ro }
def check_BARN_UE_COUNT : Fld := { page := .check, off := 0x80, hi := 31, lo := 0, acc := .ro }
def check_BARN_ERR_ADDR_ADDR : Fld := { page := .check, off := 0x84, hi := 20, lo := 0, acc := .ro }
def check_BARN_ERR_ADDR_VALID : Fld := { page := .check, off := 0x84, hi := 31, lo := 31, acc := .w1c }
def check_WATCH_SLOTS : Fld := { page := .check, off := 0x88, hi := 31, lo := 0, acc := .ro }

/-! power -/

def power_STATUS_BROWNOUT : Fld := { page := .power, off := 0xc, hi := 0, lo := 0, acc := .ro }
def power_STATUS_TOUCHED : Fld := { page := .power, off := 0xc, hi := 1, lo := 1, acc := .ro }
def power_STATUS_THERM_WARN : Fld := { page := .power, off := 0xc, hi := 2, lo := 2, acc := .ro }
def power_STATUS_THERM_CRIT : Fld := { page := .power, off := 0xc, hi := 3, lo := 3, acc := .ro }
def power_EVENT_SEVERITY : Fld := { page := .power, off := 0x1c, hi := 31, lo := 0, acc := .rwl, reset := 0xd951 }
def power_VIN : Fld := { page := .power, off := 0x40, hi := 15, lo := 0, acc := .ro }
def power_IIN : Fld := { page := .power, off := 0x44, hi := 15, lo := 0, acc := .ro }
def power_PIN : Fld := { page := .power, off := 0x48, hi := 11, lo := 0, acc := .ro }
def power_PIN_PEAK : Fld := { page := .power, off := 0x4c, hi := 11, lo := 0, acc := .rw }
def power_BROWNOUT_COUNT : Fld := { page := .power, off := 0x50, hi := 31, lo := 0, acc := .ro }
def power_BROWNOUT_MIN : Fld := { page := .power, off := 0x54, hi := 15, lo := 0, acc := .ro }
def power_TOUCHED_COUNT : Fld := { page := .power, off := 0x58, hi := 31, lo := 0, acc := .ro }
def power_TEMP_SEL : Fld := { page := .power, off := 0x5c, hi := 6, lo := 0, acc := .rw, rsv := .above 75 }
def power_TEMP_DATA_DEG_C : Fld := { page := .power, off := 0x60, hi := 7, lo := 0, acc := .ro }
def power_TEMP_DATA_PEAK : Fld := { page := .power, off := 0x60, hi := 15, lo := 8, acc := .ro }
def power_THERM_SENSOR_SENSOR : Fld := { page := .power, off := 0x64, hi := 6, lo := 0, acc := .ro }
def power_THERM_SENSOR_VALID : Fld := { page := .power, off := 0x64, hi := 31, lo := 31, acc := .w1c }
def power_RAIL_SEL : Fld := { page := .power, off := 0x68, hi := 5, lo := 0, acc := .rw }
def power_RAIL_DATA_MV : Fld := { page := .power, off := 0x6c, hi := 15, lo := 0, acc := .ro }
def power_RAIL_DATA_A : Fld := { page := .power, off := 0x6c, hi := 31, lo := 16, acc := .ro }

/-! reset -/

def reset_CTRL_FALLOW : Fld := { page := .reset, off := 0x8, hi := 0, lo := 0, acc := .rw }
def reset_STATUS_IN_FALLOW : Fld := { page := .reset, off := 0xc, hi := 0, lo := 0, acc := .ro }
def reset_STATUS_PARKED : Fld := { page := .reset, off := 0xc, hi := 4, lo := 1, acc := .ro }
def reset_STATUS_IN_RESET : Fld := { page := .reset, off := 0xc, hi := 8, lo := 5, acc := .ro }
def reset_EVENT_SEVERITY : Fld := { page := .reset, off := 0x1c, hi := 31, lo := 0, acc := .rwl, reset := 0x4000 }
def reset_WARM : Fld := { page := .reset, off := 0x40, hi := 15, lo := 0, acc := .wo }
def reset_QUARTER_RESET : Fld := { page := .reset, off := 0x44, hi := 3, lo := 0, acc := .w1s }
def reset_PARK : Fld := { page := .reset, off := 0x48, hi := 3, lo := 0, acc := .rw }
def reset_CROFT_RESET_LO : Fld := { page := .reset, off := 0x4c, hi := 31, lo := 0, acc := .w1s }
def reset_CROFT_RESET_HI : Fld := { page := .reset, off := 0x50, hi := 31, lo := 0, acc := .w1s }
def reset_PORT_RESET : Fld := { page := .reset, off := 0x54, hi := 31, lo := 0, acc := .w1s }
def reset_LAST_CAUSE : Fld := { page := .reset, off := 0x58, hi := 3, lo := 0, acc := .ro }
def reset_RESET_COUNT : Fld := { page := .reset, off := 0x5c, hi := 31, lo := 0, acc := .ro }

/-! dyke -/

def dyke_STATUS_WAITING : Fld := { page := .dyke, off := 0xc, hi := 0, lo := 0, acc := .ro }
def dyke_EVENT_SEVERITY : Fld := { page := .dyke, off := 0x1c, hi := 31, lo := 0, acc := .rwl, reset := 0x4 }
def dyke_BUDGET : Fld := { page := .dyke, off := 0x40, hi := 14, lo := 0, acc := .rws, rsv := .outside 0x400 0x4000, reset := 0x4000 }
def dyke_STAGGER : Fld := { page := .dyke, off := 0x44, hi := 3, lo := 0, acc := .rws, rsv := .below 8, reset := 0x8 }
def dyke_ACTIVE : Fld := { page := .dyke, off := 0x48, hi := 14, lo := 0, acc := .ro }
def dyke_ACTIVE_PEAK : Fld := { page := .dyke, off := 0x4c, hi := 14, lo := 0, acc := .rw }
def dyke_DELAY_CLK : Fld := { page := .dyke, off := 0x50, hi := 31, lo := 0, acc := .ro }
def dyke_DELAYED : Fld := { page := .dyke, off := 0x54, hi := 31, lo := 0, acc := .ro }
def dyke_QPOWER : Fld := { page := .dyke, off := 0x58, hi := 9, lo := 0, acc := .ro }
def dyke_QPOWER_PEAK : Fld := { page := .dyke, off := 0x5c, hi := 9, lo := 0, acc := .rw }

/-! mailbox -/

def mailbox_STATUS_ALIVE : Fld := { page := .mailbox, off := 0xc, hi := 0, lo := 0, acc := .ro }
def mailbox_STATUS_OWNED : Fld := { page := .mailbox, off := 0xc, hi := 1, lo := 1, acc := .ro }
def mailbox_STATUS_PERSIST_OPEN : Fld := { page := .mailbox, off := 0xc, hi := 2, lo := 2, acc := .ro }
def mailbox_STATUS_BUSY : Fld := { page := .mailbox, off := 0xc, hi := 3, lo := 3, acc := .ro }
def mailbox_EVENT_SEVERITY : Fld := { page := .mailbox, off := 0x1c, hi := 31, lo := 0, acc := .rwl, reset := 0x1e4 }
def mailbox_CMD_OPCODE : Fld := { page := .mailbox, off := 0x40, hi := 7, lo := 0, acc := .rw }
def mailbox_CMD_LEN : Fld := { page := .mailbox, off := 0x40, hi := 19, lo := 8, acc := .rw }
def mailbox_CMD_GO : Fld := { page := .mailbox, off := 0x40, hi := 31, lo := 31, acc := .w1s }
def mailbox_RESULT_STATUS : Fld := { page := .mailbox, off := 0x44, hi := 7, lo := 0, acc := .ro }
def mailbox_RESULT_LEN : Fld := { page := .mailbox, off := 0x44, hi := 19, lo := 8, acc := .ro }
def mailbox_PERSIST_LEFT : Fld := { page := .mailbox, off := 0x48, hi := 9, lo := 0, acc := .ro }
def mailbox_AUTH_FAILS : Fld := { page := .mailbox, off := 0x4c, hi := 31, lo := 0, acc := .ro }
def mailbox_BUFFER (k : Nat) : Fld := { page := .mailbox, off := 0x800 + 4 * k, hi := 31, lo := 0, acc := .rw }

/-! book -/

def book_STATUS_BUSY : Fld := { page := .book, off := 0xc, hi := 0, lo := 0, acc := .ro }
def book_STATUS_END : Fld := { page := .book, off := 0xc, hi := 1, lo := 1, acc := .ro }
def book_STATUS_FULL : Fld := { page := .book, off := 0xc, hi := 2, lo := 2, acc := .ro }
def book_STATUS_ERASING : Fld := { page := .book, off := 0xc, hi := 3, lo := 3, acc := .ro }
def book_EVENT_SEVERITY : Fld := { page := .book, off := 0x1c, hi := 31, lo := 0, acc := .rwl, reset := 0x4 }
def book_CURSOR_SLOT : Fld := { page := .book, off := 0x40, hi := 13, lo := 0, acc := .rw }
def book_CURSOR_VALID : Fld := { page := .book, off := 0x40, hi := 31, lo := 31, acc := .ro }
def book_STEP : Fld := { page := .book, off := 0x44, hi := 2, lo := 0, acc := .wo, rsv := .outside 1 4 }
def book_HEAD_SLOT : Fld := { page := .book, off := 0x48, hi := 13, lo := 0, acc := .ro }
def book_HEAD_VALID : Fld := { page := .book, off := 0x48, hi := 31, lo := 31, acc := .ro }
def book_HEAD_SEQ_LO : Fld := { page := .book, off := 0x4c, hi := 31, lo := 0, acc := .ro }
def book_HEAD_SEQ_HI : Fld := { page := .book, off := 0x50, hi := 15, lo := 0, acc := .ro }
def book_COUNT : Fld := { page := .book, off := 0x54, hi := 14, lo := 0, acc := .ro }
def book_DROP (k : Nat) : Fld := { page := .book, off := 0x058 + 4 * k, hi := 31, lo := 0, acc := .ro }
def book_WINDOW (k : Nat) : Fld := { page := .book, off := 0x080 + 4 * k, hi := 31, lo := 0, acc := .ro }

/-! gateId -/

def gateId_EVENT_SEVERITY : Fld := { page := .gateId, off := 0x1c, hi := 31, lo := 0, acc := .rwl, reset := 0x1 }
def gateId_LOCK_ALL : Fld := { page := .gateId, off := 0x40, hi := 0, lo := 0, acc := .wo }
def gateId_BAD_ACCESS_COUNT : Fld := { page := .gateId, off := 0x44, hi := 31, lo := 0, acc := .ro }

/-! paths -/

def paths_EVENT_SEVERITY : Fld := { page := .paths, off := 0x1c, hi := 31, lo := 0, acc := .rwl, reset := 0x1c }
def paths_RETRY (k : Nat) : Fld := { page := .paths, off := 0x040 + 4 * k, hi := 31, lo := 0, acc := .ro }
def paths_DISCARD (k : Nat) : Fld := { page := .paths, off := 0x050 + 4 * k, hi := 31, lo := 0, acc := .ro }

/-! reeve1 -/

def reeve1_POL_W0_SCALE (k : Nat) : Fld := { page := .reeve1, off := 0x040 + 16 * k + 0, hi := 1, lo := 0, acc := .rwl, cond := .reeveDisabled, rsv := .above 2 }
def reeve1_POL_W0_GRAD (k : Nat) : Fld := { page := .reeve1, off := 0x040 + 16 * k + 0, hi := 2, lo := 2, acc := .rwl, cond := .reeveDisabled }
def reeve1_POL_W0_INFOK (k : Nat) : Fld := { page := .reeve1, off := 0x040 + 16 * k + 0, hi := 3, lo := 3, acc := .rwl, cond := .reeveDisabled }
def reeve1_POL_W0_MARGIN (k : Nat) : Fld := { page := .reeve1, off := 0x040 + 16 * k + 0, hi := 5, lo := 4, acc := .rwl, cond := .reeveDisabled }
def reeve1_POL_W0_HLEN (k : Nat) : Fld := { page := .reeve1, off := 0x040 + 16 * k + 0, hi := 8, lo := 6, acc := .rwl, cond := .reeveDisabled, reset := 0x7 }
def reeve1_POL_W0_LMAX (k : Nat) : Fld := { page := .reeve1, off := 0x040 + 16 * k + 0, hi := 10, lo := 9, acc := .rwl, cond := .reeveDisabled }
def reeve1_POL_W0_DRIFT (k : Nat) : Fld := { page := .reeve1, off := 0x040 + 16 * k + 0, hi := 31, lo := 16, acc := .rwl, cond := .reeveDisabled, reset := 0x10 }
def reeve1_POL_W1_LADDER_T (k : Nat) : Fld := { page := .reeve1, off := 0x040 + 16 * k + 4, hi := 15, lo := 0, acc := .rwl, cond := .reeveDisabled, reset := 0x40 }
def reeve1_POL_W1_PERSIST (k : Nat) : Fld := { page := .reeve1, off := 0x040 + 16 * k + 4, hi := 19, lo := 16, acc := .rwl, cond := .reeveDisabled, rsv := .below 1, reset := 0x4 }
def reeve1_POL_W1_HUSH_DROP (k : Nat) : Fld := { page := .reeve1, off := 0x040 + 16 * k + 4, hi := 23, lo := 20, acc := .rwl, cond := .reeveDisabled, rsv := .below 1, reset := 0x1 }
def reeve1_POL_W2_HUSH_N (k : Nat) : Fld := { page := .reeve1, off := 0x040 + 16 * k + 8, hi := 15, lo := 0, acc := .rwl, cond := .reeveDisabled, rsv := .below 1, reset := 0x80 }
def reeve1_POL_W2_WCOST (k : Nat) : Fld := { page := .reeve1, off := 0x040 + 16 * k + 8, hi := 31, lo := 16, acc := .rwl, cond := .reeveDisabled }
def reeve1_EVENT_SEVERITY : Fld := { page := .reeve1, off := 0x1c, hi := 31, lo := 0, acc := .rwl }

/-! reeve2 -/

def reeve2_VAR_W0_GROUP (k : Nat) : Fld := { page := .reeve2, off := 0x040 + 8 * k + 0, hi := 13, lo := 0, acc := .rwl, cond := .reeveDisabled }
def reeve2_VAR_W0_SIG (k : Nat) : Fld := { page := .reeve2, off := 0x040 + 8 * k + 0, hi := 21, lo := 16, acc := .rwl, cond := .reeveDisabled, rsv := .above 60 }
def reeve2_VAR_W0_EN (k : Nat) : Fld := { page := .reeve2, off := 0x040 + 8 * k + 0, hi := 31, lo := 31, acc := .rwl, cond := .reeveDisabled }
def reeve2_VAR_W1 (k : Nat) : Fld := { page := .reeve2, off := 0x040 + 8 * k + 4, hi := 15, lo := 0, acc := .rwl, cond := .reeveDisabled }
def reeve2_EVENT_SEVERITY : Fld := { page := .reeve2, off := 0x1c, hi := 31, lo := 0, acc := .rwl }

/-! hbm2 -/

def hbm2_EVENT_SEVERITY : Fld := { page := .hbm2, off := 0x1c, hi := 31, lo := 0, acc := .rwl }

/-! hbm3 -/

def hbm3_EVENT_SEVERITY : Fld := { page := .hbm3, off := 0x1c, hi := 31, lo := 0, acc := .rwl }

end Sys2Proof.Machine
end

