-- ==== Sys2Proof/Machine/RegTable.lean ====
section
/-! DEFINITION. The register tables page by page, the bits of a register that exist, and its reset value. -/

namespace Sys2Proof.Machine

def rows_gateEvt : List Fld :=
  [gateEvt_VECTOR_MAP_NOTE_VEC, gateEvt_VECTOR_MAP_WARN_VEC, gateEvt_VECTOR_MAP_ERROR_VEC, gateEvt_VECTOR_MAP_FAULT_VEC, gateEvt_EVENT_SEVERITY, gateEvt_SUMMARY] ++
  [gateEvt_QUEUE_DROPS]

def rows_field : List Fld :=
  [field_CTRL_INJ_RESIDUE, field_CTRL_INJ_RUN_PARITY, field_CTRL_INJ_ACC_PARITY, field_STATUS_BUSY, field_STATUS_DRAINING, field_STATUS_GANGED] ++
  [field_STATUS_WIDE, field_STATUS_OWNER, field_STATUS_QUARANTINED, field_STATUS_INJ_ARMED, field_EVENT_SEVERITY, field_PASS_COUNT] ++
  [field_PASS_FMT_FMT_A, field_PASS_FMT_FMT_W, field_PASS_FMT_FMT_OUT, field_PASS_FMT_ROTATE, field_PASS_FMT_JIT, field_PASS_FMT_OUTLIERS] ++
  [field_PASS_FMT_KEEP, field_PLOT_MASK_ROWS, field_PLOT_MASK_COLS, field_EDGE_MASK_ROWS, field_EDGE_MASK_COLS, field_PASS_K] ++
  [field_WIDE_STEPS, field_TRUNC_RUNS, field_OVERFLOW_BLOCKS, field_NAN_ROWS, field_CHECK_COUNT, field_CHECK_CAPTURE_ROW] ++
  [field_CHECK_CAPTURE_COL, field_CHECK_CAPTURE_KIND, field_CHECK_CAPTURE_VALID, field_CHECK_PASS, field_ACC_SEL_ROW, field_ACC_SEL_COL] ++
  [field_ACC_DATA_LO, field_ACC_DATA_HI_ACC, field_ACC_DATA_HI_VALID, field_LANE_DELAY]

def rows_croft : List Fld :=
  [croft_CTRL_RUN, croft_STATUS_RUNNING, croft_STATUS_STOPPING, croft_STATUS_IDLE, croft_STATUS_PARKED, croft_STATUS_QUARANTINED] ++
  [croft_EVENT_SEVERITY, croft_EVENT_SUMMARY, croft_PROG_REGION_BASE, croft_PROG_REGION_SIZE, croft_SIG_SEL, croft_SIG_VALUE] ++
  [croft_REPLAY_KEEP_LO, croft_REPLAY_KEEP_HI, croft_IDLE_CLK, croft_REPLAY_COUNT, croft_SLOT_SEL, croft_SLOT_POS] ++
  [croft_SLOT_MB, croft_SLOT_STASH, croft_SLOT_STASH_LEN, croft_SLOT_STASH_CUR]

def rows_stream : List Fld :=
  [stream_STATUS_STATE, stream_STATUS_LATE, stream_STATUS_WAIT_SIG, stream_STATUS_CLAIM_HELD, stream_STATUS_CLAIM_WAIT, stream_EVENT_SEVERITY] ++
  [stream_ENTRY, stream_PC, stream_SEGMENT, stream_LATE_COUNT, stream_LATE_MAX, stream_ABANDON_COUNT] ++
  [stream_FAULT_INFO, stream_FAULT_PC, stream_ICACHE_MISS, stream_SLOT, stream_RETIRED]

def rows_vector : List Fld :=
  [vector_STATUS_BUSY, vector_STATUS_OWNER, vector_EVENT_SEVERITY, vector_OP_COUNT, vector_BUSY_CLK, vector_SPECIAL_COUNT] ++
  [vector_SAT_COUNT, vector_NAN_COUNT]

def rows_sluice : List Fld :=
  [sluice_STATUS_BUSY, sluice_STATUS_QDEPTH, sluice_EVENT_SEVERITY, sluice_DESC_COUNT, sluice_LINES_MOVED, sluice_CSUM_RETRY_COUNT] ++
  [sluice_CSUM_FAULT_COUNT, sluice_FAULT_ADDR_LO, sluice_FAULT_ADDR_HI_ADDR, sluice_FAULT_ADDR_HI_SPACE, sluice_FAULT_ADDR_HI_VALID, sluice_INVALID_INFO_DESC] ++
  [sluice_INVALID_INFO_CAUSE, sluice_INVALID_INFO_VALID, sluice_STASH_IN, sluice_STASH_OUT, sluice_HDR_BAD_COUNT, sluice_WAIT_CLK]

def rows_barn : List Fld :=
  [barn_STATUS_LANE_ACTIVE, barn_EVENT_SEVERITY, barn_RING_ASIZE, barn_RING_WSIZE, barn_CSUM_SEL_TILE, barn_CSUM_SEL_SPACE] ++
  [barn_CSUM_DATA, barn_LANE_HDR_COUNT, barn_LANE_WAIT_CLK]

def rows_reeve0 : List Fld :=
  [reeve0_CTRL_ENABLE, reeve0_STATUS_REDUCING, reeve0_STATUS_DECIDING, reeve0_STATUS_HOLD_REQ, reeve0_STATUS_BANK, reeve0_EVENT_SEVERITY] ++
  [reeve0_RANGE_LO, reeve0_RANGE_HI, reeve0_PLAN_CTRL, reeve0_PLAN_PARENT_DEVICE, reeve0_PLAN_PARENT_QUARTER, reeve0_PLAN_PARENT_VALID] ++
  [reeve0_WIDEN_BUDGET, reeve0_WIDEN_USED, reeve0_STORM_FRAC, reeve0_SHEET_COUNT, reeve0_DECIDE_MARGIN] ++
  (List.range 8).flatMap (fun k => [reeve0_PLAN_CHILD_DEVICE k, reeve0_PLAN_CHILD_QUARTER k, reeve0_PLAN_CHILD_VALID k]) ++
  (List.range 11).flatMap (fun k => [reeve0_EVENT_GROUP_GROUP k, reeve0_EVENT_GROUP_VALID k])

def rows_reeve3 : List Fld :=
  [reeve3_SHEET_SEL, reeve3_PEAK_SEL, reeve3_PEAK_KEY_GROUP, reeve3_PEAK_KEY_CROFT, reeve3_PEAK_KEY_VALID, reeve3_EVENT_SEVERITY] ++
  (List.range 12).flatMap (fun k => [reeve3_SHEET_DATA k]) ++
  (List.range 8).flatMap (fun k => [reeve3_PEAK_LO_PEAK k, reeve3_PEAK_LO_VALID k, reeve3_PEAK_HI k])

def rows_tally : List Fld :=
  [tally_STATUS_OPEN, tally_EVENT_SEVERITY, tally_SLOT_SEL, tally_SLOT_KEY_GROUP, tally_SLOT_KEY_OPEN, tally_SLOT_TOTAL_LO] ++
  [tally_SLOT_TOTAL_HI, tally_SLOT_SAT_LO, tally_SLOT_SAT_HI, tally_SLOT_ZERO_LO, tally_SLOT_ZERO_HI, tally_SLOT_NONZ_LO] ++
  [tally_SLOT_NONZ_HI, tally_SLOT_OVFB, tally_SLOT_AMAX, tally_UNCOUNTED_ROWS, tally_DELIVERIES]

def rows_bellMaster : List Fld :=
  [bellMaster_CTRL_MASTER, bellMaster_CTRL_START, bellMaster_CTRL_HOLD_NOW, bellMaster_CTRL_RESUME, bellMaster_STATUS_RUNNING, bellMaster_STATUS_HELD] ++
  [bellMaster_STATUS_ANOMALOUS, bellMaster_STATUS_DEVICE_A, bellMaster_EVENT_SEVERITY, bellMaster_PERIOD, bellMaster_SLACK, bellMaster_STEP_PATTERN_STEP_BELLS] ++
  [bellMaster_STEP_PATTERN_VERDICT_IDX, bellMaster_LEAD, bellMaster_SECURE_N, bellMaster_ATTEMPT_LIMIT, bellMaster_TREE_SIZE, bellMaster_ACK_WAIT] ++
  [bellMaster_UP_PORT_PORT, bellMaster_UP_PORT_VALID, bellMaster_CHILD_PORTS, bellMaster_BELL_LO, bellMaster_BELL_HI, bellMaster_STEP_LO] ++
  [bellMaster_STEP_HI, bellMaster_ATTEMPT, bellMaster_BATCH_LO, bellMaster_BATCH_HI, bellMaster_INDEX, bellMaster_FLAGS] ++
  [bellMaster_ABANDONED, bellMaster_TOKEN_MARGIN, bellMaster_ACK_MARGIN]

def rows_bellRcv : List Fld :=
  [bellRcv_CTRL_NAN_DRAIN_ABANDON, bellRcv_CTRL_NAN_VOP_ABANDON, bellRcv_STATUS_HELD, bellRcv_STATUS_ANOM, bellRcv_EVENT_SEVERITY, bellRcv_BATCH_SIG_SIG] ++
  [bellRcv_BATCH_SIG_WAYS, bellRcv_BATCH_SIG_EN, bellRcv_BATCH_CROFTS, bellRcv_EDGE_COUNT, bellRcv_STEP_EDGES, bellRcv_ABANDON_SRC]

def rows_mill : List Fld :=
  [mill_CTRL_ENABLE, mill_STATUS_PHASE1, mill_STATUS_PHASE2, mill_STATUS_LINK0_UP, mill_STATUS_LINK1_UP, mill_STATUS_HOLD_REQ] ++
  [mill_EVENT_SEVERITY, mill_SEED_LO, mill_SEED_HI, mill_STEP_LO, mill_STEP_HI_STEP, mill_STEP_HI_ATTEMPT] ++
  [mill_CHUNKS_IN, mill_FROZEN_HITS, mill_COMMITS, mill_MASTER_SAT_COUNT, mill_NONFINITE_COUNT, mill_WSAT_COUNT] ++
  [mill_WZERO_COUNT, mill_REORDER_PEAK, mill_PHASE1_CLK, mill_PHASE2_CLK, mill_FAULT_LAYER_LAYER, mill_FAULT_LAYER_EVENT] ++
  [mill_FAULT_LAYER_VALID, mill_GRAN_CTRL_MODE, mill_GRAN_CTRL_CATCHUP, mill_GRAN_CTRL_FILL_GO, mill_GRAN_CTRL_SEC_NOW, mill_GRAN_CTRL_NO_SPARE] ++
  [mill_GRAN_STATUS_SECURING, mill_GRAN_STATUS_COPY_VALID, mill_GRAN_STATUS_FILLING, mill_GRAN_STATUS_FILL_DONE, mill_GRAN_STATUS_FILL_FAIL, mill_GRAN_STATUS_REPLAY_FULL] ++
  [mill_GRAN_STATUS_DIVERGED, mill_GRAN_STATUS_CATCHUP_END, mill_GRAN_STATUS_BUDDY_VALID, mill_SECURED_STEP_LO, mill_SECURED_STEP_HI, mill_SECURED_BELL_LO] ++
  [mill_SECURED_BELL_HI, mill_EPOCH, mill_FILL_SRC_DEVICE, mill_FILL_SRC_KIND, mill_FILL_BYTES_LO, mill_FILL_BYTES_HI] ++
  [mill_SEC_TIME, mill_REPLAY_USED] ++
  (List.range 64).flatMap (fun k => [mill_KEEP_DEVICE k, mill_KEEP_VALID k])

def rows_port0 : List Fld :=
  [port0_CTRL_ENABLE, port0_CTRL_RETRAIN, port0_CTRL_ALLOW_X4, port0_CTRL_MEDIUM, port0_STATUS_STATE, port0_STATUS_X4] ++
  [port0_STATUS_UPPER, port0_EVENT_SEVERITY, port0_PEER_ID_DEVICE, port0_PEER_ID_PORT, port0_PEER_ID_VALID, port0_PEER_EXPECT_DEVICE] ++
  [port0_PEER_EXPECT_PORT, port0_PEER_EXPECT_CHECK, port0_EPOCH_TX, port0_EPOCH_EXPECT, port0_PEER_EPOCH, port0_DELAY] ++
  [port0_DELAY_PREV, port0_TRAIN_COUNT, port0_TRAIN_FAIL, port0_LANES_ACTIVE, port0_LANES_FAILED, port0_ECHO_RTT]

def rows_port1 : List Fld :=
  [port1_STATUS_UNACKED, port1_EVENT_SEVERITY, port1_FLITS_TX, port1_FLITS_RX, port1_REPLAYS, port1_CRC_ERR] ++
  [port1_FEC_CORR, port1_FEC_UNCORR, port1_FEC_LIMIT, port1_REPLAY_PEAK] ++
  (List.range 4).flatMap (fun k => [port1_CREDIT k])

def rows_pound : List Fld :=
  [pound_STATUS_STAGED, pound_EVENT_SEVERITY, pound_SEND_BASE, pound_RWIN_BASE, pound_STAGE_BASE, pound_STAGE_LEN] ++
  [pound_GET_TIMEOUT, pound_MSG_TX, pound_MSG_RX, pound_DISCARDS, pound_DISCARD_INFO_SDEV, pound_DISCARD_INFO_SQ] ++
  [pound_DISCARD_INFO_TYPE, pound_DISCARD_INFO_UNTRUSTED, pound_DISCARD_INFO_VALID, pound_DISCARD_BELL, pound_STAGE_PEAK]

def rows_quarter : List Fld :=
  [quarter_DEVICE_ID, quarter_ROUTE_CTRL, quarter_EVENT_SEVERITY, quarter_EVENT_SUMMARY_CROFT, quarter_EVENT_SUMMARY_BLOCK, quarter_DISCARD_COUNT]

def rows_hbm0 : List Fld :=
  [hbm0_CTRL_SCRUB_EN, hbm0_STATUS_TRAINED, hbm0_STATUS_SELF_REFRESH, hbm0_STATUS_HOT, hbm0_EVENT_SEVERITY, hbm0_CE_COUNT] ++
  [hbm0_UE_RETRY_COUNT, hbm0_UE_COUNT, hbm0_POISON_COUNT, hbm0_ERR_ADDR_LO, hbm0_ERR_ADDR_HI_ADDR, hbm0_ERR_ADDR_HI_VALID] ++
  [hbm0_CE_LIMIT, hbm0_SCRUB_PASSES, hbm0_TEMP]

def rows_hbm1 : List Fld :=
  [hbm1_CSUM_SEL, hbm1_CSUM_DATA, hbm1_POISON_SEL, hbm1_POISON_ADDR_LO, hbm1_POISON_ADDR_HI_ADDR, hbm1_POISON_ADDR_HI_VALID] ++
  [hbm1_EVENT_SEVERITY]

def rows_commons : List Fld :=
  [commons_EVENT_SEVERITY, commons_CE_COUNT, commons_UE_RETRY_COUNT, commons_UE_COUNT, commons_ERR_ADDR_ADDR, commons_ERR_ADDR_VALID]

def rows_hostRings : List Fld :=
  [hostRings_STATUS_RUNNING, hostRings_STATUS_ERROR, hostRings_EVENT_SEVERITY, hostRings_LINK_WIDTH, hostRings_LINK_RATE, hostRings_LINK_FLIT256] ++
  [hostRings_RETRAIN_COUNT, hostRings_CMD_COUNT] ++
  (List.range 8).flatMap (fun k => [hostRings_SQ_BASE_HI k, hostRings_CQ_BASE_HI k, hostRings_RING_CFG_SQ_LOG k, hostRings_RING_CFG_CQ_LOG k]) ++
  (List.range 8).flatMap (fun k => [hostRings_RING_CFG_VEC k, hostRings_RING_CFG_PRIO k, hostRings_RING_CTRL_EN k, hostRings_RING_CTRL_ABORT k]) ++
  (List.range 8).flatMap (fun k => [hostRings_RING_STATUS_STATE k, hostRings_RING_STATUS_SQ_HEAD k, hostRings_IRQ_CFG_IRQ_COUNT k, hostRings_IRQ_CFG_IRQ_DELAY k]) ++
  (List.range 8).flatMap (fun k => [hostRings_SQ_BASE_LO k, hostRings_CQ_BASE_LO k])

def rows_watch : List Fld :=
  [watch_CTRL_SHARE, watch_CTRL_INJ_TWIN, watch_STATUS_SLOT_ACTIVE, watch_STATUS_VOTE_PENDING, watch_STATUS_OWED, watch_STATUS_HOLD_REQ] ++
  [watch_STATUS_SUBJECT, watch_EVENT_SEVERITY, watch_SEED_LO, watch_SEED_HI, watch_SLOT_LO, watch_SLOT_HI] ++
  [watch_SLOTS, watch_QUARANTINE_LO, watch_QUARANTINE_HI, watch_QUARANTINE_CLR_LO, watch_QUARANTINE_CLR_HI, watch_QUAR_WINDOW] ++
  [watch_QVAR_SIG_SIG, watch_QVAR_SIG_EN, watch_QVAR_CROFTS_LO_Q0, watch_QVAR_CROFTS_LO_Q1, watch_QVAR_CROFTS_HI_Q2, watch_QVAR_CROFTS_HI_Q3] ++
  [watch_MISSED, watch_MISMATCHES, watch_ROTATIONS, watch_VOTE_INFO_SUBJECT, watch_VOTE_INFO_TWIN, watch_VOTE_INFO_THIRD] ++
  [watch_VOTE_INFO_OUTCOME, watch_VOTE_INFO_INJECTED, watch_VOTE_INFO_VALID, watch_PERSIST_LO, watch_PERSIST_HI_ADDR, watch_PERSIST_HI_SPACE] ++
  [watch_PERSIST_HI_QUARTER, watch_PERSIST_HI_CROFT, watch_PERSIST_HI_VALID]

def rows_check : List Fld :=
  [check_STATUS_DIAG_QUEUE, check_STATUS_FAULT_ARMED, check_EVENT_SEVERITY, check_DIAG_INFO_FIELD, check_DIAG_INFO_KIND, check_DIAG_INFO_CHECKER] ++
  [check_DIAG_INFO_FORCED, check_DIAG_INFO_VALID, check_CHECKER_FAULTS, check_RESULT_FAULTS, check_PATH_FAULTS, check_LAST_FAULT_STEP_LO] ++
  [check_LAST_FAULT_STEP_HI, check_BARN_CE_COUNT, check_BARN_UE_RETRY_COUNT, check_BARN_UE_COUNT, check_BARN_ERR_ADDR_ADDR, check_BARN_ERR_ADDR_VALID] ++
  [check_WATCH_SLOTS] ++
  (List.range 8).flatMap (fun k => [check_MARK_ROW k, check_MARK_COL k, check_MARK_FIELD k, check_MARK_KIND k]) ++
  (List.range 8).flatMap (fun k => [check_MARK_VALID k])

def rows_power : List Fld :=
  [power_STATUS_BROWNOUT, power_STATUS_TOUCHED, power_STATUS_THERM_WARN, power_STATUS_THERM_CRIT, power_EVENT_SEVERITY, power_VIN] ++
  [power_IIN, power_PIN, power_PIN_PEAK, power_BROWNOUT_COUNT, power_BROWNOUT_MIN, power_TOUCHED_COUNT] ++
  [power_TEMP_SEL, power_TEMP_DATA_DEG_C, power_TEMP_DATA_PEAK, power_THERM_SENSOR_SENSOR, power_THERM_SENSOR_VALID, power_RAIL_SEL] ++
  [power_RAIL_DATA_MV, power_RAIL_DATA_A]

def rows_reset : List Fld :=
  [reset_CTRL_FALLOW, reset_STATUS_IN_FALLOW, reset_STATUS_PARKED, reset_STATUS_IN_RESET, reset_EVENT_SEVERITY, reset_WARM] ++
  [reset_QUARTER_RESET, reset_PARK, reset_CROFT_RESET_LO, reset_CROFT_RESET_HI, reset_PORT_RESET, reset_LAST_CAUSE] ++
  [reset_RESET_COUNT]

def rows_dyke : List Fld :=
  [dyke_STATUS_WAITING, dyke_EVENT_SEVERITY, dyke_BUDGET, dyke_STAGGER, dyke_ACTIVE, dyke_ACTIVE_PEAK] ++
  [dyke_DELAY_CLK, dyke_DELAYED, dyke_QPOWER, dyke_QPOWER_PEAK]

def rows_mailbox : List Fld :=
  [mailbox_STATUS_ALIVE, mailbox_STATUS_OWNED, mailbox_STATUS_PERSIST_OPEN, mailbox_STATUS_BUSY, mailbox_EVENT_SEVERITY, mailbox_CMD_OPCODE] ++
  [mailbox_CMD_LEN, mailbox_CMD_GO, mailbox_RESULT_STATUS, mailbox_RESULT_LEN, mailbox_PERSIST_LEFT, mailbox_AUTH_FAILS] ++
  (List.range 512).flatMap (fun k => [mailbox_BUFFER k])

def rows_book : List Fld :=
  [book_STATUS_BUSY, book_STATUS_END, book_STATUS_FULL, book_STATUS_ERASING, book_EVENT_SEVERITY, book_CURSOR_SLOT] ++
  [book_CURSOR_VALID, book_STEP, book_HEAD_SLOT, book_HEAD_VALID, book_HEAD_SEQ_LO, book_HEAD_SEQ_HI] ++
  [book_COUNT] ++
  (List.range 5).flatMap (fun k => [book_DROP k]) ++
  (List.range 16).flatMap (fun k => [book_WINDOW k])

def rows_gateId : List Fld :=
  [gateId_EVENT_SEVERITY, gateId_LOCK_ALL, gateId_BAD_ACCESS_COUNT]

def rows_paths : List Fld :=
  [paths_EVENT_SEVERITY] ++
  (List.range 4).flatMap (fun k => [paths_RETRY k, paths_DISCARD k])

def rows_reeve1 : List Fld :=
  [reeve1_EVENT_SEVERITY] ++
  (List.range 16).flatMap (fun k => [reeve1_POL_W0_SCALE k, reeve1_POL_W0_GRAD k, reeve1_POL_W0_INFOK k, reeve1_POL_W0_MARGIN k]) ++
  (List.range 16).flatMap (fun k => [reeve1_POL_W0_HLEN k, reeve1_POL_W0_LMAX k, reeve1_POL_W0_DRIFT k, reeve1_POL_W1_LADDER_T k]) ++
  (List.range 16).flatMap (fun k => [reeve1_POL_W1_PERSIST k, reeve1_POL_W1_HUSH_DROP k, reeve1_POL_W2_HUSH_N k, reeve1_POL_W2_WCOST k])

def rows_reeve2 : List Fld :=
  [reeve2_EVENT_SEVERITY] ++
  (List.range 256).flatMap (fun k => [reeve2_VAR_W0_GROUP k, reeve2_VAR_W0_SIG k, reeve2_VAR_W0_EN k, reeve2_VAR_W1 k])

def rows_hbm2 : List Fld :=
  [hbm2_EVENT_SEVERITY]

def rows_hbm3 : List Fld :=
  [hbm3_EVENT_SEVERITY]


/-- The rows of a page's block-specific registers. -/
def rowsOf : PageKind → List Fld
  | .gateId => rows_gateId
  | .gateEvt => rows_gateEvt
  | .bellMaster => rows_bellMaster
  | .watch => rows_watch
  | .power => rows_power
  | .reset => rows_reset
  | .paths => rows_paths
  | .mailbox => rows_mailbox
  | .book => rows_book
  | .hostRings => rows_hostRings
  | .mill => rows_mill
  | .quarter => rows_quarter
  | .commons => rows_commons
  | .pound => rows_pound
  | .reeve0 => rows_reeve0
  | .reeve1 => rows_reeve1
  | .reeve2 => rows_reeve2
  | .reeve3 => rows_reeve3
  | .dyke => rows_dyke
  | .bellRcv => rows_bellRcv
  | .port0 => rows_port0
  | .port1 => rows_port1
  | .hbm0 => rows_hbm0
  | .hbm1 => rows_hbm1
  | .hbm2 => rows_hbm2
  | .hbm3 => rows_hbm3
  | .croft => rows_croft
  | .stream => rows_stream
  | .field => rows_field
  | .sluice => rows_sluice
  | .tally => rows_tally
  | .vector => rows_vector
  | .check => rows_check
  | .barn => rows_barn

/-- The rows of one register. -/
def rowsAt (k : PageKind) (off : Nat) : List Fld := (rowsOf k).filter (fun f => f.off == off)

/-- The mask of a field in its register. -/
def fldMask (f : Fld) : Nat := (2 ^ (f.hi - f.lo + 1) - 1) <<< f.lo

/-- The bits of a register that hold something between writes. Reserved bits are not among them (R9), nor are WO fields
(R7), the live `STATUS.EVENT_PENDING` and summary bits, or the event bits that name no event (R38). -/
def implMaskAt (k : PageKind) (off : Nat) : Nat :=
  if off = 0x10 ∨ off = 0x14 then 2 ^ pageEvents k - 1
  else if off = 0x1C then 4 ^ pageEvents k - 1
  else if off = 0x20 then 1
  else (rowsAt k off).foldl (fun m f => if f.acc = .wo then m else m ||| fldMask f) 0

/-- The same by BAR0 address; 0 where no register lies. -/
def implMask (a : Nat) : Nat :=
  match pageAt a with
  | some p => implMaskAt p.kind (a % 0x1000)
  | none => 0

/-- Reset value of a register, from the reset column of its table (R36, R37 for the header). `LANE_DELAY` resets to 4f
(R121). -/
def resetRegNat (a : Nat) : Nat :=
  match pageAt a with
  | none => 0
  | some p =>
    let off := a % 0x1000
    if off = 0 then pageId p
    else if off = 4 then 0x00010000
    else if p.kind = .field ∧ off = 0x7C then 4 * (p.inst % 4)
    else (rowsAt p.kind off).foldl (fun v f => v ||| (f.reset <<< f.lo)) 0

def resetReg (a : Nat) : Word := BitVec.ofNat 32 (resetRegNat a)

end Sys2Proof.Machine
end

