-- ==== Sys2Proof/Machine/Sparse.lean ====
section
/-! DEFINITION. Sparse maps in one canonical form: pairs with strictly rising keys, none of which holds the value that an
unlisted key reads as. The value of an unlisted key is a function given beside the map. -/

namespace Sys2Proof.Machine

/-- The value at a key. -/
def smGet {α : Type} (d : Nat → α) : List (Nat × α) → Nat → α
  | [], k => d k
  | (k', v) :: m, k => if k = k' then v else smGet d m k

/-- Put a value at a key, in the order of the keys. -/
def smPut {α : Type} (k : Nat) (v : α) : List (Nat × α) → List (Nat × α)
  | [] => [(k, v)]
  | (k', v') :: m =>
    if k < k' then (k, v) :: (k', v') :: m
    else if k = k' then (k, v) :: m
    else (k', v') :: smPut k v m

/-- Remove every key that `p` picks. -/
def smDrop {α : Type} (p : Nat → Bool) (m : List (Nat × α)) : List (Nat × α) := m.filter (fun kv => !p kv.1)

/-- Write one key; writing what an unlisted key reads as removes the entry. -/
def smSet {α : Type} [DecidableEq α] (d : Nat → α) (k : Nat) (v : α) (m : List (Nat × α)) : List (Nat × α) :=
  if v = d k then smDrop (fun k' => k' == k) m else smPut k v m

/-- Write consecutive keys from `a`. -/
def smSetRange {α : Type} [DecidableEq α] (d : Nat → α) (a : Nat) : List α → List (Nat × α) → List (Nat × α)
  | [], m => m
  | v :: vs, m => smSetRange d (a + 1) vs (smSet d a v m)

/-- Keys strictly rise above `lo`, and no entry holds the default. -/
def smWfFrom {α : Type} [DecidableEq α] (d : Nat → α) : Nat → List (Nat × α) → Bool
  | _, [] => true
  | lo, (k, v) :: m => decide (lo ≤ k) && decide (v ≠ d k) && smWfFrom d (k + 1) m

/-- The canonical form. -/
def smWf {α : Type} [DecidableEq α] (d : Nat → α) (m : List (Nat × α)) : Bool := smWfFrom d 0 m

end Sys2Proof.Machine
end

