-- ==== Sys2Proof/Machine/State.lean ====
section
/-! DEFINITION. The state of the device as plain data, the reasons a step can stop, and the state after reset. Registers lie in
one sparse map by BAR0 address; what the spec gives the machine besides registers lies in sparse maps by index and in one
record per block. -/

namespace Sys2Proof.Machine

/-- Why the device does not carry out an access: raised by HOST_MEM_READ and HOST_MEM_WRITE for an address that the one
HDM range of R369 does not hold. Safe: the spec says that no such address exists. -/
inductive Fault where
  | outsideHdm
deriving DecidableEq, Repr

/-- A command without a meaning. `notModelled` is raised by the dispatcher alone, for a command not reached yet. Safe. -/
inductive Refusal where
  | notModelled (mnemonic : String)
deriving DecidableEq, Repr

/-- A record in the gate's queue (R39, R41, R496); `payload` is 256 bits. -/
structure QRec where
  bell : Nat := 0
  source : Nat := 0
  code : Nat := 0
  sev : Nat := 0
  flags : Nat := 0
  payload : Nat := 0
deriving DecidableEq, Repr

/-- What leaves the device or one of its units, oldest first: a log of outputs. -/
inductive Out where
  /-- An MSI-X message on a vector (R43, R392). -/
  | msix (vec : Nat)
  /-- A message handed to the causeway port or, inside the device, to another quarter through the gate. -/
  | message (port : Option Nat) (q : Nat) (m : Msg)
  /-- A partial or final sheet sent to a node of the reduction plan (R241): sending quarter, device, quarter. -/
  | sheet (q dev dq : Nat) (final : Bool) (s : Sheet)
  /-- A bell token sent on a port (R262). -/
  | token (port : Nat) (t : Token)
  /-- An acknowledgement sent on the up port (R268). -/
  | ack (port : Nat) (a : Ack)
  /-- A flit sent on a port (R330). -/
  | flit (port : Nat) (f : Flit)
  /-- A link control exchange: port, code, three values (R327, R328, R333, R344). -/
  | control (port : Nat) (code a b c : Nat)
  /-- A codeword of the FEC, as the symbols of each active lane, the lowest first (R322). -/
  | codeword (port : Nat) (lanes : List (List Nat))
  /-- A flit slot of the path between the gate and quarter q: its direction, the class granted, 0 for a null flit, and whether it is a
  replay (R19, R20). -/
  | path (q : Nat) (toQuarter : Bool) (cls : Nat) (replay : Bool)
  /-- A response of the steward on a transport: status, bytes (R489), or an SPDM response code and bytes. -/
  | steward (tr : Transport) (status : Nat) (body : List Byte)
  /-- Data returned to a host read: data, poisoned (R371). -/
  | hostData (data : List Byte) (poison : Bool)
  /-- Data returned to a register read through a reading command. -/
  | regData (v : Word)
deriving DecidableEq, Repr

/-- A sequence slot (R149). -/
structure Slot where
  pos : Nat := 0
  mb : Nat := 0
  base : Nat := 0
  len : Nat := 0
  cur : Nat := 0
deriving DecidableEq, Repr

/-- What a stream holds beside its registers: the staged pass parameters of R171, the awaited amount of a `WAIT`, the clk
its `CLAIM` began to wait, the fields whose `RELEASE` waits for their work, the clk its issue slot is free, its lateness
against the last edge, whether it has passed its `WAIT.BELL` of a step bell and waits for the others, and its
instruction-cache lines. -/
structure StreamX where
  fmtA : Nat := 0
  fmtW : Nat := 0
  plotRows : Nat := 0xFFFF
  plotCols : Nat := 0xFFFF
  edgeRows : Nat := 0xFFFF
  edgeCols : Nat := 0xFFFF
  wideEn : Bool := false
  wideTable : Nat := 0
  wideStore : Nat := 0
  wdCols : List Nat := []
  wdStore : Nat := 0
  waitN : Nat := 0
  claimSince : Nat := 0
  relPend : Nat := 0
  issueFree : Nat := 0
  edgeClk : Nat := 0
  edgeSlack : Nat := 0
  abandonRaised : Bool := false
  passed : Bool := false
  icache : List Nat := []
deriving DecidableEq, Repr

/-- A pass in the lane queue (R101, R174 to R176): the taking stream's parameters, the rings and the clk at which the lane
queue took it, whether it is ready and granted, and how far it has issued. -/
structure Pass where
  id : Nat
  stream : Nat
  fields : Nat
  kruns : Nat
  abase : Nat
  wbase : Nat
  wstride : Nat
  sig : Nat
  sen : Bool
  fmtA : Nat
  fmtW : Nat
  plotRows : Nat
  plotCols : Nat
  edgeRows : Nat
  edgeCols : Nat
  wideEn : Bool
  wideTable : Nat
  wideStore : Nat
  asize : Nat
  wsize : Nat
  takenClk : Nat
  ready : Option Nat := none
  granted : Option Nat := none
  demand : Nat := 0
  /-- next narrow k-step -/
  k : Nat := 0
  /-- positions of the wide steps still to issue in the current run, and whether its narrow fold is done -/
  wideLeft : List Nat := []
  /-- the narrow fold of the current run is done and its wide steps issue -/
  wideOn : Bool := false
  /-- wide step number within the run -/
  wideIx : Nat := 0
  /-- issue clocks so far -/
  issued : Nat := 0
  /-- headers of the run in force: activation rows, then the weight columns of fields 0 to 3; E8 0xFF where not well formed -/
  hdrs : List Nat := []
  done : Bool := false
deriving DecidableEq, Repr

/-- A run register (R92, R93): content, window unit, NaN, and whether a nonzero bit was discarded. -/
structure RunReg where
  reg : Int := 0
  lsb : Int := 0
  nan : Bool := false
  /-- a header of the run has `E8` 0xFF: no product is formed (R93) -/
  dead : Bool := false
  trunc : Bool := false
deriving DecidableEq, Repr

/-- A staged `LOAD` (R174, R175). `run` is the RUN it is bound to, 0 for none; `alone` marks a standalone load. -/
structure LoadReq where
  src : Nat := 0
  bfmt : Nat := 0
  addr : Nat := 0
  rowStride : Nat := 0
  fStride : Nat := 0
  run : Nat := 0
  alone : Bool := false
deriving DecidableEq, Repr

/-- The plot and edge masks that a pass carries (R106): plot rows and columns, edge rows and columns. -/
structure Masks where
  pr : Nat := 0
  pc : Nat := 0
  er : Nat := 0
  ec : Nat := 0
deriving DecidableEq, Repr

/-- A staged `DRAIN` (R174, R175, R208) with what it captures: its stream's outlier columns, the destination descriptor, and
the scale it read in the clk of its first row (R230). -/
structure DrainReq where
  id : Nat
  stream : Nat
  run : Nat
  takenClk : Nat
  fields : Nat
  fmtOut : Nat
  jit : Bool
  rot : Bool
  dest : Bool
  outl : Bool
  group : Nat
  target : Nat
  cols : List Nat
  wdStore : Nat
  daddr : Nat := 0
  dstride : Nat := 0
  haddr : Nat := 0
  hstride : Nat := 0
  wdst : Bool := false
  descBad : Bool := false
  /-- masks of the pass it drains (R108) -/
  masks : Masks := {}
deriving DecidableEq, Repr

/-- A tile swap or standalone drain in progress (R103, R175). -/
structure Swap where
  d : DrainReq
  l : LoadReq
  row : Nat := 0
deriving DecidableEq, Repr

/-- A drained row in the drain buffer (R105): it has passed stage 4 and waits for stages 5 and 6. -/
structure DrainedRow where
  d : DrainReq
  row : Nat
  codes : List Nat
  hdrs : List Nat
  ovf : List Bool
  nan : Bool
  /-- extracted columns: list position, W16 code, header -/
  outl : List (Nat × Nat × Nat)
  /-- clk its next chunk became ready for the pound, and chunks the pound has taken -/
  since : Nat := 0
  chunks : Nat := 0
deriving DecidableEq, Repr

/-- What a field holds beside its registers and accumulators. -/
structure FieldX where
  /-- most recent RUN that names the field: its id, its stream, whether its swap has begun -/
  run : Nat := 0
  runStream : Nat := 0
  swapped : Bool := true
  /-- masks that RUN carries (R106) -/
  masks : Masks := {}
  /-- a load has been received since the last pass -/
  loaded : Bool := false
  kept : Bool := false
  load : Option LoadReq := none
  drain : Option DrainReq := none
  swap : Option Swap := none
  buf : List DrainedRow := []
  runs : List (Nat × RunReg) := []
  /-- cell-check events of R117 that wait for a bell edge: clk of the mismatch, and its kind 1 to 3 -/
  pendEv : List (Nat × Nat) := []
  /-- clk of the mismatch that `CHECK_CAPTURE` holds (R117) -/
  capClk : Nat := 0
  /-- the cells at which the residue, run-parity and accumulator-parity injections are armed, 256 row + column (R118) -/
  injCells : Nat × Nat × Nat := (0, 0, 0)
  /-- first clk in which a pass may issue after the field's last load -/
  loadedClk : Nat := 0
deriving DecidableEq, Repr

/-- A `DRAIN` whose signal waits for its member fields (R174). -/
structure DrainSet where
  id : Nat
  /-- block exponent, zero point and infinity bit read in the clk of the first row, and whether the drain is rejected (R230) -/
  scale : Option (Nat × Nat × Bool) := none
  reject : Bool := false
  left : Nat
  stream : Nat
  sig : Nat
  sen : Bool
deriving DecidableEq, Repr

/-- A sluice instruction in the queue (R163, R177); `page` is the slot taken when the sluice begins it, `wrote` the checksum slots of the
tiles that its begun descriptors write into (R222). -/
structure SluiceInstr where
  op : Nat
  stream : Nat
  slot : Nat
  desc : Nat
  count : Nat
  next : Nat := 0
  page : Option Slot := none
  wrote : List Nat := []
  sig : Nat
  sen : Bool
deriving DecidableEq, Repr

/-- A vector operation in the queue (R179). -/
structure VecInstr where
  stream : Nat
  fn : Nat
  fmtA : Nat
  fmtD : Nat
  count : Nat
  daddr : Nat
  aaddr : Nat
  baddr : Nat
  sig : Nat
  sen : Bool
  /-- the results are written and the operation waits for its completion, with the first clk after those it occupies (R181) -/
  written : Bool := false
  freeAt : Nat := 0
deriving DecidableEq, Repr

/-- An instruction in the tally's queue (R163): 0 `TALLY.OPEN`, 1 `TALLY.CLOSE`. -/
structure TallyInstr where
  close : Bool
  group : Nat
  sig : Nat := 0
  sen : Bool := false
deriving DecidableEq, Repr

/-- A request of a croft to the pound (R163, R184): 0 SEND, 1 RECV, 2 REDUCE. -/
structure PoundReq where
  op : Nat
  stream : Nat
  dev : Nat
  quarter : Nat
  croft : Nat
  rspace : Nat
  raddr : Nat
  laddr : Nat
  len : Nat
  rsig : Nat
  lsig : Nat
  lsen : Bool
  rsen : Bool
  rfmt : Nat
  rop : Nat
  /-- bytes already taken by the pound, in order -/
  data : List Byte := []
  /-- clk at which its next chunk became ready -/
  since : Nat := 0
deriving DecidableEq, Repr

/-- What the check unit captured of a mismatch (R403): its clk and field, the cell and the kind of check; va, vw and p of a product, or a
register's value and its stored parity bits; and whether it arose in a watch tile, or has raised its abandon at a close edge (R405). -/
structure Capture where
  clk : Nat
  field : Nat
  row : Nat
  col : Nat
  kind : Nat
  va : Int := 0
  vw : Int := 0
  p : Int := 0
  value : Nat := 0
  stored : Nat := 0
  watch : Bool := false
  forced : Bool := false
deriving DecidableEq, Repr

/-- What a croft holds beside its registers: the step snapshot of R142, the steps in progress at an edge, the lane, the
queues of its shared units, its prefetch buffer and the diagnoses that wait (R401). -/
structure CroftX where
  snapTaken : Bool := false
  snapPc : List Nat := [0, 0, 0]
  snapSig : List Nat := []
  snapSlots : List Slot := []
  /-- a step bell edge has passed and not every stream has yet passed its `WAIT.BELL` (R138) -/
  stepPend : Bool := false
  /-- an abandon has parked streams and the snapshot has not been restored yet (R141, R143) -/
  abandoned : Bool := false
  lane : List Pass := []
  /-- clk in which the lane became free -/
  laneFree : Nat := 0
  runSeq : Nat := 0
  drainSeq : Nat := 0
  drains : List DrainSet := []
  sluice : List SluiceInstr := []
  vec : List VecInstr := []
  tally : List TallyInstr := []
  pound : List PoundReq := []
  prefetch : List (Nat × Nat × Nat) := []
  /-- captures that await diagnosis, at most 4, by clk and then field (R403) -/
  diag : List Capture := []
  /-- tally snapshot of R257, by slot -/
  slotSnap : Option (Nat × List Nat) := none
  /-- clk from which the croft's next offer to the pound counts (R279) -/
  offerClk : Nat := 0
deriving DecidableEq, Repr

/-- What has happened to the counting signals in a clk, so that R162 orders it whatever order the commands of that clk come in: signal
64 c + i with each amount added and subtracted, and each write of `SIGNAL.SET` with its stream. -/
structure SigNow where
  clk : Nat := 0
  adds : List (Nat × Nat) := []
  subs : List (Nat × Nat) := []
  sets : List (Nat × Nat) := []
deriving DecidableEq, Repr

/-- A tally slot (R226). -/
structure TallySlot where
  isOpen : Bool := false
  c : Counts := {}
  peaks : List Peak := []
deriving DecidableEq, Repr

/-- A delivery made and not yet landed (R231): croft within the device, whether it belongs to the closing sheet, the counts and
peaks, and the signal of a `TALLY.CLOSE`. -/
structure Delivery where
  croft : Nat
  closing : Bool
  c : Counts
  peaks : List Peak
  sig : Nat := 0
  sen : Bool := false
deriving DecidableEq, Repr

/-- An entry window of R50: the entry of which a snapshot is held and its words, and the entry whose writes are held. -/
structure WinX where
  snapIx : Option Nat := none
  snap : List Nat := []
  heldIx : Option Nat := none
  held : List (Nat × Nat) := []
deriving DecidableEq, Repr

/-- A GET that waits for its response (R185, R347). -/
structure OpenGet where
  croft : Nat
  since : Nat
  /-- the request as sent -/
  m : Msg
deriving DecidableEq, Repr

/-- Progress of a reduce window's round (R348): the bytes that each rank has completed. -/
structure RoundX where
  win : Nat
  done : List Nat := []
deriving DecidableEq, Repr

/-- A REDUCE_PUT held in the staging area: its window, its rank, the window's entry as read at its arrival (R348, R350). -/
structure Staged where
  win : Nat
  rank : Nat
  entry : List Nat
  m : Msg
deriving DecidableEq, Repr

/-- Drained rows of a kind 1 or 2 send entry that wait to form a message of 64 rows (R351). -/
structure SendRows where
  croft : Nat
  field : Nat
  drain : Nat
  first : Nat
  bytes : List Byte
deriving DecidableEq, Repr

/-- A kind-3 chunk on its way to the mill (R295, R351): tag and 128 W16 codes. -/
structure ChunkOut where
  tag : Nat
  data : List Nat
deriving DecidableEq, Repr

/-- One direction of a quarter path (R19, R20): the next sequence number sent and the next expected, flits not yet accepted with their class and
how often they have been replayed, those that wait to be replayed, the flits of each class that wait, and the slots for which class 3 has
waited. -/
structure PathX where
  txSeq : Nat := 0
  rxSeq : Nat := 0
  unacked : List (Nat × Nat × Nat) := []
  toReplay : List Nat := []
  waiting : List Nat := [0, 0, 0]
  hostWait : Nat := 0
deriving DecidableEq, Repr

/-- What a quarter's reeve, pound, dyke and bell receiver hold beside their registers. -/
structure QuarterX where
  /-- tally deliveries made and not yet landed (R231) -/
  deliveries : List Delivery := []
  /-- the open sheet -/
  sheet : Sheet := {}
  /-- closed sheets that wait to be reduced, oldest first, each with the clk of the verdict edge that closed it -/
  closed : List (Sheet × Nat) := []
  /-- of the oldest: the sum of the own sheet and the children merged so far, the next child to merge, and whether it has been sent
  to the parent (R241) -/
  accSheet : Option Sheet := none
  nextChild : Nat := 0
  sentUp : Bool := false
  /-- partial sheets that have arrived and wait for their turn: child and sheet -/
  partials : List (Nat × Sheet) := []
  /-- final sheets whose decision pass has not completed, oldest first (R243, R251) -/
  finals : List Sheet := []
  /-- the last final sheet, shown on page 3 (R256) -/
  lastFinal : Sheet := {}
  sheetSnap : Option (Nat × List Nat) := none
  peakSnap : Option (Nat × List Nat) := none
  /-- a decision pass has completed and its exchange has not been made, with the completion clk -/
  decided : Option Nat := none
  /-- sheets closed whose decisions have not been exchanged -/
  due : Nat := 0
  /-- sheets closed so far, and those whose decision pass has completed (R303) -/
  shut : Nat := 0
  passes : Nat := 0
  /-- of these, the sheets whose decisions have missed a step bell: each exchange follows its pass's completion (R251) -/
  late : Nat := 0
  /-- signals of deliveries that have landed, to be added in the following clk: croft and signal (R231) -/
  landed : List (Nat × Nat) := []
  /-- the dyke's order: croft and ready clk of each waiting pass; the clk of the last grant; releases to come -/
  order : List (Nat × Nat) := []
  lastGrant : Option Nat := none
  releases : List (Nat × Nat × Nat) := []
  /-- the pound -/
  gets : List OpenGet := []
  rounds : List RoundX := []
  staged : List Staged := []
  sendRows : List SendRows := []
  /-- kind-3 chunks on their way to the mill -/
  toMill : List ChunkOut := []
  /-- the path to the gate, in each direction (R19) -/
  pathIn : PathX := {}
  pathOut : PathX := {}
  /-- the quarter has failed (R28) -/
  dead : Bool := false
deriving DecidableEq, Repr

/-- A flit in the replay buffer: how often it has been replayed, and the clk it was first sent (R332, R334, R345). -/
structure RepFlit where
  f : Flit
  n : Nat := 0
  sent : Nat := 0
deriving DecidableEq, Repr

/-- A flit that waits in a channel of a port: the quarter that routed its message, and the clk it came to wait (R345). -/
structure QFlit where
  by_ : Nat
  f : Flit
  since : Nat := 0
deriving DecidableEq, Repr

/-- What a causeway port holds beside its registers (R325 to R338). -/
structure PortX where
  everUp : Bool := false
  /-- consecutive failed attempts from `EQ` (R329) -/
  failRow : Nat := 0
  /-- what runs inside `RETRAIN`: 2 `ALIGN`, 3 `IDENT`, 4 `MEASURE` -/
  phase : Nat := 0
  /-- held in `IDENT` by a mismatch (R328) -/
  held : Bool := false
  /-- delay measurement: rounds done and their sum (R327) -/
  rounds : Nat := 0
  sum : Int := 0
  /-- next sequence number to send, next expected, and whether a flit has been accepted (R332, R334) -/
  txSeq : Nat := 0
  rxSeq : Nat := 0
  rxAny : Bool := false
  /-- data flits kept until acknowledged, oldest first, and the sequence numbers that wait to be replayed (R332, R334) -/
  replay : List RepFlit := []
  toReplay : List Nat := []
  /-- queued flits by channel -/
  q0 : List QFlit := []
  q1 : List QFlit := []
  q2 : List QFlit := []
  q3 : List QFlit := []
  /-- credits held, receive buffer in use, and credits to return, by channel (R335, R336) -/
  credits : List Nat := [0, 0, 0, 0]
  rxUsed : List Nat := [0, 0, 0, 0]
  toReturn : List Nat := [0, 0, 0, 0]
  /-- a message is being assembled, by channel, and the payload of its first flit, which holds its header (R338, R347) -/
  asmOn : List Bool := [false, false, false, false]
  asmHead : List (List Byte) := [[], [], [], []]
  /-- flit slots since channels 1 and 2 were last granted while they waited (R337) -/
  starve1 : Nat := 0
  starve2 : Nat := 0
  /-- the FEC encoder (R322): message bits not yet coded, the first of them lowest, and their number; the next slot of the running group of
  2,570, and the group count -/
  fecBits : Nat := 0
  fecLen : Nat := 0
  fecSlot : Nat := 0
  fecGroup : Nat := 0
  /-- symbols corrected in the running group of codewords (R323) -/
  fecSyms : Nat := 0
  /-- the peer has reported its device failed: nothing further is delivered from the port (R346) -/
  peerDead : Bool := false
deriving DecidableEq, Repr

/-- What a host ring holds beside its registers (R384 to R392): the queue indices, the phase, the command in progress. -/
structure RingX where
  sqTail : Nat := 0
  cqTail : Nat := 0
  cqHead : Nat := 0
  /-- completion entries that no CQ head doorbell has released -/
  cqUsed : Nat := 0
  phase : Bool := true
  /-- descriptor words of the command in progress -/
  cmd : Option (List Nat) := none
  /-- bytes moved so far -/
  moved : Nat := 0
  /-- status and result, when the command has ended and waits for its completion entry -/
  result : Option (Nat × Nat) := none
  /-- device address of the first line that the protected program region skipped (R125) -/
  prot : Option Nat := none
  aborting : Bool := false
  /-- `EN` was written 0 while a command ran: the ring is disabled once the abort is done (R389) -/
  disabling : Bool := false
  /-- the completion waits for a free CQ slot and `CQ_FULL` has been raised for it -/
  cqWait : Bool := false
  irqPend : Nat := 0
deriving DecidableEq, Repr

/-- A token whose edge is pending, with its edge clk and, on the master, its index (R259, R265). -/
structure PendTok where
  tok : Token
  edge : Nat
  index : Nat := 0
deriving DecidableEq, Repr

/-- The acknowledgements gathered for one bell (R268): the local edge, once it has passed, the children that have acknowledged, the
devices counted, the flags, and the attempt and the window to which the bell belongs (R269). -/
structure AckX where
  bell : Nat
  edge : Option Nat := none
  children : List Nat := []
  count : Nat := 1
  anom : Bool := false
  hold : Bool := false
  sent : Bool := false
  attempt : Nat × Nat := (0, 0)
  inWindow : Bool := true
  isClose : Bool := false
deriving DecidableEq, Repr

/-- What the bell master and receiver hold beside their registers. -/
structure BellX where
  /-- last token accepted or sent -/
  lastTok : Option Token := none
  pendTok : List PendTok := []
  /-- tokens that still have to be forwarded: port, token with `ACC` of R263, arrival clk -/
  forwards : List (Nat × Token × Nat) := []
  acks : List AckX := []
  /-- clk of the last local edge, its bell number, and its slack in clk -/
  lastEdge : Option Nat := none
  edgeBell : Nat := 0
  slack : Nat := 0
  /-- `STEP` and `ATTEMPT` of the last step bell -/
  lastStep : Option (Nat × Nat) := none
  /-- the last edge was a close edge, in this clk (R267) -/
  closeClk : Option Nat := none
  /-- clk of the last verdict edge: what is counted in it belongs to the sheet that it closed (R231) -/
  verdictClk : Option Nat := none
  /-- the close edge of this attempt has been made (R267, R269) -/
  closedOf : Option (Nat × Nat) := none
  /-- master: clk of the edge of the next token, and index of the last token sent -/
  nextEdge : Option Nat := none
  index : Nat := 0
  /-- master: the next token resumes a held job (R277) -/
  resumed : Bool := false
  /-- master: the running and the next attempt are anomalous; the next token or the next step bell sets `HOLD` (R269) -/
  anomCur : Bool := false
  anomNext : Bool := false
  holdNext : Bool := false
  holdStep : Bool := false
  /-- master: a token with `HOLD` has been sent and no resume follows yet (R276) -/
  heldSent : Bool := false
  /-- master: the verdict of the last attempt was abandon; clk of its close acknowledgement and of its verdict token -/
  verdictAbandon : Bool := false
  closeAck : Option Nat := none
  verdictSent : Option Nat := none
  /-- crofts that an abandon has still to reach (R267) -/
  reach : List Nat := []
  /-- a hold is requested on this device until the edge that holds the job (R268, R276) -/
  holdReq : Bool := false
  /-- the device has left scheduled traffic (R29) -/
  left : Bool := false
deriving DecidableEq, Repr

/-- What the mill holds for a layer beside its table entry (R288, R295 to R309): the attempt that is open, or the update that waits
for its phase 2 or its commit. -/
structure MillLayerX where
  /-- snapshots of the layer's and its group's entries, taken when phase 1 begins -/
  layer : Nat := 0
  group : Nat := 0
  /-- the layer has received a chunk of this attempt; its phase 1 has stopped -/
  opened : Bool := false
  stopped : Bool := false
  /-- next dense unit to consume; chunks of the layer received; units or rows with `SUB` received -/
  next : Nat := 0
  recv : Nat := 0
  got : List (Nat × Nat) := []
  /-- touched embedding rows, each with the next `SUB` to consume -/
  touched : List (Nat × Nat) := []
  /-- phase 1: squared norm of the directions, row sum, row-statistic sum; phase 2: squared norm of the masters; S32 codes -/
  un2 : Nat := 0
  rs : Nat := 0
  srow : Nat := 0
  wn : Nat := 0
  /-- counts of the working conversion (R307) -/
  cnt : Counts := {}
  /-- a kept update waits for its phase 2 or its commit; phase 2 has completed; a commit edge has passed before that -/
  pend : Bool := false
  done : Bool := false
  late : Bool := false
  /-- it commits with `ACTIVE` unchanged (R312, R521) -/
  noFlip : Bool := false
  /-- ledger entry and policy `INFOK`, once the values of R303 stand; the number of the sheet whose decision pass they wait for -/
  led : Option (Nat × Bool) := none
  ledNo : Option Nat := none
  /-- clk of the verdict edge that kept the update (R319) -/
  verdictClk : Nat := 0
  /-- bell numbers of later keep verdicts that a frozen layer has still to commit for (R312) -/
  more : List Nat := []
  verdictBell : Nat := 0
  step : Nat := 0
  attempt : Nat := 0
deriving DecidableEq, Repr

/-- A chunk in the reorder buffer (R296). -/
structure HeldChunk where
  layer : Nat
  unit : Nat
  sub : Nat
  data : List Nat
  /-- it belongs to the next step: it waits for the commit -/
  future : Bool := false
deriving DecidableEq, Repr

/-- The copy that is being sent to the buddy (R427 to R431). -/
structure Securing where
  bell : Nat
  step : Nat
  attempt : Nat
  batch : Nat
  clk : Nat
  begun : Bool := false
  /-- layers still to send, and layers (0xFFFFFFFF for the small parts) not yet acknowledged -/
  toSend : List Nat := []
  unacked : List Nat := []
  /-- next page of the copy -/
  page : Nat := 1
  /-- the small parts captured at the edge: active ledger banks, final sheets, reeve counters, croft snapshots as program
  counters, signals and slots -/
  ledger : List (Nat × BitVec 128) := []
  sheets : List Sheet := []
  reeves : List (List Nat) := []
  crofts : List (List Nat × List Nat × List Slot) := []
deriving DecidableEq, Repr

/-- What the mill and its granary hold beside their registers. -/
structure MillX where
  /-- the reorder buffer, in order of arrival (R296) -/
  held : List HeldChunk := []
  rowsTouched : Nat := 0
  /-- after the close edge and before the next step bell; the attempt has been abandoned -/
  closed : Bool := false
  dead : Bool := false
  frozenGroups : List Nat := []
  /-- layers that wait for phase 2, and the one in it -/
  p2 : List Nat := []
  p2run : Option Nat := none
  stepClk : Nat := 0
  /-- mill links on which no chunk is accepted, each with the layer whose chunk is turned away (R296) -/
  stalled : List (Nat × Nat) := []
  /-- the mill or the slow tier has failed (R28) -/
  lost : Bool := false
  /-- words 0 to 8 of the region table as read when ENABLE rose, where it is valid (R374, R375) -/
  region : Option (List Nat) := none
  sec : Option Securing := none
  /-- step of the latest secure step for which a copy was begun or skipped, and the bell number of its step bell -/
  lastSec : Option (Nat × Nat) := none
  /-- a copy that arrives from the device whose buddy this is: its header's fields from BEGIN, layers ended, pages written -/
  rxHead : List Byte := []
  rxEnds : List Nat := []
  rxPages : Nat := 1
  /-- the secure step whose freeing of the replay window has been made (R436) -/
  freed : Option Nat := none
  /-- filling: bytes so far, their CRC-32C register, and the payloads of a replay window or bell log by place -/
  fillCrc : Nat := 0xFFFFFFFF
  fillBytes : Nat := 0
  fillBuf : List (Nat × List Byte) := []
  /-- copies that wait to be appended, kept messages with their destination and `SBELL`, and the bell log (R435) -/
  toKeep : List (Nat × Nat × List Byte) := []
  kept : List (Nat × Nat × List Byte) := []
  toLog : List Token := []
  bellLog : List Token := []
  /-- catch-up: tokens and messages still to play, an abandon raised in the attempt's window, and the clk of the last edge (R442) -/
  cuTokens : List Token := []
  cuMsgs : List (Nat × List Byte) := []
  cuAnom : Bool := false
  /-- the attempt whose close edge has passed was anomalous on this device -/
  cuWindow : Bool := false
deriving DecidableEq, Repr

/-- A watch slot that runs or a disagreement that waits for its vote (R416). -/
structure VoteX where
  subject : Nat
  twin : Nat
  third : Option Nat
  xs : List Word
  xt : List Word
  injected : Bool
  /-- slot number of the disagreement -/
  slotJ : Nat := 0
deriving DecidableEq, Repr

/-- What the gate and its power, reset, watch, host-port and book pages hold beside their registers. -/
structure GateX where
  /-- watch: the next slot of the interval and the clk its window begins, the running slot as subject, twin, third, use (0 rotation, 1 vote, 2 owed), and votes that wait -/
  slotNo : Nat := 0
  winStart : Nat := 0
  slot : Option (Nat × Option Nat × Nat) := none
  /-- crofts whose fields and lane the watch holds until its slot ends, and what is still to happen in the slot (R411, R412, R456): its clk,
  and 0 the tile's plots start, 1 they stop, 2 the slot ends -/
  watchCrofts : List Nat := []
  watchDue : List (Nat × Nat) := []
  votes : List VoteX := []
  owed : List Nat := []
  /-- quarantines set and not yet in effect, with the clk they were set; quarantines in effect (R420) -/
  quarNew : List (Nat × Nat) := []
  quarIn : List Nat := []
  /-- croft faults: the step of the last one of each croft that had one -/
  faultStep : List (Nat × Nat) := []
  /-- data faults of this and of the last attempt: quarter, croft, space, address (R407) -/
  dataNow : List (Nat × Nat × Nat × Nat) := []
  dataPrev : List (Nat × Nat × Nat × Nat) := []
  /-- power: sensors at warning and critical, peaks and readings, rails -/
  warn : List Nat := []
  crit : List Nat := []
  temps : List (Nat × Int × Int) := []
  rails : List (Nat × Nat × Nat) := []
  /-- resets: what runs, parks asked for while in reset -/
  warmRuns : Bool := false
  moduleRuns : Bool := false
  flr : Bool := false
  perst : Bool := false
  parkNext : List Nat := []
  parking : List Nat := []
  unparking : List Nat := []
  /-- the input is lost; firmware has been verified for the reset that runs (R476, R506) -/
  off : Bool := false
  booted : Bool := false
  goingFallow : Bool := false
  leavingFallow : Bool := false
  /-- the steward is lost: 1 until the next step bell, 2 until the copy that it began has ended (R28) -/
  stewWait : Nat := 0
  failed : Bool := false
  linkDown : Bool := false
  /-- the link went down while the device ran: its return counts as a retrain (R382) -/
  linkLost : Bool := false
  /-- MSI-X capability of the function in configuration space: its enable and its function mask (R380, R383, R396) -/
  msixOn : Bool := false
  msixMask : Bool := false
  /-- ring that last began a command, by priority (R386) -/
  turn0 : Option Nat := none
  turn1 : Option Nat := none
  /-- poison lists: device stack, line address in the quarter's HBM (R365) -/
  poison : List (Nat × Nat) := []
  /-- corrected words that wait to be written back: memory, address (R368) -/
  writeBack : List (EccMem × Nat) := []
  ceWindow : List (Nat × Nat × Nat) := []
  scrubPos : List (Nat × Nat) := []
  /-- book window: snapshot words, the SEQ of the last snapshot since the last cursor write -/
  bookSnap : Option (Nat × List Nat) := none
  bookSeq : Option Nat := none
  /-- the move under way, as `STEP` names it, and the `SEQ` it starts from (R500) -/
  bookMove : Option (Nat × Nat) := none
  /-- severities whose MSI-X message is to be sent, oldest first (R44) -/
  evMsgs : List Nat := []
deriving DecidableEq, Repr

/-- What has been written into a firmware slot, newest first, and whether the slot has verified since its last write (R471, R488).
A byte not written since manufacture is `Config.factoryFlash`. -/
structure FwSlot where
  bytes : List (Nat × Byte) := []
  verified : Bool := false
deriving DecidableEq, Repr

/-- The steward (R471 to R490) and its part of the parish book (R494, R499). -/
structure StewardX where
  alive : Bool := true
  nonceCtr : Nat := 0
  nonce : Option (List Byte) := none
  owner : List Byte := []
  window : Bool := false
  /-- module clk at which the window's time runs out -/
  deadline : Nat := 0
  floors : List Nat := [0, 0, 0]
  active : List Nat := [0, 0, 0]
  /-- bytes 0 to 63 of the headers of the images that run, which a later write of their slot does not change (R481, R488) -/
  running : List (List Byte) := [0, 2, 4].map (fun s => (List.range 64).map (Config.factoryFlash s))
  /-- slots A and B of the steward, gate and mill firmware -/
  slots : List FwSlot := [{}, {}, {}, {}, {}, {}]
  /-- RWS writes the gate has forwarded, in order: register, mask of the fields written, value (R10, R487) -/
  forwarded : List (Nat × Word × Word) := []
  gen : Nat := 0
  /-- next SEQ; operating time in units of 1/65,536 hour, committed and current; power cycles -/
  seq : Nat := 1
  ticks : Nat := 0
  committed : Nat := 0
  cycles : Nat := 1
  /-- drop counters as last committed (R499); the book has been full since the last erase -/
  drops : List Nat := [0, 0, 0, 0, 0]
  wasFull : Bool := false
  /-- an ERASE_BOOK in progress, and the transport that asked -/
  erasing : Option Transport := none
  /-- records that the erase removed -/
  erased : Nat := 0
  /-- how often the address straps have been sampled since this state began; what they show is `Config.maddr` (R509) -/
  straps : Nat := 0
  /-- trims and calibration values of the signed flash (R14, R471); no command changes them -/
  trims : List Byte := Config.factoryTrims
  calibration : List Byte := Config.factoryCalibration
  /-- SPDM connection state per transport: 0 none, 1 version, 2 capabilities, 3 algorithms -/
  spdmHost : Nat := 0
  spdmMctp : Nat := 0
  /-- boot has failed: gate and mill stay in reset, and only MCTP is served (R476) -/
  bootFailed : Bool := false
deriving DecidableEq, Repr

/-- Words of the MSI-X table (R383): each entry's vector control resets masked, as PCIe defines it. PRESUMED, log 7. -/
def msixDflt (a : Nat) : Word := if 0x202000 ≤ a ∧ a < 0x202400 ∧ a % 16 = 12 then 1 else 0

/-- A ledger entry at reset (R233). -/
def ledgerReset : BitVec 128 := 0x88888888000000000000000000000000

/-- The quarter's HBM data size D (R358). -/
def hbmD : Nat := 0x35E8000000

/-- The device beside its queue of waiting commands. -/
@[ext] structure Hw where
  /-- module clk -/
  clk : Nat := 0
  /-- the model's own counter of free values drawn -/
  free : Nat := 0
  /-- record queue of the gate, oldest first, at most 256 (R41) -/
  gateQ : List QRec := []
  /-- what has left, newest first -/
  outbox : List Out := []
  /-- the bell (R258 to R277) -/
  bell : BellX := {}
  /-- the mill and the granary -/
  mill : MillX := {}
  /-- gate, power, reset, watch and book state beside their registers -/
  gate : GateX := {}
  /-- the steward -/
  stew : StewardX := {}
  /-- the registers by BAR0 address; an unlisted one holds its reset value -/
  regs : List (Nat × Word) := []
  /-- the RWS values the steward stores (R10), by BAR0 address -/
  stored : List (Nat × Word) := []
  /-- words of the MSI-X table and pending-bit array, by BAR0 address (R383) -/
  msix : List (Nat × Word) := []
  /-- counting signals, 64 c + i (R132) -/
  sigs : List (Nat × Nat) := []
  /-- the signal effects of the running clk (R162) -/
  sigNow : SigNow := {}
  /-- additions from outside the croft since its snapshot, 64 c + i (R143) -/
  keepAdds : List (Nat × Nat) := []
  /-- sequence slots, 32 c + i (R149) -/
  slots : List (Nat × Slot) := []
  /-- streams, 3 c + s -/
  streams : List (Nat × StreamX) := []
  /-- crofts -/
  crofts : List (Nat × CroftX) := []
  /-- fields, 4 c + f -/
  fields : List (Nat × FieldX) := []
  /-- tile-checksum slots by `csumKey`; none where nothing has written since the contents became undefined (R215, R218, R367) -/
  csum : List (Nat × (Option Word)) := []
  /-- how often a reset has left a storage region undefined, by region -/
  epochs : List (Nat × Nat) := []
  /-- active bank of the scale ledgers, 16384 q + e (R233, R235) -/
  ledger : List (Nat × (BitVec 128)) := []
  /-- decisions in the shadow banks (R235) -/
  shadow : List (Nat × (Option (BitVec 128))) := []
  /-- tally slots, 64 c + i (R226) -/
  tslots : List (Nat × TallySlot) := []
  /-- entry windows: snapshot and held words (R50), by `winKey` -/
  windows : List (Nat × WinX) := []
  /-- route tables, 32768 q + x (R49, R341) -/
  routes : List (Nat × (BitVec 64)) := []
  /-- quarters -/
  quarters : List (Nat × QuarterX) := []
  /-- causeway ports -/
  ports : List (Nat × PortX) := []
  /-- host rings -/
  rings : List (Nat × RingX) := []
  /-- parish book slots as 512-bit records; 0 is an empty slot (R493) -/
  book : List (Nat × Nat) := []
  /-- mill group table (R287) -/
  mgroups : List (Nat × (BitVec 512)) := []
  /-- mill layer table (R287) -/
  mlayers : List (Nat × (BitVec 512)) := []
  /-- what the mill holds for a layer beside its entry -/
  mlayerX : List (Nat × MillLayerX) := []
  /-- column sums of open factored layers, 65536 L + c, as S32 codes (R300) -/
  millSums : List (Nat × Nat) := []
  /-- field accumulators, 65536 (4 c + f) + 256 i + j (R70, R85) -/
  accs : List (Nat × BitVec 36) := []
  /-- host memory as the device sees it through CXL.cache -/
  hostMem : List Host.Cell := []
  /-- barns, 0xC00000 c + a (R189) -/
  barn : List Host.Cell := []
  /-- commons, 0x4000000 q + a (R192) -/
  commons : List Host.Cell := []
  /-- HBM data, D q + a: the device physical address (R358, R369) -/
  hbm : List Host.Cell := []
  /-- slow tier (R372) -/
  slow : List Host.Cell := []
deriving DecidableEq, Repr

/-- The state of the block: the device, and the commands that wait, first in first out. -/
structure State where
  pending : List Instr := []
  hw : Hw := {}
deriving DecidableEq, Repr

/-- Key of a tile-checksum slot: barn croft c, commons quarter q, HBM quarter q (R215, R367). -/
def csumKeyBarn (c t : Nat) : Nat := c * 4096 + t
def csumKeyCommons (q t : Nat) : Nat := 0x40000 + q * 16384 + t
def csumKeyHbm (q t : Nat) : Nat := 0x1000000 + q * 0x4000000 + t

/-- Storage regions whose contents a reset may leave undefined: barns 0 to 63, commons 64 to 67, the HBM of a quarter 68 to
71, the slow tier 72, the accumulators of field i 100 + i. -/
def regionBarn (a : Nat) : Nat := a / 0xC00000
def regionCommons (a : Nat) : Nat := 64 + a / 0x4000000
def regionHbm (a : Nat) : Nat := 68 + a / hbmD
def regionSlow (_ : Nat) : Nat := 72
def regionHost (_ : Nat) : Nat := 73
def regionAcc (k : Nat) : Nat := 100 + k / 65536
def regionCsum (k : Nat) : Nat :=
  if k < 0x40000 then k / 4096 else if k < 0x1000000 then 64 + (k - 0x40000) / 16384 else 68 + (k - 0x1000000) / 0x4000000

/-- What an unlisted byte of a region reads as: 0 until a reset has left the region undefined, a free value after that. -/
def byteDflt (ep : List (Nat × Nat)) (region : Nat → Nat) (a : Nat) : Byte :=
  let r := region a
  let e := smGet (fun _ => 0) ep r
  if e = 0 then 0 else Config.freeByte r e a

/-- The same for accumulators. -/
def accDflt (ep : List (Nat × Nat)) (k : Nat) : BitVec 36 :=
  let e := smGet (fun _ => 0) ep (regionAcc k)
  if e = 0 then 0 else Config.freeAcc e k

/-- The `POWER_ON` record that the book holds after the first power-on (R469, R493, R497), as a 512-bit number: `SEQ` 1,
`CYCLES` 1, `SOURCE` 8, `CODE` 39, NOTE, `DIRECT`; its CRC over the other bytes is filled in by `bookRecord`. -/
def bookRecord (seq ticks cycles : Nat) (r : QRec) : Nat :=
  let lowBytes := leBytes 6 seq ++ leBytes 2 (ticks % 65536) ++ leBytes 4 (ticks / 65536) ++ leBytes 4 cycles ++
    leBytes 4 r.bell ++ leBytes 4 r.source ++ leBytes 2 r.code ++ leBytes 1 r.sev ++ leBytes 1 r.flags
  let high := leBytes 32 r.payload
  ofLe (lowBytes ++ leBytes 4 (crc32c (lowBytes ++ high)) ++ high)

def powerOnRecord : QRec := { source := 8, code := 39, sev := 0, flags := 2, payload := 0 }

/-- Fields that do not read their tables' reset values when the power-on has completed: `RESET_COUNT` 1, which the steward supplies
(R469); both mill links up (R285, R454); the steward's heartbeat (R490, R492); the book's `HEAD` valid at slot 0 with `SEQ` 1, and `COUNT` 1 (R504); every HBM stack trained
(R377, R454). -/
def resetRegs : List (Nat × Word) :=
  [(0x505C, 1)] ++ [(0x10000C, 1)] ++ [(0x101048, 0x80000000), (0x10104C, 1), (0x101054, 1)] ++ [(pageBase .mill 0 + 0xC, 0xC)] ++
    (List.range 12).map (fun k => (hbmBase k + 0xC, 1))

/-- The device right after reset. -/
def hwReset : Hw :=
  { regs := resetRegs
    gate := { msixOn := true }
    book := [(0, bookRecord 1 0 1 powerOnRecord)]
    stew := { seq := 2 } }

/-- The device right after reset: every register at its reset value, nothing listed anywhere else, except what the spec
gives other values: the reset count of one, and the parish book holding the `POWER_ON` record of that power-on (R469). -/
def State.reset : State := { hw := hwReset }

end Sys2Proof.Machine
end

