-- ==== Sys2Proof/Machine/Ops.lean ====
section
/-! DEFINITION. The primitive updates of the device, effects as lists of updates, and the named operations over registers,
memories and checksum slots that every command uses. -/

namespace Sys2Proof.Machine

/-- The maps of which a whole range of keys can return to what an unlisted key reads as. -/
inductive MapName where
  | regs | stored | msix | ledger | shadow | tslots | routes | mgroups | mlayers | mlayerX | millSums | sigs | keepAdds | slots | book
  | windows | csum
deriving DecidableEq, Repr

/-- The memories. -/
inductive MemSp where
  | hostMem | barn | commons | hbm | slow
deriving DecidableEq, Repr

/-- One primitive update of the device. Every effect of every command is a list of these. -/
inductive Upd where
  | clk (v : Nat)
  | free (v : Nat)
  | gateQ (v : List QRec)
  | outbox (v : List Out)
  | bell (v : BellX)
  | mill (v : MillX)
  | gate (v : GateX)
  | stew (v : StewardX)
  | sigNow (v : SigNow)
  | regs (k : Nat) (v : Word)
  | stored (k : Nat) (v : Word)
  | msix (k : Nat) (v : Word)
  | sigs (k : Nat) (v : Nat)
  | keepAdds (k : Nat) (v : Nat)
  | slots (k : Nat) (v : Slot)
  | streams (k : Nat) (v : StreamX)
  | crofts (k : Nat) (v : CroftX)
  | fields (k : Nat) (v : FieldX)
  | csum (k : Nat) (v : Option Word)
  | ledger (k : Nat) (v : BitVec 128)
  | shadow (k : Nat) (v : Option (BitVec 128))
  | tslots (k : Nat) (v : TallySlot)
  | windows (k : Nat) (v : WinX)
  | routes (k : Nat) (v : BitVec 64)
  | quarters (k : Nat) (v : QuarterX)
  | ports (k : Nat) (v : PortX)
  | rings (k : Nat) (v : RingX)
  | book (k : Nat) (v : Nat)
  | mgroups (k : Nat) (v : BitVec 512)
  | mlayers (k : Nat) (v : BitVec 512)
  | mlayerX (k : Nat) (v : MillLayerX)
  | millSums (k : Nat) (v : Nat)
  | accRow (k : Nat) (vs : List (BitVec 36))
  | zeroAccs (f : Nat)
  | mem (sp : MemSp) (a : Nat) (bs : List Byte)
  | undef (r : Nat)
  | drop (m : MapName) (lo hi : Nat)

/-- The default of an unlisted byte of a memory. -/
def memDflt (h : Hw) : MemSp → Nat → Byte
  | .hostMem => byteDflt h.epochs regionHost
  | .barn => byteDflt h.epochs regionBarn
  | .commons => byteDflt h.epochs regionCommons
  | .hbm => byteDflt h.epochs regionHbm
  | .slow => byteDflt h.epochs regionSlow

/-- The cells of a memory. -/
def memCells (h : Hw) : MemSp → List Host.Cell
  | .hostMem => h.hostMem
  | .barn => h.barn
  | .commons => h.commons
  | .hbm => h.hbm
  | .slow => h.slow

/-- Read one byte. -/
def rd8 (h : Hw) (sp : MemSp) (a : Nat) : Byte := smGet (memDflt h sp) (memCells h sp) a

/-- Write consecutive bytes from `a`. -/
def memWrite (h : Hw) (sp : MemSp) (a : Nat) (bs : List Byte) : Hw :=
  let m := smSetRange (memDflt h sp) a bs (memCells h sp)
  match sp with
  | .hostMem => { h with hostMem := m }
  | .barn => { h with barn := m }
  | .commons => { h with commons := m }
  | .hbm => { h with hbm := m }
  | .slow => { h with slow := m }

/-- Leave a storage region undefined: what it held is forgotten, and every byte, slot and accumulator of it reads as a free
value of the new epoch (R465). -/
def undefRegion (h : Hw) (r : Nat) : Hw :=
  { h with
    epochs := smSet (fun _ => 0) r (smGet (fun _ => 0) h.epochs r + 1) h.epochs
    hostMem := smDrop (fun a => regionHost a == r) h.hostMem
    barn := smDrop (fun a => regionBarn a == r) h.barn
    commons := smDrop (fun a => regionCommons a == r) h.commons
    hbm := smDrop (fun a => regionHbm a == r) h.hbm
    slow := smDrop (fun a => regionSlow a == r) h.slow
    accs := smDrop (fun a => regionAcc a == r) h.accs
    csum := smDrop (fun a => regionCsum a == r) h.csum }

/-- Every accumulator of a field becomes zero (R102). -/
def zeroAccs (h : Hw) (f : Nat) : Hw :=
  if smGet (fun _ => 0) h.epochs (regionAcc (65536 * f)) = 0 then
    { h with accs := smDrop (fun k => k / 65536 == f) h.accs }
  else { h with accs := smSetRange (accDflt h.epochs) (65536 * f) (List.replicate 65536 0) h.accs }

/-- Keys from `lo` up to but not `hi`. -/
def inRange (lo hi k : Nat) : Bool := decide (lo ≤ k) && decide (k < hi)

/-- Return a range of keys of a map to what an unlisted key reads as. -/
def dropRange (h : Hw) (m : MapName) (lo hi : Nat) : Hw :=
  match m with
  | .regs => { h with regs := smDrop (inRange lo hi) h.regs }
  | .stored => { h with stored := smDrop (inRange lo hi) h.stored }
  | .msix => { h with msix := smDrop (inRange lo hi) h.msix }
  | .ledger => { h with ledger := smDrop (inRange lo hi) h.ledger }
  | .shadow => { h with shadow := smDrop (inRange lo hi) h.shadow }
  | .tslots => { h with tslots := smDrop (inRange lo hi) h.tslots }
  | .routes => { h with routes := smDrop (inRange lo hi) h.routes }
  | .mgroups => { h with mgroups := smDrop (inRange lo hi) h.mgroups }
  | .mlayers => { h with mlayers := smDrop (inRange lo hi) h.mlayers }
  | .mlayerX => { h with mlayerX := smDrop (inRange lo hi) h.mlayerX }
  | .millSums => { h with millSums := smDrop (inRange lo hi) h.millSums }
  | .sigs => { h with sigs := smDrop (inRange lo hi) h.sigs }
  | .keepAdds => { h with keepAdds := smDrop (inRange lo hi) h.keepAdds }
  | .slots => { h with slots := smDrop (inRange lo hi) h.slots }
  | .book => { h with book := smDrop (inRange lo hi) h.book }
  | .windows => { h with windows := smDrop (inRange lo hi) h.windows }
  | .csum => { h with csum := smDrop (inRange lo hi) h.csum }

/-- What a register keeps of a value: the bits that its page implements; the others hold what they hold at reset (R9). -/
def keepReg (a : Nat) (v : Word) : Word :=
  let m := BitVec.ofNat 32 (implMask a)
  (v &&& m) ||| (resetReg a &&& ~~~m)

/-- Apply one update. -/
def applyUpd (h : Hw) : Upd → Hw
  | .clk v => { h with clk := v }
  | .free v => { h with free := v }
  | .gateQ v => { h with gateQ := v }
  | .outbox v => { h with outbox := v }
  | .bell v => { h with bell := v }
  | .mill v => { h with mill := v }
  | .gate v => { h with gate := v }
  | .stew v => { h with stew := v }
  | .sigNow v => { h with sigNow := v }
  | .regs k v => { h with regs := smSet resetReg k (keepReg k v) h.regs }
  | .stored k v => { h with stored := smSet resetReg k v h.stored }
  | .msix k v => { h with msix := smSet msixDflt k v h.msix }
  | .sigs k v => { h with sigs := smSet (fun _ => 0) k v h.sigs }
  | .keepAdds k v => { h with keepAdds := smSet (fun _ => 0) k v h.keepAdds }
  | .slots k v => { h with slots := smSet (fun _ => {}) k v h.slots }
  | .streams k v => { h with streams := smSet (fun _ => {}) k v h.streams }
  | .crofts k v => { h with crofts := smSet (fun _ => {}) k v h.crofts }
  | .fields k v => { h with fields := smSet (fun _ => {}) k v h.fields }
  | .csum k v => { h with csum := smSet (fun _ => none) k v h.csum }
  | .ledger k v => { h with ledger := smSet (fun _ => ledgerReset) k v h.ledger }
  | .shadow k v => { h with shadow := smSet (fun _ => none) k v h.shadow }
  | .tslots k v => { h with tslots := smSet (fun _ => {}) k v h.tslots }
  | .windows k v => { h with windows := smSet (fun _ => {}) k v h.windows }
  | .routes k v => { h with routes := smSet (fun _ => 0) k v h.routes }
  | .quarters k v => { h with quarters := smSet (fun _ => {}) k v h.quarters }
  | .ports k v => { h with ports := smSet (fun _ => {}) k v h.ports }
  | .rings k v => { h with rings := smSet (fun _ => {}) k v h.rings }
  | .book k v => { h with book := smSet (fun _ => 0) k v h.book }
  | .mgroups k v => { h with mgroups := smSet (fun _ => 0) k v h.mgroups }
  | .mlayers k v => { h with mlayers := smSet (fun _ => 0) k v h.mlayers }
  | .mlayerX k v => { h with mlayerX := smSet (fun _ => {}) k v h.mlayerX }
  | .millSums k v => { h with millSums := smSet (fun _ => 0) k v h.millSums }
  | .accRow k vs => { h with accs := smSetRange (accDflt h.epochs) k vs h.accs }
  | .zeroAccs f => zeroAccs h f
  | .mem sp a bs => memWrite h sp a bs
  | .undef r => undefRegion h r
  | .drop m lo hi => dropRange h m lo hi

/-- Every memory is in the canonical form: addresses strictly rise, and no entry is what an unlisted address reads as. -/
def Memory.wf (h : Hw) : Bool :=
  smWf (memDflt h .hostMem) h.hostMem && smWf (memDflt h .barn) h.barn && smWf (memDflt h .commons) h.commons &&
    smWf (memDflt h .hbm) h.hbm && smWf (memDflt h .slow) h.slow

/-- Every sparse map is in the canonical form. -/
def Maps.wf (h : Hw) : Bool :=
  smWf (accDflt h.epochs) h.accs &&
    smWf resetReg h.regs &&
    smWf resetReg h.stored &&
    smWf msixDflt h.msix &&
    smWf (fun _ => (0 : Nat)) h.sigs &&
    smWf (fun _ => (0 : Nat)) h.keepAdds &&
    smWf (fun _ => ({} : Slot)) h.slots &&
    smWf (fun _ => ({} : StreamX)) h.streams &&
    smWf (fun _ => ({} : CroftX)) h.crofts &&
    smWf (fun _ => ({} : FieldX)) h.fields &&
    smWf (fun _ => (none : Option Word)) h.csum &&
    smWf (fun _ => (0 : Nat)) h.epochs &&
    smWf (fun _ => (ledgerReset : BitVec 128)) h.ledger &&
    smWf (fun _ => (none : Option (BitVec 128))) h.shadow &&
    smWf (fun _ => ({} : TallySlot)) h.tslots &&
    smWf (fun _ => ({} : WinX)) h.windows &&
    smWf (fun _ => (0 : BitVec 64)) h.routes &&
    smWf (fun _ => ({} : QuarterX)) h.quarters &&
    smWf (fun _ => ({} : PortX)) h.ports &&
    smWf (fun _ => ({} : RingX)) h.rings &&
    smWf (fun _ => (0 : Nat)) h.book &&
    smWf (fun _ => (0 : BitVec 512)) h.mgroups &&
    smWf (fun _ => (0 : BitVec 512)) h.mlayers &&
    smWf (fun _ => ({} : MillLayerX)) h.mlayerX &&
    smWf (fun _ => (0 : Nat)) h.millSums

/-- Every listed register differs from its reset value only in bits that its page implements: reserved bits and reserved offsets read
as 0, and `ID` and `VERSION` as their constants (R9, R36). -/
def Regs.wf (h : Hw) : Bool := h.regs.all (fun kv => decide (keepReg kv.1 kv.2 = kv.2))

/-- The form every state of a run has. -/
def Hw.wf (h : Hw) : Bool := Memory.wf h && Maps.wf h && Regs.wf h

def applyAll (us : List Upd) (h : Hw) : Hw := us.foldl applyUpd h

/-- An effect: the updates a device in a given state makes, in order. -/
abbrev Eff := Hw → List Upd

def skip : Eff := fun _ => []

/-- One effect after another: the second sees what the first did. -/
def andThen (a b : Eff) : Eff := fun h =>
  let u := a h
  u ++ b (applyAll u h)

/-- Effects in order. -/
def chain : List Eff → Eff
  | [] => skip
  | [e] => e
  | e :: es => andThen e (chain es)

/-- An effect chosen by the state it meets. -/
def look {α : Type} (f : Hw → α) (k : α → Eff) : Eff := fun h => k (f h) h

def ifE (p : Hw → Bool) (a b : Eff) : Eff := fun h => if p h then a h else b h

def whenE (p : Hw → Bool) (a : Eff) : Eff := ifE p a skip

def whenB (p : Bool) (a : Eff) : Eff := if p then a else skip

/-- The same effect for each member of a list, in order. -/
def forE {α : Type} : List α → (α → Eff) → Eff
  | [], _ => skip
  | x :: xs, f => andThen (f x) (forE xs f)

/-- Run an effect on a device. -/
def runE (e : Eff) (h : Hw) : Hw := applyAll (e h) h

/-- The meaning of a command with an effect: a next state whose queue is the state's own. -/
def run (e : Eff) (s : State) : Host.Outcome State Fault Refusal := .next { s with hw := runE e s.hw }

-- registers

def reg (h : Hw) (a : Nat) : Word := smGet resetReg h.regs a

/-- The stored value of an RWS register (R10). -/
def storedReg (h : Hw) (a : Nat) : Word := smGet resetReg h.stored a

def setReg (a : Nat) (v : Word) : Eff := fun _ => [.regs a v]

/-- A field of a register. -/
def getF (h : Hw) (f : Fld) (i : Nat) : Nat := bits (reg h (fAddr f i)).toNat f.hi f.lo

/-- Put a value into bits [hi:lo] of a word. -/
def putBits (w hi lo v : Nat) : Nat :=
  let n := 2 ^ (hi - lo + 1)
  w % 2 ^ lo + (v % n) * 2 ^ lo + (w / 2 ^ (hi + 1)) * 2 ^ (hi + 1)

def setF (f : Fld) (i v : Nat) : Eff := fun h =>
  [.regs (fAddr f i) (BitVec.ofNat 32 (putBits (reg h (fAddr f i)).toNat f.hi f.lo v))]

def flag (h : Hw) (f : Fld) (i : Nat) : Bool := getF h f i != 0

def setFlag (f : Fld) (i : Nat) (b : Bool) : Eff := setF f i (b2n b)

/-- Add to a counter; counters wrap in their width. -/
def addF (f : Fld) (i n : Nat) : Eff := fun h => setF f i (getF h f i + n) h

def incF (f : Fld) (i : Nat) : Eff := addF f i 1

/-- A counter that saturates at its largest value. -/
def addSatF (f : Fld) (i n : Nat) : Eff := fun h => setF f i (min (getF h f i + n) (2 ^ (f.hi - f.lo + 1) - 1)) h

/-- Raise a peak register (R7). -/
def peakF (f : Fld) (i v : Nat) : Eff := fun h => if getF h f i < v then setF f i v h else []

/-- A register pair as one number. -/
def getPair (h : Hw) (lo hi : Fld) (i : Nat) : Nat := getF h lo i + getF h hi i * 2 ^ 32

def setPair (lo hi : Fld) (i v : Nat) : Eff := chain [setF lo i (v % 2 ^ 32), setF hi i (v / 2 ^ 32)]

-- blocks

def strmIx : Strm → Nat
  | .F => 0 | .B => 1 | .U => 2

def streamX (h : Hw) (i : Nat) : StreamX := smGet (fun _ => {}) h.streams i
def croftX (h : Hw) (i : Nat) : CroftX := smGet (fun _ => {}) h.crofts i
def fieldX (h : Hw) (i : Nat) : FieldX := smGet (fun _ => {}) h.fields i
def quarterX (h : Hw) (i : Nat) : QuarterX := smGet (fun _ => {}) h.quarters i
def portX (h : Hw) (i : Nat) : PortX := smGet (fun _ => {}) h.ports i
def ringX (h : Hw) (i : Nat) : RingX := smGet (fun _ => {}) h.rings i
def winX (h : Hw) (i : Nat) : WinX := smGet (fun _ => {}) h.windows i
def mlayerXOf (h : Hw) (i : Nat) : MillLayerX := smGet (fun _ => {}) h.mlayerX i
def sigVal (h : Hw) (c i : Nat) : Nat := smGet (fun _ => 0) h.sigs (64 * c + i)
def slotOf (h : Hw) (c i : Nat) : Slot := smGet (fun _ => {}) h.slots (32 * c + i)
def tslotOf (h : Hw) (c i : Nat) : TallySlot := smGet (fun _ => {}) h.tslots (64 * c + i)
def ledgerOf (h : Hw) (q e : Nat) : BitVec 128 := smGet (fun _ => ledgerReset) h.ledger (16384 * q + e)
def shadowOf (h : Hw) (q e : Nat) : Option (BitVec 128) := smGet (fun _ => none) h.shadow (16384 * q + e)
def accOf (h : Hw) (fi k : Nat) : BitVec 36 := smGet (accDflt h.epochs) h.accs (65536 * fi + k)
def routeOf (h : Hw) (q x : Nat) : BitVec 64 := smGet (fun _ => 0) h.routes (32768 * q + x)
def bookSlot (h : Hw) (n : Nat) : Nat := smGet (fun _ => 0) h.book n

def modStream (i : Nat) (f : StreamX → StreamX) : Eff := fun h => [.streams i (f (streamX h i))]
def modCroft (i : Nat) (f : CroftX → CroftX) : Eff := fun h => [.crofts i (f (croftX h i))]
def modField (i : Nat) (f : FieldX → FieldX) : Eff := fun h => [.fields i (f (fieldX h i))]
def modQuarter (i : Nat) (f : QuarterX → QuarterX) : Eff := fun h => [.quarters i (f (quarterX h i))]
def modPort (i : Nat) (f : PortX → PortX) : Eff := fun h => [.ports i (f (portX h i))]
def modRing (i : Nat) (f : RingX → RingX) : Eff := fun h => [.rings i (f (ringX h i))]
def modWin (i : Nat) (f : WinX → WinX) : Eff := fun h => [.windows i (f (winX h i))]
def modLayerX (i : Nat) (f : MillLayerX → MillLayerX) : Eff := fun h => [.mlayerX i (f (mlayerXOf h i))]
def modBell (f : BellX → BellX) : Eff := fun h => [.bell (f h.bell)]
def modMill (f : MillX → MillX) : Eff := fun h => [.mill (f h.mill)]
def modGate (f : GateX → GateX) : Eff := fun h => [.gate (f h.gate)]
def modStew (f : StewardX → StewardX) : Eff := fun h => [.stew (f h.stew)]

def emit (o : Out) : Eff := fun h => [.outbox (o :: h.outbox)]

/-- Draw a free word. -/
def drawFree (k : Word → Eff) : Eff := fun h => andThen (fun _ => [.free (h.free + 1)]) (k (Config.freeWord h.free)) h

-- memory

def rdBytes (h : Hw) (sp : MemSp) : Nat → Nat → List Byte
  | _, 0 => []
  | a, n + 1 => rd8 h sp a :: rdBytes h sp (a + 1) n

/-- A little-endian number of n bytes. -/
def rdNat (h : Hw) (sp : MemSp) (a n : Nat) : Nat := ofLe (rdBytes h sp a n)

def wrBytes (sp : MemSp) (a : Nat) (bs : List Byte) : Eff := fun _ => [.mem sp a bs]

def wrNat (sp : MemSp) (a n v : Nat) : Eff := wrBytes sp a (leBytes n v)

/-- The spaces a sluice or a message names: 0 barn of croft c, 1 commons of quarter q, 2 HBM of quarter q (R193). -/
def spMem : Nat → MemSp
  | 0 => .barn | 1 => .commons | _ => .hbm

/-- Address of a space's byte in its memory's map. -/
def spAddr (sp q c a : Nat) : Nat :=
  match sp with
  | 0 => c * 0xC00000 + a
  | 1 => q * 0x4000000 + a
  | _ => q * hbmD + a

/-- Size of a space in bytes. -/
def spSize : Nat → Nat
  | 0 => 0xC00000 | 1 => 0x4000000 | _ => hbmD

def barnRd (h : Hw) (c a n : Nat) : List Byte := rdBytes h .barn (c * 0xC00000 + a) n
def barnNat (h : Hw) (c a n : Nat) : Nat := rdNat h .barn (c * 0xC00000 + a) n

def csumKey (sp q c t : Nat) : Nat :=
  match sp with
  | 0 => csumKeyBarn c t
  | 1 => csumKeyCommons q t
  | _ => csumKeyHbm q t

/-- A tile-checksum slot; one that nothing has written holds an arbitrary value (R218). -/
def csumGet (h : Hw) (key : Nat) : Word :=
  match smGet (fun _ => none) h.csum key with
  | some v => v
  | none => Config.freeCsum (smGet (fun _ => 0) h.epochs (regionCsum key)) key

def csumSet (key : Nat) (v : Word) : Eff := fun _ => [.csum key (some v)]

/-- CRC-32C of a tile's current contents (R216). -/
def tileCrc (h : Hw) (sp q c t : Nat) : Word :=
  BitVec.ofNat 32 (crc32c (rdBytes h (spMem sp) (spAddr sp q c (4096 * t)) 4096))

/-- Write the slot of a tile from the tile's current contents (R217). -/
def sealTile (sp q c t : Nat) : Eff := fun h => csumSet (csumKey sp q c t) (tileCrc h sp q c t) h

end Sys2Proof.Machine
end

