-- ==== Sys2Proof/Machine/Flags.lean ====
section
/-! DEFINITION. Events, records and interrupts (R38 to R44), the abandon of a step (R267), and the module clk. -/

namespace Sys2Proof.Machine

/-- An event is pending and enabled on the page whose `EVENT_RAW` lies at `a`, with severity `sev`. -/
def pendAt (h : Hw) (a sev : Nat) : Bool :=
  let raw := (reg h a).toNat &&& (reg h (a + 4)).toNat
  decide (raw ≠ 0) &&
    (List.range 16).any (fun e => bit raw e && decide (bits (reg h (a + 12)).toNat (2 * e + 1) (2 * e) = sev))

/-- Some enabled event of a severity is pending anywhere in the device (R44). -/
def anyPending (h : Hw) (sev : Nat) : Bool :=
  h.regs.any (fun kv => decide (kv.1 % 0x1000 = 0x10) && pendAt h kv.1 sev)

/-- The host port carries no transaction: link down, FLR in progress, or input lost (R396). -/
def hostAway (h : Hw) : Bool := h.gate.linkDown || h.gate.flr || h.gate.off

/-- An access that software makes through the host port: none arrives while the port carries no transaction (R396). -/
def bySoftware (e : Eff) : Eff := fun h => if hostAway h then [] else e h

/-- A read that software makes through the host port: during an FLR it returns all ones (R396). -/
def readBySoftware (e : Eff) : Eff := fun h =>
  if h.gate.linkDown || h.gate.off then [] else if h.gate.flr then emit (.regData 0xFFFFFFFF) h else e h

/-- A host access to device memory on CXL.mem: an FLR does not stop it (R395, R396). -/
def byHostMemory (e : Eff) : Eff := fun h => if h.gate.linkDown || h.gate.off then [] else e h

/-- The bits of the reset page's `STATUS` for quarter q. -/
def quarterInReset (h : Hw) (q : Nat) : Bool := bit (getF h reset_STATUS_IN_RESET 0) q
def quarterParked (h : Hw) (q : Nat) : Bool := bit (getF h reset_STATUS_PARKED 0) q

/-- A quarter that answers nothing: in reset, parked, or failed (R21, R28). -/
def quarterGone (h : Hw) (q : Nat) : Bool := quarterInReset h q || quarterParked h q || (quarterX h q).dead

/-- A write of a register of quarter q: nothing takes it where the quarter does not answer (R21, R28). -/
def byQuarter (q : Nat) (e : Eff) : Eff := bySoftware (whenE (fun h => !quarterGone h q) e)

/-- A vector waits: its table entry or the whole function is masked, or the host link is down (R392, as PCIe defines it). -/
def msixHeld (h : Hw) (v : Nat) : Bool :=
  bit (smGet msixDflt h.msix (0x202000 + 16 * v + 12)).toNat 0 || h.gate.msixMask || h.gate.linkDown

/-- Send an MSI-X vector, or leave it pending where it is held; a function whose MSI-X is not enabled sends none (R392, R396). -/
def sendMsix (v : Nat) : Eff := fun h =>
  if !h.gate.msixOn then []
  else if msixHeld h v then
    let p := 0x203000 + 4 * (v / 32)
    [.msix p (smGet msixDflt h.msix p ||| BitVec.ofNat 32 (2 ^ (v % 32)))]
  else [.outbox (.msix v :: h.outbox)]

/-- `SEV`e of a page. -/
def sevOf (h : Hw) (p : Page) (e : Nat) : Nat := bits (reg h (sevAddr p)).toNat (2 * e + 1) (2 * e)

/-- The vector of a severity (R43). -/
def sevVector (h : Hw) (sev : Nat) : Nat := bits (reg h 0x1048).toNat (8 * sev + 5) (8 * sev)

def rawBit (h : Hw) (p : Page) (e : Nat) : Bool := bit (reg h (rawAddr p)).toNat e

/-- Clk since the last local edge, as R496 records it. -/
def sinceEdge (h : Hw) : Nat :=
  match h.bell.lastEdge with
  | none => 0xFFFFFFFF
  | some c => min (h.clk - c) 0xFFFFFFFF

/-- The last step bell's `STEP` and `ATTEMPT`, 0 when none has been made (R496). -/
def stepAttempt (h : Hw) : Nat × Nat :=
  match h.bell.lastStep with
  | none => (0, 0)
  | some x => x

/-- `STATUS` of a page with its live `EVENT_PENDING` bit. -/
def statusWord (h : Hw) (p : Page) : Nat :=
  let b := pageBase p.kind p.inst
  let s := (reg h (b + 0xC)).toNat
  s ||| (if (reg h (b + 0x10)).toNat &&& (reg h (b + 0x14)).toNat = 0 then 0 else 2 ^ 31)

/-- The record of a page event (R39, R493, R496), made after the raw bit was set. -/
def eventRecord (h : Hw) (p : Page) (e : Nat) (forced : Bool) : QRec :=
  let sa := stepAttempt h
  { bell := (match h.bell.lastEdge with | none => 0 | some _ => h.bell.edgeBell % 2 ^ 32)
    source := pageId p
    code := e
    sev := sevOf h p e
    flags := b2n forced
    payload := (reg h (rawAddr p)).toNat + statusWord h p * 2 ^ 32 + sa.1 % 2 ^ 48 * 2 ^ 64 + sa.2 % 2 ^ 16 * 2 ^ 112 +
      sinceEdge h * 2 ^ 128 }

/-- Set a raw bit and forward the event when it is enabled and no enabled event of its severity is pending (R39, R44); the message
itself follows in EVENT_MESSAGE. -/
def markEvent (p : Page) (e : Nat) : Eff := fun h =>
  let sev := sevOf h p e
  let send := bit (reg h (enableAddr p)).toNat e && !anyPending h sev
  chain [setReg (rawAddr p) (reg h (rawAddr p) ||| BitVec.ofNat 32 (2 ^ e)), whenB send (modGate (fun g => { g with evMsgs := g.evMsgs ++ [sev] }))] h

def bookPage : Page := ⟨.book, 0⟩

/-- Count a drop of a severity (R41, R499). -/
def countDrop (sev : Nat) : Eff := incF (book_DROP sev) 0

/-- An event that itself arrives while the queue is full: it is latched, and its record is dropped and counted (R41, R48). -/
def dropEvent (p : Page) (e : Nat) : Eff := fun h =>
  if rawBit h p e then []
  else chain [markEvent p e, countDrop (sevOf h p e), incF gateEvt_QUEUE_DROPS 0] h

/-- EVENT_MESSAGE (R43, R44): the oldest message that is due is sent on the vector of its severity. -/
def effEventMessage : Eff := fun h =>
  match h.gate.evMsgs with
  | [] => []
  | sev :: rest => chain [modGate (fun g => { g with evMsgs := rest }), sendMsix (sevVector h sev)] h

/-- Queue a record; with 256 waiting it is dropped and counted, and `QUEUE_FULL` and `BOOK_DROP` are raised (R41, R499). -/
def queueRecord (r : QRec) : Eff := fun h =>
  if h.gateQ.length < 256 then [.gateQ (h.gateQ ++ [r])]
  else chain [countDrop r.sev, incF gateEvt_QUEUE_DROPS 0, dropEvent ⟨.gateEvt, 0⟩ 0, dropEvent bookPage 1] h

/-- Event e of page p occurs (R39); `forced` marks its record (R40). A `FROZEN_HIT` of the mill queues no record, because
direct records stand for it (R312). -/
def raiseForced (p : Page) (e : Nat) (forced : Bool) : Eff := fun h =>
  let was := rawBit h p e
  chain [markEvent p e,
    whenB (!was && !(p.kind == .mill && e == 5)) (look (fun h => eventRecord h p e forced) queueRecord)] h

def raise (k : PageKind) (i e : Nat) : Eff := raiseForced ⟨k, i⟩ e false

/-- Each event of a mask, in ascending bit. -/
def raiseMask (k : PageKind) (i m : Nat) : Eff :=
  forE ((List.range 16).filter (fun e => bit m e)) (fun e => raise k i e)

/-- A direct record of the mill (R497): page ID 0x0000_000B, flag DIRECT, step number and subject. -/
def millRecord (code sev subject : Nat) : Eff := fun h =>
  queueRecord
    { bell := (match h.bell.lastEdge with | none => 0 | some _ => h.bell.edgeBell % 2 ^ 32), source := 0xB, code := code,
      sev := sev, flags := 2, payload := (stepAttempt h).1 % 2 ^ 48 + subject % 2 ^ 32 * 2 ^ 64 } h

/-- The clk is that of a close edge that has been made: an abandon belongs to the closing attempt (R267, R280). -/
def inCloseClk (h : Hw) : Bool := h.bell.closeClk == some h.clk

/-- The clk is that of a verdict edge that has been made: what the tallies count in it belongs to the sheet that closed (R231, R253). -/
def inVerdictClk (h : Hw) : Bool := h.bell.verdictClk == some h.clk

/-- Flag A and its reach (R267): A is set, and the abandon has still to reach every croft. In the clk of a close edge it is reported
with that edge, and A stands until the window opens in the following clk. -/
def setA : Eff := fun h =>
  let close := inCloseClk h
  chain [setFlag bellMaster_STATUS_DEVICE_A 0 true,
    modBell (fun b => { b with
      reach := List.range 64, acks := b.acks.map (fun a => if close && a.isClose && a.edge == some h.clk then { a with anom := true } else a) }),
    modMill (fun m => if close then { m with cuWindow := true } else { m with cuAnom := true })] h

/-- The first abandoning page of the window is captured (R267, R283). -/
def captureSrc (p : Page) (q : Nat) : Eff := whenE (fun h => getF h bellRcv_ABANDON_SRC q == 0) (setF bellRcv_ABANDON_SRC q (pageId p))

/-- An abandon raised by a page of quarter q (R139, R267). -/
def abandonQ (p : Page) (q : Nat) : Eff := chain [setA, captureSrc p q, setFlag bellRcv_STATUS_ANOM q true, raise .bellRcv q 0]

/-- The next anomaly window opens, in the clk after a close edge: A and the captures of the closed window are cleared (R267). -/
def openWindow : Eff := chain [setFlag bellMaster_STATUS_DEVICE_A 0 false,
  forE (List.range 4) (fun q => chain [setFlag bellRcv_STATUS_ANOM q false, setF bellRcv_ABANDON_SRC q 0]),
  modBell (fun b => { b with closeClk := none })]

/-- An abandon raised by a unit that belongs to no quarter: the mill or the power page (R267). -/
def abandonGate (p : Page) : Eff := chain [setA, forE (List.range 4) (captureSrc p)]

/-- A hold is requested on this device (R268, R276). -/
def askHold : Eff := modBell (fun b => { b with holdReq := true })

/-- An abandon raised by croft c's page. -/
def abandonCroft (k : PageKind) (i c : Nat) : Eff := abandonQ ⟨k, i⟩ (c / 16)

-- streams as registers

def strmState (h : Hw) (i : Nat) : Nat := getF h stream_STATUS_STATE i

def setState (i s : Nat) : Eff := setF stream_STATUS_STATE i s

def fldIx (c f : Nat) : Nat := 4 * c + f

/-- `CROFT.STATUS.RUNNING` (R156): `RUN` is 1 and not every stream is `STOPPED`. A write of 0 leaves `RUN` at 1 while it is pending
(R127). -/
def croftRunning (h : Hw) (c : Nat) : Bool :=
  flag h croft_CTRL_RUN c &&
    (List.range 3).any (fun s => strmState h (3 * c + s) != 0)

def fieldIdle (h : Hw) (i : Nat) : Bool := !flag h field_STATUS_BUSY i

/-- The croft is idle (R136): every stream at the bell, halted or parked, and fields, sluice and vector unit idle. -/
def croftIdle (h : Hw) (c : Nat) : Bool :=
  (List.range 3).all (fun s => let x := strmState h (3 * c + s); x == 5 || x == 6 || x == 8) &&
  (List.range 4).all (fun f => fieldIdle h (4 * c + f)) &&
  (croftX h c).sluice.isEmpty && (croftX h c).vec.isEmpty

-- counting signals

/-- What a stream's fault does (R146 to R148); a `FAULTED` stream is never late (R140). -/
def streamFault (i cause pc : Nat) : Eff := fun h =>
  if strmState h i = 7 then []
  else chain [setState i 7, setFlag stream_STATUS_LATE i false, setF stream_FAULT_INFO i cause, setF stream_FAULT_PC i pc, raise .stream i 2,
    abandonQ ⟨.stream, i⟩ (i / 48)] h

def setSig (c i v : Nat) : Eff := fun _ => [.sigs (64 * c + i) v]

/-- The signal effects of the running clk: none yet where the record is of an earlier one. -/
def sigNow (h : Hw) : SigNow := if h.sigNow.clk = h.clk then h.sigNow else { clk := h.clk }

def noteSig (f : SigNow → SigNow) : Eff := fun h => [.sigNow (f (sigNow h))]

/-- The amounts that a record lists for a signal. -/
def noted (l : List (Nat × Nat)) (k : Nat) : Nat := ((l.filter (fun x => x.1 == k)).map (·.2)).sum

/-- An addition to a signal (R132, R134): above 65,535 the counter stays at 65,535, `SIGNAL_OVERFLOW` is raised, and `full` follows. -/
def addSigOr (c i n : Nat) (full : Eff) : Eff := fun h =>
  let v := sigVal h c i + n
  chain [noteSig (fun x => { x with adds := (64 * c + i, n) :: x.adds }),
    (if v ≤ 65535 then setSig c i v else chain [setSig c i 65535, raise .croft c 1, full])] h

/-- An addition by a unit (R134): one that saturates abandons the step. -/
def addSig (c i n : Nat) : Eff := addSigOr c i n (abandonCroft .croft c c)

/-- A `WAIT` or `LOOP` reduces a signal (R132, R167). -/
def subSig (c i n : Nat) : Eff := fun h =>
  chain [noteSig (fun x => { x with subs := (64 * c + i, n) :: x.subs }), setSig c i (sigVal h c i - n)] h

/-- `SIGNAL.SET` of stream s (R162, R170): it precedes every addition and every `WAIT` of its clk, whichever has been made already, and
of several streams' writes the last in the order F, B, U stands. -/
def writeSig (c s i v : Nat) : Eff := fun h =>
  let k := 64 * c + i
  let x := sigNow h
  let u := v + noted x.adds k - noted x.subs k
  if x.sets.any (fun y => y.1 == k && decide (s < y.2)) then []
  else chain [noteSig (fun x => { x with sets := (k, s) :: x.sets }),
    (if u ≤ 65535 then setSig c i u else chain [setSig c i 65535, raise .croft c 1, abandonCroft .croft c c])] h

/-- A signal that the device writes at a bell edge, at order 1 of R162: before any `SIGNAL.SET` of a stream in the same clk (R248), which
stands over it, and before the additions and the `WAIT`s of that clk. -/
def edgeSig (c i v : Nat) : Eff := fun h =>
  let k := 64 * c + i
  let x := sigNow h
  let u := v + noted x.adds k - noted x.subs k
  if x.sets.any (fun y => y.1 == k) then []
  else if u ≤ 65535 then setSig c i u h
  else chain [setSig c i 65535, raise .croft c 1, abandonCroft .croft c c] h

/-- An addition from outside the croft: a message or the mill (R143). -/
def addSigOut (c i n : Nat) : Eff := fun h =>
  chain [addSig c i n, fun _ => [.keepAdds (64 * c + i) (smGet (fun _ => 0) h.keepAdds (64 * c + i) + n)]] h

/-- A completion signal (R164). -/
def doneSig (c sig : Nat) (sen : Bool) : Eff := whenB sen (addSig c sig 1)

-- the banks of the ledger (R235, R251, R255)

def setLedger (q e : Nat) (v : BitVec 128) : Eff := fun _ => [.ledger (16384 * q + e) v]

/-- `REDUCING` and `DECIDING` (R255). -/
def showReeve (q : Nat) : Eff := fun h =>
  let x := quarterX h q
  chain [setFlag reeve0_STATUS_REDUCING q (!x.closed.isEmpty), setFlag reeve0_STATUS_DECIDING q (!x.finals.isEmpty && x.decided.isNone)] h

/-- The banks are exchanged: every decision becomes the active entry, and the shadow bank holds none (R235). -/
def exchangeBanks (q : Nat) : Eff := fun h =>
  let ks := (h.shadow.filter (fun kv => kv.1 / 16384 == q)).filterMap (fun kv => kv.2.map (fun v => (kv.1 % 16384, v)))
  chain [forE ks (fun kv => chain [setLedger q kv.1 kv.2, fun _ => [.shadow (16384 * q + kv.1) none]]),
    setFlag reeve0_STATUS_BANK q (!flag h reeve0_STATUS_BANK q),
    modQuarter q (fun x => { x with decided := none, due := x.due - 1, late := x.late - 1 }), showReeve q] h

-- the book window (R500, R504)

/-- The book window page shows what the steward holds (R504). -/
def bookCount (h : Hw) : Nat := h.book.length
def recSeq (r : Nat) : Nat := r % 2 ^ 48
def recSev (r : Nat) : Nat := bits r 210 208

/-- The record of the largest `SEQ`: slot and `SEQ`. -/
def bookHead (h : Hw) : Nat × Nat := h.book.foldl (fun m x => if m.2 < recSeq x.2 then (x.1, recSeq x.2) else m) (0, 0)

def showBook : Eff := fun h =>
  let hd := bookHead h
  chain [setF book_COUNT 0 (bookCount h), setFlag book_STATUS_FULL 0 (decide (16384 ≤ bookCount h)), setF book_HEAD_SLOT 0 hd.1,
    setFlag book_HEAD_VALID 0 (decide (0 < bookCount h)), setPair book_HEAD_SEQ_LO book_HEAD_SEQ_HI 0 hd.2,
    setFlag book_CURSOR_VALID 0 (decide (bookSlot h (getF h book_CURSOR_SLOT 0) ≠ 0)),
    setFlag book_STATUS_ERASING 0 h.stew.erasing.isSome] h

def bookCursor (h : Hw) : Nat := getF h book_CURSOR_SLOT 0

/-- The cursor names a slot: the snapshot ends, `VALID` shows whether the slot holds a record, and `END` clears (R500, R504). -/
def setCursor (n : Nat) : Eff := chain [setF book_CURSOR_SLOT 0 n, modGate (fun g => { g with bookSnap := none }), showBook,
  setFlag book_STATUS_END 0 false]

/-- The record of the smallest or, with `up` false, the largest `SEQ` among those a predicate admits. -/
def pickRecord (h : Hw) (up : Bool) (p : Nat → Bool) : Option Nat :=
  ((h.book.filter (fun x => p (recSeq x.2))).foldl (fun m x => match m with
    | none => some x
    | some y => if (if up then decide (recSeq x.2 < recSeq y.2) else decide (recSeq y.2 < recSeq x.2)) then some x else some y) none).map (·.1)

/-- The slot a move finds: 1 `NEXT` and 2 `PREV` from a `SEQ`, 3 `OLDEST`, 4 `NEWEST` (R500). -/
def moveTarget (h : Hw) (move base : Nat) : Option Nat :=
  match move with
  | 1 => pickRecord h true (fun s => decide (base < s))
  | 2 => pickRecord h false (fun s => decide (s < base))
  | 3 => pickRecord h true (fun _ => true)
  | _ => pickRecord h false (fun _ => true)

/-- The move that is under way completes (R500). -/
def endMove : Eff := fun h =>
  match h.gate.bookMove with
  | none => []
  | some (m, base) => chain [modGate (fun g => { g with bookMove := none }), setFlag book_STATUS_BUSY 0 false,
      (match moveTarget h m base with
        | some n => setCursor n
        | none => setFlag book_STATUS_END 0 true)] h

-- time

/-- What the clk after an event of quarter q brings: the signals of deliveries that have landed (R231), and the exchange of the banks
after a pass that was late at a step bell (R251). -/
def quarterNext (q : Nat) : Eff := fun h =>
  let x := quarterX h q
  chain [whenB (!x.landed.isEmpty) (chain [modQuarter q (fun x => { x with landed := [] }), forE x.landed (fun k => doneSig k.1 k.2 true)]),
    whenB (x.decided.isSome && decide (0 < x.late)) (exchangeBanks q)] h

/-- What the first clk after the reached one brings. -/
def nextClk : Eff := chain [whenE (fun h => h.bell.closeClk.isSome) openWindow, forE (List.range 4) quarterNext, endMove]

/-- Bring the module clk to at least `t`; idle crofts and busy vector units count the clks that pass (R136, R158), and what was left for the
clk after the reached one happens. -/
def passClk (t : Nat) : Eff := fun h =>
  if h.clk < t then
    let d := t - h.clk
    chain [forE ((List.range 64).filter (croftIdle h)) (fun c => addF croft_IDLE_CLK c d),
      forE ((List.range 64).filter (flag h vector_STATUS_BUSY)) (fun c => addF vector_BUSY_CLK c d),
      fun _ => [.clk (h.clk + 1)], nextClk, fun _ => [.clk t]] h
  else []

/-- Active plots of a watch tile count in its quarter's dyke (R456). -/
def tilePlots (c : Nat) (on : Bool) : Eff := fun h =>
  let q := c / 16
  let v := if on then getF h dyke_ACTIVE q + 1024 else getF h dyke_ACTIVE q - 1024
  chain [setF dyke_ACTIVE q v, whenB on (peakF dyke_ACTIVE_PEAK q v)] h

/-- The watch lets go of a croft's fields and lane (R412). -/
def watchFree (c : Nat) : Eff := forE (List.range 4) (fun f => setFlag field_STATUS_BUSY (fldIx c f) false)

/-- What happens in a watch slot at its due clks (R412, R456). -/
def watchEvent (k : Nat) : Eff := fun h =>
  chain [forE h.gate.watchCrofts (fun c => if k = 0 then tilePlots c true else if k = 1 then tilePlots c false else watchFree c),
    whenB (decide (k = 2)) (chain [modGate (fun g => { g with watchCrofts := [] }), setFlag watch_STATUS_SLOT_ACTIVE 0 false])] h

/-- A due event of the slot: its clk comes, and it happens. -/
def dueEvent (e : Nat × Nat) : Eff := chain [passClk e.1, modGate (fun g => { g with watchDue := g.watchDue.drop 1 }), watchEvent e.2]

/-- Bring the module clk to at least `t`, with what a running watch slot does on the way. -/
def advance (t : Nat) : Eff := fun h => andThen (forE (h.gate.watchDue.filter (fun e => decide (e.1 ≤ t))) dueEvent) (passClk t) h

/-- An effect that happens at module clk `t`. -/
def atClk (t : Nat) (e : Eff) : Eff := andThen (advance t) e

/-- One module clk passes: what the block does when no command waits. DESIGN CHOICE, log 2. -/
def idleTick : Eff := look (fun h => h.clk + 1) advance

-- meanings, one per command

/-- EVENT_MESSAGE. -/
def execEventMessage (s : State) : Host.Outcome State Fault Refusal :=
  run effEventMessage s

end Sys2Proof.Machine
end

