-- ==== Sys2Proof/Machine/Num.lean ====
section
/-! DEFINITION. Exact numbers and the tensor number formats of spec 03: exact arithmetic on signed dyadics, decoding of
codes, and the rounding functions of R73 to R79. -/

namespace Sys2Proof.Machine

/-- A real, NaN or infinity as R75 and R76 take them: `fin s m e` is (−1)^s × m × 2^e. -/
inductive Num where
  | nan
  | inf (neg : Bool)
  | fin (neg : Bool) (m : Nat) (e : Int)
deriving DecidableEq, Repr

def numZero : Num := .fin false 0 0

def isNan : Num → Bool
  | .nan => true
  | _ => false

def isInf : Num → Bool
  | .inf _ => true
  | _ => false

def isZero : Num → Bool
  | .fin _ 0 _ => true
  | _ => false

def isFin : Num → Bool
  | .fin _ _ _ => true
  | _ => false

/-- The sign (true for negative). -/
def numNeg : Num → Bool
  | .nan => false
  | .inf s => s
  | .fin s _ _ => s

/-- Change the sign. -/
def negate : Num → Num
  | .nan => .nan
  | .inf s => .inf (!s)
  | .fin s m e => .fin (!s) m e

def absNum : Num → Num
  | .nan => .nan
  | .inf _ => .inf false
  | .fin _ m e => .fin false m e

/-- The exact value of an integer. -/
def ofInt (i : Int) : Num := .fin (decide (i < 0)) i.natAbs 0

/-- Signed integer mantissa of a finite number at exponent `e0 ≤ e`. -/
def mantAt (s : Bool) (m : Nat) (e e0 : Int) : Int :=
  let a : Int := ((m <<< (e - e0).toNat : Nat) : Int)
  if s then -a else a

/-- The exact sum of two finite numbers. A zero sum is +0 unless both operands are −0. -/
def addFin (s1 : Bool) (m1 : Nat) (e1 : Int) (s2 : Bool) (m2 : Nat) (e2 : Int) : Num :=
  let e0 := min e1 e2
  let r := mantAt s1 m1 e1 e0 + mantAt s2 m2 e2 e0
  if r = 0 then .fin (s1 && s2 && decide (m1 = 0) && decide (m2 = 0)) 0 0 else .fin (decide (r < 0)) r.natAbs e0

/-- Exact addition, IEEE 754 on NaN and infinities. -/
def numAdd : Num → Num → Num
  | .nan, _ => .nan
  | _, .nan => .nan
  | .inf a, .inf b => if a = b then .inf a else .nan
  | .inf a, _ => .inf a
  | _, .inf b => .inf b
  | .fin s1 m1 e1, .fin s2 m2 e2 => addFin s1 m1 e1 s2 m2 e2

def numSub (a b : Num) : Num := numAdd a (negate b)

/-- Exact multiplication, IEEE 754 on NaN, infinities and zeros. -/
def numMul : Num → Num → Num
  | .nan, _ => .nan
  | _, .nan => .nan
  | .inf a, .inf b => .inf (a != b)
  | .inf a, .fin s m _ => if m = 0 then .nan else .inf (a != s)
  | .fin s m _, .inf b => if m = 0 then .nan else .inf (s != b)
  | .fin s1 m1 e1, .fin s2 m2 e2 => .fin (s1 != s2) (m1 * m2) (e1 + e2)

/-- Compare finite magnitudes m1 × 2^e1 and m2 × 2^e2. -/
def magCmp (m1 : Nat) (e1 : Int) (m2 : Nat) (e2 : Int) : Ordering :=
  let e0 := min e1 e2
  compare (m1 <<< (e1 - e0).toNat) (m2 <<< (e2 - e0).toNat)

/-- `a < b` for non-NaN numbers. -/
def numLt : Num → Num → Bool
  | .nan, _ => false
  | _, .nan => false
  | .inf a, .inf b => a && !b
  | .inf a, .fin _ _ _ => a
  | .fin _ _ _, .inf b => !b
  | .fin s1 m1 e1, .fin s2 m2 e2 =>
    let e0 := min e1 e2
    decide (mantAt s1 m1 e1 e0 < mantAt s2 m2 e2 e0)

/-- `a = b` for non-NaN numbers; zeros of either sign are equal. -/
def numEq (a b : Num) : Bool := !isNan a && !isNan b && !numLt a b && !numLt b a

/-- `rne_int` of R73 on a magnitude m × 2^e. -/
def rneMag (m : Nat) (e : Int) : Nat :=
  if 0 ≤ e then m <<< e.toNat
  else
    let k := (-e).toNat
    let q := m >>> k
    let r := m % 2 ^ k
    let h := 2 ^ (k - 1)
    if h < r then q + 1 else if r < h then q else if q % 2 = 0 then q else q + 1

/-- `rne_int` of R73 on (−1)^s × m × 2^e (ties to even are symmetric in the sign). -/
def rneInt (s : Bool) (m : Nat) (e : Int) : Int :=
  let r : Int := (rneMag m e : Int)
  if s then -r else r

/-- `top(x)`: the t with 2^t ≤ |x| < 2^(t+1), for m ≠ 0. -/
def top (m : Nat) (e : Int) : Int := (Nat.log2 m : Int) + e

/-- Format codes of R54 as numbers 0 to 15; 16 is A36 and 17 is M40 where a rounding function is applied to them. -/
abbrev fmtS32 : Nat := 15
abbrev fmtH16 : Nat := 14
abbrev fmtW16 : Nat := 13
abbrev fmtA36 : Nat := 16
abbrev fmtM40 : Nat := 17
abbrev fmtF4 : Nat := 9
abbrev fmtF6 : Nat := 10
abbrev fmtF8E : Nat := 11
abbrev fmtF8W : Nat := 12

/-- The element width in bits (R54). -/
def fmtWidth : Nat → Nat
  | 9 => 4 | 10 => 6 | 11 => 8 | 12 => 8 | 13 => 16 | 14 => 16 | 15 => 32 | 16 => 36 | 17 => 40
  | n => if n ≤ 8 then n else 0

/-- The number M of fraction bits (R54, R70, R72). -/
def fmtM : Nat → Nat
  | 9 => 1 | 10 => 2 | 11 => 3 | 12 => 2 | 13 => 7 | 14 => 10 | 15 => 23 | 16 => 25 | 17 => 31 | _ => 0

def fmtBias : Nat → Nat
  | 9 => 1 | 10 => 3 | 11 => 7 | 12 => 15 | 13 => 127 | 14 => 15 | 15 => 127 | 16 => 511 | 17 => 127 | _ => 0

/-- The top exponent emax (R57). -/
def fmtEmax : Nat → Nat
  | 9 => 2 | 10 => 4 | 11 => 8 | 12 => 15 | 13 => 127 | 14 => 15 | 15 => 127 | 16 => 511 | 17 => 127 | _ => 0

/-- Width of the exponent field. -/
def fmtEbits (f : Nat) : Nat := fmtWidth f - 1 - fmtM f

/-- `maxfin` (R57, R71) as mantissa and exponent. -/
def fmtMaxM : Nat → Nat
  | 9 => 3 | 10 => 7 | 11 => 15 | 12 => 7 | f => 2 ^ (fmtM f + 1) - 1

def fmtMaxE (f : Nat) : Int := match f with
  | 11 => 5
  | f => (fmtEmax f : Int) - fmtM f

def isQn (f : Nat) : Bool := decide (1 ≤ f) && decide (f ≤ 8)
def isShortFp (f : Nat) : Bool := decide (9 ≤ f) && decide (f ≤ 12)
def isShort (f : Nat) : Bool := decide (1 ≤ f) && decide (f ≤ 12)
/-- W16, H16 and S32. -/
def isLong (f : Nat) : Bool := decide (13 ≤ f) && decide (f ≤ 15)
/-- Formats with a block header (R54). -/
def hasHeader (f : Nat) : Bool := decide (1 ≤ f) && decide (f ≤ 13)
/-- The 1-clock formats, and those that pass the lane in a narrow step. -/
def isOneClock (f : Nat) : Bool := (decide (1 ≤ f) && decide (f ≤ 4)) || isShortFp f
def isGanged (f : Nat) : Bool := (decide (5 ≤ f) && decide (f ≤ 8)) || decide (f = 13)

/-- `round_short` of R74 on magnitude m × 2^e: the mantissa and exponent on the grid. -/
def roundShortMag (m : Nat) (e : Int) (f : Nat) : Nat × Int :=
  if m = 0 then (0, 0)
  else
    let q := max (top m e) (1 - (fmtBias f : Int)) - fmtM f
    (rneMag m (e - q), q)

/-- `encode` of R76 for a value on the grid of a short floating-point format: m × 2^e with m ≤ 2^(M+1). -/
def encodeShort (f : Nat) (s : Bool) (m : Nat) (e : Int) : Nat :=
  if m = 0 then (if f = fmtF8W && s then 0x80 else 0)
  else
    let t := top m e
    let ebits := fmtEbits f
    let sg := b2n s <<< (ebits + fmtM f)
    if t < 1 - (fmtBias f : Int) then sg + rneMag m (e - (1 - (fmtBias f : Int) - fmtM f))
    else sg + (((t + fmtBias f).toNat) <<< fmtM f) + (rneMag m (e - (t - fmtM f)) - 2 ^ fmtM f)

/-- `encode` for a grid value of a long format, A36 or M40 (R57, R70, R72). -/
def encodeLong (f : Nat) : Num → Nat
  | .nan => match f with
    | 13 => 0x7FC0 | 14 => 0x7E00 | 15 => 0x7FC00000 | 16 => 0x7FE000000 | _ => 0x7FC0000000
  | .inf s => (b2n s <<< (fmtEbits f + fmtM f)) + ((2 ^ fmtEbits f - 1) <<< fmtM f)
  | .fin s m e =>
    if m = 0 then (if f = fmtA36 then 0 else b2n s <<< (fmtEbits f + fmtM f))
    else
      let t := top m e
      (b2n s <<< (fmtEbits f + fmtM f)) + (((t + fmtBias f).toNat) <<< fmtM f) + (rneMag m (e - (t - fmtM f)) - 2 ^ fmtM f)

/-- The value of a floating-point code (R56, R57, R69, R70, R72). Qn codes need their header: see `qValue`. -/
def decodeFp (f code : Nat) : Num :=
  let M := fmtM f
  let eb := fmtEbits f
  let s := bit code (eb + M)
  let e := bits code (eb + M - 1) M
  let m := code % 2 ^ M
  let allOnes := decide (e = 2 ^ eb - 1)
  if isShortFp f then
    if f = fmtF8W then
      if allOnes then (if m = 0 then .inf s else .nan)
      else if e = 0 then .fin s m (1 - (fmtBias f : Int) - M)
      else .fin s (2 ^ M + m) ((e : Int) - fmtBias f - M)
    else if s && decide (e = 0) && decide (m = 0) then .nan
    else if e = 0 then .fin s m (1 - (fmtBias f : Int) - M)
    else .fin s (2 ^ M + m) ((e : Int) - fmtBias f - M)
  else if e = 0 then .fin (if f = fmtA36 then false else s) 0 0
  else if allOnes then (if f = fmtA36 then .nan else if m = 0 then .inf s else .nan)
  else .fin s (2 ^ M + m) ((e : Int) - fmtBias f - M)

/-- The hardware value of a Qn code in a block with zero point z and block exponent E8 (R62). -/
def qValue (q z e8 : Nat) : Num :=
  let d : Int := (q : Int) - z
  .fin (decide (d < 0)) d.natAbs ((e8 : Int) - 127)

/-- Scale by 2^k. -/
def scale2 (k : Int) : Num → Num
  | .fin s m e => .fin s m (e + k)
  | x => x

/-- The value of an element of a block whose header is `E8`, `AUX` (R62, R67). -/
def elemValue (f code e8 aux : Nat) : Num :=
  if e8 = 255 then .nan
  else if isQn f then qValue code aux e8
  else scale2 ((e8 : Int) - 127) (decodeFp f code)

/-- `rne_long` of R75: value, saturation flag, zeroed flag. `toInf` is mode `inf`. -/
def rneLong (x : Num) (f : Nat) (toInf : Bool) : Num × Bool × Bool :=
  match x with
  | .nan => (.nan, false, false)
  | .inf s => (.inf s, false, false)
  | .fin s m e =>
    if m = 0 then (.fin s 0 0, false, false)
    else
      let q := top m e - fmtM f
      let r := rneMag m (e - q)
      if magCmp r q (fmtMaxM f) (fmtMaxE f) = .gt then
        (if toInf then .inf s else .fin s (fmtMaxM f) (fmtMaxE f), true, false)
      else if magCmp r q 1 (1 - (fmtBias f : Int)) = .lt then (.fin s 0 0, false, true)
      else (.fin s r q, false, false)

/-- `rne_long` and then the code. -/
def roundCode (x : Num) (f : Nat) (toInf : Bool) : Nat × Bool × Bool :=
  let r := rneLong x f toInf
  (encodeLong f r.1, r.2.1, r.2.2)

/-- What `cvt_short` of R76 returns: the code, or `block_nan`. -/
structure ShortCode where
  code : Nat := 0
  blockNan : Bool := false
  sat : Bool := false
  zeroed : Bool := false
deriving DecidableEq, Repr

def nanCode : Nat → Nat
  | 9 => 0x8 | 10 => 0x20 | 11 => 0x80 | _ => 0x7E

def infCode (s : Bool) : Nat := if s then 0xFC else 0x7C

/-- `cvt_short` of R76. -/
def cvtShort (x : Num) (f e8 z : Nat) (infok : Bool) : ShortCode :=
  let satFp (s : Bool) : ShortCode :=
    if f = fmtF8W && infok then { code := infCode s, sat := true }
    else { code := encodeShort f s (fmtMaxM f) (fmtMaxE f), sat := true }
  match x with
  | .nan => if isQn f then { blockNan := true } else { code := nanCode f }
  | .inf s =>
    if e8 = 255 then (if isQn f then { blockNan := true } else { code := nanCode f })
    else if isQn f then { code := if s then 0 else 2 ^ fmtWidth f - 1, sat := true }
    else satFp s
  | .fin s m e =>
    if e8 = 255 then (if isQn f then { blockNan := true } else { code := nanCode f })
    else
      let e' := e - ((e8 : Int) - 127)
      if isQn f then
        let topCode : Int := 2 ^ fmtWidth f - 1
        let y := rneInt s m e'
        if y + z > topCode then { code := topCode.toNat, sat := true }
        else if y + z < 0 then { code := 0, sat := true }
        else { code := (y + z).toNat, zeroed := decide (m ≠ 0) && decide (y = 0) }
      else
        let r := roundShortMag m e' f
        if magCmp r.1 r.2 (fmtMaxM f) (fmtMaxE f) = .gt then satFp s
        else { code := encodeShort f s r.1 r.2, zeroed := decide (m ≠ 0) && decide (r.1 = 0) }

/-- The larger of two finite magnitudes, as mantissa and exponent. -/
def maxMag (a b : Nat × Int) : Nat × Int := if magCmp a.1 a.2 b.1 b.2 = .lt then b else a

/-- The largest finite magnitude of a list; (0, 0) if there is none. -/
def maxFinite (xs : List Num) : Nat × Int :=
  xs.foldl (fun acc x => match x with | .fin _ m e => maxMag acc (m, e) | _ => acc) (0, 0)

/-- `jit_e8` of R77. -/
def jitE8 (xs : List Num) (f : Nat) : Nat :=
  if xs.all isNan then 255
  else
    let a := maxFinite xs
    if a.1 = 0 then 127
    else
      let e8 : Int := 127 + top a.1 a.2 - fmtEmax f
      let r := roundShortMag a.1 (a.2 - (e8 - 127)) f
      let e8 := if magCmp r.1 r.2 (fmtMaxM f) (fmtMaxE f) = .gt then e8 + 1 else e8
      (min (max e8 0) 254).toNat

/-- The element exponent of a floating-point code (R60), none for NaN and infinity codes. -/
def elemExp (f code : Nat) : Option Int :=
  match decodeFp f code with
  | .fin _ _ _ =>
    let e := bits code (fmtEbits f + fmtM f - 1) (fmtM f)
    some (if e = 0 then 1 - (fmtBias f : Int) else (e : Int) - fmtBias f)
  | _ => none

/-- `AUX` of a floating-point block (R66): its maximum element exponent as a byte, 0 with no finite element. -/
def auxOf (f : Nat) (codes : List Nat) : Nat :=
  match codes.filterMap (elemExp f) with
  | [] => 0
  | x :: xs => wrapInt (xs.foldl max x) 8

/-- `E8` and `AUX` of a header word (R65). -/
def hdrE8 (h : Nat) : Nat := h % 256
def hdrAux (h : Nat) : Nat := (h / 256) % 256
def mkHdr (aux e8 : Nat) : Nat := (aux % 256) * 256 + e8 % 256

/-- A well-formed block header (R67). -/
def hdrOk (f h : Nat) (codes : List Nat) : Bool :=
  decide (hdrE8 h = 255) ||
    (if isQn f then decide (hdrAux h ≤ 2 ^ fmtWidth f - 1)
     else decide (hdrAux h = auxOf f codes) && (decide (f ≠ fmtW16) || decide (hdrE8 h = 0x7F)))

/-- The `n` codes of width `w` packed in a payload from bit 0 up (R64). -/
def unpackCodes (w : Nat) : Nat → Nat → List Nat
  | 0, _ => []
  | n + 1, x => x % 2 ^ w :: unpackCodes w n (x / 2 ^ w)

def packCodes (w : Nat) : List Nat → Nat
  | [] => 0
  | c :: cs => c % 2 ^ w + 2 ^ w * packCodes w cs

/-- A block written from its `cvt_short` results (R66, R68): header and codes. -/
def shortBlock (f e8 z : Nat) (cs : List ShortCode) : Nat × List Nat :=
  if isQn f then
    (if cs.any (·.blockNan) then (mkHdr z 255, cs.map (fun _ => z)) else (mkHdr z e8, cs.map (·.code)))
  else
    let codes := cs.map (·.code)
    (mkHdr (auxOf f codes) e8, codes)

/-- `sr_m40` of R79: the value and the saturation flag. -/
def srM40 (x : Num) (r : Nat) : Num × Bool :=
  match x with
  | .nan => (.nan, false)
  | .inf s => (.inf s, false)
  | .fin s m e =>
    if m = 0 then (numZero, false)
    else
      let ue := top m e - 31
      -- |x| / u = m × 2^(e - ue)
      let k := e - ue
      let lo := if 0 ≤ k then m <<< k.toNat else m >>> (-k).toNat
      let up : Bool :=
        if 0 ≤ k then false
        else decide (r * 2 ^ (-k).toNat < (m % 2 ^ (-k).toNat) * 2 ^ 32)
      let v := if up then lo + 1 else lo
      if magCmp v ue (fmtMaxM fmtM40) (fmtMaxE fmtM40) = .gt then (.fin s (fmtMaxM fmtM40) (fmtMaxE fmtM40), true)
      else if magCmp v ue 1 (-126) = .lt then (.fin s 0 0, false)
      else (.fin s v ue, false)

/-- Exact quotient with enough bits and a sticky bit that any rounding to at most 40 bits is exact. -/
def divFin (s : Bool) (m1 : Nat) (e1 : Int) (m2 : Nat) (e2 : Int) : Num :=
  let sh := 64 + Nat.log2 m2
  let n := m1 <<< sh
  let q := n / m2
  .fin s (2 * q + (if n % m2 = 0 then 0 else 1)) (e1 - e2 - sh - 1)

/-- Division with the IEEE 754 results for NaN, infinities and zeros. -/
def numDiv : Num → Num → Num
  | .nan, _ => .nan
  | _, .nan => .nan
  | .inf a, .inf _ => if a then .nan else .nan
  | .inf a, .fin s _ _ => .inf (a != s)
  | .fin s _ _, .inf b => .fin (s != b) 0 0
  | .fin s1 m1 e1, .fin s2 m2 e2 =>
    if m2 = 0 then (if m1 = 0 then .nan else .inf (s1 != s2))
    else if m1 = 0 then .fin (s1 != s2) 0 0
    else divFin (s1 != s2) m1 e1 m2 e2

/-- Integer square root by bits from the top, structurally on the number of result bits. -/
def isqrtGo : Nat → Nat → Nat → Nat
  | 0, _, r => r
  | k + 1, n, r =>
    let c := r + 2 ^ k
    isqrtGo k n (if c * c ≤ n then c else r)

def isqrt (n : Nat) : Nat := isqrtGo (Nat.log2 n / 2 + 1) n 0

/-- Square root with enough bits and a sticky bit. -/
def numSqrt : Num → Num
  | .nan => .nan
  | .inf s => if s then .nan else .inf false
  | .fin s m e =>
    if m = 0 then .fin s 0 0
    else if s then .nan
    else
      let sh : Nat := 128 + (if (e % 2) = 0 then 0 else 1)
      let n := m <<< sh
      let e' := e - sh
      let r := isqrt n
      .fin false (2 * r + (if r * r = n then 0 else 1)) (e' / 2 - 1)

/-- An S32 code read as a number (R69), and written by `rne_long(·, s32, inf)`. -/
def s32 (w : Nat) : Num := decodeFp fmtS32 w
def toS32 (x : Num) : Nat := (roundCode x fmtS32 true).1

def numOne : Num := ofInt 1

/-- The S32 value of an exact number, `rne_long(·, s32, inf)`. -/
def rnd32 (x : Num) : Num := (rneLong x fmtS32 true).1

end Sys2Proof.Machine
end

