-- ==== Sys2Proof/Machine/Operands.lean ====
section
/-! DEFINITION. The 128-bit instruction word (R159 to R161): its operands, and which words are reserved encodings, from the
encoding tables of R166, R169, R172, R174, R177, R179, R182, R184 and R186. -/

namespace Sys2Proof.Machine

def wb (w : BitVec 128) (hi lo : Nat) : Nat := bits w.toNat hi lo

/-- Every bit from 16 up that lies in none of the fields is 0. -/
def onlyFields (fs : List (Nat × Nat)) (w : BitVec 128) : Bool :=
  let m := fs.foldl (fun m f => m ||| ((2 ^ (f.1 - f.2 + 1) - 1) <<< f.2)) 0xFFFF
  decide (w.toNat &&& m = w.toNat)

/-- A barn address operand (R160). -/
def barnAddrOk (a : Nat) : Bool := decide (a % 64 = 0) && decide (a < 0xC00000)

/-- The guard byte's own rule: with `G` 0, bits [14:8] are 0 (R161). -/
def guardOk (w : BitVec 128) : Bool := bit w.toNat 15 || decide (wb w 14 8 = 0)

/-- The guard's condition (R161). -/
def guardHolds (h : Hw) (c : Nat) (w : BitVec 128) : Bool :=
  !bit w.toNat 15 || ((decide (sigVal h c (wb w 13 8) ≠ 0)) != bit w.toNat 14)

def okNone (w : BitVec 128) : Bool := onlyFields [] w
def okWaitBell (w : BitVec 128) : Bool := onlyFields [] w && !bit w.toNat 15
def okNop (w : BitVec 128) : Bool := onlyFields [(31, 16)] w
def okJump (w : BitVec 128) : Bool := onlyFields [(35, 20)] w
def okLoop (w : BitVec 128) : Bool := onlyFields [(21, 16), (51, 36)] w
def okSignal (w : BitVec 128) : Bool := onlyFields [(21, 16), (47, 32)] w
def okFields (w : BitVec 128) : Bool := onlyFields [(19, 16)] w && decide (wb w 19 16 ≠ 0)
def okGang (w : BitVec 128) : Bool := onlyFields [(23, 16)] w

def okMask (w : BitVec 128) : Bool :=
  onlyFields [(79, 16)] w && decide (wb w 31 16 ≠ 0) && decide (wb w 47 32 ≠ 0)

def okWideRun (w : BitVec 128) : Bool :=
  onlyFields [(16, 16), (71, 24)] w &&
    (if bit w.toNat 16 then barnAddrOk (wb w 47 24) && barnAddrOk (wb w 71 48) else decide (wb w 71 24 = 0))

def okWideDrain (w : BitVec 128) : Bool :=
  onlyFields [(123, 16)] w && decide (wb w 19 16 ≤ 8) &&
    (List.range 8).all (fun n => decide (n < wb w 19 16) || decide (wb w (29 + 10 * n) (20 + 10 * n) = 0)) &&
    barnAddrOk (wb w 123 100)

def okRun (w : BitVec 128) : Bool :=
  onlyFields [(19, 16), (28, 22), (51, 32), (127, 64)] w && decide (wb w 19 16 ≠ 0) &&
    decide (1 ≤ wb w 51 32) && decide (wb w 51 32 ≤ 524288) && barnAddrOk (wb w 87 64) && barnAddrOk (wb w 111 88)

def okLoad (w : BitVec 128) : Bool :=
  let src := wb w 21 20
  onlyFields [(22, 16), (95, 24)] w && decide (wb w 19 16 ≠ 0) &&
    (decide (src = 1) || !bit w.toNat 22) &&
    (if src = 0 ∨ src = 3 then decide (wb w 47 24 = 0) else barnAddrOk (wb w 47 24)) &&
    (if src = 2 then decide (wb w 71 48 % 64 = 0) && decide (1024 ≤ wb w 71 48) else decide (wb w 71 48 = 0)) &&
    decide (wb w 95 72 % 64 = 0)

def okDrain (w : BitVec 128) : Bool :=
  onlyFields [(48, 16), (87, 64)] w && decide (wb w 19 16 ≠ 0) &&
    (if bit w.toNat 26 then decide (wb w 87 76 = 0) else barnAddrOk (wb w 87 64))

def okMove (w : BitVec 128) : Bool := onlyFields [(54, 16)] w && barnAddrOk (wb w 47 24)

/-- The vector functions of R180 by class: whether b is read, a reduction, a block conversion. -/
def fnListed (fn : Nat) : Bool :=
  decide (fn ≤ 0x0B) || decide (fn = 0x10) || (decide (0x18 ≤ fn) && decide (fn ≤ 0x1A)) || decide (fn = 0x20) ||
    decide (fn = 0x21) || (decide (0x30 ≤ fn) && decide (fn ≤ 0x37))
def fnReadsB (fn : Nat) : Bool :=
  decide (fn ≤ 0x04) || (decide (0x07 ≤ fn) && decide (fn ≤ 0x0A)) || decide (fn = 0x10)
def fnReduces (fn : Nat) : Bool := decide (fn = 0x20) || decide (fn = 0x21)
def fnBlocks (fn : Nat) : Bool := decide (fn = 0x19) || decide (fn = 0x1A)

/-- The formats a function accepts (R180). -/
def fnFormats (fn a d : Nat) : Bool :=
  isLong a &&
    (if fn = 0x19 then isShortFp d else if fn = 0x1A then isShort d else isLong d) &&
    (decide (fn ≠ 0x0B) || decide (a = d))

/-- Bytes of n elements of a format. -/
def elemBytes (f n : Nat) : Nat := (n * fmtWidth f + 7) / 8

/-- Regions coincide exactly or share no byte (R179). -/
def regionsOk (a n b m : Nat) : Bool :=
  (decide (a = b) && decide (n = m)) || decide (a + n ≤ b) || decide (b + m ≤ a)

def okVop (w : BitVec 128) : Bool :=
  let fn := wb w 23 16
  let fa := wb w 27 24
  let fd := wb w 31 28
  let e := wb w 47 32 + 1
  let d := wb w 71 48
  let a := wb w 95 72
  let b := wb w 119 96
  let l := wb w 105 96 + 1
  let dn := if fnReduces fn then e / l else e
  onlyFields [(126, 16)] w && fnListed fn && barnAddrOk d && barnAddrOk a &&
    (if fnReduces fn then decide (wb w 119 106 = 0) && decide (e % l = 0)
     else if fnReadsB fn || fnBlocks fn then barnAddrOk b else decide (b = 0)) &&
    (!fnBlocks fn || decide (e % 32 = 0)) &&
    (!fnFormats fn fa fd ||
      (regionsOk d (elemBytes fd dn) a (elemBytes fa e) &&
        (!fnReadsB fn || regionsOk d (elemBytes fd dn) b (elemBytes fa e))))

def okTallyOpen (w : BitVec 128) : Bool := onlyFields [(29, 16)] w
def okTallyClose (w : BitVec 128) : Bool := onlyFields [(36, 16)] w

/-- R184: `op` 0 SEND, 1 RECV, 2 REDUCE. -/
def okLink (op : Nat) (w : BitVec 128) : Bool :=
  let raddr := wb w 63 40
  let rfmt := wb w 121 118
  onlyFields [(123, 16)] w &&
    (if bit w.toNat 39 then decide (raddr % 16 = 0) else barnAddrOk raddr) && barnAddrOk (wb w 87 64) &&
    (decide (op ≠ 1) || (decide (wb w 109 104 = 0) && !bit w.toNat 117)) &&
    (if op = 2 then (decide (rfmt = 0xD) || decide (rfmt = 0xF)) && decide (wb w 123 122 ≤ 1)
     else decide (rfmt = 0) && decide (wb w 123 122 = 0))

def okSeqSelect (w : BitVec 128) : Bool := onlyFields [(20, 16)] w
def okSeqAdvance (w : BitVec 128) : Bool := onlyFields [(58, 16)] w

end Sys2Proof.Machine
end

