-- ==== Sys2Proof/Machine/Streams.lean ====
section
/-! DEFINITION. Crofts and their three streams (spec 05) and the flow, synchronisation, staging and sequence instructions
(spec 06). -/

namespace Sys2Proof.Machine

def sIx (c : Croft) (st : Strm) : Nat := 3 * c.val + strmIx st

/-- The staged pass parameters return to their defaults (R171). -/
def defaultParams (x : StreamX) : StreamX :=
  { x with fmtA := 0, fmtW := 0, plotRows := 0xFFFF, plotCols := 0xFFFF, edgeRows := 0xFFFF, edgeCols := 0xFFFF,
           wideEn := false, wideTable := 0, wideStore := 0, wdCols := [], wdStore := 0 }

-- claims

def heldMask (h : Hw) (i : Nat) : Nat := getF h stream_STATUS_CLAIM_HELD i

/-- The fields of a croft that streams other than s hold. -/
def othersHold (h : Hw) (c s : Nat) : Nat :=
  (List.range 3).foldl (fun m k => if k = s then m else m ||| heldMask h (3 * c + k)) 0

/-- The watch has taken the croft's fields and lane, until its slot ends (R411, R412). -/
def watchHolds (h : Hw) (c : Nat) : Bool := h.gate.watchCrofts.contains c

/-- A claim of a mask could be granted (R130). -/
def claimFree (h : Hw) (c s mask : Nat) : Bool := decide (othersHold h c s &&& mask = 0) && !watchHolds h c

/-- Some other waiting claim that could be granted overlaps the mask and began waiting earlier, ties F, B, U (R130). -/
def claimAhead (h : Hw) (c s mask since : Nat) : Bool :=
  (List.range 3).any (fun k =>
    k != s && strmState h (3 * c + k) == 4 &&
    (let m := getF h stream_STATUS_CLAIM_WAIT (3 * c + k)
     let sn := (streamX h (3 * c + k)).claimSince
     decide (m &&& mask ≠ 0) && claimFree h c k m && (decide (sn < since) || (decide (sn = since) && decide (k < s)))))

/-- `FIELD.STATUS.OWNER` of every field in a mask (R121). -/
def setOwner (c mask owner : Nat) : Eff :=
  forE ((List.range 4).filter (fun f => bit mask f)) (fun f => setF field_STATUS_OWNER (4 * c + f) owner)

def grantClaim (c s mask : Nat) : Eff := fun h =>
  chain [setF stream_STATUS_CLAIM_HELD (3 * c + s) (heldMask h (3 * c + s) ||| mask), setOwner c mask (s + 1)] h

def dropClaim (c s mask : Nat) : Eff := fun h =>
  let i := 3 * c + s
  let held := heldMask h i
  chain [setF stream_STATUS_CLAIM_HELD i (held - (held &&& mask)), setOwner c (held &&& mask) 0] h

/-- A pass, drain or load is in progress or staged on a field, so that a release of it waits (R131). -/
def fieldWork (h : Hw) (c f : Nat) : Bool :=
  let x := fieldX h (4 * c + f)
  flag h field_STATUS_BUSY (4 * c + f) || x.drain.isSome || x.swap.isSome || !x.buf.isEmpty ||
    (match x.load with | some l => l.alone | none => false) ||
    (croftX h c).lane.any (fun p => bit p.fields f)

/-- A release by a stream: fields whose work is in progress are dropped when it completes (R131). -/
def releaseMask (c s mask : Nat) : Eff := fun h =>
  let busy := (List.range 4).foldl (fun m f => if bit mask f && fieldWork h c f then m + 2 ^ f else m) 0
  chain [modStream (3 * c + s) (fun x => { x with relPend := x.relPend ||| busy }), dropClaim c s (mask - busy)] h

/-- Apply the releases that waited for work that has now completed. -/
def settleReleases (c : Nat) : Eff :=
  forE (List.range 3) (fun s => fun h =>
    let x := streamX h (3 * c + s)
    let free := (List.range 4).foldl (fun m f => if bit x.relPend f && !fieldWork h c f then m + 2 ^ f else m) 0
    if free = 0 then []
    else chain [modStream (3 * c + s) (fun x => { x with relPend := x.relPend - free }), dropClaim c s free] h)

-- issue

/-- The program region's length in bytes (R123). -/
def regionLen (h : Hw) (c : Nat) : Nat := getF h croft_PROG_REGION_SIZE c * 65536

/-- The stream-side completion of an instruction: next word, one more retired, the slot busy until the next clk. After the last word of
a region of 1 MiB the 20-bit program counter wraps to 0. DESIGN CHOICE (R123, R157), log 16. -/
def retireTo (i pc : Nat) (busy : Nat) : Eff := fun h =>
  chain [setF stream_PC i pc, incF stream_RETIRED i, modStream i (fun x => { x with issueFree := h.clk + busy })] h

def retire (i : Nat) : Eff := fun h => retireTo i (getF h stream_PC i + 16) 1 h

/-- The wait of stream s of croft c is satisfiable now. -/
def waitReady (h : Hw) (c s : Nat) : Bool :=
  let i := 3 * c + s
  strmState h i == 3 && decide ((streamX h i).waitN ≤ sigVal h c (getF h stream_STATUS_WAIT_SIG i))

/-- A waiting `WAIT` whose counter has reached its amount is satisfied, and the counter is reduced (R132). -/
def satisfyWait (c s : Nat) : Eff := fun h =>
  let i := 3 * c + s
  if waitReady h c s then chain [subSig c (getF h stream_STATUS_WAIT_SIG i) (streamX h i).waitN, setState i 2] h else []

/-- The waiting `WAIT`s of streams are evaluated in the order F, B, U, each subtracting before the next (R133). -/
def settleWaits (c : Nat) (ss : List Nat) : Eff := forE ss (satisfyWait c)

/-- The opcodes of R165. -/
def opcodes : List Nat := [0x01, 0x02, 0x03, 0x04, 0x05, 0x10, 0x11, 0x12, 0x13, 0x14, 0x20, 0x21, 0x22, 0x23, 0x24, 0x25, 0x26, 0x30, 0x31,
  0x32, 0x33, 0x40, 0x50, 0x51, 0x60, 0x61, 0x62, 0x70, 0x71]

/-- A word at its clk of issue (R146, R159, R161): a fetch outside the region and a reserved encoding fault before the guard is tested; a
guarded-off word only advances. -/
def issueWord (c i : Nat) (w : BitVec 128) (op : Nat) (ok : BitVec 128 → Bool) (body : Eff) : Eff := fun h =>
  let pc := getF h stream_PC i
  if regionLen h c < pc + 16 then streamFault i 2 pc h
  else if wb w 7 0 ≠ op ∨ guardOk w = false ∨ ok w = false then streamFault i 1 pc h
  else if guardHolds h c w then body h
  else retire i h

/-- Issue of one instruction word (R165): only a `RUNNING` stream issues. A word that another listed opcode names is that row's. Waits that an earlier clk satisfied end before the clk moves on, and those of earlier streams before this stream's guard
and test (R133, R162). -/
def issue (c : Croft) (st : Strm) (w : BitVec 128) (t op : Nat) (ok : BitVec 128 → Bool) (body : Eff) : Eff := fun h =>
  let i := sIx c st
  let t' := max t (streamX h i).issueFree
  if strmState h i ≠ 2 ∨ (wb w 7 0 ≠ op ∧ opcodes.contains (wb w 7 0) = true) then []
  else
    chain [whenB (decide (h.clk < t')) (settleWaits c.val [0, 1, 2]), advance t', settleWaits c.val (List.range (strmIx st)),
      issueWord c.val i w op ok body] h

def effJump (c : Croft) (st : Strm) (w : BitVec 128) (t : Nat) : Eff :=
  issue c st w t 0x01 okJump (retireTo (sIx c st) (wb w 35 16) 2)

def effLoop (c : Croft) (st : Strm) (w : BitVec 128) (t : Nat) : Eff :=
  issue c st w t 0x02 okLoop (fun h =>
    let v := sigVal h c.val (wb w 21 16)
    if 1 ≤ v then chain [subSig c.val (wb w 21 16) 1, retireTo (sIx c st) (wb w 51 32) 2] h
    else retire (sIx c st) h)

/-- `HALT` (R168): the stream halts, releases every field it holds, and is late no more (R140). The step of a step bell whose edge it
has met late is not begun by it: streams that wait `AT_BELL` for it wait for the next edge. DESIGN CHOICE (R138), log 17. -/
def effHalt (c : Croft) (st : Strm) (w : BitVec 128) (t : Nat) : Eff :=
  issue c st w t 0x03 okNone (chain [retire (sIx c st), setState (sIx c st) 6, setFlag stream_STATUS_LATE (sIx c st) false,
    look (fun h => heldMask h (sIx c st)) (fun m => releaseMask c.val (strmIx st) m)])

def effNop (c : Croft) (st : Strm) (w : BitVec 128) (t : Nat) : Eff :=
  issue c st w t 0x05 okNop (fun h => retireTo (sIx c st) (getF h stream_PC (sIx c st) + 16) (wb w 31 16 + 1) h)

/-- `SIGNAL` (R134, R170): above 65,535 the counter saturates, `SIGNAL_OVERFLOW` is raised and the stream faults. -/
def effSignal (c : Croft) (st : Strm) (w : BitVec 128) (t : Nat) : Eff :=
  issue c st w t 0x10 okSignal (fun h =>
    let i := sIx c st
    chain [addSigOr c.val (wb w 21 16) (wb w 47 32) (streamFault i 5 (getF h stream_PC i)),
      whenB (decide (sigVal h c.val (wb w 21 16) + wb w 47 32 ≤ 65535)) (retire i)] h)

def effSignalSet (c : Croft) (st : Strm) (w : BitVec 128) (t : Nat) : Eff :=
  issue c st w t 0x11 okSignal (chain [writeSig c.val (strmIx st) (wb w 21 16) (wb w 47 32), retire (sIx c st)])

/-- `WAIT` (R132): satisfied at once when the counter reaches the amount, which is then subtracted. -/
def effWait (c : Croft) (st : Strm) (w : BitVec 128) (t : Nat) : Eff :=
  issue c st w t 0x12 okSignal (fun h =>
    let i := sIx c st
    let sg := wb w 21 16
    let n := wb w 47 32
    let v := sigVal h c.val sg
    if n ≤ v then chain [subSig c.val sg n, retire i] h
    else chain [retire i, setState i 3, setF stream_STATUS_WAIT_SIG i sg, modStream i (fun x => { x with waitN := n })] h)

/-- WAIT_SATISFIED (R132, R133): waits are evaluated F, B, U, each subtracting before the next. -/
def effWaitSatisfied (c : Croft) (st : Strm) (t : Nat) : Eff := atClk t (fun h =>
  if (List.range (strmIx st)).any (fun k => waitReady h c.val k &&
      getF h stream_STATUS_WAIT_SIG (3 * c.val + k) == getF h stream_STATUS_WAIT_SIG (sIx c st)) then []
  else satisfyWait c.val (strmIx st) h)

/-- `CLAIM` (R130). -/
def effClaim (c : Croft) (st : Strm) (w : BitVec 128) (t : Nat) : Eff :=
  issue c st w t 0x13 okFields (fun h =>
    let i := sIx c st
    let m := wb w 19 16
    if claimFree h c.val (strmIx st) m && !claimAhead h c.val (strmIx st) m h.clk then
      chain [grantClaim c.val (strmIx st) m, retire i] h
    else chain [retire i, setState i 4, setF stream_STATUS_CLAIM_WAIT i m,
      modStream i (fun x => { x with claimSince := h.clk })] h)

/-- CLAIM_GRANT (R130): a waiting claim is granted all at once, the one that began waiting first before the others. -/
def effClaimGrant (c : Croft) (st : Strm) (t : Nat) : Eff := atClk t (fun h =>
  let i := sIx c st
  let m := getF h stream_STATUS_CLAIM_WAIT i
  if strmState h i == 4 && claimFree h c.val (strmIx st) m &&
      !claimAhead h c.val (strmIx st) m (streamX h i).claimSince then
    chain [grantClaim c.val (strmIx st) m, setF stream_STATUS_CLAIM_WAIT i 0, setState i 2] h
  else [])

/-- `RELEASE` (R131): a field the stream does not hold faults with cause 0x04. -/
def effRelease (c : Croft) (st : Strm) (w : BitVec 128) (t : Nat) : Eff :=
  issue c st w t 0x14 okFields (fun h =>
    let i := sIx c st
    let m := wb w 19 16
    if heldMask h i &&& m = m then chain [releaseMask c.val (strmIx st) m, retire i] h
    else streamFault i 4 (getF h stream_PC i) h)

-- staging

def effGang (c : Croft) (st : Strm) (w : BitVec 128) (t : Nat) : Eff :=
  issue c st w t 0x24 okGang (chain [modStream (sIx c st) (fun x => { x with fmtA := wb w 19 16, fmtW := wb w 23 20 }),
    retire (sIx c st)])

def effMask (c : Croft) (st : Strm) (w : BitVec 128) (t : Nat) : Eff :=
  issue c st w t 0x23 okMask (chain [modStream (sIx c st) (fun x =>
    { x with plotRows := wb w 31 16, plotCols := wb w 47 32, edgeRows := wb w 63 48, edgeCols := wb w 79 64 }),
    retire (sIx c st)])

def effWideRun (c : Croft) (st : Strm) (w : BitVec 128) (t : Nat) : Eff :=
  issue c st w t 0x25 okWideRun (chain [modStream (sIx c st) (fun x =>
    { x with wideEn := bit w.toNat 16, wideTable := wb w 47 24, wideStore := wb w 71 48 }), retire (sIx c st)])

def effWideDrain (c : Croft) (st : Strm) (w : BitVec 128) (t : Nat) : Eff :=
  issue c st w t 0x26 okWideDrain (chain [modStream (sIx c st) (fun x =>
    { x with wdCols := (List.range (wb w 19 16)).map (fun n => wb w (29 + 10 * n) (20 + 10 * n)),
             wdStore := wb w 123 100 }), retire (sIx c st)])

-- sequence slots

def effSeqSelect (c : Croft) (st : Strm) (w : BitVec 128) (t : Nat) : Eff :=
  issue c st w t 0x70 okSeqSelect (chain [setF stream_SLOT (sIx c st) (wb w 20 16), retire (sIx c st)])

/-- The slot after an advance (R150, R187). -/
def advanceSlot (s : Slot) (tokens pages : Nat) (mbinc : Bool) : Slot :=
  { s with
    pos := s.pos + tokens
    mb := if mbinc then (s.mb + 1) % 65536 else s.mb
    cur := if s.len = 0 then s.cur else (s.cur + pages) % s.len }

/-- `SEQ.ADVANCE`: a `POS` above 0xFFFF_FFFF faults with cause 0x06 and leaves the slot unchanged. -/
def effSeqAdvance (c : Croft) (st : Strm) (w : BitVec 128) (t : Nat) : Eff :=
  issue c st w t 0x71 okSeqAdvance (fun h =>
    let i := sIx c st
    let k := getF h stream_SLOT i
    let s := slotOf h c.val k
    if 0xFFFFFFFF < s.pos + wb w 31 16 then streamFault i 6 (getF h stream_PC i) h
    else chain [fun _ => [.slots (32 * c.val + k) (advanceSlot s (wb w 31 16) (wb w 57 32) (bit w.toNat 58))], retire i] h)

-- bell segments

/-- The step snapshot of a croft (R142). -/
def takeSnapshot (c : Nat) : Eff := chain [fun h =>
  modCroft c (fun x => { x with
    snapTaken := true
    snapPc := (List.range 3).map (fun s => getF h stream_PC (3 * c + s))
    snapSig := (List.range 64).map (fun i => sigVal h c i)
    snapSlots := (List.range 32).map (fun i => slotOf h c i) }) h,
  forE (List.range 64) (fun i => fun _ => [.keepAdds (64 * c + i) 0])]

/-- A stream of a step bell that others wait for (R138): neither halted, stopped nor faulted. -/
def holdsOthers (h : Hw) (i : Nat) : Bool :=
  let s := strmState h i
  (s == 2 || s == 3 || s == 4 || s == 5) && !(streamX h i).passed

/-- Once the last stream has passed its `WAIT.BELL` of a step bell, all begin together and the snapshot is taken (R138,
R142); the staged parameters return to their defaults (R171). -/
def beginStep (c : Nat) : Eff := fun h =>
  if (croftX h c).stepPend && !(List.range 3).any (fun s => holdsOthers h (3 * c + s)) then
    chain [takeSnapshot c,
      forE (List.range 3) (fun s => fun h =>
        let i := 3 * c + s
        if (streamX h i).passed then
          chain [setState i 2, modStream i (fun x => { defaultParams x with passed := false, issueFree := h.clk + 1 })] h
        else modStream i (fun x => defaultParams x) h),
      modCroft c (fun x => { x with stepPend := false })] h
  else []

/-- A late stream's abandon in clk slack + 1 after the edge (R139). -/
def lateAbandonEff (i : Nat) : Eff := fun h =>
  if (streamX h i).abandonRaised then []
  else chain [modStream i (fun x => { x with abandonRaised := true }), raise .stream i 1, incF stream_ABANDON_COUNT i,
    abandonQ ⟨.stream, i⟩ (i / 48)] h

/-- LATE_ABANDON. -/
def effLateAbandon (c : Croft) (st : Strm) (t : Nat) : Eff := atClk t (fun h =>
  let i := sIx c st
  let s := strmState h i
  if flag h stream_STATUS_LATE i && (s == 2 || s == 3 || s == 4) &&
      decide ((streamX h i).edgeClk + (streamX h i).edgeSlack < h.clk) then lateAbandonEff i h
  else [])

/-- `WAIT.BELL` (R135 to R139): on time it waits for the edge, or passes it where it comes in the clk of an edge already made (R136);
late within the slack it passes at once. -/
def effWaitBell (c : Croft) (st : Strm) (w : BitVec 128) (t : Nat) : Eff :=
  issue c st w t 0x04 okWaitBell (fun h =>
    let i := sIx c st
    let x := streamX h i
    let l := h.clk - x.edgeClk
    if !flag h stream_STATUS_LATE i then chain [retire i, setState i 5] h
    else if x.edgeSlack < l then chain [lateAbandonEff i, retire i, setState i 5] h
    else
      let absorbed := chain [retire i, setFlag stream_STATUS_LATE i false,
        whenB (decide (0 < l)) (chain [incF stream_LATE_COUNT i, peakF stream_LATE_MAX i l, raise .stream i 0])]
      if flag h bellRcv_STATUS_HELD (c.val / 16) then chain [absorbed, setState i 5] h
      else if (croftX h c.val).stepPend then
        chain [absorbed, incF stream_SEGMENT i, setState i 5, modStream i (fun x => { x with passed := true }),
          beginStep c.val] h
      else chain [absorbed, incF stream_SEGMENT i] h)

-- RUN, stop, instruction cache

/-- CROFT_RUN_WRITE (R123, R127): a write of `CROFT.CTRL.RUN`. -/
def runWrite (c : Nat) (v : Bool) : Eff := fun h =>
  let run := flag h croft_CTRL_RUN c
  let base := getF h croft_PROG_REGION_BASE c
  let size := getF h croft_PROG_REGION_SIZE c
  if v then
    if run || decide (192 < base + size) || decide (size = 0) then []
    else
      chain [setFlag croft_CTRL_RUN c true, setFlag croft_STATUS_STOPPING c false,
        setFlag croft_STATUS_PARKED c false,
        modCroft c (fun x => { x with stepPend := false, abandoned := false, snapTaken := false }),
        forE (List.range 3) (fun s =>
          let i := 3 * c + s
          chain [look (fun h => getF h stream_ENTRY i * 16) (fun e => setF stream_PC i e), setState i 1,
            setF stream_SEGMENT i 0, setF stream_SLOT i 0, setFlag stream_STATUS_LATE i false,
            modStream i (fun x => { defaultParams x with icache := [], passed := false, abandonRaised := false })])] h
  else if run then
    (if (List.range 3).any (fun s => strmState h (3 * c + s) != 0) then setFlag croft_STATUS_STOPPING c true h
     else setFlag croft_CTRL_RUN c false h)
  else []

def effCroftRunWrite (c : Croft) (v : Bool) : Eff := runWrite c.val v

/-- STREAMS_STOPPED (R127): a pending write of 0 to `RUN` takes effect once every stream is at the bell, halted, faulted or parked. -/
def effStreamsStopped (c : Croft) : Eff := fun h =>
  if flag h croft_STATUS_STOPPING c.val &&
      (List.range 3).all (fun s => let x := strmState h (3 * c.val + s); 5 ≤ x && x ≤ 8) then
    chain [forE (List.range 3) (fun s => chain [setState (3 * c.val + s) 0, setFlag stream_STATUS_LATE (3 * c.val + s) false]),
      setFlag croft_CTRL_RUN c.val false, setFlag croft_STATUS_STOPPING c.val false, setFlag croft_STATUS_PARKED c.val false] h
  else []

-- meanings, one per command

/-- CROFT_RUN_WRITE. -/
def execCroftRunWrite (c : Croft) (v : Bool) (s : State) : Host.Outcome State Fault Refusal :=
  run (byQuarter (c.val / 16) (effCroftRunWrite c v)) s

/-- STREAMS_STOPPED. -/
def execStreamsStopped (c : Croft) (s : State) : Host.Outcome State Fault Refusal :=
  run (effStreamsStopped c) s

/-- JUMP. -/
def execJump (c : Croft) (st : Strm) (w : BitVec 128) (t : Nat) (s : State) : Host.Outcome State Fault Refusal :=
  run (effJump c st w t) s

/-- LOOP. -/
def execLoop (c : Croft) (st : Strm) (w : BitVec 128) (t : Nat) (s : State) : Host.Outcome State Fault Refusal :=
  run (effLoop c st w t) s

/-- HALT. -/
def execHalt (c : Croft) (st : Strm) (w : BitVec 128) (t : Nat) (s : State) : Host.Outcome State Fault Refusal :=
  run (effHalt c st w t) s

/-- WAIT_BELL. -/
def execWaitBell (c : Croft) (st : Strm) (w : BitVec 128) (t : Nat) (s : State) : Host.Outcome State Fault Refusal :=
  run (effWaitBell c st w t) s

/-- NOP. -/
def execNop (c : Croft) (st : Strm) (w : BitVec 128) (t : Nat) (s : State) : Host.Outcome State Fault Refusal :=
  run (effNop c st w t) s

/-- SIGNAL. -/
def execSignal (c : Croft) (st : Strm) (w : BitVec 128) (t : Nat) (s : State) : Host.Outcome State Fault Refusal :=
  run (effSignal c st w t) s

/-- SIGNAL_SET. -/
def execSignalSet (c : Croft) (st : Strm) (w : BitVec 128) (t : Nat) (s : State) : Host.Outcome State Fault Refusal :=
  run (effSignalSet c st w t) s

/-- WAIT. -/
def execWait (c : Croft) (st : Strm) (w : BitVec 128) (t : Nat) (s : State) : Host.Outcome State Fault Refusal :=
  run (effWait c st w t) s

/-- WAIT_SATISFIED. -/
def execWaitSatisfied (c : Croft) (st : Strm) (t : Nat) (s : State) : Host.Outcome State Fault Refusal :=
  run (effWaitSatisfied c st t) s

/-- CLAIM. -/
def execClaim (c : Croft) (st : Strm) (w : BitVec 128) (t : Nat) (s : State) : Host.Outcome State Fault Refusal :=
  run (effClaim c st w t) s

/-- CLAIM_GRANT. -/
def execClaimGrant (c : Croft) (st : Strm) (t : Nat) (s : State) : Host.Outcome State Fault Refusal :=
  run (effClaimGrant c st t) s

/-- RELEASE. -/
def execRelease (c : Croft) (st : Strm) (w : BitVec 128) (t : Nat) (s : State) : Host.Outcome State Fault Refusal :=
  run (effRelease c st w t) s

/-- GANG. -/
def execGang (c : Croft) (st : Strm) (w : BitVec 128) (t : Nat) (s : State) : Host.Outcome State Fault Refusal :=
  run (effGang c st w t) s

/-- MASK. -/
def execMask (c : Croft) (st : Strm) (w : BitVec 128) (t : Nat) (s : State) : Host.Outcome State Fault Refusal :=
  run (effMask c st w t) s

/-- WIDE_RUN. -/
def execWideRun (c : Croft) (st : Strm) (w : BitVec 128) (t : Nat) (s : State) : Host.Outcome State Fault Refusal :=
  run (effWideRun c st w t) s

/-- WIDE_DRAIN. -/
def execWideDrain (c : Croft) (st : Strm) (w : BitVec 128) (t : Nat) (s : State) : Host.Outcome State Fault Refusal :=
  run (effWideDrain c st w t) s

/-- SEQ_SELECT. -/
def execSeqSelect (c : Croft) (st : Strm) (w : BitVec 128) (t : Nat) (s : State) : Host.Outcome State Fault Refusal :=
  run (effSeqSelect c st w t) s

/-- SEQ_ADVANCE. -/
def execSeqAdvance (c : Croft) (st : Strm) (w : BitVec 128) (t : Nat) (s : State) : Host.Outcome State Fault Refusal :=
  run (effSeqAdvance c st w t) s

/-- LATE_ABANDON. -/
def execLateAbandon (c : Croft) (st : Strm) (t : Nat) (s : State) : Host.Outcome State Fault Refusal :=
  run (effLateAbandon c st t) s

end Sys2Proof.Machine
end

