-- ==== Sys2Proof/Machine/Faults.lean ====
section
/-! DEFINITION. What several units share when something goes wrong: croft faults and quarantine (R402, R406, R419), data that
stays bad (R407), writes into barns beside a protected program region (R125), and the address spaces' ends. -/

namespace Sys2Proof.Machine

def quarantined (h : Hw) (c : Nat) : Bool := flag h croft_STATUS_QUARANTINED c

/-- The quarantine bit of croft c on the watch page. -/
def quarF (c : Nat) : Fld := if c < 32 then watch_QUARANTINE_LO else watch_QUARANTINE_HI

/-- A croft is quarantined (R419); it takes effect at a later step bell (R420). -/
def quarantineCroft (c : Nat) : Eff := fun h =>
  if quarantined h c then []
  else chain [setFlag croft_STATUS_QUARANTINED c true,
    forE (List.range 4) (fun f => setFlag field_STATUS_QUARANTINED (4 * c + f) true),
    setF (quarF c) 0 (getF h (quarF c) 0 ||| 2 ^ (c % 32)),
    modGate (fun g => { g with quarNew := g.quarNew ++ [(c, h.clk)] }),
    raise .check c 7] h

/-- A croft fault (R406): its step is recorded, and one within `QUAR_WINDOW` steps of the last quarantines the croft. -/
def croftFault (c : Nat) : Eff := fun h =>
  let step := (stepAttempt h).1
  let last := (h.gate.faultStep.find? (fun x => x.1 == c)).map (·.2)
  let near := match last with
    | none => false
    | some l => decide (step - l ≤ getF h watch_QUAR_WINDOW 0)
  chain [modGate (fun g => { g with faultStep := (c, step) :: g.faultStep.filter (fun x => x.1 != c) }),
    setPair check_LAST_FAULT_STEP_LO check_LAST_FAULT_STEP_HI c step, whenB near (quarantineCroft c)] h

/-- A path mismatch (R402). -/
def pathCheck (c : Nat) (inWatch : Bool) : Eff :=
  chain [incF check_PATH_FAULTS c, raise .check c 2, croftFault c, whenB (!inWatch) (abandonCroft .check c c)]

/-- A quarter fails (R28), and with it the device for the job at the next bell (R29). -/
def failDevice : Eff := modGate (fun g => { g with failed := true })
def failQuarter (q : Nat) : Eff := chain [modQuarter q (fun x => { x with dead := true }), failDevice]

/-- The mill or the slow tier fails (R28): it updates nothing more, and the buddy's copy that it held is lost. -/
def failMill : Eff := chain [modMill (fun m => { m with lost := true }), setFlag mill_GRAN_STATUS_BUDDY_VALID 0 false, failDevice]

/-- The mill is enabled and has not failed. -/
def millOn (h : Hw) : Bool := flag h mill_CTRL_ENABLE 0 && !h.mill.lost

/-- The mill link of a layer's traffic: its own, or the other where that is down (R285). -/
def millLink (h : Hw) (l : Nat) : Option Nat :=
  let up := fun (k : Nat) => flag h (if k = 0 then mill_STATUS_LINK0_UP else mill_STATUS_LINK1_UP) 0
  if up (l % 2) then some (l % 2) else if up (1 - l % 2) then some (1 - l % 2) else none

/-- A data fault that R407 names: one that also occurred in the last attempt requests a hold, and its device is failed for the job
(R445). -/
def dataFault (q c sp a : Nat) : Eff := fun h =>
  let key := (q, c, sp, a)
  chain [modGate (fun g => { g with dataNow := if g.dataNow.contains key then g.dataNow else key :: g.dataNow }),
    whenB (h.gate.dataPrev.contains key)
      (chain [whenB (!flag h watch_PERSIST_HI_VALID 0)
          (chain [setF watch_PERSIST_LO 0 (a % 2 ^ 32), setF watch_PERSIST_HI_ADDR 0 (a / 2 ^ 32),
            setF watch_PERSIST_HI_SPACE 0 sp, setF watch_PERSIST_HI_QUARTER 0 q, setF watch_PERSIST_HI_CROFT 0 c,
            setFlag watch_PERSIST_HI_VALID 0 true]),
        setFlag watch_STATUS_HOLD_REQ 0 true, askHold, raise .watch 0 8, failDevice])] h

/-- The bytes of croft c's barn that its program region protects: first and one past the last (R123, R125). -/
def protLo (h : Hw) (c : Nat) : Nat := getF h croft_PROG_REGION_BASE c * 65536
def protHi (h : Hw) (c : Nat) : Nat := protLo h c + getF h croft_PROG_REGION_SIZE c * 65536

/-- A write of n bytes at a touches the protected region of a running croft. -/
def touchesProt (h : Hw) (c a n : Nat) : Bool :=
  croftRunning h c && decide (a < protHi h c) && decide (protLo h c < a + n)

/-- Write bytes into a barn; bytes in the protected region are dropped and raise `PROG_WRITE` (R125). -/
def barnWrite (c a : Nat) (bs : List Byte) : Eff := fun h =>
  if touchesProt h c a bs.length then
    chain [wrBytes .barn (c * 0xC00000 + a) (bs.take (protLo h c - a)),
      wrBytes .barn (c * 0xC00000 + max a (protHi h c)) (bs.drop (protHi h c - a)), raise .croft c 0] h
  else wrBytes .barn (c * 0xC00000 + a) bs h

end Sys2Proof.Machine
end

