-- ==== Sys2Proof/Machine/Memory.lean ====
section
/-! DEFINITION. HBM with its ECC, poison lists, scrub and host window, the barn and commons ECC, and the slow tier's scrub
(R358 to R379). -/

namespace Sys2Proof.Machine

/-- Where a byte of a quarter's HBM lies (R359): the stack within the quarter, its pseudo-channel, and the byte within that. -/
def hbmMap (a : Nat) : Nat × Nat × Nat :=
  let u := a / 256
  let w := u / 3
  (u % 3, w % 32, w / 32 * 256 + a % 256)

/-- The channel of a pseudo-channel (R359). -/
def hbmChannel (pc : Nat) : Nat := pc / 2

/-- The device stack that holds an address of quarter q's HBM (R359). -/
def stackOf (q a : Nat) : Nat := 3 * q + (hbmMap a).1

/-- Where a byte of the slow tier lies (R372): its channel and the byte within that. -/
def slowMap (a : Nat) : Nat × Nat := (a / 256 % 24, a / 6144 * 256 + a % 256)

/-- The word of 8 bytes at `a` of a space, uncorrectable for good: what it holds from now on is a free value. Beyond the data of an HBM lie
tile-checksum slots, two to a word (R367). -/
def corruptWord (sp q c a : Nat) : Eff := drawFree (fun lo => drawFree (fun hi =>
  if sp = 2 ∧ hbmD ≤ a then
    let t := (a - hbmD) / 8 * 2
    chain [csumSet (csumKeyHbm q t) lo, csumSet (csumKeyHbm q (t + 1)) hi]
  else wrBytes (spMem sp) (spAddr sp q c (a / 8 * 8)) (leBytes 4 lo.toNat ++ leBytes 4 hi.toNat)))

def stackPoison (h : Hw) (k : Nat) : List (Nat × Nat) := h.gate.poison.filter (fun p => p.1 == k)

def isPoisoned (h : Hw) (q a : Nat) : Bool := h.gate.poison.contains (stackOf q a, a / 64 * 64)

def showPoison (k : Nat) : Eff := look (fun h => (stackPoison h k).length) (fun n => setF hbm0_POISON_COUNT k n)

/-- A line enters the poison list of its stack; a full list fails the stack (R365). -/
def enterPoison (q a : Nat) : Eff := fun h =>
  let k := stackOf q a
  if isPoisoned h q a then []
  else if 64 ≤ (stackPoison h k).length then chain [raise .hbm0 k 5, failQuarter q] h
  else chain [modGate (fun g => { g with poison := g.poison ++ [(k, a / 64 * 64)] }), showPoison k, raise .hbm0 k 4] h

/-- A poisoned line is delivered (R363). -/
def deliverPoison (q a : Nat) : Eff := fun h =>
  let k := stackOf q a
  chain [incF hbm0_UE_COUNT k, raise .hbm0 k 3,
    whenB (!flag h hbm0_ERR_ADDR_HI_VALID k) (chain [setF hbm0_ERR_ADDR_LO k (a % 2 ^ 32), setF hbm0_ERR_ADDR_HI_ADDR k (a / 2 ^ 32),
      setFlag hbm0_ERR_ADDR_HI_VALID k true])] h

/-- A second of module clk. -/
def clkSecond : Nat := 1200000000

/-- A corrected error of a stack; more than `CE_LIMIT` within one second raise `CE_HIGH`. -/
def correctedErr (k : Nat) : Eff := fun h =>
  let recent := h.gate.ceWindow.filter (fun x => decide (h.clk < x.2.1 + clkSecond))
  let mine := (recent.filter (fun x => x.1 == k)).length + 1
  chain [modGate (fun g => { g with ceWindow := (k, h.clk, 0) :: recent }), incF hbm0_CE_COUNT k, raise .hbm0 k 0,
    whenB (decide (getF h hbm0_CE_LIMIT k < mine)) (raise .hbm0 k 1)] h

/-- What an HBM read at `a` finds (R363). A word that stays uncorrectable is read as it stands, in a line that is poisoned. -/
def hbmFinding (q a : Nat) (e : EccCase) : Eff := fun h =>
  let k := stackOf q a
  if isPoisoned h q a then deliverPoison q a h
  else match e with
    | .clean => []
    | .misread => []
    | .corrected => correctedErr k h
    | .retried => chain [incF hbm0_UE_RETRY_COUNT k, raise .hbm0 k 2] h
    | .uncorrectable => chain [corruptWord 2 q 0 a, enterPoison q a, deliverPoison q a] h

/-- What a read of croft c's barn finds, whoever reads; an error that persists is a croft fault (R368, R406). -/
def barnScrubbed (c a : Nat) (e : EccCase) : Eff := fun h =>
  match e with
  | .clean => []
  | .misread => []
  | .corrected => chain [incF check_BARN_CE_COUNT c, raise .check c 4,
      modGate (fun g => { g with writeBack := g.writeBack ++ [(.barn, c * 0xC00000 + a / 8 * 8)] })] h
  | .retried => chain [incF check_BARN_UE_RETRY_COUNT c, raise .check c 5] h
  | .uncorrectable => chain [corruptWord 0 (c / 16) c a, incF check_BARN_UE_COUNT c, raise .check c 6,
      whenB (!flag h check_BARN_ERR_ADDR_VALID c)
        (chain [setF check_BARN_ERR_ADDR_ADDR c (a / 8), setFlag check_BARN_ERR_ADDR_VALID c true]),
      croftFault c] h

/-- What a barn read by a unit of croft c finds: for an error that persists the croft raises an abandon (R368). -/
def barnFinding (c a : Nat) (e : EccCase) : Eff :=
  andThen (barnScrubbed c a e) (whenB (e == .uncorrectable) (abandonCroft .check c c))

/-- What a read of quarter q's commons finds, whoever reads (R368, R407). -/
def commonsScrubbed (q a : Nat) (e : EccCase) : Eff := fun h =>
  match e with
  | .clean => []
  | .misread => []
  | .corrected => chain [incF commons_CE_COUNT q, raise .commons q 0,
      modGate (fun g => { g with writeBack := g.writeBack ++ [(.commons, q * 0x4000000 + a / 8 * 8)] })] h
  | .retried => chain [incF commons_UE_RETRY_COUNT q, raise .commons q 1] h
  | .uncorrectable => chain [corruptWord 1 q 0 a, incF commons_UE_COUNT q, raise .commons q 2,
      whenB (!flag h commons_ERR_ADDR_VALID q)
        (chain [setF commons_ERR_ADDR_ADDR q (a / 8), setFlag commons_ERR_ADDR_VALID q true]), dataFault q 0 1 a] h

/-- What a commons read by a unit of croft c finds: for an error that persists the croft raises an abandon (R368). -/
def commonsFinding (q c a : Nat) (e : EccCase) : Eff :=
  andThen (commonsScrubbed q a e) (whenB (e == .uncorrectable) (abandonCroft .commons q c))

/-- Lines wholly covered by n bytes from a. -/
def wholeLines (a n : Nat) : List Nat := (List.range (n / 64 + 1)).filterMap (fun k =>
  let l := (a + 63) / 64 * 64 + 64 * k
  if l + 64 ≤ a + n then some l else none)

/-- Write HBM bytes of quarter q; a line written whole leaves the poison list (R365). -/
def hbmWrite (q a : Nat) (bs : List Byte) : Eff := fun h =>
  let gone := (h.gate.poison.filter (fun p => (wholeLines a bs.length).contains p.2 && p.1 == stackOf q p.2)).map (·.1)
  chain [wrBytes .hbm (q * hbmD + a) bs,
    whenB (!gone.isEmpty) (chain [modGate (fun g => { g with
        poison := g.poison.filter (fun p => !((wholeLines a bs.length).contains p.2 && p.1 == stackOf q p.2)) }),
      forE [3 * q, 3 * q + 1, 3 * q + 2] showPoison])] h

/-- Write bytes into a space: 0 the barn of croft c, 1 the commons, 2 the HBM of quarter q. -/
def spWrite (sp q c a : Nat) (bs : List Byte) : Eff :=
  if sp = 0 then barnWrite c a bs else if sp = 1 then wrBytes .commons (q * 0x4000000 + a) bs else hbmWrite q a bs

/-- A finding on a read of a space. -/
def spFinding (sp q c a : Nat) (e : EccCase) : Eff :=
  if sp = 0 then barnFinding c a e else if sp = 1 then commonsFinding q c a e else hbmFinding q a e

/-- Byte a lies in one of the spans. -/
def inSpans (spans : List (Nat × Nat)) (lo n : Nat) : Bool := spans.any (fun s => decide (lo < s.1 + s.2) && decide (s.1 < lo + n))

/-- The findings of a list that strike a word with a byte in one of these spans of a space. -/
def errsIn (errs : List MemErr) (sp : Nat) (spans : List (Nat × Nat)) : List MemErr :=
  errs.filter (fun e => e.sp.val == sp && inSpans spans (e.addr / 8 * 8) 8)

/-- Poisoned lines of an HBM with a byte in one of the spans. -/
def poisonedIn (h : Hw) (sp q : Nat) (spans : List (Nat × Nat)) : List Nat :=
  if sp ≠ 2 then [] else (h.gate.poison.filter (fun p => p.1 == stackOf q p.2 && inSpans spans p.2 64)).map (·.2)

/-- Lines of an HBM that findings make uncorrectable. -/
def ueLines (errs : List MemErr) : List Nat := (errs.filter (fun e => e.sp == 2 && e.case == .uncorrectable)).map (fun e => e.addr / 64 * 64)

/-- What the ECC does with the findings of an access; a line that is poisoned already is not looked at (R363). -/
def eccFind (sp q c : Nat) (spans : List (Nat × Nat)) (errs : List MemErr) : Eff :=
  forE (errsIn errs sp spans) (fun e => fun h => if sp = 2 && isPoisoned h q e.addr then [] else spFinding sp q c e.addr e.case h)

/-- A read of spans of a space by a unit of croft c, of quarter q: its findings, and the poisoned lines it takes (R363, R368). -/
def eccRead (sp q c : Nat) (spans : List (Nat × Nat)) (errs : List MemErr) : Eff := fun h =>
  andThen (forE (poisonedIn h sp q spans) (fun a => deliverPoison q a)) (eccFind sp q c spans errs) h

/-- The words of 8 bytes that a write of n bytes at a covers in part: it reads them (R362, R368). -/
def partWords (a n : Nat) : List (Nat × Nat) :=
  if n = 0 then []
  else (if a % 8 = 0 ∧ (a / 8 < (a + n) / 8) then [] else [(a / 8 * 8, 8)]) ++
    (if (a + n) % 8 = 0 ∨ (a + n) / 8 ≤ a / 8 then [] else [((a + n) / 8 * 8, 8)])

/-- The read half of a write of n bytes at a: a partial write to a poisoned line delivers nothing (R363). -/
def eccWrite (sp q c a n : Nat) (errs : List MemErr) : Eff := eccFind sp q c (partWords a n) errs

/-- The tiles that spans touch, each once. -/
def spanTiles (spans : List (Nat × Nat)) : List Nat :=
  spans.foldl (fun l s => (if s.2 = 0 then [] else (List.range ((s.1 + s.2 - 1) / 4096 - s.1 / 4096 + 1)).map (· + s.1 / 4096)).foldl
    (fun l x => if l.contains x then l else l ++ [x]) l) []

-- commands

/-- ICACHE_FILL (R124): a miss, or a line that failed parity on a hit, is filled from the barn; the cache holds 256 lines. -/
def effIcacheFill (c : Croft) (st : Strm) (parity : Bool) (errs : List MemErr) : Eff := fun h =>
  let i := sIx c st
  let line := getF h stream_PC i / 64
  let hit := (streamX h i).icache.contains line
  if hit && !parity then []
  else chain [eccRead 0 (c.val / 16) c.val [(protLo h c.val + 64 * line, 64)] errs, incF stream_ICACHE_MISS i,
    modStream i (fun x => { x with icache := (line :: x.icache.filter (fun l => l != line)).take 256 }),
    whenB (hit && parity) (raise .croft c.val 2)] h

/-- ECC_WRITEBACK (R368): the oldest corrected word of a memory is rewritten; it reads as it did. -/
def effEccWriteback (mem : EccMem) : Eff := fun h =>
  match h.gate.writeBack.find? (fun x => x.1 == mem) with
  | none => []
  | some x => modGate (fun g => { g with writeBack := g.writeBack.erase x }) h

/-- Lines of one stack (R358). -/
def stackLines : Nat := 32 * 2415919104 / 64

/-- A patrol read of one line of a stack, named by its number in the quarter (R366). -/
def scrubStack (k : Stack) (line : Nat) (e : EccCase) : Eff := fun h =>
  let q := k.val / 3
  let a := 64 * line
  if !flag h hbm0_CTRL_SCRUB_EN k.val || stackOf q a != k.val || quarterGone h q || decide (96 * 2415919104 ≤ a) then []
  else
    let pos := ((h.gate.scrubPos.find? (fun x => x.1 == k.val)).map (·.2)).getD 0 + 1
    let full := decide (stackLines ≤ pos)
    chain [hbmFinding q a e,
      modGate (fun g => { g with scrubPos := (k.val, if full then 0 else pos) :: g.scrubPos.filter (fun x => x.1 != k.val) }),
      whenB full (incF hbm0_SCRUB_PASSES k.val)] h

/-- SCRUB_READ (R366, R368): a patrol read of one line. The scrub of a barn or a commons is no unit's read: a persistent error it finds is
counted, captured and a fault as in every read, and no croft abandons for it. DEDUCED (R368), log 65. -/
def effScrubRead (mem : ScrubMem) (line : Nat) (e : EccCase) (t : Nat) : Eff := atClk t (fun h =>
  let a := 64 * line
  match mem with
  | .hbm k => scrubStack k line e h
  | .barn c => if quarterGone h (c.val / 16) || decide (0xC00000 ≤ a) then [] else barnScrubbed c.val a e h
  | .commons q => if quarterGone h q.val || decide (0x4000000 ≤ a) then [] else commonsScrubbed q.val a e h)

/-- HBM_TEMP_READ (R361). -/
def effHbmTempRead (k : Stack) (degC : Nat) : Eff :=
  chain [setF hbm0_TEMP k.val degC, setFlag hbm0_STATUS_HOT k.val (decide (85 ≤ degC)), whenB (decide (95 ≤ degC)) (raise .hbm0 k.val 6)]

/-- SLOW_SCRUB_PASS (R373): direct records for what the packages report; an uncorrectable error fails the slow tier. -/
def effSlowScrubPass (ch : Fin 24) (ce ue : Nat) : Eff :=
  chain [whenB (decide (0 < ce)) (millRecord 24 0 (ch.val + 256 * (ce % 2 ^ 24))),
    whenB (decide (0 < ue)) (chain [millRecord 25 3 (ch.val + 256 * (ue % 2 ^ 24)), failMill])]

/-- A slot of an HBM's checksum region is written: half of a word, whose other half is read (R362, R367). -/
def slotWrite (q c t : Nat) (v : Word) (errs : List MemErr) : Eff :=
  andThen (eccWrite 2 q c (hbmD + 4 * t) 4 errs) (csumSet (csumKeyHbm q t) v)

/-- HBM_CSUM_DATA_WRITE (R367). -/
def effHbmCsumDataWrite (k : Stack) (v : Word) (errs : List MemErr) : Eff := fun h =>
  slotWrite (k.val / 3) (16 * (k.val / 3)) (getF h hbm1_CSUM_SEL k.val) v errs h

/-- The gate turns a host access to a quarter in reset or parked away (R371). -/
def hostDiscard (q : Nat) : Eff := chain [incF (paths_DISCARD q) 0, raise .paths 0 2]

/-- A host access wakes a stack that is in self-refresh (R371). -/
def wakeStack (q a : Nat) : Eff := setFlag hbm0_STATUS_SELF_REFRESH (stackOf q a) false

/-- A host read of the line at device physical address x (R369, R371). -/
def hostRead (x : Nat) (e : EccCase) (t : Nat) : Eff := atClk t (fun h =>
  let q := x / hbmD
  let a := x % hbmD / 64 * 64
  if quarterInReset h q || quarterParked h q then
    chain [hostDiscard q, emit (.hostData (List.replicate 64 0xFF) true)] h
  else
    let bad := isPoisoned h q a || e == .uncorrectable
    chain [wakeStack q a, hbmFinding q a e, fun h => emit (.hostData (rdBytes h .hbm (q * hbmD + a) 64) bad) h] h)

/-- A host write within the line at device physical address x (R369, R371). -/
def hostWrite (x : Nat) (data : List Byte) (poison : Bool) (errs : List MemErr) : Eff := fun h =>
  let q := x / hbmD
  let a := x % hbmD
  if quarterInReset h q || quarterParked h q then hostDiscard q h
  else
    let bs := data.take (64 - a % 64)
    chain [wakeStack q a, eccWrite 2 q (16 * q) a bs.length errs, hbmWrite q a bs, whenB poison (enterPoison q a)] h

/-- SELF_REFRESH_RETURN (R371): while the device is fallow an untouched stack goes back. -/
def effSelfRefreshReturn (k : Stack) : Eff := whenE (fun h => flag h reset_STATUS_IN_FALLOW 0) (setFlag hbm0_STATUS_SELF_REFRESH k.val true)

/-- HBM_TRAIN_FAIL (R365). -/
def effHbmTrainFail (k : Stack) : Eff :=
  chain [setFlag hbm0_STATUS_TRAINED k.val false, raise .hbm0 k.val 7, failQuarter (k.val / 3)]

/-- HOST_MEM_READ: the one HDM range ends at 4 D (R369). -/
def execHostMemRead (x : Nat) (e : EccCase) (t : Nat) (s : State) : Host.Outcome State Fault Refusal :=
  if x < 4 * hbmD then run (byHostMemory (hostRead x e t)) s else .fault .outsideHdm

/-- HOST_MEM_WRITE. -/
def execHostMemWrite (x : Nat) (data : List Byte) (poison : Bool) (s : State) (errs : List MemErr := []) :
    Host.Outcome State Fault Refusal :=
  if x < 4 * hbmD then run (byHostMemory (hostWrite x data poison errs)) s else .fault .outsideHdm

-- meanings, one per command

/-- ICACHE_FILL. -/
def execIcacheFill (c : Croft) (st : Strm) (parity : Bool) (s : State) (errs : List MemErr := []) : Host.Outcome State Fault Refusal :=
  run (effIcacheFill c st parity errs) s

/-- ECC_WRITEBACK. -/
def execEccWriteback (mem : EccMem) (s : State) : Host.Outcome State Fault Refusal :=
  run (effEccWriteback mem) s

/-- SCRUB_READ. -/
def execScrubRead (mem : ScrubMem) (line : Nat) (e : EccCase) (t : Nat) (s : State) : Host.Outcome State Fault Refusal :=
  run (effScrubRead mem line e t) s

/-- HBM_TEMP_READ. -/
def execHbmTempRead (h : Stack) (degC : Nat) (s : State) : Host.Outcome State Fault Refusal :=
  run (effHbmTempRead h degC) s

/-- SLOW_SCRUB_PASS. -/
def execSlowScrubPass (ch : Fin 24) (ce ue : Nat) (s : State) : Host.Outcome State Fault Refusal :=
  run (effSlowScrubPass ch ce ue) s

/-- HBM_CSUM_DATA_WRITE. -/
def execHbmCsumDataWrite (h : Stack) (v : Word) (s : State) (errs : List MemErr := []) : Host.Outcome State Fault Refusal :=
  run (byQuarter (h.val / 3) (effHbmCsumDataWrite h v errs)) s

/-- HBM_TRAIN_FAIL. -/
def execHbmTrainFail (h : Stack) (s : State) : Host.Outcome State Fault Refusal :=
  run (effHbmTrainFail h) s

/-- SELF_REFRESH_RETURN. -/
def execSelfRefreshReturn (h : Stack) (s : State) : Host.Outcome State Fault Refusal :=
  run (effSelfRefreshReturn h) s

end Sys2Proof.Machine
end

