-- ==== Sys2Proof/Machine/Messages.lean ====
section
/-! DEFINITION. Causeway messages (R339 to R343, R347): their bytes, their flits, routing, and the discard of a message. -/

namespace Sys2Proof.Machine

def fldAt (lo v : Nat) : Nat := v * 2 ^ lo

/-- The 32-byte header of R339. -/
def msgHeader (m : Msg) : List Byte :=
  leBytes 8 (m.typ.toNat + fldAt 4 m.sub.toNat + fldAt 8 m.hops.toNat + fldAt 16 m.ddev.toNat + fldAt 33 m.dq.toNat +
    fldAt 35 m.dcroft.toNat + fldAt 39 m.dunit.toNat) ++
  leBytes 8 (m.sdev.toNat + fldAt 17 m.sq.toNat + fldAt 19 m.scroft.toNat + fldAt 32 m.sbell.toNat) ++
  leBytes 8 (m.daddr.toNat + fldAt 40 m.len.toNat + fldAt 56 m.rsig.toNat + fldAt 62 (b2n m.rsen)) ++
  leBytes 8 (m.rfmt.toNat + fldAt 4 m.rop.toNat + fldAt 6 m.saddr.toNat + fldAt 30 m.lsig.toNat + fldAt 36 (b2n m.lsen) +
    fldAt 40 m.pbytes.toNat)

/-- Header, payload and CRC (R339). -/
def msgBytes (m : Msg) : List Byte :=
  let b := msgHeader m ++ m.payload
  b ++ leBytes 4 (crc32c b)

/-- The channel of a message type (R335). -/
def vcOf (typ : Nat) : Nat :=
  if typ = 1 ∨ typ = 2 then 0 else if typ = 3 then 1 else if typ = 5 ∨ typ = 6 then 2 else 3

/-- The fields of a header that route or report a message, read back from its bytes (R339). -/
def parseHeader (bs : List Byte) : Msg :=
  let w0 := ofLe (bs.take 8)
  let w1 := ofLe ((bs.drop 8).take 8)
  let f := fun (n w hi lo : Nat) => BitVec.ofNat n (bits w hi lo)
  { typ := f 4 w0 3 0, sub := f 4 w0 7 4, hops := f 6 w0 13 8, ddev := f 17 w0 32 16, dq := f 2 w0 34 33, dcroft := f 4 w0 38 35,
    dunit := f 2 w0 40 39, sdev := f 17 w1 16 0, sq := f 2 w1 18 17, scroft := f 4 w1 22 19, sbell := f 32 w1 63 32 }

/-- Payload length in bytes that a header states (R339). -/
def statedLen (len pbytes : Nat) : Nat := if pbytes = 0 then (len + 1) * 64 else if pbytes = 255 then 0 else pbytes

/-- A whole message read back from its bytes (R339). -/
def parseMsg (bs : List Byte) : Msg :=
  let w2 := ofLe ((bs.drop 16).take 8)
  let w3 := ofLe ((bs.drop 24).take 8)
  let f := fun (n w hi lo : Nat) => BitVec.ofNat n (bits w hi lo)
  let m := parseHeader bs
  { m with
    daddr := f 40 w2 39 0, len := f 16 w2 55 40, rsig := f 6 w2 61 56, rsen := bit w2 62, rfmt := f 4 w3 3 0, rop := f 2 w3 5 4
    saddr := f 24 w3 29 6, lsig := f 6 w3 35 30, lsen := bit w3 36, pbytes := f 8 w3 47 40
    payload := (bs.drop 32).take (statedLen (bits w2 55 40) (bits w3 47 40)), vc := BitVec.ofNat 2 (vcOf m.typ.toNat) }

/-- The 40 bytes of a bell token (R261). -/
def tokenBytes (t : Token) : List Byte :=
  leBytes 8 t.bell.toNat ++ leBytes 6 t.step.toNat ++ leBytes 2 t.attempt.toNat ++ leBytes 4 t.period.toNat ++
    leBytes 1 t.slack.toNat ++ leBytes 1 t.flags.toNat ++ leBytes 2 0 ++ leBytes 4 t.acc.toNat ++ leBytes 4 t.lead.toNat ++
    leBytes 8 t.batch.toNat

/-- The token that 40 bytes spell. -/
def parseToken (bs : List Byte) : Token :=
  let f := fun (n lo len : Nat) => BitVec.ofNat n (ofLe ((bs.drop lo).take len))
  { bell := f 64 0 8, step := f 48 8 6, attempt := f 16 14 2, period := f 26 16 4, slack := f 8 20 1, flags := f 8 21 1
    acc := f 32 24 4, lead := f 24 28 4, batch := f 64 32 8 }

/-- Number of flits of a message (R338). -/
def flitCount (m : Msg) : Nat := (36 + m.payload.length + 239) / 240

/-- The flits of a byte string on a channel (R338); the sequence number is given when the flit is sent. -/
def toFlits (vc : Nat) : Nat → Bool → List Byte → List Flit
  | 0, _, _ => []
  | n + 1, first, bs =>
    { vc := BitVec.ofNat 2 vc, som := first, eom := decide (bs.length ≤ 240), vlen := BitVec.ofNat 8 (min bs.length 240),
      payload := bs.take 240 } :: toFlits vc n false (bs.drop 240)

/-- Queued flits of a channel. -/
def chanQ (x : PortX) : Nat → List QFlit
  | 0 => x.q0 | 1 => x.q1 | 2 => x.q2 | _ => x.q3

def setChanQ (x : PortX) (v : List QFlit) : Nat → PortX
  | 0 => { x with q0 := v } | 1 => { x with q1 := v } | 2 => { x with q2 := v } | _ => { x with q3 := v }

/-- One bit step of the flit CRC: the ECMA-182 polynomial, most significant bit first (R331). -/
def crc64Step (c : Nat) : Nat := ((2 * c) % 2 ^ 64) ^^^ (if c.testBit 63 then 0x42F0E1EBA9EA3693 else 0)

def crc64Byte (c : Nat) (b : Byte) : Nat :=
  crc64Step (crc64Step (crc64Step (crc64Step (crc64Step (crc64Step (crc64Step (crc64Step (c ^^^ (b.toNat <<< 56)))))))))

/-- CRC-64 of R331. -/
def crc64 (bs : List Byte) : Nat := (bs.foldl crc64Byte (2 ^ 64 - 1)) ^^^ (2 ^ 64 - 1)

/-- The 256 bytes of a flit on the wire (R330, R331). -/
def flitBytes (f : Flit) : List Byte :=
  let hdr := f.seq.toNat + fldAt 12 f.vc.toNat + fldAt 14 f.kind.toNat + fldAt 16 f.ackseq.toNat + fldAt 28 (b2n f.ackv) +
    fldAt 29 (b2n f.som) + fldAt 30 (b2n f.eom) + fldAt 31 (b2n f.replay) + fldAt 32 f.vlen.toNat + fldAt 40 f.crvc.toNat +
    fldAt 48 f.crcnt.toNat
  let b := leBytes 8 hdr ++ f.payload ++ List.replicate (240 - f.payload.length) 0
  b ++ beBytes 8 (crc64 b)

def portUp (h : Hw) (p : Nat) : Bool := getF h port0_STATUS_STATE p == 5

/-- Credits of a channel not yet committed to queued flits (R343). -/
def freeCredits (h : Hw) (p vc : Nat) : Nat :=
  (portX h p).credits.getD vc 0 - (chanQ (portX h p) vc).length

def deviceId (h : Hw) (q : Nat) : Nat := getF h quarter_DEVICE_ID q

/-- Usable candidates of a route entry: index, port, weight (R342, R343). -/
def usable (h : Hw) (e : Nat) : List (Nat × Nat × Nat) :=
  (List.range 4).filterMap (fun k =>
    let p := bits e (10 * k + 4) (10 * k)
    if bit e (10 * k + 9) && portUp h p then some (k, p, bits e (10 * k + 8) (10 * k + 5)) else none)

/-- The adaptive choice of R343: the largest score, the lower index of equal ones; a weight of 0 scores 0. -/
def adaptive (h : Hw) (vc : Nat) (cs : List (Nat × Nat × Nat)) : Option Nat :=
  (cs.foldl (fun (best : Option (Nat × Nat)) x =>
    let sc := x.2.2 * (freeCredits h x.2.1 vc + 1)
    match best with
    | none => some (x.2.1, sc)
    | some b => if b.2 < sc then some (x.2.1, sc) else some b) none).map (·.1)

/-- Egress port of a message from quarter q, and whether a fallback was taken (R343). -/
def routePort (h : Hw) (q : Nat) (m : Msg) : Option (Nat × Bool) :=
  let e := (routeOf h q (m.ddev.toNat / 4)).toNat
  let j := m.ddev.toNat % 4
  let dp := bits e (5 * j + 48) (5 * j + 44)
  if bit e (40 + j) && portUp h dp then some (dp, false)
  else
    let cs := usable h e
    let vc := vcOf m.typ.toNat
    if vc ≤ 1 then
      match cs with
      | [] => none
      | x :: _ => some (x.2.1, x.1 != 0)
    else (adaptive h vc cs).map (fun p => (p, false))

/-- The pound of quarter q discards a message (R347). -/
def discardMsg (q : Nat) (m : Msg) (ev : Option Nat) (untrusted : Bool) (vc : Nat) : Eff := fun h =>
  let capture := ev.isSome && !flag h pound_DISCARD_INFO_VALID q
  chain [incF pound_DISCARDS q,
    whenB capture (chain [setF pound_DISCARD_INFO_SDEV q m.sdev.toNat, setF pound_DISCARD_INFO_SQ q m.sq.toNat,
      setF pound_DISCARD_INFO_TYPE q m.typ.toNat, setFlag pound_DISCARD_INFO_UNTRUSTED q untrusted,
      setFlag pound_DISCARD_INFO_VALID q true, setF pound_DISCARD_BELL q m.sbell.toNat]),
    (match ev with
      | none => skip
      | some e => andThen (raise .pound q e) (whenB (decide (vc ≤ 1)) (abandonQ ⟨.pound, q⟩ q)))] h

/-- The gate discards what quarter sq sent to quarter dq (R21, R266); CTRL messages never abandon a step (R346), nor do FILL and SECURE
(R347). -/
def gateDiscard (sq dq vc : Nat) : Eff :=
  chain [incF (paths_DISCARD dq) 0, incF quarter_DISCARD_COUNT sq, raise .quarter sq 0, whenB (decide (vc ≤ 1)) (abandonQ ⟨.quarter, sq⟩ sq)]

/-- Messages to a quarter that is gone, or to a barn of a croft whose quarantine is in effect, do not get there (R21, R420). -/
def addressGone (h : Hw) (m : Msg) : Bool :=
  quarterGone h m.dq.toNat ||
    (m.dunit == 0 && decide (vcOf m.typ.toNat ≤ 1) && h.gate.quarIn.contains (16 * m.dq.toNat + m.dcroft.toNat))

/-- Queue the flits of a message that quarter q routed on a port. -/
def queueOnPort (q p : Nat) (m : Msg) : Eff := fun h =>
  let vc := vcOf m.typ.toNat
  let fs := (toFlits vc (flitCount m) true (msgBytes m)).map (fun f => ({ by_ := q, f := f, since := h.clk } : QFlit))
  chain [modPort p (fun x => setChanQ x (chanQ x vc ++ fs) vc),
    emit (.message (some p) q m)] h

/-- Quarter q sends or forwards a message: through the gate inside the device, or on a port (R341, R343). -/
def forwardMsg (q : Nat) (m : Msg) : Eff := fun h =>
  if m.ddev.toNat = deviceId h q then
    (if addressGone h m then gateDiscard q m.dq.toNat (vcOf m.typ.toNat) h else emit (.message none m.dq.toNat m) h)
  else
    match routePort h q m with
    | none => discardMsg q m (some 1) false (vcOf m.typ.toNat) h
    | some (p, fb) => chain [whenB fb (raise .pound q 7), queueOnPort q p m] h

/-- The device runs its catch-up without its peers (R442). -/
def catchingUp (h : Hw) : Bool := flag h mill_GRAN_CTRL_CATCHUP 0 && flag h bellMaster_CTRL_MASTER 0

/-- In catch-up a message to another device is discarded as if sent (R442). -/
def asIfSent (h : Hw) (q : Nat) (m : Msg) : Bool := catchingUp h && decide (m.ddev.toNat ≠ deviceId h q)

/-- A message from quarter q has somewhere to go: a quarter that answers, or a usable route. -/
def sendable (h : Hw) (q : Nat) (m : Msg) : Bool :=
  asIfSent h q m || (if m.ddev.toNat = deviceId h q then !addressGone h m else (routePort h q m).isSome)

/-- A valid `KEEPk` names the device (R435). -/
def isKept (h : Hw) (dev : Nat) : Bool :=
  (List.range 64).any (fun k => flag h (mill_KEEP_VALID k) 0 && getF h (mill_KEEP_DEVICE k) 0 == dev)

/-- The copy that a pound makes of a scheduled message to a kept device (R435): destination, `SBELL`, the whole message. -/
def keepCopy (m : Msg) : Eff := fun h =>
  if flag h mill_GRAN_CTRL_MODE 0 && decide (vcOf m.typ.toNat ≤ 1) && isKept h m.ddev.toNat then
    modMill (fun x => { x with toKeep := x.toKeep ++ [(m.ddev.toNat, m.sbell.toNat, msgBytes m)] }) h
  else []

/-- The source fields of a message that quarter q forms itself (R339, R341). -/
def fillSource (h : Hw) (q : Nat) (m : Msg) : Msg :=
  { m with
    hops := BitVec.ofNat 6 (getF h quarter_ROUTE_CTRL q)
    sdev := BitVec.ofNat 17 (deviceId h q)
    sq := BitVec.ofNat 2 q
    sbell := BitVec.ofNat 32 h.bell.edgeBell
    vc := BitVec.ofNat 2 (vcOf m.typ.toNat) }

/-- The send of a message that quarter q forms itself; a device that has left scheduled traffic sends none (R29). -/
def sendMsg (q : Nat) (m : Msg) : Eff := fun h =>
  let m := fillSource h q m
  if h.bell.left then []
  else if asIfSent h q m then incF pound_MSG_TX q h
  else chain [whenB (sendable h q m) (chain [incF pound_MSG_TX q, keepCopy m]), forwardMsg q m] h

/-- `LEN` and `PBYTES` of a payload (R339), with its padding. -/
def withPayload (m : Msg) (bs : List Byte) : Msg :=
  if bs.length % 64 = 0 ∧ bs ≠ [] then { m with payload := bs, len := BitVec.ofNat 16 (bs.length / 64 - 1), pbytes := 0 }
  else if bs = [] then { m with payload := [], pbytes := 0xFF }
  else if bs.length ≤ 64 then { m with payload := bs, pbytes := BitVec.ofNat 8 bs.length }
  else
    let n := (bs.length + 63) / 64
    { m with payload := bs ++ List.replicate (64 * n - bs.length) 0, len := BitVec.ofNat 16 (n - 1), pbytes := 0 }

/-- An entry of the send table (R350): its eight words; none where the table runs past the commons. -/
def sendEntry (h : Hw) (q tag : Nat) : Option (List Nat) :=
  let a := getF h pound_SEND_BASE q * 64 + 32 * tag
  if a + 32 ≤ 0x4000000 then some ((List.range 8).map (fun i => rdNat h .commons (q * 0x4000000 + a + 4 * i) 4)) else none

end Sys2Proof.Machine
end

