-- ==== Sys2Proof/Machine/Lane.lean ====
section
/-! DEFINITION. The field instructions, the lane and the passes (spec 04, R85 to R111; R173 to R176; R200 to R206; the dyke's
grants, R455 and R456), and the accumulator loads. One KSTEP carries a k-step to all enabled cells at once: the skew of
R99 is folded into its issue clk. -/

namespace Sys2Proof.Machine

-- masks

/-- Highest set bit of a 16-bit mask. -/
def topBit (m : Nat) : Nat := Nat.log2 m

/-- A row (or column) is enabled by its plot mask and edge mask (R106). -/
def lineOn (plot edge i : Nat) : Bool := bit plot (i / 16) && (i / 16 != topBit plot || bit edge (i % 16))

def onLines (plot edge : Nat) : List Nat := (List.range 256).filter (lineOn plot edge)

/-- Plots of one member field that hold an enabled cell (R455). -/
def plotsOn (plot edge : Nat) : Nat :=
  ((List.range 16).filter (fun p => (List.range 16).any (fun i => lineOn plot edge (16 * p + i)))).length

def memberList (fields : Nat) : List Nat := (List.range 4).filter (fun f => bit fields f)

-- accumulators

def a36Num (v : BitVec 36) : Num := decodeFp fmtA36 v.toNat

/-- An exact load into A36 (R80, R102): infinities and NaNs load as NaN. -/
def loadA36 (x : Num) : BitVec 36 :=
  BitVec.ofNat 36 (encodeLong fmtA36 (match x with | .inf _ => .nan | y => y))

/-- Bytes of a load's source for one field, from its first byte (R174). -/
def loadSpan (l : LoadReq) : Nat :=
  if l.src = 1 then (if l.bfmt = 1 then 512 else 1024) else 255 * l.rowStride + 1024

def loadAddr (l : LoadReq) (f : Nat) : Nat := l.addr + f * l.fStride

/-- The source of a `BIAS` or `PARTIAL` load runs past the end of the barn (R175). -/
def loadOut (l : LoadReq) (f : Nat) : Bool :=
  (l.src == 1 || l.src == 2) && decide (0xC00000 < loadAddr l f + loadSpan l)

def zeroRow : List (BitVec 36) := List.replicate 256 0

/-- The values a load writes into row i of field f; none for `KEEP`. -/
def loadRow (h : Hw) (c f : Nat) (l : LoadReq) (i : Nat) : Option (List (BitVec 36)) :=
  if l.src = 3 then none
  else if l.src = 0 ∨ loadOut l f = true then some zeroRow
  else
    let w := if l.src = 1 ∧ l.bfmt = 1 then 2 else 4
    let fm := if l.src = 1 ∧ l.bfmt = 1 then fmtW16 else fmtS32
    let a := loadAddr l f + (if l.src = 1 then 0 else i * l.rowStride)
    some ((unpackCodes (8 * w) 256 (barnNat h c a (256 * w))).map (fun v => loadA36 (decodeFp fm v)))

/-- What a load reads for row i of field f (R174): nothing for `ZERO` and `KEEP`. -/
def loadSpans (l : LoadReq) (f i : Nat) : List (Nat × Nat) :=
  if (l.src = 1 ∨ l.src = 2) ∧ loadOut l f = false then
    [(loadAddr l f + (if l.src = 1 then 0 else i * l.rowStride), if l.src = 1 ∧ l.bfmt = 1 then 512 else 1024)]
  else []

def writeRow (fi i : Nat) (vs : List (BitVec 36)) : Eff := fun _ => [.accRow (65536 * fi + 256 * i) vs]

/-- A standalone load of all 256 rows (R175). -/
def performLoad (c f : Nat) (l : LoadReq) (errs : List MemErr) : Eff :=
  let fi := fldIx c f
  chain [
    eccRead 0 (c / 16) c ((List.range 256).flatMap (loadSpans l f)) errs,
    (if l.src = 3 then skip
     else if l.src = 0 ∨ loadOut l f = true then fun _ => [.zeroAccs fi]
     else forE (List.range 256) (fun i => fun h => match loadRow h c f l i with | some vs => writeRow fi i vs h | none => [])),
    whenB (loadOut l f) (raise .field fi 8),
    fun h => modField fi (fun x => { x with loaded := true, kept := l.src == 3, loadedClk := h.clk + (if l.src = 3 then 0 else 257) }) h]

-- LOAD, RUN, DRAIN

def holdsAll (h : Hw) (i m : Nat) : Bool := heldMask h i &&& m == m

/-- A LOAD or DRAIN of stream s binds to the field's most recent RUN (R175). -/
def boundRun (x : FieldX) (s : Nat) : Option Nat :=
  if x.run ≠ 0 ∧ x.runStream = s ∧ x.swapped = false then some x.run else none

def loadReqOf (w : BitVec 128) : LoadReq :=
  { src := wb w 21 20, bfmt := wb w 22 22, addr := wb w 47 24, rowStride := wb w 71 48, fStride := wb w 95 72 }

/-- Stage a load on one field (R163, R175). -/
def stageLoad (c s f : Nat) (l : LoadReq) : Eff := fun h =>
  let fi := fldIx c f
  let x := fieldX h fi
  match boundRun x s with
  | some r => modField fi (fun x => { x with load := some { l with run := r } }) h
  | none =>
    if x.drain.isSome then modField fi (fun x => { x with load := some l }) h
    else if l.src = 3 then modField fi (fun x => { x with load := none, loaded := true, kept := true, loadedClk := h.clk }) h
    else modField fi (fun x => { x with load := some { l with alone := true } }) h

def effLoad (c : Croft) (st : Strm) (w : BitVec 128) (t : Nat) : Eff :=
  issue c st w t 0x22 okLoad (fun h =>
    let i := sIx c st
    let m := wb w 19 16
    if !holdsAll h i m then streamFault i 3 (getF h stream_PC i) h
    else chain [forE (memberList m) (fun f => stageLoad c.val (strmIx st) f (loadReqOf w)), retire i] h)

/-- The pass a RUN puts into the lane queue (R171, R174, R201). -/
def passOf (h : Hw) (c s : Nat) (w : BitVec 128) (id : Nat) : Pass :=
  let x := streamX h (3 * c + s)
  { id := id, stream := s, fields := wb w 19 16, kruns := wb w 51 32, abase := wb w 87 64, wbase := wb w 111 88,
    wstride := wb w 127 112, sig := wb w 27 22, sen := bit w.toNat 28, fmtA := x.fmtA, fmtW := x.fmtW,
    plotRows := x.plotRows, plotCols := x.plotCols, edgeRows := x.edgeRows, edgeCols := x.edgeCols, wideEn := x.wideEn,
    wideTable := x.wideTable, wideStore := x.wideStore, asize := getF h barn_RING_ASIZE c, wsize := getF h barn_RING_WSIZE c,
    takenClk := h.clk }

/-- The masks of a pass. -/
def passMasks (p : Pass) : Masks := ⟨p.plotRows, p.plotCols, p.edgeRows, p.edgeCols⟩

/-- A field takes part in a newly taken RUN: a bound load still staged, with no drain to use it, becomes a standalone load. -/
def fieldTakesRun (c s f : Nat) (p : Pass) : Eff := fun h =>
  let fi := fldIx c f
  modField fi (fun x => { x with
    run := p.id, runStream := s, swapped := false, masks := passMasks p
    load := (match x.load with
      | some l => if x.drain.isNone then some { l with alone := true } else some l
      | none => none) }) h

def effRun (c : Croft) (st : Strm) (w : BitVec 128) (t : Nat) : Eff :=
  issue c st w t 0x20 okRun (fun h =>
    let i := sIx c st
    let m := wb w 19 16
    let x := croftX h c.val
    if !holdsAll h i m then streamFault i 3 (getF h stream_PC i) h
    else if 2 ≤ x.lane.length then []
    else
      let id := x.runSeq + 1
      let p := passOf h c.val (strmIx st) w id
      chain [modCroft c.val (fun x => { x with runSeq := id, lane := x.lane ++ [p] }),
        forE (memberList m) (fun f => fieldTakesRun c.val (strmIx st) f p), retire i] h)

/-- The first invalid descriptor's address and cause are captured (R198, R224). -/
def descInvalid (c a cause : Nat) : Eff := fun h =>
  chain [whenB (!flag h sluice_INVALID_INFO_VALID c)
      (chain [setF sluice_INVALID_INFO_DESC c a, setF sluice_INVALID_INFO_CAUSE c cause,
        setFlag sluice_INVALID_INFO_VALID c true]), raise .sluice c 0] h

def rowWritten (m : Masks) (i : Nat) : Bool := lineOn m.pr m.er i && decide (m.pc ≠ 0) && !(onLines m.pc m.ec).isEmpty

/-- The output format of a drain is one that no drain can have (R88, R174). -/
def fmtBad (d : DrainReq) : Bool := d.fmtOut == 0 || d.fmtOut == fmtH16 || (d.jit && !isShortFp d.fmtOut)

/-- The destination descriptor of a drain is valid (R208): one verdict for all its member fields, each in the rows that the masks of its own
pass write. A drain whose output format is invalid writes nothing, so no range is judged; the rest of its descriptor is judged all the
same. DESIGN CHOICE (R55), log 19. -/
def drainDescOk (h : Hw) (c : Nat) (d : DrainReq) : Bool :=
  let wd := fun k => barnNat h c (d.target + 8 * k) 8
  let w0 := wd 0
  let n := 32 * fmtWidth d.fmtOut
  bits w0 3 0 == 0 && bits w0 4 4 == 0 && bits w0 9 6 == 0 && bits w0 63 10 == 0 &&
  wd 1 == 0 && bits (wd 2) 63 38 == 0 && bits (wd 2) 5 0 == 0 && bits (wd 3) 31 0 == 0 && bits (wd 3) 37 32 == 0 &&
  bits (wd 4) 63 38 == 0 && bits (wd 4) 5 0 == 0 && bits (wd 5) 63 32 == 0 && bits (wd 5) 5 0 == 0 &&
  (d.fmtOut != fmtS32 || (wd 4 == 0 && wd 5 == 0)) && wd 6 == 0 && wd 7 == 0 && d.target + 64 ≤ 0xC00000 &&
  (fmtBad d || (memberList d.fields).all (fun f =>
    let m := (fieldX h (fldIx c f)).masks
    (List.range 256).all (fun i => !rowWritten m i ||
      (decide (wd 2 + i * (wd 3 / 2 ^ 32) + f * n + n ≤ 0xC00000) &&
        (!hasHeader d.fmtOut || decide (wd 4 + i * wd 5 + 16 * f + 16 ≤ 0xC00000))))))

/-- What a `DRAIN` stages on field f: it binds to the field's pass, whose masks it takes, and reads its descriptor (R171, R175, R208). -/
def drainReqOf (h : Hw) (c s : Nat) (w : BitVec 128) (id f : Nat) : DrainReq :=
  let x := streamX h (3 * c + s)
  let fx := fieldX h (fldIx c f)
  let tgt := wb w 87 64
  let wd := fun k => barnNat h c (tgt + 8 * k) 8
  let d : DrainReq :=
    { id := id, stream := s, run := (boundRun fx s).getD 0, takenClk := h.clk, fields := wb w 19 16, fmtOut := wb w 23 20, jit := bit w.toNat 24,
      rot := bit w.toNat 25, dest := bit w.toNat 26, outl := bit w.toNat 27, group := wb w 41 28, target := tgt, cols := x.wdCols,
      wdStore := x.wdStore, masks := fx.masks }
  if d.dest then d
  else { d with daddr := wd 2, dstride := wd 3 / 2 ^ 32, haddr := wd 4, hstride := wd 5, wdst := bit (wd 0) 5,
                descBad := !drainDescOk h c d }

def effDrain (c : Croft) (st : Strm) (w : BitVec 128) (t : Nat) (errs : List MemErr) : Eff :=
  issue c st w t 0x21 okDrain (fun h =>
    let i := sIx c st
    let s := strmIx st
    let m := wb w 19 16
    let ms := memberList m
    if !holdsAll h i m then streamFault i 3 (getF h stream_PC i) h
    else if ms.any (fun f => (fieldX h (fldIx c.val f)).drain.isSome) then []
    else
      let desc := [(wb w 87 64, 64)]
      andThen (whenB (!bit w.toNat 26) (eccRead 0 (c.val / 16) c.val desc errs)) (fun h =>
      let id := (croftX h c.val).drainSeq + 1
      let req := drainReqOf h c.val s w id
      let set : DrainSet := { id := id, left := ms.length, stream := s, sig := wb w 47 42, sen := bit w.toNat 48 }
      chain [modCroft c.val (fun x => { x with drainSeq := id, drains := x.drains ++ [set] }),
        forE ms (fun f => modField (fldIx c.val f) (fun x => { x with drain := some (req f) })),
        whenB (ms.any (fun f => (req f).descBad)) (descInvalid c.val (wb w 87 64) 6),
        retire i] h) h)

/-- A pass with this RUN number is still in the lane. -/
def inLane (h : Hw) (c run : Nat) : Bool := (croftX h c).lane.any (fun p => p.id == run)

/-- STANDALONE_LOAD (R175): a load that no swap uses is performed, after the pass it is bound to. -/
def effStandaloneLoad (c : Croft) (f : FieldIx) (errs : List MemErr) (t : Nat) : Eff := atClk t (fun h =>
  let fi := fldIx c.val f.val
  let x := fieldX h fi
  match x.load with
  | none => []
  | some l =>
    if l.alone && x.swap.isNone && !(l.run != 0 && inLane h c.val l.run) then
      chain [modField fi (fun x => { x with load := none }), performLoad c.val f.val l errs, settleReleases c.val] h
    else [])

-- the lane store

/-- Pitch of an image line (R200). -/
def pitch (fm : Nat) : Nat := 64 * ((fmtWidth fm + 1) / 2)
def segLen (p : Nat) : Nat := 32 * p + 512
def wrapOff (off ring : Nat) : Nat := if ring = 0 then off else off % ring

def imgBase (p : Pass) (img : Nat) : Nat := if img = 0 then p.abase else p.wbase + (img - 1) * p.wstride * 64
def imgFmt (p : Pass) (img : Nat) : Nat := if img = 0 then p.fmtA else p.fmtW
def imgRing (p : Pass) (img : Nat) : Nat := (if img = 0 then p.asize else p.wsize) * 65536

/-- n bytes at an offset of an image, every byte taken modulo the ring. -/
def imgBytes (h : Hw) (c : Nat) (p : Pass) (img off n : Nat) : Nat :=
  if imgRing p img = 0 then barnNat h c (imgBase p img + off) n
  else ofLe ((List.range n).map (fun k => rd8 h .barn (c * 0xC00000 + imgBase p img + wrapOff (off + k) (imgRing p img))))

/-- Line λ of an image (R200). -/
def imgLine (h : Hw) (c : Nat) (p : Pass) (img line : Nat) : Nat :=
  let pt := pitch (imgFmt p img)
  imgBytes h c p img (line / 32 * segLen pt + line % 32 * pt) (32 * fmtWidth (imgFmt p img))

/-- Header block of run r. -/
def imgHdr (h : Hw) (c : Nat) (p : Pass) (img r : Nat) : Nat :=
  let pt := pitch (imgFmt p img)
  imgBytes h c p img (r * segLen pt + 32 * pt) 512

/-- Positions of the wide steps of run r, ascending and distinct (R173). -/
def widePositions (h : Hw) (c : Nat) (p : Pass) (r : Nat) : List Nat :=
  if !p.wideEn then []
  else
    let e := barnNat h c (p.wideTable + 16 * (r / 32)) 16
    let ps := (List.range (min (e % 16) 8)).map (fun n => bits e (13 + 10 * n) (4 + 10 * n))
    (List.range 32).filterMap (fun k => let pos := (r % 32) * 32 + k; if ps.contains pos then some pos else none)

/-- Bytes of the wide-run records of the whole pass (R206). -/
def wideBytes (h : Hw) (c : Nat) (p : Pass) : Nat :=
  ((List.range ((p.kruns + 31) / 32)).map (fun s =>
    ((List.range 32).map (fun k =>
      let r := 32 * s + k
      let n := if r < p.kruns then (widePositions h c p r).length else 0
      if n = 0 then 0 else 2560 * (1 + n))).sum)).sum

/-- An image would be read beyond the barn (R201). -/
def imgOut (p : Pass) (img : Nat) : Bool :=
  let pt := pitch (imgFmt p img)
  let ring := imgRing p img
  decide (0xC00000 < imgBase p img + (if ring = 0 then p.kruns * segLen pt + 15 * pt else ring))

def laneRange (h : Hw) (c : Nat) (p : Pass) : Bool :=
  imgOut p 0 || (memberList p.fields).any (fun f => imgOut p (1 + f)) ||
    (p.wideEn && (decide (0xC00000 < p.wideTable + 16 * ((p.kruns + 31) / 32)) ||
      decide (0xC00000 < p.wideStore + wideBytes h c p)))

/-- The formats of a pass are valid (R88). -/
def passFormats (p : Pass) : Bool := hasHeader p.fmtA && hasHeader p.fmtW

def ganged (p : Pass) : Bool := isGanged p.fmtA || isGanged p.fmtW

/-- A pass leaves the lane. -/
def leaveLane (c : Nat) (p : Pass) : Eff := chain [
  modCroft c (fun x => { x with lane := x.lane.filter (fun y => y.id != p.id),
                                prefetch := x.prefetch.filter (fun y => y.1 / 16 != p.id) })]

/-- A rejected pass adds its signal and counts as completed: its fields' next pass needs a load of its own (R164, R175, R176). -/
def rejectPass (c : Nat) (p : Pass) (ev : Eff) : Eff :=
  chain [ev, leaveLane c p, forE (memberList p.fields) (fun f => modField (fldIx c f) (fun x => { x with loaded := false })),
    doneSig c p.sig p.sen, settleReleases c]

/-- A member field is ready for a pass: no swap, no drain staged for an earlier pass or for none, and no standalone load before it is
still to come. A drain bound to this pass or a later one, or a load bound to them, does not hold it up (R175). -/
def memberReady (h : Hw) (c f : Nat) (p : Pass) : Bool :=
  let x := fieldX h (fldIx c f)
  x.swap.isNone && (match x.drain with | none => true | some d => decide (p.id ≤ d.run)) &&
    (match x.load with | none => true | some l => !l.alone || decide (p.id ≤ l.run))

/-- The demand of a pass on the dyke (R455). -/
def passDemand (p : Pass) : Nat :=
  (memberList p.fields).length * plotsOn p.plotRows p.edgeRows * plotsOn p.plotCols p.edgeCols

/-- PASS_READY (R104, R175, R176, R201, R202, R455): the head of the lane queue may begin. -/
def effPassReady (c : Croft) (t : Nat) : Eff := atClk t (fun h =>
  let cv := c.val
  match (croftX h cv).lane with
  | [] => []
  | p :: _ =>
    let ms := memberList p.fields
    if p.ready.isSome || ms.any (fun f => !memberReady h cv f p) || watchHolds h cv then []
    else
      let fresh := ms.filter (fun f => !(fieldX h (fldIx cv f)).loaded)
      let loads := forE fresh (fun f => performLoad cv f {} [])
      if !passFormats p then andThen loads (rejectPass cv p (forE ms (fun f => raise .field (fldIx cv f) 0))) h
      else if laneRange h cv p then andThen loads (rejectPass cv p (raise .barn cv 1)) h
      else
      let base := ms.foldl (fun b f => max b ((fieldX h (fldIx cv f)).loadedClk)) (max (croftX h cv).laneFree (p.takenClk + 1))
      let wait := if fresh.isEmpty then h.clk - base else 0
      chain [loads,
        modCroft cv (fun x => { x with lane := x.lane.map (fun y =>
          if y.id = p.id then { y with ready := some h.clk, demand := passDemand p } else y) }),
        modQuarter (cv / 16) (fun q => { q with order := q.order ++ [(cv, h.clk)] }),
        setFlag dyke_STATUS_WAITING (cv / 16) true,
        whenB (decide (0 < wait)) (chain [addF barn_LANE_WAIT_CLK cv wait, raise .barn cv 2])] h)

/-- The ready passes of a quarter in the dyke's order (R455). -/
def dykeFirst (order : List (Nat × Nat)) : Option (Nat × Nat) :=
  order.foldl (fun best x =>
    match best with
    | none => some x
    | some b => if x.2 < b.2 ∨ (x.2 = b.2 ∧ x.1 < b.1) then some x else some b) none

/-- What a field shows of a pass that begins (R121). -/
def showPass (c f : Nat) (p : Pass) : Eff :=
  let fi := fldIx c f
  chain [incF field_PASS_COUNT fi, setF field_PASS_FMT_FMT_A fi p.fmtA, setF field_PASS_FMT_FMT_W fi p.fmtW,
    (fun h => setFlag field_PASS_FMT_OUTLIERS fi ((List.range p.kruns).any (fun r => !(widePositions h c p r).isEmpty)) h),
    setFlag field_ACC_DATA_HI_VALID fi false, fun h => setFlag field_PASS_FMT_KEEP fi (fieldX h fi).kept h,
    setF field_PLOT_MASK_ROWS fi p.plotRows, setF field_PLOT_MASK_COLS fi p.plotCols,
    setF field_EDGE_MASK_ROWS fi p.edgeRows, setF field_EDGE_MASK_COLS fi p.edgeCols, setF field_PASS_K fi (32 * p.kruns),
    setFlag field_STATUS_BUSY fi true, setFlag field_STATUS_GANGED fi (ganged p), setFlag field_STATUS_WIDE fi false,
    modField fi (fun x => { x with loaded := false, runs := [] })]

/-- Releases of a quarter's plots that are due. -/
def dueReleases (h : Hw) (q : Nat) : List (Nat × Nat × Nat) := (quarterX h q).releases.filter (fun r => decide (r.2.2 ≤ h.clk))

/-- Plots that the due releases give back. -/
def dueDemand (h : Hw) (q : Nat) : Nat := ((dueReleases h q).map (·.2.1)).sum

/-- The dyke applies every release of the clk before it considers a pass (R455). -/
def releaseDue (q : Nat) : Eff := fun h =>
  if (dueReleases h q).isEmpty then []
  else chain [modQuarter q (fun x => { x with releases := x.releases.filter (fun r => !decide (r.2.2 ≤ h.clk)) }),
    setF dyke_ACTIVE q (getF h dyke_ACTIVE q - dueDemand h q)] h

/-- DYKE_GRANT (R455): the first ready pass of the quarter is granted when the budget and the stagger allow it. -/
def effDykeGrant (q : Quarter) (t : Nat) : Eff := atClk t (chain [releaseDue q.val, fun h =>
  let qx := quarterX h q.val
  match dykeFirst qx.order with
  | none => []
  | some (c, since) =>
    match (croftX h c).lane with
    | [] => []
    | p :: _ =>
      let active := getF h dyke_ACTIVE q.val
      let gap := match qx.lastGrant with | none => true | some g => decide (g + getF h dyke_STAGGER q.val ≤ h.clk)
      if decide (active + p.demand ≤ getF h dyke_BUDGET q.val) && gap then
        let d := h.clk - since
        let late := decide (getF h dyke_STAGGER q.val < d)
        let rest := qx.order.filter (fun x => x.1 != c)
        chain [modQuarter q.val (fun x => { x with order := rest, lastGrant := some h.clk }),
          setFlag dyke_STATUS_WAITING q.val (!rest.isEmpty),
          setF dyke_ACTIVE q.val (active + p.demand), peakF dyke_ACTIVE_PEAK q.val (active + p.demand),
          addF dyke_DELAY_CLK q.val d, whenB late (chain [incF dyke_DELAYED q.val, raise .dyke q.val 0]),
          modCroft c (fun x => { x with lane := x.lane.map (fun y => if y.id = p.id then { y with granted := some h.clk } else y) }),
          setFlag barn_STATUS_LANE_ACTIVE c true,
          forE (memberList p.fields) (fun f => showPass c f p)] h
      else []])

-- prefetch: image key 0 the activation image, 1 to 4 the weight images, 5 to 9 their header blocks, 10 the wide-run records

def preKey (id img : Nat) : Nat := 16 * id + img

def preGet (x : CroftX) (id img line : Nat) : Option Nat :=
  (x.prefetch.find? (fun e => e.1 == preKey id img && e.2.1 == line)).map (·.2.2)

/-- Offset of run r's wide-run record in the store (R206). -/
def wideOffset (h : Hw) (c : Nat) (p : Pass) (r : Nat) : Nat :=
  ((List.range r).map (fun k => let n := (widePositions h c p k).length; if n = 0 then 0 else 2560 * (1 + n))).sum

/-- What the barn holds now of an item of the lane store. -/
def laneItem (h : Hw) (c : Nat) (p : Pass) (img line : Nat) : Nat :=
  if img < 5 then imgLine h c p img line
  else if img < 10 then imgHdr h c p (img - 5) line
  else
    let n := (widePositions h c p line).length
    if n = 0 then 0 else barnNat h c (p.wideStore + wideOffset h c p line) (2560 * (1 + n))

/-- The pieces of an item on both sides of a ring's end, as barn addresses (R200). -/
def ringParts (base ring : Nat) (s : Nat × Nat) : List (Nat × Nat) :=
  if ring = 0 then [(base + s.1, s.2)]
  else
    let o := s.1 % ring
    if o + s.2 ≤ ring then [(base + o, s.2)] else [(base + o, ring - o), (base, s.2 - (ring - o))]

/-- Where an item of the lane store lies in the barn. -/
def itemSpans (h : Hw) (c : Nat) (p : Pass) (img line : Nat) : List (Nat × Nat) :=
  let g := if img < 5 then img else img - 5
  let pt := pitch (imgFmt p g)
  if img < 5 then ringParts (imgBase p g) (imgRing p g) (line / 32 * segLen pt + line % 32 * pt, 32 * fmtWidth (imgFmt p g))
  else if img < 10 then ringParts (imgBase p g) (imgRing p g) (line * segLen pt + 32 * pt, 512)
  else
    let n := (widePositions h c p line).length
    if n = 0 then [] else [(p.wideStore + wideOffset h c p line, 2560 * (1 + n))]

/-- Read an item into the prefetch buffer unless it is there. -/
def prefetchItem (c : Nat) (p : Pass) (img line : Nat) (errs : List MemErr) : Eff := fun h =>
  if (preGet (croftX h c) p.id img line).isSome then []
  else andThen (eccRead 0 (c / 16) c (itemSpans h c p img line) errs)
    (fun h => modCroft c (fun x => { x with prefetch := (preKey p.id img, line, laneItem h c p img line) :: x.prefetch }) h) h

/-- The issue clk τ(k) of a k-step, counted from the pass's first (R100, R200). -/
def issueClk (h : Hw) (c : Nat) (p : Pass) (k : Nat) : Nat :=
  (if ganged p then 4 * k else k) + 4 * ((List.range (k / 32)).map (fun r => (widePositions h c p r).length)).sum

/-- The clk of a line's first issued group: group g of line λ is issued in clk τ(λ − g) + g (R200). -/
def lineClk (h : Hw) (c : Nat) (p : Pass) (line : Nat) : Nat :=
  (((List.range 16).filter (fun g => decide (g ≤ line) && decide (line - g < 32 * p.kruns))).map
    (fun g => issueClk h c p (line - g) + g)).foldl min (issueClk h c p line + 15)

/-- A line, header block or wide-run record that the lane may read now: it belongs to a member image of the pass and lies inside the
image, its line is not yet issued, and the line 64 before it has been (R202). -/
def laneWanted (h : Hw) (c : Nat) (p : Pass) (k line : Nat) : Bool :=
  let f := (k - 1) % 5
  let member := k == 0 || k == 5 || k == 10 || bit p.fields (if k < 5 then k - 1 else k - 6)
  let first := if k < 5 then line else 32 * line
  let open' := (decide (first < 64) || decide (lineClk h c p (first - 64) < p.issued)) && decide (p.issued ≤ lineClk h c p first)
  let inside := if k < 5 then decide (line < 32 * p.kruns + 15) else decide (line < p.kruns)
  decide (k ≤ 10) && member && open' && inside && passFormats p && !laneRange h c p && decide (f ≤ 4)

/-- LANE_LINE_READ (R202): one line, header block or wide-run record is read within its window. `img` 16 and up names the
pass that waits behind the one in progress. -/
def effLaneLineRead (c : Croft) (img line : Nat) (errs : List MemErr) : Eff := fun h =>
  let cv := c.val
  match ((croftX h cv).lane.drop (img / 16)).head? with
  | none => []
  | some p => if laneWanted h cv p (img % 16) line then prefetchItem cv p (img % 16) line errs h else []

-- k-steps

/-- The element's presented value and unit exponent; none for NaN and infinities (R78, R89). -/
def presented (fm code hdr : Nat) : Option (Int × Int) :=
  let e : Int := (hdrE8 hdr : Int) - 127
  if isQn fm then some ((code : Int) - hdrAux hdr, e)
  else
    match decodeFp fm code with
    | .fin s m u => some (if s then -(m : Int) else (m : Int), u + e)
    | _ => none

/-- Headroom (R91) and the exponent that `AUX` adds (R93). -/
def headroom (fm : Nat) : Int := if isQn fm then (fmtWidth fm : Int) else 1
def auxExp (fm hdr : Nat) : Int := if isQn fm then 0 else sext (hdrAux hdr) 8

/-- A run register at the start of a run (R92). -/
def startRun (fa fw ha hw : Nat) : RunReg :=
  { lsb := (hdrE8 ha : Int) - 127 + ((hdrE8 hw : Int) - 127) + auxExp fa ha + auxExp fw hw + headroom fa + headroom fw - 42
    nan := hdrE8 ha == 255 || hdrE8 hw == 255
    dead := hdrE8 ha == 255 || hdrE8 hw == 255 }

/-- A cell takes one product; `delta` is what a faulty multiplier adds to it (R93). Bits dropped after a NaN or infinite element count as
dropped, too (R96). -/
def takeProduct (r : RunReg) (a w : Option (Int × Int)) (delta : Int) : RunReg :=
  if r.dead then r
  else match a, w with
  | some (va, ua), some (vw, uw) =>
    let p := va * vw + delta
    let e := ua + uw
    if r.lsb ≤ e then { r with reg := r.reg + p * 2 ^ (e - r.lsb).toNat }
    else
      let k := (r.lsb - e).toNat
      let q : Int := (p.natAbs / 2 ^ k : Nat)
      { r with reg := r.reg + (if p < 0 then -q else q), trunc := r.trunc || decide (p.natAbs % 2 ^ k ≠ 0) }
  | _, _ => { r with nan := true }

/-- The fold of R95. -/
def foldAcc (acc : BitVec 36) (r : RunReg) : BitVec 36 :=
  if r.nan then BitVec.ofNat 36 (encodeLong fmtA36 .nan)
  else
    match a36Num acc with
    | .nan => BitVec.ofNat 36 (encodeLong fmtA36 .nan)
    | a => BitVec.ofNat 36 (roundCode (numAdd a (scale2 r.lsb (ofInt r.reg))) fmtA36 false).1

def parity (n : Nat) : Nat → Nat
  | 0 => 0
  | k + 1 => ((if n.testBit k then 1 else 0) + parity n k) % 2

/-- The parity bits of a register over `groups` groups of `g` bits (R116). -/
def parityBits (x g groups : Nat) : Nat := ((List.range groups).map (fun k => parity (x >>> (g * k)) g * 2 ^ k)).sum

/-- A check of a kind in a cell is marked (R405). -/
def markedCell (h : Hw) (c f i j kind : Nat) : Bool :=
  (List.range 8).any (fun m => flag h (check_MARK_VALID m) c && getF h (check_MARK_ROW m) c == i && getF h (check_MARK_COL m) c == j &&
    getF h (check_MARK_FIELD m) c == f && getF h (check_MARK_KIND m) c == kind)

/-- The order of R117: by clk, then row, then column. -/
def capLe (a b : Capture) : Bool :=
  decide (a.clk < b.clk) || (decide (a.clk = b.clk) && decide (256 * a.row + a.col ≤ 256 * b.row + b.col))

/-- The order of R403: by clk, then field. -/
def diagLe (a b : Capture) : Bool := decide (a.clk < b.clk) || (decide (a.clk = b.clk) && decide (a.field ≤ b.field))

/-- Insert after every entry that the order puts first. -/
def insertCap (le : Capture → Capture → Bool) (m : Capture) : List Capture → List Capture
  | [] => [m]
  | x :: xs => if le x m then x :: insertCap le m xs else m :: x :: xs

def sortCaps (ms : List Capture) : List Capture := ms.foldl (fun l m => insertCap capLe m l) []

/-- In the clk of a close edge a croft with captures of that clk or before, still undecided, raises its abandon (R405). -/
def checkClose (c : Nat) : Eff := fun h =>
  let due := fun (m : Capture) => !m.forced && !m.watch && decide (m.clk ≤ h.clk)
  if (croftX h c).diag.any due then
    chain [modCroft c (fun x => { x with diag := x.diag.map (fun m => if due m then { m with forced := true } else m) }),
      abandonCroft .check c c] h
  else []

/-- A result at fault (R404, R406): counted as a croft fault, and outside a watch tile the attempt is abandoned, unless that has been done
at a close edge. -/
def resultFault (c : Nat) (abandon : Bool) : Eff :=
  chain [whenB abandon (abandonCroft .check c c), incF check_RESULT_FAULTS c, raise .check c 1, croftFault c]

/-- The check unit captures a mismatch, or with 4 captures waiting takes it as a result at fault (R403, R404). -/
def captureDiag (c : Nat) (m : Capture) : Eff := fun h =>
  if (croftX h c).diag.length < 4 then
    chain [modCroft c (fun x => { x with diag := insertCap diagLe m x.diag }), incF check_STATUS_DIAG_QUEUE c] h
  else resultFault c (!m.watch) h

/-- `CHECK_CAPTURE` takes the mismatch: nothing is held, or what is held came later (R117). A mismatch in a far plot of an earlier k-step
is recorded with that k-step, so that it may precede one that is held. -/
def capTakes (h : Hw) (fi : Nat) (m : Capture) : Bool :=
  let held := (fieldX h fi).capClk
  !flag h field_CHECK_CAPTURE_VALID fi || decide (m.clk < held) || (decide (m.clk = held) &&
    decide (256 * m.row + m.col < 256 * getF h field_CHECK_CAPTURE_ROW fi + getF h field_CHECK_CAPTURE_COL fi))

/-- What the field and the check unit record of mismatches (R117, R403 to R405), in the order of R117. -/
def recordMismatches (c f : Nat) (all : List Capture) : Eff := fun h =>
  let fi := fldIx c f
  let ms := sortCaps (all.filter (fun m => !markedCell h c f m.row m.col m.kind))
  match ms with
  | [] => []
  | m :: _ =>
    chain [addF field_CHECK_COUNT fi ms.length,
      whenB (capTakes h fi m)
        (chain [setF field_CHECK_CAPTURE_ROW fi m.row, setF field_CHECK_CAPTURE_COL fi m.col,
          setF field_CHECK_CAPTURE_KIND fi m.kind, setFlag field_CHECK_CAPTURE_VALID fi true,
          modField fi (fun x => { x with capClk := m.clk }),
          look (fun h => getF h field_PASS_COUNT fi) (fun n => setF field_CHECK_PASS fi n)]),
      modField fi (fun x => { x with pendEv := x.pendEv ++ ms.map (fun m => (m.clk, m.kind)) }),
      forE ms (captureDiag c), whenE inCloseClk (checkClose c)] h

/-- An injection of a kind is armed on a field, and its cell is one that makes the check (R118). -/
def injHits (h : Hw) (fi : Nat) (fld : Fld) (cell : Nat) (checks : Nat → Bool) : Bool := flag h fld fi && checks cell

/-- `INJ_ARMED` shows whether any injection is armed (R121). -/
def showArmed (fi : Nat) : Eff := fun h =>
  setFlag field_STATUS_INJ_ARMED fi
    (flag h field_CTRL_INJ_RESIDUE fi || flag h field_CTRL_INJ_RUN_PARITY fi || flag h field_CTRL_INJ_ACC_PARITY fi) h

def clearInj (fi : Nat) (fld : Fld) (on : Bool) : Eff := whenB on (chain [setFlag fld fi false, showArmed fi])

/-- Faults of one cell of field f of one kind. -/
def faultsAt (errs : List CellErr) (f cell : Nat) (k : CheckKind) : List CellErr :=
  errs.filter (fun e => e.field.val == f && 256 * e.row.val + e.col.val == cell && e.kind == k)

/-- What a fault adds to the product or register: one in a limb product counts with the limb's weight (R97). -/
def errOff (gang : Bool) (e : CellErr) : Int :=
  match e.limb with
  | some (_, w) => if gang then e.delta * (if w.val = 0 then 256 else if w.val = 3 then 1 else 16) else e.delta
  | none => e.delta

def faultDelta (gang : Bool) (errs : List CellErr) (f cell : Nat) (k : CheckKind) : Int :=
  ((faultsAt errs f cell k).map (errOff gang)).sum

/-- The residue check of a faulty product (R116): it is seen unless the fault is a multiple of 3; it also fires where only the checker is
at fault. -/
def residueSeen (delta : Int) : Bool := decide (delta = 0) || decide (delta % 3 ≠ 0)

/-- The cell of the multiplier that a fault lies in: in ganged mode that of its gang slot (R86, R97). -/
def errCell (gang : Bool) (e : CellErr) : Nat :=
  match e.limb with
  | some (s, _) =>
    if gang then 256 * (e.row.val / 2 * 2 + s.val / 2) + (e.col.val / 2 * 2 + s.val % 2) else 256 * e.row.val + e.col.val
  | none => 256 * e.row.val + e.col.val

/-- The residue checks that a fault in a product trips: of the limb product in the cell that forms it, and of the assembled product in the
cell that takes it (R116). -/
def residueCells (gang : Bool) (e : CellErr) : List Nat :=
  let own := 256 * e.row.val + e.col.val
  if gang && e.limb.isSome then
    (if residueSeen e.delta then [errCell gang e] else []) ++ (if e.delta % 3 ≠ 0 then [own] else [])
  else if residueSeen e.delta then [own] else []

/-- A parity check of a register whose value was `was`, reads as `reads`, and whose stored parity bits had `flips` flipped: what the check
unit captures where it fails or is itself at fault (R116, R403). -/
def parityCheck (was reads g : Nat) (flips : BitVec 3) (m : Capture) : Option Capture :=
  let stored := parityBits was g 3 ^^^ flips.toNat
  if stored ≠ parityBits reads g 3 ∨ (was = reads ∧ flips = 0) then some { m with value := reads, stored := stored } else none

/-- The clk in which cell k of field f meets what is issued now (R87, R99); `slots` where the gang serves its cells in turn. -/
def cellClk (h : Hw) (f k : Nat) (slots : Bool) : Nat :=
  let i := k / 256
  let j := k % 256
  h.clk + 4 * f + (if slots then 2 * (i % 2) + j % 2 else 0) + i / 16 + j / 16

def capAt (clk f k kind : Nat) : Capture := { clk := clk, field := f, row := k / 256, col := k % 256, kind := kind }

/-- Codes of a k-step: element v lies in line k + v/16 at bit v × n (R200). -/
def stepCodes (h : Hw) (c : Nat) (p : Pass) (img k : Nat) : List Nat :=
  let n := fmtWidth (imgFmt p img)
  let x := croftX h c
  (List.range 16).flatMap (fun g =>
    let line := (preGet x p.id img (k + g)).getD 0
    unpackCodes n 16 (line >>> (16 * n * g)))

/-- The 32 codes of element v's block in run r. -/
def blockCodes (h : Hw) (c : Nat) (p : Pass) (img r v : Nat) : List Nat :=
  let n := fmtWidth (imgFmt p img)
  let x := croftX h c
  (List.range 32).map (fun k => (((preGet x p.id img (32 * r + k + v / 16)).getD 0) >>> (v * n)) % 2 ^ n)

/-- Headers of an image's run, each that is not well formed read as a NaN block's; and how many are not (R205). -/
def runHeaders (h : Hw) (c : Nat) (p : Pass) (img r : Nat) : List Nat × Nat :=
  let hd := (preGet (croftX h c) p.id (5 + img) r).getD 0
  let hs := (List.range 256).map (fun v =>
    let w := bits hd (16 * v + 15) (16 * v)
    if hdrOk (imgFmt p img) w (blockCodes h c p img r v) then (w, 0) else (w / 256 * 256 + 255, 1))
  (hs.map (·.1), (hs.map (·.2)).sum)

/-- The same for the W16 headers and elements of a wide run with n steps; `sec` is 0 for the rows, 1 + f for field f. -/
def wideSection (rec sec s : Nat) : List Nat := unpackCodes 16 256 (rec >>> (8 * (2560 * s + 512 * sec)))

def wideHeaders (rec sec n : Nat) : List Nat × Nat :=
  let hd := wideSection rec sec 0
  let cols := (List.range n).map (fun s => wideSection rec sec (1 + s))
  let hs := (List.range 256).map (fun v =>
    let w := hd.getD v 0
    if hdrOk fmtW16 w (cols.map (fun l => l.getD v 0)) then (w, 0) else (w / 256 * 256 + 255, 1))
  (hs.map (·.1), (hs.map (·.2)).sum)

/-- Images of a pass: 0 and 1 + f for each member field. -/
def passImages (p : Pass) : List Nat := 0 :: (memberList p.fields).map (· + 1)

def setHead (c : Nat) (p : Pass) : Eff :=
  modCroft c (fun x => { x with lane := x.lane.map (fun y => if y.id = p.id then p else y) })

/-- Bad headers of a run count and raise `LANE_HEADER`. -/
def badHeaders (c n : Nat) : Eff := whenB (decide (0 < n)) (chain [addF barn_LANE_HDR_COUNT c n, raise .barn c 0])

/-- Restart every enabled cell's run register under the headers `hdrs` (256 rows, then 256 columns per field). -/
def restartRuns (c : Nat) (p : Pass) (fa fw : Nat) (hdrs : List Nat) : Eff :=
  forE (memberList p.fields) (fun f =>
    let rows := onLines p.plotRows p.edgeRows
    let cols := onLines p.plotCols p.edgeCols
    modField (fldIx c f) (fun x => { x with runs := rows.flatMap (fun i =>
      cols.map (fun j => (256 * i + j, startRun fa fw (hdrs.getD i 0) (hdrs.getD (256 * (1 + f) + j) 0)))) }))

def padHdrs (p : Pass) (a : List Nat) (w : Nat → List Nat) : List Nat :=
  a ++ (List.range 4).flatMap (fun f => if bit p.fields f then w f else List.replicate 256 0)

/-- The start of run r: its lines, header blocks and wide-run record are in the prefetch buffer, its headers are checked, and
every enabled cell restarts its run register. An item that no LANE_LINE_READ has brought in is read here, in the clk of the run's first
k-step: R202 leaves the clk within the item's window open. DESIGN CHOICE (R202), log 18. -/
def beginRun (c : Nat) (p : Pass) (errs : List MemErr) : Eff := fun h =>
  let r := p.k / 32
  chain [whenB (p.wideEn && decide (r % 32 = 0)) (eccRead 0 (c / 16) c [(p.wideTable + 16 * (r / 32), 16)] errs), forE (passImages p) (fun img => chain [
      forE (List.range 47) (fun l => prefetchItem c p img (32 * r + l) errs), prefetchItem c p (5 + img) r errs]),
    whenE (fun h => !(widePositions h c p r).isEmpty) (prefetchItem c p 10 r errs),
    fun h =>
      let hs := fun img => runHeaders h c p img r
      let bad := ((passImages p).map (fun img => (hs img).2)).sum
      let hdrs := padHdrs p (hs 0).1 (fun f => (hs (1 + f)).1)
      chain [badHeaders c bad, restartRuns c p p.fmtA p.fmtW hdrs, setHead c { p with hdrs := hdrs }] h] h

/-- Cell k of a field is enabled (R106). -/
def cellOn (m : Masks) (k : Nat) : Bool := lineOn m.pr m.er (k / 256) && lineOn m.pc m.ec (k % 256)

/-- One k-step of one member field: products, checks and injections. A cell forms no product where an element is NaN or infinite or a
header of its run has `E8` 0xFF (R93), and makes no check then. -/
def stepField (c f : Nat) (p : Pass) (fa fw : Nat) (as ws : List Nat) (errs : List CellErr) : Eff := fun h =>
  let fi := fldIx c f
  let gang := ganged p || p.wideOn
  let mine := errs.filter (fun e => e.field.val == f)
  let pa := (List.range 256).map (fun i => presented fa (as.getD i 0) (p.hdrs.getD i 0))
  let pw := (List.range 256).map (fun j => presented fw (ws.getD j 0) (p.hdrs.getD (256 * (1 + f) + j) 0))
  let x := fieldX h fi
  let runs' := x.runs.map (fun kr =>
    let r := if mine.isEmpty then kr.2 else { kr.2 with reg := kr.2.reg + faultDelta gang mine f kr.1 .runParity }
    (kr.1, takeProduct r (pa.getD (kr.1 / 256) none) (pw.getD (kr.1 % 256) none)
      (if mine.isEmpty then 0 else faultDelta gang mine f kr.1 .residue)))
  let regOf := fun (k : Nat) => (x.runs.find? (fun kr => kr.1 == k)).map (·.2)
  let forms := fun (k : Nat) => cellOn (passMasks p) k && (match regOf k with | some r => !r.dead | none => false) &&
    (pa.getD (k / 256) none).isSome && (pw.getD (k % 256) none).isSome
  -- what a residue check of cell k captures where the product served is that of cell `own`
  let product := fun (k own : Nat) =>
    let va := ((pa.getD (own / 256) none).getD (0, 0)).1
    let vw := ((pw.getD (own % 256) none).getD (0, 0)).1
    { capAt (cellClk h f own gang) f k 1 with va := va, vw := vw, p := va * vw + faultDelta gang mine f own .residue }
  let runReg := fun (k : Nat) (d : Int) (flips : BitVec 3) =>
    let r := ((regOf k).getD {}).reg
    parityCheck (wrapInt r 48) (wrapInt (r + d) 48) 16 flips (capAt (cellClk h f k gang) f k 2)
  let real := mine.flatMap (fun e =>
    let own := 256 * e.row.val + e.col.val
    match e.kind with
    | .residue => if forms own then ((residueCells gang e).filter (cellOn (passMasks p))).map (fun k => product k own) else []
    | .runParity => if forms own then (runReg own e.delta e.flips).toList else []
    | _ => [])
  let i1 := injHits h fi field_CTRL_INJ_RESIDUE x.injCells.1 forms
  let i2 := injHits h fi field_CTRL_INJ_RUN_PARITY x.injCells.2.1 forms
  let inj := (if i1 then [product x.injCells.1 x.injCells.1] else []) ++ (if i2 then (runReg x.injCells.2.1 0 0).toList else [])
  chain [modField fi (fun x => { x with runs := runs' }), clearInj fi field_CTRL_INJ_RESIDUE i1,
    clearInj fi field_CTRL_INJ_RUN_PARITY i2, recordMismatches c f (real ++ inj)] h

/-- An accumulator as a faulty one reads. -/
def accRead36 (h : Hw) (errs : List CellErr) (f fi k : Nat) : BitVec 36 :=
  let d := faultDelta false errs f k .accParity
  let a := accOf h fi k
  if d = 0 then a else BitVec.ofNat 36 (wrapInt ((a.toNat : Int) + d) 36)

/-- What an accumulator's parity check captures (R116). -/
def accCheck (h : Hw) (errs : List CellErr) (f fi k clk : Nat) (flips : BitVec 3) : Option Capture :=
  parityCheck (accOf h fi k).toNat (accRead36 h errs f fi k).toNat 12 flips (capAt clk f k 3)

/-- The fold at the end of a narrow or wide run (R95, R96), with the parity checks of the run register and the accumulator it reads
(R116). The narrow and the wide run of one index that both drop bits count as two runs, and a partial run that an abandon stops counts as
none, for it reaches no fold. DESIGN CHOICE (R96), log 20. -/
def foldField (c f : Nat) (p : Pass) (errs : List CellErr) : Eff := fun h =>
  let fi := fldIx c f
  let gang := ganged p || p.wideOn
  let on := cellOn (passMasks p)
  let x := fieldX h fi
  let mine := errs.filter (fun e => e.field.val == f)
  let clkOf := fun (k : Nat) => cellClk h f k gang + 1
  let regOf := fun (k : Nat) => ((x.runs.find? (fun kr => kr.1 == k)).map (·.2.reg)).getD 0
  let runReg := fun (k : Nat) (d : Int) (flips : BitVec 3) =>
    parityCheck (wrapInt (regOf k) 48) (wrapInt (regOf k + d) 48) 16 flips (capAt (clkOf k) f k 2)
  let real := mine.flatMap (fun e =>
    let k := 256 * e.row.val + e.col.val
    if !on k then []
    else match e.kind with
      | .accParity => (accCheck h mine f fi k (clkOf k) e.flips).toList
      | .runFold => (runReg k e.delta e.flips).toList
      | _ => [])
  let i3 := injHits h fi field_CTRL_INJ_ACC_PARITY x.injCells.2.2 on
  let i2 := injHits h fi field_CTRL_INJ_RUN_PARITY x.injCells.2.1 on
  let inj := (if i2 then (runReg x.injCells.2.1 0 0).toList else []) ++
    (if i3 then (accCheck h [] f fi x.injCells.2.2 (clkOf x.injCells.2.2) 0).toList else [])
  let trunc := x.runs.any (fun kr => kr.2.trunc)
  chain [fun _ => x.runs.map (fun kr => Upd.accRow (65536 * fi + kr.1)
      [foldAcc (accRead36 h mine f fi kr.1) (if mine.isEmpty then kr.2 else { kr.2 with reg := kr.2.reg + faultDelta false mine f kr.1 .runFold })]),
    clearInj fi field_CTRL_INJ_ACC_PARITY i3, clearInj fi field_CTRL_INJ_RUN_PARITY i2,
    recordMismatches c f (real ++ inj),
    whenB trunc (chain [incF field_TRUNC_RUNS fi, raise .field fi 6])] h

/-- `BUSY`: a pass or drain is in progress on the field (R121). -/
def showBusy (c f : Nat) : Eff := fun h =>
  let x := fieldX h (fldIx c f)
  let inPass := match (croftX h c).lane with | [] => false | p :: _ => p.granted.isSome && bit p.fields f
  setFlag field_STATUS_BUSY (fldIx c f) (inPass || x.swap.isSome || !x.buf.isEmpty) h

def allMembers (p : Pass) (e : Nat → Eff) : Eff := forE (memberList p.fields) e

/-- After the last step of a run, narrow or wide: the pass goes on with its next run, or has issued its last k-step. -/
def afterRun (c : Nat) (p : Pass) : Eff :=
  let p' := { p with k := p.k + 1, wideOn := false, wideLeft := [], wideIx := 0 }
  chain [allMembers p (fun f => setFlag field_STATUS_WIDE (fldIx c f) false),
    setHead c { p' with done := decide (32 * p.kruns ≤ p.k + 1) },
    modCroft c (fun x => { x with prefetch := x.prefetch.filter (fun e =>
      e.1 / 16 != p.id || (if e.1 % 16 < 5 then decide (p.k < e.2.1) else decide (p.k / 32 < e.2.1))) })]

/-- A narrow k-step (R93, R98). -/
def narrowStep (c : Nat) (p : Pass) (errs : List CellErr) : Eff := fun h =>
  let as := stepCodes h c p 0 p.k
  let p1 := { p with issued := p.issued + (if ganged p then 4 else 1) }
  chain [allMembers p (fun f => stepField c f p p.fmtA p.fmtW as (stepCodes h c p (1 + f) p.k) errs),
    (if p.k % 32 ≠ 31 then setHead c { p1 with k := p.k + 1 }
     else
      let ws := widePositions h c p (p.k / 32)
      andThen (allMembers p (fun f => foldField c f p errs))
        (if ws.isEmpty then afterRun c p1
         else fun h =>
          let rec' := (preGet (croftX h c) p.id 10 (p.k / 32)).getD 0
          let n := ws.length
          let bad := (wideHeaders rec' 0 n).2 + ((memberList p.fields).map (fun f => (wideHeaders rec' (1 + f) n).2)).sum
          let hdrs := padHdrs p (wideHeaders rec' 0 n).1 (fun f => (wideHeaders rec' (1 + f) n).1)
          chain [badHeaders c bad, restartRuns c p fmtW16 fmtW16 hdrs,
            allMembers p (fun f => setFlag field_STATUS_WIDE (fldIx c f) true),
            setHead c { p1 with hdrs := hdrs, wideOn := true, wideLeft := ws, wideIx := 0 }] h))] h

/-- A wide step (R109). -/
def wideStep (c : Nat) (p : Pass) (errs : List CellErr) : Eff := fun h =>
  let rec' := (preGet (croftX h c) p.id 10 (p.k / 32)).getD 0
  let s := 1 + p.wideIx
  let p1 := { p with wideIx := p.wideIx + 1, wideLeft := p.wideLeft.drop 1, issued := p.issued + 4 }
  chain [allMembers p (fun f => chain [
      stepField c f p fmtW16 fmtW16 (wideSection rec' 0 s) (wideSection rec' (1 + f) s) errs,
      incF field_WIDE_STEPS (fldIx c f)]),
    (if p1.wideLeft.isEmpty then andThen (allMembers p (fun f => foldField c f p errs)) (afterRun c p1) else setHead c p1)] h

/-- KSTEP (R93 to R100): the granted pass issues its next narrow k-step or wide step. -/
def effKstep (c : Croft) (errs : List CellErr) (reads : List MemErr) (t : Nat) : Eff := atClk t (fun h =>
  let cv := c.val
  match (croftX h cv).lane with
  | [] => []
  | p :: _ =>
    if p.granted.isNone || p.done then []
    else
      let path := errs.any (fun e => e.kind == .path)
      chain [whenB (!p.wideOn && decide (p.k % 32 = 0)) (beginRun cv p reads),
        (fun h => match (croftX h cv).lane with
          | [] => []
          | p :: _ => if p.wideOn then wideStep cv p errs h else narrowStep cv p errs h),
        whenB path (pathCheck cv false)] h)

/-- PASS_END (R104, R174, R456): after the last issue clk the lane is free, the pass's signal is added, and its plots are
released 31 clk later. -/
def effPassEnd (c : Croft) (t : Nat) : Eff := atClk t (fun h =>
  let cv := c.val
  match (croftX h cv).lane with
  | [] => []
  | p :: _ =>
    if !p.done then []
    else chain [leaveLane cv p,
      forE (memberList p.fields) (fun f => chain [showBusy cv f,
        modField (fldIx cv f) (fun x => { x with loadedClk := h.clk })]),
      modCroft cv (fun x => { x with laneFree := h.clk }),
      setFlag barn_STATUS_LANE_ACTIVE cv false,
      modQuarter (cv / 16) (fun q => { q with releases := q.releases ++ [(cv, p.demand, h.clk + 31)] }),
      doneSig cv p.sig p.sen, settleReleases cv] h)

/-- DYKE_RELEASE (R456). -/
def effDykeRelease (c : Croft) (t : Nat) : Eff := atClk t (fun h =>
  let q := c.val / 16
  match (quarterX h q).releases.find? (fun r => r.1 == c.val) with
  | none => []
  | some r =>
    if h.clk < r.2.2 then []
    else chain [modQuarter q (fun x => { x with releases := x.releases.erase r }),
      setF dyke_ACTIVE q (getF h dyke_ACTIVE q - r.2.1)] h)

-- injections and the accumulator window

/-- Arm an injection at the cell that `ACC_SEL` selects now (R118); `put` notes the cell. -/
def armInj (fi : Nat) (fld : Fld) (put : Nat → Nat × Nat × Nat → Nat × Nat × Nat) : Eff := fun h =>
  chain [setFlag fld fi true,
    modField fi (fun x => { x with
      injCells := put (256 * getF h field_ACC_SEL_ROW fi + getF h field_ACC_SEL_COL fi) x.injCells }), showArmed fi] h

def armResidue (fi : Nat) : Eff := armInj fi field_CTRL_INJ_RESIDUE (fun k x => (k, x.2.1, x.2.2))
def armRunParity (fi : Nat) : Eff := armInj fi field_CTRL_INJ_RUN_PARITY (fun k x => (x.1, k, x.2.2))
def armAccParity (fi : Nat) : Eff := armInj fi field_CTRL_INJ_ACC_PARITY (fun k x => (x.1, x.2.1, k))

def effInjResidue (c : Croft) (f : FieldIx) : Eff := armResidue (fldIx c.val f.val)
def effInjRunParity (c : Croft) (f : FieldIx) : Eff := armRunParity (fldIx c.val f.val)
def effInjAccParity (c : Croft) (f : FieldIx) : Eff := armAccParity (fldIx c.val f.val)

/-- A read of `ACC_DATA_LO` takes a snapshot of the selected accumulator; while the field is busy the data are meaningless
and `VALID` reads 0 (R119, R121). -/
def accTouch (fi : Nat) : Eff := fun h =>
  if flag h field_STATUS_BUSY fi then
    drawFree (fun v => chain [setF field_ACC_DATA_LO fi v.toNat, setFlag field_ACC_DATA_HI_VALID fi false]) h
  else
    let v := (accOf h fi (256 * getF h field_ACC_SEL_ROW fi + getF h field_ACC_SEL_COL fi)).toNat
    chain [setF field_ACC_DATA_LO fi (v % 2 ^ 32), setF field_ACC_DATA_HI_ACC fi (v / 2 ^ 32),
      setFlag field_ACC_DATA_HI_VALID fi true] h

def effAccDataRead (c : Croft) (f : FieldIx) : Eff := fun h =>
  if quarterGone h (c.val / 16) then emit (.regData 0) h
  else andThen (accTouch (fldIx c.val f.val)) (fun h => emit (.regData (BitVec.ofNat 32 (getF h field_ACC_DATA_LO (fldIx c.val f.val)))) h) h

-- meanings, one per command

/-- RUN. -/
def execRun (c : Croft) (st : Strm) (w : BitVec 128) (t : Nat) (s : State) : Host.Outcome State Fault Refusal :=
  run (effRun c st w t) s

/-- LOAD. -/
def execLoad (c : Croft) (st : Strm) (w : BitVec 128) (t : Nat) (s : State) : Host.Outcome State Fault Refusal :=
  run (effLoad c st w t) s

/-- DRAIN. -/
def execDrain (c : Croft) (st : Strm) (w : BitVec 128) (t : Nat) (s : State) (errs : List MemErr := []) :
    Host.Outcome State Fault Refusal :=
  run (effDrain c st w t errs) s

/-- STANDALONE_LOAD. -/
def execStandaloneLoad (c : Croft) (f : FieldIx) (t : Nat) (s : State) (errs : List MemErr := []) : Host.Outcome State Fault Refusal :=
  run (effStandaloneLoad c f errs t) s

/-- PASS_READY. -/
def execPassReady (c : Croft) (t : Nat) (s : State) : Host.Outcome State Fault Refusal :=
  run (effPassReady c t) s

/-- DYKE_GRANT. -/
def execDykeGrant (q : Quarter) (t : Nat) (s : State) : Host.Outcome State Fault Refusal :=
  run (effDykeGrant q t) s

/-- LANE_LINE_READ. -/
def execLaneLineRead (c : Croft) (img line : Nat) (s : State) (errs : List MemErr := []) : Host.Outcome State Fault Refusal :=
  run (effLaneLineRead c img line errs) s

/-- KSTEP. -/
def execKstep (c : Croft) (errs : List CellErr) (t : Nat) (s : State) (reads : List MemErr := []) : Host.Outcome State Fault Refusal :=
  run (effKstep c errs reads t) s

/-- PASS_END. -/
def execPassEnd (c : Croft) (t : Nat) (s : State) : Host.Outcome State Fault Refusal :=
  run (effPassEnd c t) s

/-- DYKE_RELEASE. -/
def execDykeRelease (c : Croft) (t : Nat) (s : State) : Host.Outcome State Fault Refusal :=
  run (effDykeRelease c t) s

/-- INJ_RESIDUE. -/
def execInjResidue (c : Croft) (f : FieldIx) (s : State) : Host.Outcome State Fault Refusal :=
  run (byQuarter (c.val / 16) (effInjResidue c f)) s

/-- INJ_RUN_PARITY. -/
def execInjRunParity (c : Croft) (f : FieldIx) (s : State) : Host.Outcome State Fault Refusal :=
  run (byQuarter (c.val / 16) (effInjRunParity c f)) s

/-- INJ_ACC_PARITY. -/
def execInjAccParity (c : Croft) (f : FieldIx) (s : State) : Host.Outcome State Fault Refusal :=
  run (byQuarter (c.val / 16) (effInjAccParity c f)) s

/-- ACC_DATA_READ. -/
def execAccDataRead (c : Croft) (f : FieldIx) (s : State) : Host.Outcome State Fault Refusal :=
  run (readBySoftware (effAccDataRead c f)) s

end Sys2Proof.Machine
end

