-- ==== Sys2Proof/Machine/Tally.lean ====
section
/-! DEFINITION. The tally of a croft and the step sheet it fills (R182, R183, R226 to R232, R257). -/

namespace Sys2Proof.Machine

-- peak lists

/-- a comes before b: descending peak, then ascending channel (R228). -/
def peakBefore (a b : Peak) : Bool := decide (b.mag < a.mag) || (decide (a.mag = b.mag) && decide (a.chan < b.chan))

def insertPeak (p : Peak) : List Peak → List Peak
  | [] => [p]
  | x :: xs => if peakBefore p x then p :: x :: xs else x :: insertPeak p xs

/-- Add a channel's peak to a list; a channel appears once, with its larger peak. -/
def addPeak (l : List Peak) (p : Peak) : List Peak :=
  if p.mag = 0 then l
  else
    let old := (l.find? (fun x => x.chan == p.chan)).map (·.mag)
    if (old.getD 0) < p.mag then insertPeak p (l.filter (fun x => x.chan != p.chan)) else l

/-- The first eight of the union (R228). -/
def mergePeaks (a b : List Peak) : List Peak := (b.foldl addPeak a).take 8

-- counts

/-- The cap of each field of a slot (R226, R229), and whether a sum exceeds it. -/
def capTo (bits v : Nat) : Nat × Bool := if v < 2 ^ bits then (v, false) else (2 ^ bits - 1, true)

/-- Add a contribution to a slot's counts (R227, R229). -/
def addCounts (a b : Counts) : Counts × Bool :=
  let t := capTo 48 (a.total + b.total)
  let s := capTo 40 (a.sat + b.sat)
  let z := capTo 40 (a.zero + b.zero)
  let n := capTo 48 (a.nonz + b.nonz)
  let o := capTo 32 (a.ovfb + b.ovfb)
  let m := capTo 31 (max a.amax b.amax)
  ({ gid := a.gid, total := t.1, sat := s.1, zero := z.1, nonz := n.1, ovfb := o.1, amax := m.1 },
    t.2 || s.2 || z.2 || n.2 || o.2 || m.2)

/-- The open slot of a group in croft c. -/
def openSlot (h : Hw) (c g : Nat) : Option Nat :=
  (List.range 64).find? (fun i => (tslotOf h c i).isOpen && (tslotOf h c i).c.gid == g)

def freeSlot (h : Hw) (c : Nat) : Option Nat := (List.range 64).find? (fun i => !(tslotOf h c i).isOpen)

def setTslot (c i : Nat) (s : TallySlot) : Eff := fun _ => [.tslots (64 * c + i) s]

/-- A row counted in the clk of a verdict edge that has been made belongs to the sheet that the edge closed (R231, R253): it joins the
delivery that its slot made at the edge. -/
def closingRow (c g : Nat) (b : Counts) (peaks : List Peak) : Eff := fun h =>
  let mine := fun (d : Delivery) => d.closing && d.croft == c && d.c.gid == g
  let ds := (quarterX h (c / 16)).deliveries
  let i := (ds.findIdx? mine).getD ds.length
  let d : Delivery := ds.getD i { croft := c, closing := true, c := { gid := g }, peaks := [] }
  let r := addCounts d.c b
  let ds' := ds.take i ++ [{ d with c := r.1, peaks := mergePeaks d.peaks peaks }] ++ ds.drop (i + 1)
  chain [modQuarter (c / 16) (fun x => { x with deliveries := ds' }), whenB r.2 (raise .tally c 1)] h

/-- A row's contribution reaches the slot of its group (R227). -/
def tallyRow (c g : Nat) (b : Counts) (peaks : List Peak) : Eff := fun h =>
  match openSlot h c g with
  | none => incF tally_UNCOUNTED_ROWS c h
  | some i =>
    if inVerdictClk h then closingRow c g b peaks h
    else
      let s := tslotOf h c i
      let r := addCounts s.c b
      chain [setTslot c i { s with c := r.1, peaks := mergePeaks s.peaks peaks }, whenB r.2 (raise .tally c 1)] h

-- instructions

/-- A slot's counts and peaks go to the reeve (R231). -/
def makeDelivery (c i : Nat) (closing : Bool) (sig : Nat) (sen : Bool) : Eff := fun h =>
  let s := tslotOf h c i
  let d : Delivery := { croft := c, closing := closing, c := s.c, peaks := s.peaks, sig := sig, sen := sen }
  chain [modQuarter (c / 16) (fun q => { q with deliveries := q.deliveries ++ [d] }), incF tally_DELIVERIES c] h

/-- The tally opens a window for a group: in the lowest free slot, or not at all where one is open (R183, R226). -/
def tallyOpen (c g : Nat) : Eff := fun h =>
  if (openSlot h c g).isSome then []
  else
    match freeSlot h c with
    | none => []
    | some i => chain [setTslot c i { isOpen := true, c := { gid := g } }, addF tally_STATUS_OPEN c 1] h

/-- It closes one: its counts are delivered; closing a group that is not open adds only the signal (R183, R231). -/
def tallyClose (c g sig : Nat) (sen : Bool) : Eff := fun h =>
  match openSlot h c g with
  | none => doneSig c sig sen h
  | some i => chain [makeDelivery c i (inVerdictClk h) sig sen, setTslot c i {},
      look (fun h => getF h tally_STATUS_OPEN c) (fun n => setF tally_STATUS_OPEN c (n - 1))] h

def tallyDo (c : Nat) (x : TallyInstr) : Eff := if x.close then tallyClose c x.group x.sig x.sen else tallyOpen c x.group

/-- The tally executes every instruction of its queue, in order (R163). -/
def tallyRun (c : Nat) : Eff := fun h =>
  chain [modCroft c (fun x => { x with tally := [] }), forE (croftX h c).tally (tallyDo c)] h

/-- An instruction enters the tally's queue of four and, unless the tally is still at work, is executed after those before it (R163); a
full queue does not take it (R128). -/
def toTally (c : Croft) (st : Strm) (x : TallyInstr) (busy : Bool) : Eff := fun h =>
  if 4 ≤ (croftX h c.val).tally.length then []
  else chain [modCroft c.val (fun y => { y with tally := y.tally ++ [x] }), retire (sIx c st), whenB (!busy) (tallyRun c.val)] h

/-- With 64 windows open, another is not taken until one closes (R183). -/
def noWindow (h : Hw) (c g : Nat) : Bool := (openSlot h c g).isNone && (freeSlot h c).isNone

/-- `TALLY.OPEN` (R163, R183, R226). -/
def effTallyOpen (c : Croft) (st : Strm) (w : BitVec 128) (busy : Bool) (t : Nat) : Eff :=
  issue c st w t 0x50 okTallyOpen (fun h =>
    if noWindow h c.val (wb w 29 16) then [] else toTally c st { close := false, group := wb w 29 16 } busy h)

/-- `TALLY.CLOSE` (R163, R183, R231). -/
def effTallyClose (c : Croft) (st : Strm) (w : BitVec 128) (busy : Bool) (t : Nat) : Eff :=
  issue c st w t 0x51 okTallyClose (toTally c st { close := true, group := wb w 29 16, sig := wb w 35 30, sen := bit w.toNat 36 } busy)

/-- As time passes every tally works off its queue. -/
def tallyTick : Eff := fun h => forE (h.crofts.filter (fun x => !x.2.tally.isEmpty)) (fun x => tallyRun x.1) h

/-- At a verdict edge every open slot delivers and starts again from zero; the slots stay open (R231). -/
def deliverAll (c : Nat) : Eff :=
  forE (List.range 64) (fun i => fun h =>
    let s := tslotOf h c i
    if s.isOpen then chain [makeDelivery c i true 0 false, setTslot c i { isOpen := true, c := { gid := s.c.gid } }] h else [])

-- sheets

/-- Add one record's counts in a sheet: 64-bit sums, a saturating `OVFB`, the larger `AMAX` (R232). -/
def addRec (a b : Counts) : Counts :=
  { gid := a.gid, total := (a.total + b.total) % 2 ^ 64, sat := (a.sat + b.sat) % 2 ^ 64, zero := (a.zero + b.zero) % 2 ^ 64,
    nonz := (a.nonz + b.nonz) % 2 ^ 64, ovfb := min (a.ovfb + b.ovfb) 0xFFFFFFFF, amax := max a.amax b.amax }

/-- Records in ascending entry. -/
def putRec (e : Nat) (c : Counts) : List (Nat × Counts) → List (Nat × Counts)
  | [] => [(e, c)]
  | x :: xs => if e < x.1 then (e, c) :: x :: xs else if e = x.1 then (e, addRec x.2 c) :: xs else x :: putRec e c xs

/-- Peak records in ascending group and croft. -/
def putPeaks (r : PeakRec) : List PeakRec → List PeakRec
  | [] => [r]
  | x :: xs =>
    if r.group < x.group ∨ (r.group = x.group ∧ r.croft < x.croft) then r :: x :: xs
    else if r.group = x.group ∧ r.croft = x.croft then { x with peaks := mergePeaks x.peaks r.peaks } :: xs
    else x :: putPeaks r xs

/-- A sheet takes a delivery; with more than 1,024 keys the lowest are kept (R232). -/
def sheetAdd (s : Sheet) (d : Delivery) : Sheet × Bool :=
  let ps := if d.peaks.isEmpty then s.peaks else putPeaks ⟨d.c.gid, d.croft % 16, d.peaks⟩ s.peaks
  ({ recs := putRec d.c.gid { d.c with gid := 0 } s.recs, peaks := ps.take 1024 }, decide (1024 < ps.length))

/-- Replace the sheet of the last closed one; with none kept, the sheet has been discarded (R252). -/
def setLast : List (Sheet × Nat) → Sheet → List (Sheet × Nat)
  | [], _ => []
  | [x], s => [(s, x.2)]
  | x :: y :: ys, s => x :: setLast (y :: ys) s

/-- TALLY_DELIVERY_LAND (R231): the oldest delivery lands at the reeve, and its signal is added in the clk after. -/
def effTallyDeliveryLand (q : Quarter) (t : Nat) : Eff := atClk t (fun h =>
  let x := quarterX h q.val
  match x.deliveries with
  | [] => []
  | d :: ds =>
    let cur := if d.closing then ((x.closed.getLast?).map (·.1)).getD {} else x.sheet
    let r := sheetAdd cur d
    let landed := if d.sen then x.landed ++ [(d.croft, d.sig)] else x.landed
    chain [modQuarter q.val (fun x => if d.closing then { x with deliveries := ds, landed := landed, closed := setLast x.closed r.1 }
        else { x with deliveries := ds, landed := landed, sheet := r.1 }),
      whenB r.2 (raise .reeve0 q.val 12)] h)

/-- The words of a slot at 0x044 to 0x06C (R257). -/
def slotWords (s : TallySlot) : List Nat :=
  let pair := fun v => [v % 2 ^ 32, v / 2 ^ 32]
  [s.c.gid + fldBit 31 s.isOpen] ++ pair s.c.total ++ pair s.c.sat ++ pair s.c.zero ++ pair s.c.nonz ++ [s.c.ovfb, s.c.amax]
where fldBit (k : Nat) (b : Bool) : Nat := b2n b * 2 ^ k

/-- The snapshot that a read of `SLOT_KEY` takes. -/
def slotKeyTouch (c : Nat) : Eff := fun h =>
  let i := getF h tally_SLOT_SEL c
  modCroft c (fun x => { x with slotSnap := some (i, slotWords (tslotOf h c i)) }) h

/-- SLOT_KEY_READ (R257): a read of `SLOT_KEY` takes a snapshot of the selected slot. -/
def effSlotKeyRead (c : Croft) : Eff := fun h =>
  if quarterGone h (c.val / 16) then emit (.regData 0) h
  else chain [slotKeyTouch c.val, emit (.regData (BitVec.ofNat 32 ((slotWords (tslotOf h c.val (getF h tally_SLOT_SEL c.val))).getD 0 0)))] h

-- meanings, one per command

/-- TALLY_OPEN. -/
def execTallyOpen (c : Croft) (st : Strm) (w : BitVec 128) (t : Nat) (s : State) (busy : Bool := false) :
    Host.Outcome State Fault Refusal :=
  run (effTallyOpen c st w busy t) s

/-- TALLY_CLOSE. -/
def execTallyClose (c : Croft) (st : Strm) (w : BitVec 128) (t : Nat) (s : State) (busy : Bool := false) :
    Host.Outcome State Fault Refusal :=
  run (effTallyClose c st w busy t) s

/-- TALLY_DELIVERY_LAND. -/
def execTallyDeliveryLand (q : Quarter) (t : Nat) (s : State) : Host.Outcome State Fault Refusal :=
  run (effTallyDeliveryLand q t) s

/-- SLOT_KEY_READ. -/
def execSlotKeyRead (c : Croft) (s : State) : Host.Outcome State Fault Refusal :=
  run (readBySoftware (effSlotKeyRead c)) s

end Sys2Proof.Machine
end

