-- ==== Sys2Proof/Machine/Drain.lean ====
section
/-! DEFINITION. The drain path (R103, R105, R112 to R115, R174, R175, R207, R208, R230) and the hand-over of drained rows to the
pound (R278, R351). -/

namespace Sys2Proof.Machine

-- stage 1

def natList (n : Nat) : List Nat := List.range n

/-- Walsh-Hadamard transform of 2^n integers (R114). -/
def wht : Nat → List Int → List Int
  | 0, xs => xs
  | n + 1, xs =>
    let a := xs.take (2 ^ n)
    let b := xs.drop (2 ^ n)
    wht n (List.zipWith (· + ·) a b) ++ wht n (List.zipWith (· - ·) a b)

def minExp (xs : List Num) : Int :=
  xs.foldl (fun e x => match x with | .fin _ m u => if m = 0 then e else min e u | _ => e) 4096

/-- The rotation of a row of finite values: 2^−4 times the signed sums (R114). -/
def rotateRow (xs : List Num) : List Num :=
  if xs.any isNan then xs.map (fun _ => .nan)
  else
    let e := minExp xs
    let ints := xs.map (fun x => match x with | .fin s m u => if m = 0 then 0 else mantAt s m u e | _ => 0)
    (wht 8 ints).map (fun v => scale2 (e - 4) (ofInt v))

/-- Stage 1: A36 to S32, with the optional rotation; each value and whether it saturated (R80, R113). -/
def stage1 (rot : Bool) (xs : List Num) : List (Num × Bool) :=
  (if rot then rotateRow xs else xs).map (fun x => let r := rneLong x fmtS32 false; (r.1, r.2.1))

-- stages 2 and 3

/-- An output block of 32 values: header, codes, and each element's saturation and zeroed flags. -/
structure OutBlock where
  hdr : Nat
  codes : List Nat
  sat : List Bool
  zeroed : List Bool
  nanBlock : Bool
deriving DecidableEq, Repr

/-- Stage 3 on one block (R66, R68, R113). -/
def stage3 (fm : Nat) (jit : Bool) (e8 z : Nat) (infok : Bool) (xs : List Num) : OutBlock :=
  if isLong fm then
    let rs := xs.map (fun x => roundCode x fm false)
    let codes := rs.map (·.1)
    { hdr := if fm = fmtW16 then mkHdr (auxOf fmtW16 codes) 0x7F else 0, codes := codes, sat := rs.map (·.2.1),
      zeroed := rs.map (·.2.2), nanBlock := false }
  else
    let e := if jit then jitE8 xs fm else e8
    let cs := xs.map (fun x => cvtShort x fm e (if jit then 0 else z) infok)
    let b := shortBlock fm e (if jit then 0 else z) cs
    { hdr := b.1, codes := b.2, sat := cs.map (·.sat), zeroed := cs.map (·.zeroed), nanBlock := hdrE8 b.1 == 255 }

/-- A code is a NaN code or has a nonzero value (R227). -/
def nonzeroCode (fm z code : Nat) : Bool := if isQn fm then code != z else !isZero (decodeFp fm code)

/-- An output code is NaN. -/
def nanOut (fm : Nat) (b : OutBlock) : Bool := b.nanBlock || (!isQn fm && b.codes.any (fun c => isNan (decodeFp fm c)))

def countTrue (bs : List Bool) : Nat := (bs.filter (fun b => b)).length

/-- Magnitude of a finite value as S32 bits without sign. -/
def magBits (x : Num) : Nat := match x with | .fin _ _ _ => encodeLong fmtS32 (absNum x) | _ => 0

/-- What stages 1 to 4 make of one written row. -/
structure RowOut where
  blocks : List OutBlock
  ovf : List Bool
  outl : List (Nat × Nat × Nat)
  nan : Bool
  counts : Counts
  peaks : List Peak
deriving DecidableEq, Repr

/-- Stages 1 to 4 of a row of field f; `xs` are the A36 values with disabled columns zero. -/
def rowStages (f fm : Nat) (d : DrainReq) (e8 z : Nat) (infok : Bool) (xs : List Num) : RowOut :=
  let s1 := stage1 d.rot xs
  let vals := s1.map (·.1)
  let ovf := (List.range 8).map (fun b => ((s1.drop (32 * b)).take 32).any (·.2))
  let listed := if d.outl then d.cols else []
  let local' := listed.filterMap (fun c => if c / 256 = f then some (c % 256) else none)
  let w16 := fun (j : Nat) => roundCode (vals.getD j numZero) fmtW16 false
  let outl := (List.range listed.length).filterMap (fun n =>
    let c := listed.getD n 0
    if c / 256 = f then
      let j := c % 256
      let codes := (local'.filter (fun k => k / 32 == j / 32)).map (fun k => (w16 k).1)
      some (n, (w16 j).1, mkHdr (auxOf fmtW16 codes) 0x7F)
    else none)
  let into3 := (List.range 256).map (fun j => if local'.contains j then numZero else vals.getD j numZero)
  let blocks := (List.range 8).map (fun b => stage3 fm d.jit e8 z infok ((into3.drop (32 * b)).take 32))
  let ex := fun (b : Nat) => (List.range 32).filter (fun k => local'.contains (32 * b + k))
  let satOf := fun (b : Nat) (o : OutBlock) =>
    if o.nanBlock && isQn fm then 0
    else countTrue ((List.range 32).map (fun k => o.sat.getD k false || ((ex b).contains k && (w16 (32 * b + k)).2.1)))
  let zeroOf := fun (b : Nat) (o : OutBlock) =>
    if o.nanBlock && isQn fm then 0
    else countTrue ((List.range 32).map (fun k => o.zeroed.getD k false || ((ex b).contains k && (w16 (32 * b + k)).2.2)))
  let nonz := fun (o : OutBlock) => if o.nanBlock then 32 else countTrue (o.codes.map (nonzeroCode fm (if d.jit then 0 else z)))
  { blocks := blocks, ovf := ovf, outl := outl
    nan := blocks.any (nanOut fm) || outl.any (fun o => isNan (decodeFp fmtW16 o.2.1))
    counts := { total := 256
                sat := ((List.range 8).map (fun b => satOf b (blocks.getD b ⟨0, [], [], [], false⟩))).sum
                zero := ((List.range 8).map (fun b => zeroOf b (blocks.getD b ⟨0, [], [], [], false⟩))).sum
                nonz := (blocks.map nonz).sum
                ovfb := countTrue ovf
                amax := (into3.map magBits).foldl max 0 }
    peaks := (List.range 256).foldl (fun l j => (addPeak l ⟨256 * f + j, magBits (vals.getD j numZero)⟩).take 8) [] }

-- the drain's scale

/-- A ledger entry's field. -/
def ledF (e : BitVec 128) (hi lo : Nat) : Nat := bits e.toNat hi lo

/-- `EOFF` of an entry, signed, and the `E8` of R234. -/
def eoffOf (e : BitVec 128) : Int := sext (ledF e 28 20) 9
def e8Of (e : BitVec 128) : Nat := wrapInt (eoffOf e + 127) 8

/-- Policy p's field in reeve page 1. -/
def polInfok (h : Hw) (q p : Nat) : Bool := flag h (reeve1_POL_W0_INFOK p) q

/-- The clk of a drain's first row: the scale is read, the formats are checked (R88, R230). -/
def readScale (c : Nat) (d : DrainReq) : Eff := fun h =>
  let q := c / 16
  let e := ledgerOf h q d.group
  let z := ledF e 36 29
  let rej := fmtBad d || (!d.jit && isQn d.fmtOut && decide (2 ^ fmtWidth d.fmtOut - 1 < z))
  let sc := (e8Of e, z, polInfok h q (ledF e 85 82))
  chain [modCroft c (fun x => { x with drains := x.drains.map (fun s =>
      if s.id = d.id then { s with scale := some sc, reject := rej } else s) }),
    whenB (!rej && !d.jit && decide (ledF e 15 12 ≠ d.fmtOut)) (raise .tally c 0)] h

def drainSet (h : Hw) (c id : Nat) : DrainSet := ((croftX h c).drains.find? (fun s => s.id == id)).getD ⟨id, none, false, 0, 0, 0, false⟩

/-- A member field has finished its drain; the last adds the drain's signal (R174). -/
def fieldFinished (c id : Nat) : Eff := fun h =>
  let s := drainSet h c id
  if s.left ≤ 1 then chain [modCroft c (fun x => { x with drains := x.drains.filter (fun y => y.id != id) }), doneSig c s.sig s.sen] h
  else modCroft c (fun x => { x with drains := x.drains.map (fun y => if y.id = id then { y with left := y.left - 1 } else y) }) h

/-- The field has neither rows to drain nor rows to write for drain `id`. -/
def drainOver (h : Hw) (fi id : Nat) : Bool :=
  let x := fieldX h fi
  (match x.swap with | none => true | some s => s.d.id != id) && !x.buf.any (fun r => r.d.id == id)

/-- Begin the tile swap or standalone drain of a field: it consumes the staged drain and load (R175). `FMT_OUT`, `ROTATE` and `JIT` take the
drain's values here and keep them through the passes that follow, until the next drain begins. DESIGN CHOICE (R121), log 19. -/
def beginSwap (c f : Nat) (d : DrainReq) : Eff := fun h =>
  let fi := fldIx c f
  let l : LoadReq := (fieldX h fi).load.getD {}
  chain [modField fi (fun x => { x with
      drain := none, load := none, swap := some { d := d, l := l }, swapped := x.swapped || x.run == d.run }),
    setFlag field_STATUS_DRAINING fi true, setFlag field_STATUS_BUSY fi true,
    setFlag field_ACC_DATA_HI_VALID fi false,
    setF field_PASS_FMT_FMT_OUT fi d.fmtOut, setFlag field_PASS_FMT_ROTATE fi d.rot, setFlag field_PASS_FMT_JIT fi d.jit,
    whenB d.outl (setFlag field_PASS_FMT_OUTLIERS fi true),
    whenE (fun h => (drainSet h c d.id).scale.isNone) (readScale c d),
    whenE (fun h => (drainSet h c d.id).reject) (raise .field fi 0),
    whenB (loadOut l f) (raise .field fi 8)] h

/-- Tiles of n bytes from address a. -/
def tilesOf (a n : Nat) : List Nat := if n = 0 then [] else (List.range ((a + n - 1) / 4096 - a / 4096 + 1)).map (· + a / 4096)

def addNew (l : List Nat) (xs : List Nat) : List Nat := xs.foldl (fun l x => if l.contains x then l else l ++ [x]) l

/-- Tiles that a field's written rows of a drain touch (R208, R217). -/
def drainTiles (m : Masks) (d : DrainReq) (f : Nat) : List Nat :=
  let n := 32 * fmtWidth d.fmtOut
  ((List.range 256).filter (rowWritten m)).foldl (fun l i =>
    addNew (addNew l (tilesOf (d.daddr + i * d.dstride + f * n) n))
      (if hasHeader d.fmtOut then tilesOf (d.haddr + i * d.hstride + 16 * f) 16 else [])) []

/-- A member field's part of a drain is over: with `WDST` the tiles it wrote are sealed (R217), then its signal's share is
counted (R174) and releases that waited for the field take effect. -/
def finishDrain (c f : Nat) (d : DrainReq) (reads : List MemErr) : Eff := fun h =>
  chain [whenB (!d.dest && d.wdst && !d.descBad && !(drainSet h c d.id).reject)
      (forE (drainTiles d.masks d f) (fun t => chain [eccRead 0 (c / 16) c [(4096 * t, 4096)] reads, sealTile 0 (c / 16) c t])),
    fieldFinished c d.id, settleReleases c] h

/-- The accumulators of a row as the drain reads them, disabled columns zero. -/
def rowNums (h : Hw) (errs : List CellErr) (f fi i : Nat) (m : Masks) : List Num :=
  (List.range 256).map (fun j => if lineOn m.pc m.ec j then a36Num (accRead36 h errs f fi (256 * i + j)) else numZero)

/-- Stages 1 to 4 of the current row, and its reload: after `KEEP` with the values that were read (R175). Each enabled cell's accumulator
is checked as it is read (R116). -/
def drainRow (c f : Nat) (s : Swap) (errs : List CellErr) (reads : List MemErr) : Eff := fun h =>
  let fi := fldIx c f
  let m := s.d.masks
  let here := errs.filter (fun e => e.field.val == f && e.row.val == s.row && e.kind == .accParity && cellOn m (256 * s.row + e.col.val))
  let ds := drainSet h c s.d.id
  let sc := ds.scale.getD (127, 0, false)
  let write := rowWritten m s.row && !ds.reject && !s.d.descBad
  let o := rowStages f s.d.fmtOut s.d sc.1 sc.2.1 sc.2.2 (rowNums h here f fi s.row m)
  let row : DrainedRow :=
    { d := s.d
      row := s.row
      codes := o.blocks.flatMap (·.codes)
      hdrs := o.blocks.map (·.hdr)
      ovf := o.ovf
      nan := o.nan
      outl := o.outl
      since := h.clk }
  let cell := (fieldX h fi).injCells.2.2
  let inj := injHits h fi field_CTRL_INJ_ACC_PARITY cell (fun k => k / 256 == s.row && cellOn m k)
  let caps := here.flatMap (fun e => (accCheck h here f fi (256 * s.row + e.col.val) h.clk e.flips).toList) ++
    (if inj then (accCheck h [] f fi cell h.clk 0).toList else [])
  let last := decide (255 ≤ s.row)
  chain [
    clearInj fi field_CTRL_INJ_ACC_PARITY inj,
    recordMismatches c f caps,
    whenB write (tallyRow c s.d.group o.counts o.peaks),
    modField fi (fun x => { x with
      buf := if write then x.buf ++ [row] else x.buf
      swap := if last then none else some { s with row := s.row + 1 }
      loaded := last || x.loaded
      kept := if last then s.l.src == 3 else x.kept
      loadedClk := h.clk + 1 }),
    eccRead 0 (c / 16) c (loadSpans s.l f s.row) reads,
    (fun h' => (match loadRow h' c f s.l s.row with
      | none => forE here (fun e => fun _ =>
          [.accRow (65536 * fi + 256 * s.row + e.col.val) [accRead36 h here f fi (256 * s.row + e.col.val)]])
      | some vs => writeRow fi s.row vs) h'),
    whenB last (chain [setFlag field_STATUS_DRAINING fi false, showBusy c f, whenE (fun h => drainOver h fi s.d.id) (finishDrain c f s.d reads)])] h

/-- DRAIN_ROW: the next row of a swap, which begins with its first row once its pass has ended; a full drain buffer stalls it
(R103, R105). -/
def effDrainRow (c : Croft) (f : FieldIx) (errs : List CellErr) (reads : List MemErr) (t : Nat) : Eff := atClk t (fun h =>
  let fi := fldIx c.val f.val
  let x := fieldX h fi
  let go : Eff := fun h => match (fieldX h fi).swap with
    | none => []
    | some s => if 16 ≤ (fieldX h fi).buf.length then [] else chain [drainRow c.val f.val s errs reads, whenB (errs.any (fun e => e.kind == .path)) (pathCheck c.val false)] h
  match x.swap, x.drain with
  | some _, _ => go h
  | none, some d =>
    if inLane h c.val d.run && (croftX h c.val).lane.any (fun p => p.id == d.run && bit p.fields f.val) then []
    else if (match x.load with | some l => l.alone | none => false) then []
    else chain [beginSwap c.val f.val d, go] h
  | none, none => [])

-- stages 5 and 6

def payloadBytes (fm : Nat) (codes : List Nat) : List Byte := leBytes (32 * fmtWidth fm) (packCodes (fmtWidth fm) codes)

/-- Write a row to the barn (R207, R208). -/
def writeRowOut (c f : Nat) (r : DrainedRow) : Eff :=
  let d := r.d
  let n := 32 * fmtWidth d.fmtOut
  chain [barnWrite c (d.daddr + r.row * d.dstride + f * n) (payloadBytes d.fmtOut r.codes),
    whenB (hasHeader d.fmtOut) (barnWrite c (d.haddr + r.row * d.hstride + 16 * f) (r.hdrs.flatMap (leBytes 2)))]

/-- The extracted columns of a row (R207); a store that would run past the end of the barn is not written:
its 8 KiB count as one access. DESIGN CHOICE (R160), log 19. -/
def writeOutliers (c : Nat) (r : DrainedRow) (reads : List MemErr) : Eff :=
  if 0xC00000 < r.d.wdStore + 8192 then skip
  else forE r.outl (fun o => chain [eccWrite 0 (c / 16) c (r.d.wdStore + 512 * o.1 + 2 * r.row) 2 reads,
    eccWrite 0 (c / 16) c (r.d.wdStore + 4096 + 512 * o.1 + 2 * r.row) 2 reads, barnWrite c (r.d.wdStore + 512 * o.1 + 2 * r.row) (leBytes 2 o.2.1),
    barnWrite c (r.d.wdStore + 4096 + 512 * o.1 + 2 * r.row) (leBytes 2 o.2.2)])

/-- Chunks of 256 bytes of a row handed to the pound (R278). -/
def rowChunks (r : DrainedRow) : Nat := (32 * fmtWidth r.d.fmtOut + 255) / 256

/-- A message of drained rows to the destination of a send entry (R350, R351). -/
def rowMsg (e : List Nat) (c : Nat) (addr : Nat) (bs : List Byte) : Msg :=
  let w0 := e.getD 0 0
  let w1 := e.getD 1 0
  let red := bits w0 1 0 == 2
  withPayload
    { typ := if red then 3 else 1, sub := 0, ddev := BitVec.ofNat 17 (bits w0 20 4), dq := BitVec.ofNat 2 (bits w0 22 21),
      dcroft := BitVec.ofNat 4 (bits w0 26 23), dunit := BitVec.ofNat 2 (bits w0 27 27), scroft := BitVec.ofNat 4 (c % 16),
      daddr := BitVec.ofNat 40 addr, rsig := BitVec.ofNat 6 (bits w1 7 2), rsen := bit w1 8,
      rfmt := if red then BitVec.ofNat 4 (bits w0 31 28) else 0, rop := if red then BitVec.ofNat 2 (bits w1 1 0) else 0,
      lsig := 0, lsen := false, saddr := 0, pbytes := 0 } bs

/-- Bits of a send entry that R350 does not name are reserved, as are its reserved values. -/
def sendEntryOk (e : List Nat) (fm : Nat) : Bool :=
  let k := bits (e.getD 0 0) 1 0
  if k = 1 then isLong fm && fm != fmtH16
  else if k = 2 then isLong fm && fm != fmtH16 && bits (e.getD 0 0) 31 28 == fm && decide (bits (e.getD 1 0) 1 0 ≤ 1)
  else if k = 3 then fm == fmtW16
  else false

/-- Gradient chunks of a row for the mill (R295, R351). -/
def millChunks (e : List Nat) (f : Nat) (r : DrainedRow) : List ChunkOut :=
  let w2 := e.getD 2 0
  let emb := bit w2 13
  (List.range 2).map (fun k =>
    let base := e.getD 5 0 + r.row * e.getD 3 0 + (if emb then 0 else f * e.getD 4 0 + k)
    let sub := if emb then e.getD 6 0 % 65536 + f * e.getD 4 0 + k else 0
    { tag := bits w2 12 0 + base % 2 ^ 32 * 65536 + sub % 65536 * 2 ^ 48, data := (r.codes.drop (128 * k)).take 128 })

/-- Hand a row over to the pound's send path (R351), which reads the send entry from the commons. -/
def handRow (c f : Nat) (r : DrainedRow) (reads : List MemErr) : Eff := fun h =>
  let q := c / 16
  andThen (eccRead 1 q c [(getF h pound_SEND_BASE q * 64 + 32 * bits r.d.target 11 0, 32)] reads) (fun h =>
  let bad : Eff := chain [incF pound_DISCARDS q, raise .pound q 6, abandonQ ⟨.pound, q⟩ q]
  match sendEntry h q (bits r.d.target 11 0) with
  | none => bad h
  | some e =>
    if !sendEntryOk e r.d.fmtOut then bad h
    else if bits (e.getD 0 0) 1 0 = 3 then modQuarter q (fun x => { x with toMill := x.toMill ++ millChunks e f r }) h
    else
      let n := 32 * fmtWidth r.d.fmtOut
      let m := r.d.masks
      let bs := payloadBytes r.d.fmtOut r.codes
      let g := r.row / 64
      let addr := fun i => bits (e.getD 2 0) 25 0 + i * e.getD 3 0 + f * e.getD 4 0
      if e.getD 3 0 = n && (List.range 64).all (fun k => rowWritten m (64 * g + k)) then
        let old := ((quarterX h q).sendRows.find? (fun s => s.croft == c && s.field == f && s.drain == r.d.id && s.first == 64 * g)).map (·.bytes)
        let all := old.getD [] ++ bs
        let rest := fun (x : QuarterX) => x.sendRows.filter (fun s => !(s.croft == c && s.field == f && s.drain == r.d.id && s.first == 64 * g))
        if r.row % 64 = 63 then
          chain [modQuarter q (fun x => { x with sendRows := rest x }), sendMsg q (rowMsg e c (addr (64 * g)) all)] h
        else modQuarter q (fun x => { x with sendRows := rest x ++ [⟨c, f, r.d.id, 64 * g, all⟩] }) h
      else sendMsg q (rowMsg e c (addr r.row) bs) h) h

/-- A row for the mill waits while its link takes no chunks (R296). -/
def rowStalled (h : Hw) (c : Nat) (r : DrainedRow) : Bool :=
  match sendEntry h (c / 16) (bits r.d.target 11 0) with
  | none => false
  | some e => sendEntryOk e r.d.fmtOut && bits (e.getD 0 0) 1 0 == 3 && (match millLink h (bits (e.getD 2 0) 12 0) with
    | some k => h.mill.stalled.any (fun s => s.1 == k)
    | none => true)

/-- DRAIN_ROW_WRITE (R112, R115, R217): the oldest drained row is written to the barn, or handed to the pound once the pound has
taken all its chunks. -/
def effDrainRowWrite (c : Croft) (f : FieldIx) (reads : List MemErr) (t : Nat) : Eff := atClk t (fun h =>
  let fi := fldIx c.val f.val
  match (fieldX h fi).buf with
  | [] => []
  | r :: rest =>
    if r.d.dest && (decide (r.chunks < rowChunks r) || rowStalled h c.val r) then []
    else
      let nOvf := countTrue r.ovf
      chain [
        modField fi (fun x => { x with buf := rest }),
        (if r.d.dest then handRow c.val f.val r reads else writeRowOut c.val f.val r),
        writeOutliers c.val r reads,
        whenB (decide (0 < nOvf)) (chain [addF field_OVERFLOW_BLOCKS fi nOvf, raise .field fi 4]),
        whenB r.nan (chain [incF field_NAN_ROWS fi, raise .field fi 5,
          whenE (fun h => flag h bellRcv_CTRL_NAN_DRAIN_ABANDON (c.val / 16)) (abandonQ ⟨.field, fi⟩ (c.val / 16))]),
        showBusy c.val f.val, whenE (fun h => drainOver h fi r.d.id) (finishDrain c.val f.val r.d reads)] h)

-- meanings, one per command

/-- DRAIN_ROW. -/
def execDrainRow (c : Croft) (f : FieldIx) (errs : List CellErr) (t : Nat) (s : State) (reads : List MemErr := []) :
    Host.Outcome State Fault Refusal :=
  run (effDrainRow c f errs reads t) s

/-- DRAIN_ROW_WRITE. -/
def execDrainRowWrite (c : Croft) (f : FieldIx) (t : Nat) (s : State) (reads : List MemErr := []) : Host.Outcome State Fault Refusal :=
  run (effDrainRowWrite c f reads t) s

end Sys2Proof.Machine
end

