-- ==== Sys2Proof/Machine/Pound.lean ====
section
/-! DEFINITION. The pound: the link instructions (R184, R185), its chunk grants (R279), the messages it delivers (R340, R346,
R347) and the reduce windows (R348 to R350). -/

namespace Sys2Proof.Machine

-- link instructions

/-- A link instruction enters the croft's queue of eight requests (R163, R184): `op` 0 SEND, 1 RECV, 2 REDUCE. -/
def queueLink (c : Croft) (st : Strm) (w : BitVec 128) (t op : Nat) : Eff :=
  issue c st w t (0x60 + op) (okLink op) (fun h =>
    if 8 ≤ (croftX h c.val).pound.length then []
    else
      let r : PoundReq :=
        { op := op, stream := strmIx st, dev := wb w 32 16, quarter := wb w 34 33, croft := wb w 38 35, rspace := wb w 39 39,
          raddr := if bit w.toNat 39 then 4 * wb w 63 40 else wb w 63 40, laddr := wb w 87 64, len := 64 * (wb w 103 88 + 1),
          rsig := wb w 109 104, lsig := wb w 115 110, lsen := bit w.toNat 116, rsen := bit w.toNat 117, rfmt := wb w 121 118,
          rop := wb w 123 122, since := h.clk }
      chain [modCroft c.val (fun x => { x with pound := x.pound ++ [r] }), retire (sIx c st)] h)

def effSend (c : Croft) (st : Strm) (w : BitVec 128) (t : Nat) : Eff := queueLink c st w t 0
def effRecv (c : Croft) (st : Strm) (w : BitVec 128) (t : Nat) : Eff := queueLink c st w t 1
def effReduce (c : Croft) (st : Strm) (w : BitVec 128) (t : Nat) : Eff := queueLink c st w t 2

/-- The header of a request's message (R184, R339, R341). -/
def reqMsg (c : Nat) (r : PoundReq) : Msg :=
  { typ := if r.op = 0 then 1 else if r.op = 1 then 2 else 3, sub := 0, ddev := BitVec.ofNat 17 r.dev
    dq := BitVec.ofNat 2 r.quarter, dcroft := BitVec.ofNat 4 r.croft, dunit := BitVec.ofNat 2 r.rspace
    scroft := BitVec.ofNat 4 (c % 16), daddr := BitVec.ofNat 40 r.raddr
    len := BitVec.ofNat 16 (r.len / 64 - 1)
    rsig := if r.op = 1 then 0 else BitVec.ofNat 6 r.rsig, rsen := r.op != 1 && r.rsen
    rfmt := if r.op = 2 then BitVec.ofNat 4 r.rfmt else 0, rop := if r.op = 2 then BitVec.ofNat 2 r.rop else 0
    saddr := if r.op = 1 then BitVec.ofNat 24 r.laddr else 0, lsig := if r.op = 1 then BitVec.ofNat 6 r.lsig else 0
    lsen := r.op == 1 && r.lsen, pbytes := if r.op = 1 then 0xFF else 0 }

/-- The front request of croft c leaves the queue. -/
def popReq (c : Nat) : Eff := modCroft c (fun x => { x with pound := x.pound.drop 1 })

/-- The pound takes one chunk of a request (R185, R279); a request that would run past the barn is not performed (R160, R164). -/
def takeReq (c : Nat) (r : PoundReq) (reads : List MemErr) : Eff := fun h =>
  let q := c / 16
  if 0xC00000 < r.laddr + r.len then chain [popReq c, doneSig c r.lsig r.lsen] h
  else if r.op = 1 then
    let m := fillSource h q (reqMsg c r)
    if sendable h q m then
      chain [popReq c, sendMsg q m, modQuarter q (fun x => { x with gets := x.gets ++ [{ croft := c, since := h.clk, m := m }] })] h
    else chain [popReq c, sendMsg q m, doneSig c r.lsig r.lsen] h
  else
    let n := min 256 (r.len - r.data.length)
    andThen (eccRead 0 q c [(r.laddr + r.data.length, n)] reads) (fun h =>
    let data := r.data ++ barnRd h c (r.laddr + r.data.length) n
    if r.len ≤ data.length then chain [popReq c, sendMsg q { reqMsg c r with payload := data }, doneSig c r.lsig r.lsen] h
    else modCroft c (fun x => { x with pound := { r with data := data, since := h.clk + 1 } :: x.pound.drop 1 }) h) h

/-- What croft c offers the pound: the clk the chunk became ready, and its source, field 0 to 3 or 4 for its requests (R279). -/
def croftOffer (h : Hw) (c : Nat) : Option (Nat × Nat) :=
  let fs := (List.range 4).filterMap (fun f => match (fieldX h (4 * c + f)).buf with
    | r :: _ => if r.d.dest && decide (r.chunks < rowChunks r) then some (r.since, f) else none
    | [] => none)
  let rs := match (croftX h c).pound with
    | r :: _ => [(r.since, 4)]
    | [] => []
  (fs ++ rs).foldl (fun (best : Option (Nat × Nat)) o => match best with
    | none => some o
    | some b => if o.1 < b.1 then some o else some b) none

/-- Offers of a quarter as age, croft, source; an offer's age counts from the croft's last grant at the earliest. -/
def offers (h : Hw) (q : Nat) : List (Nat × Nat × Nat) :=
  (List.range 16).filterMap (fun k => let c := 16 * q + k
    (croftOffer h c).map (fun o => (max o.1 (croftX h c).offerClk, c, o.2)))

def insertOffer (o : Nat × Nat × Nat) : List (Nat × Nat × Nat) → List (Nat × Nat × Nat)
  | [] => [o]
  | x :: xs => if o.1 < x.1 ∨ (o.1 = x.1 ∧ o.2.1 < x.2.1) then o :: x :: xs else x :: insertOffer o xs

/-- One granted chunk. -/
def grantChunk (c src : Nat) (reads : List MemErr) : Eff := fun h =>
  chain [modCroft c (fun x => { x with offerClk := h.clk + 1 }),
    (if src < 4 then modField (4 * c + src) (fun x => match x.buf with
        | r :: rs => { x with buf := { r with chunks := r.chunks + 1 } :: rs }
        | [] => x)
      else fun h => match (croftX h c).pound with
        | r :: _ => takeReq c r reads h
        | [] => [])] h

/-- What the reads of croft c find, among findings listed by croft. -/
def ofCroft (reads : List (Croft × MemErr)) (c : Nat) : List MemErr := (reads.filter (fun x => x.1.val == c)).map (·.2)

/-- POUND_CHUNK_GRANT (R279): up to four offers, oldest first, ties by croft. `reads` lists by croft what their reads find. -/
def effPoundChunkGrant (q : Quarter) (reads : List (Croft × MemErr)) (t : Nat) : Eff := atClk t (fun h =>
  if quarterGone h q.val then []
  else forE (((offers h q.val).foldr insertOffer []).take 4) (fun o => grantChunk o.2.1 o.2.2 (ofCroft reads o.2.1)) h)

-- arrival

/-- `LEN` and `PBYTES` as a message's type uses them: `ok` says which `PBYTES` it may have, `get` that it is a GET request (R339). -/
def sizeOk (m : Msg) (get : Bool) (ok : Nat → Bool) : Bool :=
  ok m.pbytes.toNat && (get || m.pbytes == 0 || m.len == 0)

/-- A payload of 64 bytes or less, or whole units. -/
def anySize (pb : Nat) : Bool := decide (pb ≤ 64)

/-- Fields of groups of types, all 0 where unused: requester's fields of a GET, element format, signal, croft, address. -/
def noGet (m : Msg) : Bool := m.saddr == 0 && m.lsig == 0 && !m.lsen
def noRed (m : Msg) : Bool := m.rfmt == 0 && m.rop == 0
def noSig (m : Msg) : Bool := m.rsig == 0 && !m.rsen
def noDst (m : Msg) : Bool := m.dcroft == 0 && m.scroft == 0 && noSig m && noGet m && noRed m

/-- A message sets a reserved value, or a field that its type does not use (R339, R340). -/
def msgReserved (m : Msg) : Bool :=
  let sub := m.sub.toNat
  let near := decide (m.dunit.toNat ≤ 1)
  m.rsvBit ||
    !(match m.typ.toNat with
      | 1 => sub == 0 && near && noGet m && noRed m && sizeOk m false (· == 0)
      | 2 => (sub == 0 && near && noRed m && noSig m && sizeOk m true (· == 255)) ||
          (sub == 1 && m.dunit == 0 && noGet m && noRed m && sizeOk m false (· == 0))
      | 3 => (sub == 0 && near && noGet m && sizeOk m false (· == 0)) ||
          ((sub == 1 || sub == 2) && m.dunit == 2 && noDst m && m.daddr == 0 && sizeOk m false anySize)
      | 4 => decide (sub ≤ 1) && m.dq == 0 && m.dunit == 0 && m.hops == 0 && noDst m && m.daddr == 0 &&
          sizeOk m false (· == (if sub = 0 then 40 else 16))
      | 5 => decide (sub ≤ 3) && m.dunit == 3 && m.dq == 0 && noDst m && sizeOk m false (if sub = 1 then (· == 0) else anySize') &&
          (sub == 1 || m.daddr == 0)
      | 6 => decide (sub ≤ 4) && m.dunit == 3 && m.dq == 0 && noDst m && sizeOk m false (if sub = 1 then (· == 0) else anySize') &&
          (sub == 1 || m.daddr == 0)
      | 7 => decide (sub ≤ 2) && m.dunit == 0 && m.daddr == 0 && noSig m && noGet m && noRed m &&
          sizeOk m false (fun pb => if sub = 0 then pb == 255 else pb == 255 || (decide (1 ≤ pb) && decide (pb ≤ 64)))
      | _ => false)
where
  /-- The same, or no payload at all. -/
  anySize' (pb : Nat) : Bool := anySize pb || pb == 255

/-- The receive buffer of the flits of a message that has left it becomes credit to return (R336). -/
def freeRx (p vc n : Nat) : Eff := modPort p (fun x =>
  let k := min n (x.rxUsed.getD vc 0)
  { x with rxUsed := x.rxUsed.set vc (x.rxUsed.getD vc 0 - k), toReturn := x.toReturn.set vc (x.toReturn.getD vc 0 + k) })

/-- A message whole at a device (R18, R21, R341, R343, R346, R347): discarded, routed onward, or delivered by a pound. `here`
says that the gate or any quarter of this device may take it. -/
def arrive (src : MsgSrc) (m : Msg) (t : Nat) (here : Bool) (deliver : Nat → Eff) : Eff := atClk t (fun h =>
  match src with
  | .port p =>
    let q := p.val / 8
    if !portUp h p.val || (portX h p.val).peerDead || quarterGone h q then []
    else
      chain [freeRx p.val m.vc.toNat (flitCount m),
        (if !m.crcOk then discardMsg q m (some 0) true m.vc.toNat
          else if msgReserved m then discardMsg q m (some 0) false m.vc.toNat
          else if m.ddev.toNat ≠ deviceId h q then
            (if m.hops.toNat ≤ 1 then discardMsg q m (some 2) false m.vc.toNat
              else forwardMsg q { m with hops := m.hops - 1 })
          else if m.dq.toNat ≠ q ∧ here = false then forwardMsg q { m with hops := m.hops - 1 }
          else if addressGone h m && !here then gateDiscard q m.dq.toNat m.vc.toNat
          else deliver q)] h
  | .gate sq =>
    let q := m.dq.toNat
    if quarterGone h sq.val then []
    else if addressGone h m && !here then gateDiscard sq.val q m.vc.toNat h
    else if !m.crcOk then discardMsg q m (some 0) true m.vc.toNat h
    else if msgReserved m then discardMsg q m (some 0) false m.vc.toNat h
    else deliver q h)

/-- The destination croft of a message delivered in quarter q. -/
def dstCroft (q : Nat) (m : Msg) : Nat := 16 * q + m.dcroft.toNat

/-- The message's own signal (R132, R196). -/
def msgSig (q : Nat) (m : Msg) : Eff := whenB m.rsen (addSigOut (dstCroft q m) m.rsig.toNat 1)

/-- Destination bytes lie beyond their space (R347). -/
def beyond (m : Msg) (n : Nat) : Bool := decide (spSize m.dunit.toNat < m.daddr.toNat + n)

/-- Write a message's bytes at its destination (R340, R347). -/
def deliverBytes (q : Nat) (m : Msg) (reads : List MemErr) : Eff := fun h =>
  let c := dstCroft q m
  let n := m.payload.length
  let a := m.daddr.toNat
  let vc := m.vc.toNat
  let part := eccWrite m.dunit.toNat q c a n reads
  if beyond m n then discardMsg q m (some 9) false vc h
  else if m.dunit = 0 then
    (if touchesProt h c a n then chain [part, barnWrite c a m.payload, discardMsg q m (some 9) false vc] h
      else chain [part, barnWrite c a m.payload, incF pound_MSG_RX q, msgSig q m] h)
  else chain [part, wrBytes .commons (q * 0x4000000 + a) m.payload, incF pound_MSG_RX q, msgSig q m] h

/-- A message that no other command brings: of a type or subtype that R340 does not list, or a BELL or a device-failed message that fails its
checks. -/
def strayMsg (m : Msg) : Bool :=
  match m.typ.toNat with
  | 1 | 2 | 3 => false
  | 4 => msgReserved m
  | 5 => decide (4 ≤ m.sub.toNat)
  | 6 => decide (5 ≤ m.sub.toNat)
  | 7 => m.sub == 0 && msgReserved m
  | _ => true

/-- PUT (R340), and messages that are discarded whatever they hold (R347). -/
def effPut (src : MsgSrc) (m : Msg) (reads : List MemErr) (t : Nat) : Eff :=
  whenB (m.typ == 1 || strayMsg m || !m.crcOk) (arrive src m t false (fun q => deliverBytes q m reads))

/-- The response to a GET request (R340). -/
def getAnswer (q : Nat) (m : Msg) (bs : List Byte) : Msg :=
  withPayload { typ := 2, sub := 1, ddev := m.sdev, dq := m.sq, dcroft := m.scroft, dunit := 0, scroft := 0, sq := BitVec.ofNat 2 q
                daddr := m.saddr.setWidth 40, rsig := m.lsig, rsen := m.lsen } bs

/-- The destination pound of a GET request reads the lines and returns them. -/
def deliverGet (q : Nat) (m : Msg) (reads : List MemErr) : Eff := fun h =>
  let n := 64 * (m.len.toNat + 1)
  if beyond m n then discardMsg q m (some 9) false m.vc.toNat h
  else andThen (eccRead m.dunit.toNat q (dstCroft q m) [(m.daddr.toNat, n)] reads) (fun h =>
    let bs := rdBytes h (spMem m.dunit.toNat) (spAddr m.dunit.toNat q (dstCroft q m) m.daddr.toNat) n
    chain [incF pound_MSG_RX q, sendMsg q (getAnswer q m bs)] h) h

/-- GET_REQUEST (R340). -/
def effGetRequest (src : MsgSrc) (m : Msg) (reads : List MemErr) (t : Nat) : Eff :=
  whenB ((m.typ == 2 && m.sub != 1) || !m.crcOk) (arrive src m t false (fun q => deliverGet q m reads))

/-- A response answers an outstanding GET. -/
def answers (q : Nat) (m : Msg) (g : OpenGet) : Bool :=
  g.croft == dstCroft q m && g.m.ddev == m.sdev && g.m.dq == m.sq && g.m.saddr.toNat == m.daddr.toNat &&
    64 * (g.m.len.toNat + 1) == m.payload.length && g.m.lsig == m.rsig && g.m.lsen == m.rsen

/-- The response would be discarded at its destination. -/
def putBad (h : Hw) (q : Nat) (m : Msg) : Bool :=
  beyond m m.payload.length || (m.dunit == 0 && touchesProt h (dstCroft q m) m.daddr.toNat m.payload.length)

/-- A response: as PUT where it answers an outstanding GET; otherwise it is counted and nothing else happens (R340, R347). -/
def deliverResponse (q : Nat) (m : Msg) (reads : List MemErr) : Eff := fun h =>
  match (quarterX h q).gets.find? (answers q m) with
  | none => incF pound_DISCARDS q h
  | some g => chain [whenB (!putBad h q m) (modQuarter q (fun x => { x with gets := x.gets.erase g })), deliverBytes q m reads] h

/-- GET_RESPONSE (R340, R347). -/
def effGetResponse (src : MsgSrc) (m : Msg) (reads : List MemErr) (t : Nat) : Eff :=
  whenB ((m.typ == 2 && m.sub == 1) || !m.crcOk) (arrive src m t false (fun q => deliverResponse q m reads))

/-- Clk in a microsecond. -/
def clkUs : Nat := 1200

/-- GET_TIMEOUT (R347): the oldest GET whose time has run out. -/
def effGetTimeout (q : Quarter) (t : Nat) : Eff := atClk t (fun h =>
  match (quarterX h q.val).gets.find? (fun g => decide (g.since + getF h pound_GET_TIMEOUT q.val * clkUs ≤ h.clk)) with
  | none => []
  | some g => chain [modQuarter q.val (fun x => { x with gets := x.gets.erase g }), discardMsg q.val g.m (some 3) false 0,
      doneSig g.croft g.m.lsig.toNat g.m.lsen] h)

-- reduce windows

/-- The entry of reduce window i: its sixteen words; none where the table runs past the commons (R350, R356). -/
def rwinEntry (h : Hw) (q i : Nat) : Option (List Nat) :=
  let a := getF h pound_RWIN_BASE q * 64 + 64 * i
  if a + 64 ≤ 0x4000000 then some ((List.range 16).map (fun k => rdNat h .commons (q * 0x4000000 + a + 4 * k) 4)) else none

def rwNsrc (e : List Nat) : Nat := bits (e.getD 0 0) 14 11
def rwLen (e : List Nat) : Nat := bits (e.getD 2 0) 25 0
def rwBase (e : List Nat) : Nat := bits (e.getD 1 0) 25 0
def rwFmt (e : List Nat) : Nat := bits (e.getD 0 0) 9 6

/-- An entry keeps the limits of R356 and sets no reserved bit. -/
def rwinOk (e : List Nat) : Bool :=
  let clear := fun (k m : Nat) => decide (e.getD k 0 &&& m = e.getD k 0)
  (rwFmt e == fmtW16 || rwFmt e == fmtS32) && decide (1 ≤ rwNsrc e) && decide (rwNsrc e ≤ 8) && decide (rwLen e ≤ 0x400000) &&
    clear 0 0x3FFFFF && clear 1 0x3FFFFFF && clear 2 0x3FFFFFF &&
    (List.range 8).all (fun k => clear (3 + k) 0x807FFFFF) && (List.range 5).all (fun k => decide (e.getD (11 + k) 0 = 0))

/-- The message belongs to the window of an entry (R348). -/
def rwinHolds (e : List Nat) (m : Msg) : Bool :=
  let w0 := e.getD 0 0
  bit w0 0 && rwinOk e && (b2n (bit w0 1) == m.dunit.toNat) && (bit w0 1 || bits w0 5 2 == m.dcroft.toNat) &&
    decide (rwBase e ≤ m.daddr.toNat) && decide (m.daddr.toNat + m.payload.length ≤ rwBase e + rwLen e)

/-- The window of lowest index that holds a message, with its entry. -/
def findWindow (h : Hw) (q : Nat) (m : Msg) : Option (Nat × List Nat) :=
  (List.range 256).findSome? (fun i => match rwinEntry h q i with
    | some e => if rwinHolds e m then some (i, e) else none
    | none => none)

/-- The rank of a message's source in a window. -/
def rankOf (e : List Nat) (m : Msg) : Option Nat :=
  (List.range (rwNsrc e)).find? (fun k => let w := e.getD (3 + k) 0
    bit w 31 && bits w 16 0 == m.sdev.toNat && bits w 18 17 == m.sq.toNat && bits w 22 19 == m.scroft.toNat)

/-- Bytes that the ranks of window i have completed in its round. -/
def roundDone (h : Hw) (q i : Nat) : List Nat :=
  match (quarterX h q).rounds.find? (fun r => r.win == i) with
  | some r => r.done
  | none => List.replicate 8 0

def setRound (q i : Nat) (d : List Nat) : Eff := modQuarter q (fun x =>
  { x with rounds := (if d.all (· == 0) then [] else [{ win := i, done := d }]) ++ x.rounds.filter (fun r => r.win != i) })

/-- One combined element (R349). -/
def combineElem (f rop : Nat) (d s : Num) : Num :=
  if rop = 0 then (rneLong (numAdd d s) f true).1
  else if isNan d || isNan s then .nan
  else if numLt d s then s else if numLt s d then d else if numNeg d then s else d

/-- The destination bytes after a message is combined with them. -/
def combineBytes (f rop : Nat) (old new : List Byte) : List Byte :=
  let w := fmtWidth f
  let n := new.length * 8 / w
  let ds := (unpackCodes w n (ofLe old)).map (decodeFp f)
  let ss := (unpackCodes w n (ofLe new)).map (decodeFp f)
  leBytes new.length (packCodes w (List.zipWith (fun d s => (roundCode (combineElem f rop d s) f true).1) ds ss))

/-- Combine a message of rank r into window i, and end the round where it was the last (R348, R349). -/
def combineMsg (q i r : Nat) (e : List Nat) (m : Msg) (reads : List MemErr) : Eff :=
  let c := dstCroft q m
  let n := m.payload.length
  let a := m.daddr.toNat
  andThen (eccRead m.dunit.toNat q c [(a, n)] reads) (fun h =>
  let old := rdBytes h (spMem m.dunit.toNat) (spAddr m.dunit.toNat q c a) n
  let new := combineBytes m.rfmt.toNat m.rop.toNat old m.payload
  let d := roundDone h q i
  let d := d.set r (d.getD r 0 + n)
  let ended := (List.range (rwNsrc e)).all (fun k => decide (rwLen e ≤ d.getD k 0))
  chain [spWriteQ m.dunit.toNat q c a new, incF pound_MSG_RX q, msgSig q m,
    (if ended then chain [setRound q i (List.replicate 8 0),
        whenB (bit (e.getD 0 0) 21) (addSigOut (16 * q + bits (e.getD 0 0) 5 2) (bits (e.getD 0 0) 20 15) 1)]
      else setRound q i d)] h)
where
  spWriteQ (sp q c a : Nat) (bs : List Byte) : Eff :=
    if sp = 0 then barnWrite c a bs else wrBytes .commons (q * 0x4000000 + a) bs

/-- Lines of staging in use. -/
def stageUsed (x : QuarterX) : Nat := (x.staged.map (fun s => (s.m.payload.length + 63) / 64)).sum

/-- Every rank below r has completed its bytes of the round, and r has bytes of the round to come. -/
def turnOf (d : List Nat) (len r : Nat) : Bool :=
  (List.range r).all (fun k => decide (len ≤ d.getD k 0)) && decide (d.getD r 0 < len)

/-- `STAGED` and `STAGE_PEAK` (R356). -/
def showStage (q : Nat) : Eff := fun h =>
  chain [setF pound_STATUS_STAGED q (quarterX h q).staged.length, peakF pound_STAGE_PEAK q (stageUsed (quarterX h q))] h

/-- Where and how the pound lays held messages out in the staging area is not stated: its bytes become free values. -/
def undefStage (q : Nat) : Eff := fun h =>
  let a := getF h pound_STAGE_BASE q * 64
  let n := min (getF h pound_STAGE_LEN q * 64) (0x4000000 - a)
  [.mem .commons (q * 0x4000000 + a) ((List.range n).map (Config.freeByte (1000 + q) h.free)), .free (h.free + 1)]

/-- The pound reads the entries of the window table up to the one that holds the message. -/
def windowReads (q : Nat) (m : Msg) (reads : List MemErr) : Eff := fun h =>
  let n := match findWindow h q m with
    | some (i, _) => i + 1
    | none => 256
  eccRead 1 q (dstCroft q m) [(getF h pound_RWIN_BASE q * 64, 64 * n)] reads h

/-- A REDUCE_PUT at its destination pound (R348). -/
def deliverReduce (q : Nat) (m : Msg) (reads : List MemErr) : Eff := andThen (windowReads q m reads) (fun h =>
  let n := m.payload.length
  let vc := m.vc.toNat
  let no := fun (ev : Nat) => discardMsg q m (some ev) false vc
  if beyond m n then no 9 h
  else match findWindow h q m with
    | none => no 5 h
    | some (i, e) =>
      if m.rfmt.toNat ≠ rwFmt e ∨ m.rop.toNat ≠ b2n (bit (e.getD 0 0) 10) then no 5 h
      else match rankOf e m with
        | none => no 8 h
        | some r =>
          let d := roundDone h q i
          let mine := (quarterX h q).staged.filter (fun s => s.win == i && s.rank == r)
          let cur := d.getD r 0 + (mine.map (fun s => s.m.payload.length)).sum
          if rwLen e < cur % rwLen e + n then no 5 h
          else if m.dunit = 0 ∧ touchesProt h (dstCroft q m) m.daddr.toNat n = true then
            chain [eccRead 0 q (dstCroft q m) [(m.daddr.toNat, n)] reads, fun h => barnWrite (dstCroft q m) m.daddr.toNat
              (combineBytes m.rfmt.toNat m.rop.toNat (barnRd h (dstCroft q m) m.daddr.toNat n) m.payload) h, no 9] h
          else if turnOf d (rwLen e) r && mine.isEmpty then combineMsg q i r e m reads h
          else if getF h pound_STAGE_LEN q < stageUsed (quarterX h q) + (n + 63) / 64 then no 4 h
          else chain [modQuarter q (fun x => { x with staged := x.staged ++ [{ win := i, rank := r, entry := e, m := m }] }),
            undefStage q, showStage q] h)

/-- REDUCE_PUT (R348). -/
def effReducePut (src : MsgSrc) (m : Msg) (reads : List MemErr) (t : Nat) : Eff :=
  whenB ((m.typ == 3 && m.sub != 1 && m.sub != 2) || !m.crcOk) (arrive src m t false (fun q => deliverReduce q m reads))

/-- REDUCE_RELEASE (R348): the first held message whose turn has come is combined. -/
def effReduceRelease (q : Quarter) (reads : List MemErr) (t : Nat) : Eff := atClk t (fun h =>
  match (quarterX h q.val).staged.find? (fun s => turnOf (roundDone h q.val s.win) (rwLen s.entry) s.rank) with
  | none => []
  | some s => chain [modQuarter q.val (fun x => { x with staged := x.staged.erase s }), combineMsg q.val s.win s.rank s.entry s.m reads,
      showStage q.val] h)

-- control messages

/-- CTRL_DEVICE_FAILED (R346): nothing further is delivered from the port. -/
def effCtrlDeviceFailed (p : Port) : Eff := fun h =>
  if !portUp h p.val || (portX h p.val).peerDead then []
  else chain [freeRx p.val 3 1, raise .port0 p.val 7, modPort p.val (fun x => { x with peerDead := true })] h

/-- ECHO_REQUEST (R346): the destination gate answers with the payload. -/
def effEchoRequest (src : MsgSrc) (m : Msg) (t : Nat) : Eff :=
  whenB ((m.typ == 7 && m.sub != 0 && m.sub != 2) || !m.crcOk) (arrive src m t true (fun q => fun h =>
    forwardMsg q (fillSource h q { typ := 7, sub := 2, ddev := m.sdev, dq := m.sq, dcroft := m.scroft, scroft := 0, len := m.len,
                                   pbytes := m.pbytes, payload := m.payload }) h))

/-- ECHO_REPLY (R346): its round trip is shown on the port it came in on. The spec names nothing that sends an echo request, so
the round trip is a free value. -/
def effEchoReply (src : MsgSrc) (m : Msg) (t : Nat) : Eff :=
  whenB ((m.typ == 7 && m.sub == 2) || !m.crcOk) (arrive src m t true (fun _ =>
    match src with
    | .port p => drawFree (fun w => setF port0_ECHO_RTT p.val w.toNat)
    | .gate _ => skip))

-- meanings, one per command

/-- SEND. -/
def execSend (c : Croft) (st : Strm) (w : BitVec 128) (t : Nat) (s : State) : Host.Outcome State Fault Refusal :=
  run (effSend c st w t) s

/-- RECV. -/
def execRecv (c : Croft) (st : Strm) (w : BitVec 128) (t : Nat) (s : State) : Host.Outcome State Fault Refusal :=
  run (effRecv c st w t) s

/-- REDUCE. -/
def execReduce (c : Croft) (st : Strm) (w : BitVec 128) (t : Nat) (s : State) : Host.Outcome State Fault Refusal :=
  run (effReduce c st w t) s

/-- POUND_CHUNK_GRANT. -/
def execPoundChunkGrant (q : Quarter) (t : Nat) (s : State) (reads : List (Croft × MemErr) := []) : Host.Outcome State Fault Refusal :=
  run (effPoundChunkGrant q reads t) s

/-- PUT. -/
def execPut (src : MsgSrc) (m : Msg) (t : Nat) (s : State) (reads : List MemErr := []) : Host.Outcome State Fault Refusal :=
  run (effPut src m reads t) s

/-- GET_REQUEST. -/
def execGetRequest (src : MsgSrc) (m : Msg) (t : Nat) (s : State) (reads : List MemErr := []) : Host.Outcome State Fault Refusal :=
  run (effGetRequest src m reads t) s

/-- GET_RESPONSE. -/
def execGetResponse (src : MsgSrc) (m : Msg) (t : Nat) (s : State) (reads : List MemErr := []) : Host.Outcome State Fault Refusal :=
  run (effGetResponse src m reads t) s

/-- GET_TIMEOUT. -/
def execGetTimeout (q : Quarter) (t : Nat) (s : State) : Host.Outcome State Fault Refusal :=
  run (effGetTimeout q t) s

/-- REDUCE_PUT. -/
def execReducePut (src : MsgSrc) (m : Msg) (t : Nat) (s : State) (reads : List MemErr := []) : Host.Outcome State Fault Refusal :=
  run (effReducePut src m reads t) s

/-- REDUCE_RELEASE. -/
def execReduceRelease (q : Quarter) (t : Nat) (s : State) (reads : List MemErr := []) : Host.Outcome State Fault Refusal :=
  run (effReduceRelease q reads t) s

/-- CTRL_DEVICE_FAILED. -/
def execCtrlDeviceFailed (p : Port) (s : State) : Host.Outcome State Fault Refusal :=
  run (effCtrlDeviceFailed p) s

/-- ECHO_REQUEST. -/
def execEchoRequest (src : MsgSrc) (m : Msg) (t : Nat) (s : State) : Host.Outcome State Fault Refusal :=
  run (effEchoRequest src m t) s

/-- ECHO_REPLY. -/
def execEchoReply (src : MsgSrc) (m : Msg) (t : Nat) (s : State) : Host.Outcome State Fault Refusal :=
  run (effEchoReply src m t) s

end Sys2Proof.Machine
end

