-- ==== Sys2Proof/Machine/Reeve.lean ====
section
/-! DEFINITION. The reeve (R231 to R256): closing a sheet, its reduction among replicas, the decide and grant passes, the exchange
of the ledger banks and the variant signals. -/

namespace Sys2Proof.Machine

-- ledger entries

/-- The fields of a ledger entry (R233). -/
structure LedgerE where
  gid : Nat
  fmt : Nat
  bfmt : Nat
  eoff : Int
  zp : Nat
  satf : Nat
  zerof : Nat
  ovf : Bool
  streak : Nat
  pol : Nat
  stage : Nat
  pend : Bool
  queued : Bool
  qage : Nat
  pcnt : Nat
  ahist : Nat
deriving DecidableEq, Repr

def unpackLedger (e : BitVec 128) : LedgerE :=
  { gid := ledF e 11 0, fmt := ledF e 15 12, bfmt := ledF e 19 16, eoff := eoffOf e, zp := ledF e 36 29, satf := ledF e 52 37,
    zerof := ledF e 64 53, ovf := ledF e 65 65 == 1, streak := ledF e 81 66, pol := ledF e 85 82, stage := ledF e 87 86,
    pend := ledF e 88 88 == 1, queued := ledF e 89 89 == 1, qage := ledF e 91 90, pcnt := ledF e 95 92, ahist := ledF e 127 96 }

def packLedger (l : LedgerE) : BitVec 128 :=
  let f := fun (lo w v : Nat) => v % 2 ^ w * 2 ^ lo
  BitVec.ofNat 128 (f 0 12 l.gid + f 12 4 l.fmt + f 16 4 l.bfmt + f 20 9 (wrapInt l.eoff 9) + f 29 8 l.zp + f 37 16 l.satf +
    f 53 12 l.zerof + f 65 1 (b2n l.ovf) + f 66 16 l.streak + f 82 4 l.pol + f 86 2 l.stage + f 88 1 (b2n l.pend) +
    f 89 1 (b2n l.queued) + f 90 2 l.qage + f 92 4 l.pcnt + f 96 32 l.ahist)

def setPend (e : BitVec 128) (b : Bool) : BitVec 128 := packLedger { unpackLedger e with pend := b }

/-- Entry k of an amax history. -/
def ahistK (a k : Nat) : Nat := bits a (4 * k + 3) (4 * k)

-- policies (R237)

structure Policy where
  scale : Nat
  grad : Bool
  margin : Nat
  hlen : Nat
  lmax : Nat
  drift : Nat
  ladderT : Nat
  persist : Nat
  hushDrop : Nat
  hushN : Nat
  wcost : Nat
deriving DecidableEq, Repr

def policyOf (h : Hw) (q p : Nat) : Policy :=
  { scale := getF h (reeve1_POL_W0_SCALE p) q, grad := flag h (reeve1_POL_W0_GRAD p) q, margin := getF h (reeve1_POL_W0_MARGIN p) q
    hlen := getF h (reeve1_POL_W0_HLEN p) q, lmax := getF h (reeve1_POL_W0_LMAX p) q, drift := getF h (reeve1_POL_W0_DRIFT p) q
    ladderT := getF h (reeve1_POL_W1_LADDER_T p) q, persist := getF h (reeve1_POL_W1_PERSIST p) q
    hushDrop := getF h (reeve1_POL_W1_HUSH_DROP p) q, hushN := getF h (reeve1_POL_W2_HUSH_N p) q
    wcost := getF h (reeve1_POL_W2_WCOST p) q }

/-- The headroom of a format, where it has one (R238). -/
def fmtHeadroom (fmt zp : Nat) : Option Int :=
  if isQn fmt then some (Nat.log2 (max (2 ^ fmtWidth fmt - 1 - zp) zp) : Int)
  else if isShortFp fmt then some (fmtEmax fmt : Int)
  else none

/-- The format one step wider and its zero point (R239). -/
def widen (fmt zp : Nat) : Option (Nat × Nat) :=
  if isQn fmt then (if fmt = 8 then some (fmtW16, 0) else some (fmt + 1, (zp + 2 ^ (fmt - 1)) % 256))
  else if fmt = fmtF4 then some (fmtF6, 0)
  else if fmt = fmtF6 then some (fmtF8E, 0)
  else if fmt = fmtF8E ∨ fmt = fmtF8W then some (fmtW16, 0)
  else none

def clampI (x lo hi : Int) : Int := min (max x lo) hi

/-- Rebase a history to an exponent raised by `d` (R243). -/
def rebase (a : Nat) (d : Int) : Nat :=
  (List.range 8).foldl (fun r k =>
    let x := ahistK a k
    r + (if x = 8 then 8 else wrapInt (clampI (sext x 4 - d) (-7) 7) 4) * 2 ^ (4 * k)) 0

/-- The ladder metric (R243). -/
def ladderMetric (p : Policy) (e : LedgerE) : Nat := if p.scale ≠ 0 then e.satf else min (e.zerof * 16) 0xFFFF

/-- The largest listed exponent of the first `hlen` + 1 entries of a history. -/
def maxHist (a hlen : Nat) : Option Int :=
  ((List.range (hlen + 1)).map (ahistK a)).foldl (fun (m : Option Int) x =>
    if x = 8 then m else match m with | none => some (sext x 4) | some y => some (max y (sext x 4))) none

/-- The exponent step of `decide`: the entry and whether the exponent was clamped. -/
def decideExp (p : Policy) (hush : Bool) (e : LedgerE) : LedgerE × Bool :=
  match fmtHeadroom e.fmt e.zp with
  | none => (e, false)
  | some hr =>
    if p.scale = 0 then (e, false)
    else
      let e0 := match p.scale, maxHist e.ahist p.hlen with
        | 2, some m => e.eoff + m + 1 - hr + p.margin
        | _, _ => e.eoff
      let e1 := if e.ovf then max e0 (e.eoff + 1) else e0
      let e2 := if hush then min e1 (e.eoff - p.hushDrop) else e1
      let lim := decide (127 < e2) || decide (e2 < -127)
      let e3 := clampI e2 (-127) 127
      ({ e with ahist := rebase e.ahist (e3 - e.eoff), eoff := e3 }, lim)

/-- The ladder step of `decide`: the entry and the event it raises. -/
def decideLadder (p : Policy) (e : LedgerE) : LedgerE × List Nat :=
  if e.stage < p.lmax ∧ e.queued = false then
    let n := if p.ladderT < ladderMetric p e then min (e.pcnt + 1) 15 else 0
    if p.persist ≤ n then
      (if e.stage < 2 then ({ e with pcnt := 0, stage := e.stage + 1 }, [3])
        else if (widen e.fmt e.zp).isSome then ({ e with pcnt := 0, queued := true }, [])
        else ({ e with pcnt := 0 }, [8]))
    else ({ e with pcnt := n }, [])
  else (e, [])

/-- `decide` of R243 on a touched entry: the new entry and the events it raises. -/
def decideEntry (p : Policy) (e : LedgerE) (s : Counts) : LedgerE × List Nat :=
  let e := if 0 < s.total then { e with satf := min (s.sat * 65536 / s.total) 0xFFFF, zerof := min (s.zero * 4096 / s.total) 0xFFF }
    else { e with satf := 0, zerof := 0 }
  let e := { e with ovf := decide (0 < s.ovfb) }
  let d := if 0 < s.amax then wrapInt (clampI ((s.amax / 2 ^ 23 : Nat) - 127 - e.eoff) (-7) 7) 4 else 8
  let e := { e with ahist := (e.ahist * 16 + d) % 2 ^ 32 }
  let e := if 0 < s.nonz then { e with streak := 0 } else if 0 < s.zero then { e with streak := min (e.streak + 1) 65535 } else e
  let hush := p.grad && decide (p.hushN ≤ e.streak)
  let r := decideExp p hush e
  let e := r.1
  let evs := (if r.2 then [7] else []) ++ (if e.ovf then [1] else []) ++ (if hush then [2] else [])
  let e := if hush then { e with streak := 0 } else e
  let evs := evs ++ (if p.scale ≠ 0 ∧ p.drift < e.satf then [0] else [])
  let l := decideLadder p e
  (l.1, evs ++ l.2)

/-- A record is untouched (R243). -/
def untouched (s : Counts) : Bool := s.total == 0 && s.ovfb == 0

/-- The decide pass: entry index, new entry, events, for every touched entry in ascending index. -/
def decidePass (h : Hw) (q : Nat) (s : Sheet) : List (Nat × LedgerE × List Nat) :=
  (s.recs.filter (fun r => !untouched r.2)).map (fun r =>
    let e := unpackLedger (ledgerOf h q r.1)
    let d := decideEntry (policyOf h q e.pol) e r.2
    (r.1, { d.1 with pend := false }, d.2))

/-- a comes before b among the widening requests: age, then metric, then index (R244). -/
def reqBefore (h : Hw) (q : Nat) (a b : Nat × LedgerE) : Bool :=
  let ma := ladderMetric (policyOf h q a.2.pol) a.2
  let mb := ladderMetric (policyOf h q b.2.pol) b.2
  decide (b.2.qage < a.2.qage) ||
    (decide (a.2.qage = b.2.qage) && (decide (mb < ma) || (decide (ma = mb) && decide (a.1 < b.1))))

def insertReq (h : Hw) (q : Nat) (r : Nat × LedgerE) : List (Nat × LedgerE) → List (Nat × LedgerE)
  | [] => [r]
  | x :: xs => if reqBefore h q r x then r :: x :: xs else x :: insertReq h q r xs

/-- The grant pass over ordered requests: the changed entries with their events, and what has been used (R244). -/
def grantGo (h : Hw) (q budget : Nat) : List (Nat × LedgerE) → Nat → Bool → List (Nat × LedgerE × List Nat) × Nat
  | [], used, _ => ([], used)
  | (i, e) :: rs, used, stopped =>
    let c := (policyOf h q e.pol).wcost
    if stopped = false ∧ used + c ≤ budget then
      let w := (widen e.fmt e.zp).getD (e.fmt, e.zp)
      let r := grantGo h q budget rs (used + c) false
      ((i, { e with fmt := w.1, zp := w.2, stage := 3, queued := false, qage := 0 }, [4]) :: r.1, r.2)
    else
      let r := grantGo h q budget rs used true
      ((i, { e with qage := min (e.qage + 1) 3 }, [5]) :: r.1, r.2)

/-- Raise an event of a pass and capture the lowest entry that raised it (R246). -/
def raiseGroup (q ev entry : Nat) : Eff :=
  chain [whenE (fun h => decide (ev ≠ 6) && !flag h (reeve0_EVENT_GROUP_VALID ev) q)
      (chain [setF (reeve0_EVENT_GROUP_GROUP ev) q entry, setFlag (reeve0_EVENT_GROUP_VALID ev) q true]),
    raise .reeve0 q ev]

/-- The events of a pass, each once, with the lowest entry that raised it. -/
def passEvents (q : Nat) (l : List (Nat × LedgerE × List Nat)) : Eff :=
  forE (List.range 9) (fun ev =>
    match (l.filter (fun x => x.2.2.contains ev)).map (·.1) with
    | [] => skip
    | x :: xs => raiseGroup q ev (xs.foldl min x))

-- sheets

/-- `RANGE` (R240). -/
def inPlan (h : Hw) (q e : Nat) : Bool := decide (getF h reeve0_RANGE_LO q ≤ e) && decide (e ≤ getF h reeve0_RANGE_HI q)

/-- Fill in the `GID`s of a sheet's records from the ledger; an entry without a record has `GID` 0 and no counts (R232). -/
def withGids (h : Hw) (q : Nat) (s : Sheet) : Sheet :=
  let listed := (h.ledger.filter (fun kv => kv.1 / 16384 == q)).map (fun kv => (kv.1 % 16384, ledF kv.2 11 0))
  let recs := listed.foldl (fun rs x => if x.2 = 0 then rs else putRec x.1 {} rs) s.recs
  { s with recs := recs.map (fun r => (r.1, { r.2 with gid := ledF (ledgerOf h q r.1) 11 0 })) }

/-- The part of a sheet that a plan reduces, and the rest (R240, R241). -/
def planPart (h : Hw) (q : Nat) (s : Sheet) : Sheet :=
  { recs := s.recs.filter (fun r => inPlan h q r.1), peaks := s.peaks.filter (fun p => inPlan h q p.group) }
def restPart (h : Hw) (q : Nat) (s : Sheet) : Sheet :=
  { recs := s.recs.filter (fun r => !inPlan h q r.1), peaks := s.peaks.filter (fun p => !inPlan h q p.group) }

def recOf (s : Sheet) (e : Nat) : Counts := ((s.recs.find? (fun r => r.1 == e)).map (·.2)).getD {}

def cap64 (n : Nat) : Nat := min n (2 ^ 64 - 1)

/-- `merge` of R241 on one record. -/
def mergeCounts (a b : Counts) : Counts :=
  { gid := a.gid, total := cap64 (a.total + b.total), sat := cap64 (a.sat + b.sat), zero := cap64 (a.zero + b.zero)
    nonz := cap64 (a.nonz + b.nonz), ovfb := min (a.ovfb + b.ovfb) 0xFFFFFFFF, amax := max a.amax b.amax }

def putMerged (e : Nat) (c : Counts) : List (Nat × Counts) → List (Nat × Counts)
  | [] => [(e, mergeCounts {} c)]
  | x :: xs =>
    if e < x.1 then (e, mergeCounts {} c) :: x :: xs
    else if e = x.1 then (e, mergeCounts x.2 c) :: xs
    else x :: putMerged e c xs

/-- `merge` of R241: the sheet, the lowest entry whose `GID`s differ, and whether peak records were dropped. -/
def mergeSheets (a b : Sheet) : Sheet × Option Nat × Bool :=
  let idx := (a.recs.map (·.1)) ++ (b.recs.map (·.1))
  let bad := idx.filter (fun e => (recOf a e).gid != (recOf b e).gid)
  let peaks := b.peaks.foldl (fun ps p => putPeaks p ps) a.peaks
  ({ recs := b.recs.foldl (fun rs r => putMerged r.1 r.2 rs) a.recs, peaks := peaks.take 1024 },
    (match bad with | [] => none | x :: xs => some (xs.foldl min x)), decide (1024 < peaks.length))

/-- At a verdict edge the sheet closes; with `ENABLE` 0 it is discarded (R231, R252). -/
def closeSheet (q : Nat) : Eff := fun h =>
  let on := flag h reeve0_CTRL_ENABLE q
  chain [modQuarter q (fun x =>
      { x with
        deliveries := x.deliveries.map (fun d => { d with closing := true })
        closed := if on then x.closed ++ [(x.sheet, h.clk)] else x.closed
        sheet := {}
        due := if on then x.due + 1 else x.due
        shut := if on then x.shut + 1 else x.shut }),
    showReeve q] h

/-- Send a sheet to a node of the plan: a REDUCE_PUT message on the reduce channel, or through the gate inside the device (R241, R339). -/
def sendSheet (q dev dq : Nat) (final : Bool) (s : Sheet) : Eff := fun h =>
  let m := withPayload { typ := 3, sub := if final then 2 else 1, ddev := BitVec.ofNat 17 dev, dq := BitVec.ofNat 2 dq, dunit := 2 }
    (Config.sheetBytes s)
  let f := fillSource h q m
  chain [whenB (!h.bell.left && !asIfSent h q f && sendable h q f) (emit (.sheet q dev dq final s)), sendMsg q m] h

/-- The final sheet is held: it goes to the children and waits for its decision pass (R241, R243). -/
def holdFinal (q : Nat) (s : Sheet) : Eff := fun h =>
  let own := match (quarterX h q).closed with | x :: _ => restPart h q (withGids h q x.1) | [] => {}
  let peaks := own.peaks.foldl (fun ps p => putPeaks p ps) s.peaks
  let full : Sheet := { recs := own.recs.foldl (fun rs r => putMerged r.1 r.2 rs) (s.recs.filter (fun r => inPlan h q r.1)),
                        peaks := peaks.take 1024 }
  let full := { full with recs := full.recs.map (fun r => (r.1, { r.2 with gid := if inPlan h q r.1 then (recOf s r.1).gid else (recOf own r.1).gid })) }
  chain [forE (List.range (getF h reeve0_PLAN_CTRL q)) (fun k =>
      sendSheet q (getF h (reeve0_PLAN_CHILD_DEVICE k) q) (getF h (reeve0_PLAN_CHILD_QUARTER k) q) true s),
    modQuarter q (fun x =>
      { x with
        closed := x.closed.drop 1, accSheet := none, nextChild := 0, sentUp := false
        finals := x.finals ++ [full], lastFinal := full }),
    whenB (decide (1024 < peaks.length)) (raise .reeve0 q 12), showReeve q] h

/-- Merge one partial sheet of a child into the sum (R241, R242). -/
def mergeChild (q child : Nat) (sh : Sheet) : Eff := fun h =>
  let r := mergeSheets ((quarterX h q).accSheet.getD {}) sh
  chain [modQuarter q (fun x =>
      { x with accSheet := some r.1, nextChild := child + 1, partials := x.partials.erase (child, sh) }),
    whenB r.2.2 (raise .reeve0 q 12),
    (match r.2.1 with
      | none => skip
      | some e => chain [raiseGroup q 10 e, abandonQ ⟨.reeve0, q⟩ q])] h

/-- Merge the waiting partial sheets in the order of the children, once every delivery of the own sheet has landed. -/
def mergeReady (q : Nat) : Eff := fun h =>
  let x := quarterX h q
  match x.closed with
  | [] => []
  | s :: _ =>
    if x.deliveries.any (·.closing) then []
    else chain [whenB x.accSheet.isNone (modQuarter q (fun x => { x with accSheet := some (planPart h q (withGids h q s.1)) })),
      forE (List.range (getF h reeve0_PLAN_CTRL q)) (fun k => fun h =>
        let x := quarterX h q
        if x.nextChild ≠ k then []
        else match x.partials.find? (fun p => p.1 == k) with
          | none => []
          | some p => mergeChild q k p.2 h)] h

/-- SHEET_SEND (R241): the reduced sheet goes to the parent; at the root it is the final sheet. -/
def effSheetSend (q : Quarter) (t : Nat) : Eff := atClk t (chain [mergeReady q.val, fun h =>
  let i := q.val
  let x := quarterX h i
  match x.closed, x.accSheet with
  | s :: _, some acc =>
    if x.sentUp || h.bell.left || decide (h.clk < s.2 + 256) || decide (x.nextChild < getF h reeve0_PLAN_CTRL i) || quarterGone h i then []
    else if flag h reeve0_PLAN_PARENT_VALID i then
      chain [modQuarter i (fun x => { x with sentUp := true }),
        sendSheet i (getF h reeve0_PLAN_PARENT_DEVICE i) (getF h reeve0_PLAN_PARENT_QUARTER i) false acc] h
    else holdFinal i acc h
  | _, _ => []])

/-- The child of the plan that a message comes from (R240). -/
def childOf (h : Hw) (q : Nat) (m : Msg) : Option Nat :=
  (List.range (getF h reeve0_PLAN_CTRL q)).find? (fun k =>
    getF h (reeve0_PLAN_CHILD_DEVICE k) q == m.sdev.toNat && getF h (reeve0_PLAN_CHILD_QUARTER k) q == m.sq.toNat)

/-- A partial sheet at its destination: kept until its child's turn; one from no child of the plan, or for a reeve that is off, is of no use. -/
def deliverPartial (sh : Sheet) (q : Nat) (m : Msg) : Eff := fun h =>
  chain [incF pound_MSG_RX q,
    (match childOf h q m with
      | some k => whenB (flag h reeve0_CTRL_ENABLE q)
          (chain [modQuarter q (fun x => { x with partials := x.partials ++ [(k, sh)] }), mergeReady q])
      | none => skip)] h

/-- A final sheet at its destination, from the parent. -/
def deliverFinal (sh : Sheet) (q : Nat) (m : Msg) : Eff := fun h =>
  let parent := flag h reeve0_PLAN_PARENT_VALID q && getF h reeve0_PLAN_PARENT_DEVICE q == m.sdev.toNat &&
    getF h reeve0_PLAN_PARENT_QUARTER q == m.sq.toNat
  chain [incF pound_MSG_RX q,
    whenB (flag h reeve0_CTRL_ENABLE q && parent && (quarterX h q).sentUp) (holdFinal q sh)] h

/-- PARTIAL_SHEET (R241): the message, and the sheet that its payload spells. -/
def effPartialSheet (src : MsgSrc) (m : Msg) (sh : Sheet) (t : Nat) : Eff :=
  whenB ((m.typ == 3 && m.sub == 1) || !m.crcOk) (arrive src m t false (fun q => deliverPartial sh q m))

/-- FINAL_SHEET (R241). -/
def effFinalSheet (src : MsgSrc) (m : Msg) (sh : Sheet) (t : Nat) : Eff :=
  whenB ((m.typ == 3 && m.sub == 2) || !m.crcOk) (arrive src m t false (fun q => deliverFinal sh q m))

-- what the mill waits for (R303)

/-- A field of a 16-word entry of a mill table. -/
def lw (e w hi lo : Nat) : Nat := bits e (32 * w + hi) (32 * w + lo)

def lyQmask (e : Nat) : Nat := lw e 0 15 12
def lyLedger (e : Nat) : Nat := lw e 1 13 0

def maskQuarters (e : Nat) : List Nat := (List.range 4).filter (fun q => bit (lyQmask e) q)

/-- The lowest quarter of `QMASK`. -/
def lowQuarter (e : Nat) : Nat := (maskQuarters e).headD 0

/-- A ledger entry as decided, the shadow bank's while its exchange is pending, with `INFOK` of its policy. -/
def decidedEntry (h : Hw) (q e : Nat) : Nat × Bool :=
  let v := (shadowOf h q e).getD (ledgerOf h q e)
  (v.toNat, polInfok h q (ledF v 85 82))

/-- A decision pass of quarter q has completed: the layers that wait for it take their ledger entries as they now stand. -/
def serveMill (q : Nat) : Eff := fun h =>
  forE ((h.mlayerX.filter (fun kv => kv.2.pend && kv.2.led.isNone && lowQuarter kv.2.layer == q &&
      kv.2.ledNo == some (quarterX h q).passes)).map (·.1))
    (fun l => modLayerX l (fun x => { x with led := some (decidedEntry h q (lyLedger x.layer)) })) h

-- applying decisions

/-- DECISION_PASS_DONE (R243 to R246, R251): the exchange follows at the step bell, or in the clk after where the pass is late. -/
def effDecisionPassDone (q : Quarter) (t : Nat) : Eff := atClk t (fun h =>
  let i := q.val
  let x := quarterX h i
  match x.finals, x.decided with
  | s :: rest, none =>
    let d := decidePass h i s
    let reqs := (d.filter (fun x => x.2.1.queued)).map (fun x => (x.1, x.2.1))
    let g := grantGo h i (getF h reeve0_WIDEN_BUDGET i) (reqs.foldr (insertReq h i) []) (getF h reeve0_WIDEN_USED i) false
    let final := d.map (fun x => match g.1.find? (fun y => y.1 == x.1) with | some y => (y.1, y.2.1) | none => (x.1, x.2.1))
    let storm := decide (getF h reeve0_STORM_FRAC i * d.length < reqs.length * 65536)
    chain [
      passEvents i d, passEvents i g.1,
      setF reeve0_WIDEN_USED i g.2,
      whenB storm (chain [raise .reeve0 i 6, setFlag reeve0_STATUS_HOLD_REQ i true, askHold]),
      forE final (fun x => chain [fun _ => [.shadow (16384 * i + x.1) (some (packLedger x.2))],
        setLedger i x.1 (setPend (ledgerOf h i x.1) true)]),
      incF reeve0_SHEET_COUNT i,
      modQuarter i (fun x => { x with finals := rest, decided := some h.clk, passes := x.passes + 1 }), showReeve i, serveMill i] h
  | _, _ => [])

/-- The variant signals of quarter q (R248, R249). -/
def variantSignals (q : Nat) : Eff := fun h =>
  forE (List.range 256) (fun v => fun h =>
    if !flag h (reeve2_VAR_W0_EN v) q then []
    else
      let st := ledF (ledgerOf h q (getF h (reeve2_VAR_W0_GROUP v) q)) 87 86
      let sig := getF h (reeve2_VAR_W0_SIG v) q
      let cs := getF h (reeve2_VAR_W1 v) q
      forE ((List.range 16).filter (fun k => bit cs k)) (fun k => forE (List.range 4) (fun j =>
        whenB (decide (sig + j < 64)) (edgeSig (16 * q + k) (sig + j) (b2n (j == st))))) h) h

/-- What the reeve does at a step bell edge (R248, R251). -/
def reeveStep (q : Nat) : Eff := fun h =>
  if !flag h reeve0_CTRL_ENABLE q then []
  else
    chain [
      (match (quarterX h q).decided with
        | some c => chain [setF reeve0_DECIDE_MARGIN q (h.clk - c), exchangeBanks q]
        | none => skip),
      (fun h => if 0 < (quarterX h q).due then
          chain [modQuarter q (fun x => { x with late := x.due }), raise .reeve0 q 9, abandonQ ⟨.reeve0, q⟩ q] h else []),
      variantSignals q] h

/-- REEVE_ENABLE_WRITE (R236, R245). -/
def effReeveEnableWrite (q : Quarter) (v : Bool) : Eff := fun h =>
  let i := q.val
  if v then setFlag reeve0_CTRL_ENABLE i true h
  else
    let ks := (h.shadow.filter (fun kv => kv.1 / 16384 == i && kv.2.isSome)).map (fun kv => kv.1 % 16384)
    chain [setFlag reeve0_CTRL_ENABLE i false, setFlag reeve0_STATUS_HOLD_REQ i false,
      forE ks (fun e => chain [fun _ => [.shadow (16384 * i + e) none], setLedger i e (setPend (ledgerOf h i e) false)]),
      modQuarter i (fun x =>
        { x with
          closed := [], accSheet := none, nextChild := 0, sentUp := false, partials := [], finals := [], decided := none
          due := 0, late := 0, passes := x.shut }),
      showReeve i] h

/-- The twelve words of a record (R232). -/
def recordWords (c : Counts) : List Nat :=
  let pair := fun (v : Nat) => [v % 2 ^ 32, v / 2 ^ 32]
  [c.gid, c.ovfb] ++ pair c.total ++ pair c.sat ++ pair c.zero ++ pair c.nonz ++ [c.amax, 0]

/-- The words of a peak record at 0x084 to 0x0C4 (R256). -/
def peakWords (s : Sheet) (n : Nat) : List Nat :=
  match s.peaks.drop n with
  | [] => List.replicate 17 0
  | p :: _ => [p.group + p.croft * 2 ^ 16 + 2 ^ 31] ++ (List.range 8).flatMap (fun k => match p.peaks.drop k with
      | [] => [0, 0]
      | x :: _ => [x.mag + 2 ^ 31, x.chan])

/-- The record that `SHEET_SEL` or `PEAK_SEL` selects, and its words. -/
def sheetShown (h : Hw) (i : Nat) (peak : Bool) : Nat × List Nat :=
  let s := (quarterX h i).lastFinal
  if peak then (getF h reeve3_PEAK_SEL i, peakWords s (getF h reeve3_PEAK_SEL i))
  else (getF h reeve3_SHEET_SEL i, recordWords (recOf s (getF h reeve3_SHEET_SEL i)))

/-- The snapshot that a read of `SHEET_DATA0` or `PEAK_KEY` takes. -/
def sheetTouch (i : Nat) (peak : Bool) : Eff := fun h =>
  let x := sheetShown h i peak
  modQuarter i (fun q => if peak then { q with peakSnap := some x } else { q with sheetSnap := some x }) h

/-- SHEET_DATA_READ (R256): a read of `SHEET_DATA0` or `PEAK_KEY` takes a snapshot of its record. -/
def effSheetDataRead (q : Quarter) (peak : Bool) : Eff := fun h =>
  if quarterGone h q.val then emit (.regData 0) h
  else chain [sheetTouch q.val peak, emit (.regData (BitVec.ofNat 32 ((sheetShown h q.val peak).2.getD 0 0)))] h

-- meanings, one per command

/-- SHEET_SEND. -/
def execSheetSend (q : Quarter) (t : Nat) (s : State) : Host.Outcome State Fault Refusal :=
  run (effSheetSend q t) s

/-- PARTIAL_SHEET. -/
def execPartialSheet (src : MsgSrc) (m : Msg) (sh : Sheet) (t : Nat) (s : State) : Host.Outcome State Fault Refusal :=
  run (effPartialSheet src m sh t) s

/-- FINAL_SHEET. -/
def execFinalSheet (src : MsgSrc) (m : Msg) (sh : Sheet) (s : State) (t : Nat := 0) : Host.Outcome State Fault Refusal :=
  run (effFinalSheet src m sh t) s

/-- DECISION_PASS_DONE. -/
def execDecisionPassDone (q : Quarter) (t : Nat) (s : State) : Host.Outcome State Fault Refusal :=
  run (effDecisionPassDone q t) s

/-- REEVE_ENABLE_WRITE. -/
def execReeveEnableWrite (q : Quarter) (v : Bool) (s : State) : Host.Outcome State Fault Refusal :=
  run (byQuarter q.val (effReeveEnableWrite q v)) s

/-- SHEET_DATA_READ. -/
def execSheetDataRead (q : Quarter) (peak : Bool) (s : State) : Host.Outcome State Fault Refusal :=
  run (readBySoftware (effSheetDataRead q peak)) s

end Sys2Proof.Machine
end

