-- ==== Sys2Proof/Machine/Mill.lean ====
section
/-! DEFINITION. The mill (R284 to R319, R374, R375, R521): intake of gradient chunks, phase 1, phase 2, working weights, commits and
its signals. -/

namespace Sys2Proof.Machine

-- tables

def mLayer (h : Hw) (l : Nat) : Nat := (smGet (fun _ => 0) h.mlayers l).toNat
def mGroup (h : Hw) (g : Nat) : Nat := (smGet (fun _ => 0) h.mgroups g).toNat

def setLw (l w hi lo v : Nat) : Eff := fun h =>
  [.mlayers l (BitVec.ofNat 512 (putBits (mLayer h l) (32 * w + hi) (32 * w + lo) v))]

def lyGroup (e : Nat) : Nat := lw e 0 11 0
def lyWfmt (e : Nat) : Nat := lw e 0 19 16
def lyEn (e : Nat) : Bool := lw e 0 20 20 == 1
def lyActive (e : Nat) : Nat := lw e 0 21 21
def lyMbank (e : Nat) : Nat := lw e 0 22 22
def lyCdelay (e : Nat) : Nat := lw e 0 31 24
def lyRows (e : Nat) : Nat := lw e 3 23 0
def lyCols (e : Nat) : Nat := lw e 4 23 0
def lyT (e : Nat) : Nat := lw e 11 31 0
def lyState (e : Nat) : Nat := lw e 15 1 0
def lyN (e : Nat) : Nat := lyRows e * lyCols e
def grRule (g : Nat) : Nat := lw g 0 3 0
def grFrozen (g : Nat) : Bool := lw g 0 4 4 == 1

def setLyState (l s : Nat) : Eff := setLw l 15 1 0 s

/-- A binary32 word of a group entry. -/
def gf (g w : Nat) : Num := s32 (lw g w 31 0)

def up64 (x : Nat) : Nat := (x + 63) / 64 * 64
def up4k (x : Nat) : Nat := (x + 4095) / 4096 * 4096

/-- A value that is negative or not finite; −0 counts as 0 (R290). -/
def badVal (x : Num) : Bool := !isFin x || numLt x numZero

/-- A group entry is invalid (R290). -/
def groupBad (g : Nat) : Bool :=
  let inUnit := fun (x : Num) => isFin x && !numLt x numZero && numLt x numOne
  decide (4 ≤ grRule g) || !inUnit (gf g 3) || !inUnit (gf g 4) || !isFin (gf g 5) || !numLt numZero (gf g 5) ||
    [1, 2, 6, 7, 9, 10].any (fun w => badVal (gf g w))

/-- Bytes of one moment bank (R293). -/
def bankBytes (rule e : Nat) : Nat :=
  if rule = 1 then up64 (4 * lyN e) + up64 (4 * lyRows e) + up64 (4 * lyCols e) + 64 else 8 * lyN e

/-- The slow-tier regions of a layer: base and length in bytes (R293). -/
def slowRegions (rule e : Nat) : List (Nat × Nat) :=
  [(lw e 5 28 0 * 4096, 5 * lyN e), (lw e 6 28 0 * 4096, bankBytes rule e), (lw e 7 28 0 * 4096, bankBytes rule e)] ++
    (if rule = 3 then [(lw e 8 28 0 * 4096, 4 * lyRows e)] else [])

def lyJ (e : Nat) : Nat := (lyCols e + 31) / 32

/-- Bytes of a working buffer in a format of width n; a format without headers is S32 (R292, R294). -/
def bufBytes (e n : Nat) : Nat :=
  if lyWfmt e = 0xF then 4 * lyN e else up4k (lyRows e * lyJ e * 4 * n) + 2 * lyRows e * lyJ e

def hbmRegions (e : Nat) : List (Nat × Nat) := [(lw e 9 25 0 * 4096, bufBytes e 16), (lw e 10 25 0 * 4096, bufBytes e 16)]

def overlapAny (xs ys : List (Nat × Nat)) : Bool :=
  xs.any (fun a => ys.any (fun b => decide (0 < a.2) && decide (0 < b.2) && decide (a.1 < b.1 + b.2) && decide (b.1 < a.1 + a.2)))

/-- The layer's own region of the slow tier, in bytes; none with an invalid region table (R374, R375). -/
def ownRegion (h : Hw) : Option (Nat × Nat) :=
  h.mill.region.map (fun w => (w.getD 2 0 * 4096, w.getD 3 0 * 4096))

/-- R290 or R292 rejects layer l (R297). -/
def layerBad (h : Hw) (l : Nat) : Bool :=
  let e := mLayer h l
  let g := mGroup h (lyGroup e)
  let rule := grRule g
  let wf := lyWfmt e
  match ownRegion h with
  | none => true
  | some own =>
    !lyEn e || groupBad g || lyQmask e == 0 || !(wf == 0 || wf == 0xD || wf == 0xF) || lyCdelay e == 0 || lw e 1 21 16 == 63 ||
      lyRows e == 0 || lyCols e == 0 || decide (2 ^ 31 < lyN e) || (rule == 1 && decide (65536 < lyCols e)) ||
      (rule != 3 && lw e 8 28 0 != 0) ||
      (slowRegions rule e).any (fun r => decide (r.1 < own.1) || decide (own.1 + own.2 < r.1 + r.2)) ||
      (hbmRegions e).any (fun r => decide (hbmD < r.1 + r.2)) ||
      h.mlayers.any (fun kv =>
        let e' := kv.2.toNat
        kv.1 != l &&
          (overlapAny (slowRegions rule e) (slowRegions (grRule (mGroup h (lyGroup e'))) e') ||
            (decide (lyQmask e &&& lyQmask e' ≠ 0) && overlapAny (hbmRegions e) (hbmRegions e'))))

-- status, faults

def millPage : Page := ⟨.mill, 0⟩

/-- `STATUS.PHASE1` and `PHASE2` (R319). -/
def showMill : Eff := fun h =>
  chain [setFlag mill_STATUS_PHASE1 0 (h.mlayers.any (fun kv => lyState kv.2.toNat == 1)), setFlag mill_STATUS_PHASE2 0 h.mill.p2run.isSome] h

/-- `FAULT_LAYER` captures the first event of R319. -/
def captureLayer (ev l : Nat) : Eff := whenE (fun h => !flag h mill_FAULT_LAYER_VALID 0)
  (chain [setF mill_FAULT_LAYER_LAYER 0 l, setF mill_FAULT_LAYER_EVENT 0 ev, setFlag mill_FAULT_LAYER_VALID 0 true])

/-- A mill event about a layer. -/
def millEvent (ev l : Nat) : Eff := chain [captureLayer ev l, raise .mill 0 ev]

/-- A mill event that abandons the step (R267, R297). -/
def millAbandon (ev l : Nat) : Eff := chain [millEvent ev l, abandonGate millPage]

/-- The mill asks for a hold at the next step bell (R306, R521). -/
def millHold : Eff := chain [setFlag mill_STATUS_HOLD_REQ 0 true, askHold]

/-- Words 0 to 8 of the region table, where it is valid (R374, R375). -/
def readRegion (h : Hw) : Option (List Nat) :=
  let ws := (List.range 9).map (fun k => rdNat h .slow (4 * k) 4)
  let w := fun (k : Nat) => ws.getD k 0
  let regs := [(w 2, w 3), (w 4, w 5), (w 6, w 7)]
  let pair := fun (a b : Nat × Nat) => !(decide (0 < a.2) && decide (0 < b.2) && decide (a.1 < b.1 + b.2) && decide (b.1 < a.1 + a.2))
  if w 0 = 1 ∧ w 1 = 0 ∧ (rdBytes h .slow 36 4060).all (· == 0) ∧ w 8 &&& 0x7FFE0000 = 0 ∧
      regs.all (fun r => decide (r.1 < 2 ^ 29) && decide (r.2 < 2 ^ 29) && decide (r.1 % 512 = 0) && decide (r.2 % 512 = 0) &&
        (decide (r.2 = 0) || (decide (512 ≤ r.1) && decide (r.1 + r.2 ≤ 402653184)))) ∧
      pair (w 2, w 3) (w 4, w 5) ∧ pair (w 2, w 3) (w 6, w 7) ∧ pair (w 4, w 5) (w 6, w 7) then some ws else none

/-- The layers that have a table entry other than all zeros, ascending. -/
def listedLayers (h : Hw) : List Nat := h.mlayers.map (·.1)

/-- A layer's attempt ends: the layer returns to `STATE` 0 and its accumulators are discarded (R302, R314). -/
def closeLayer (l : Nat) : Eff := chain [setLyState l 0, modLayerX l (fun _ => {}), fun _ => [.drop .millSums (65536 * l) (65536 * l + 65536)]]

/-- Layers open in this attempt that no kept update holds. -/
def openLayers (h : Hw) : List Nat := (listedLayers h).filter (fun l => (mlayerXOf h l).opened && !(mlayerXOf h l).pend)

/-- The buddy region of a region table holds a complete copy of its `BUDDY_DEV` (R432, R448). -/
def copyHeld (h : Hw) (r : Option (List Nat)) : Bool :=
  match r with
  | none => false
  | some w =>
    let a := w.getD 4 0 * 4096
    bit (w.getD 8 0) 31 && decide (0 < w.getD 5 0) && rdNat h .slow (a + 4) 4 == 2 && rdNat h .slow (a + 36) 4 == bits (w.getD 8 0) 16 0 &&
      rdNat h .slow (a + 48) 4 == crc32c (rdBytes h .slow a 48)

/-- MILL_ENABLE_WRITE (R319, R374). -/
def effMillEnableWrite (v : Bool) : Eff := fun h =>
  if v then
    (if flag h mill_CTRL_ENABLE 0 then []
      else chain [setFlag mill_CTRL_ENABLE 0 true, modMill (fun m => { m with region := readRegion h }),
        setFlag mill_GRAN_STATUS_BUDDY_VALID 0 (copyHeld h (readRegion h) && !h.mill.lost)] h)
  else
    chain [setFlag mill_CTRL_ENABLE 0 false, forE (openLayers h) closeLayer, modMill (fun m => { m with held := [], dead := false, rowsTouched := 0, stalled := [] }),
      showMill] h

-- intake

/-- A chunk on its way from the pounds has been taken. -/
def dropToMill (tag : Nat) : Eff := fun h =>
  match (List.range 4).find? (fun q => (quarterX h q).toMill.any (fun c => c.tag == tag)) with
  | none => []
  | some q => modQuarter q (fun x => match x.toMill.find? (fun c => c.tag == tag) with
    | some c => { x with toMill := x.toMill.erase c }
    | none => x) h

def openCount (h : Hw) (factored : Bool) : Nat :=
  ((openLayers h).filter (fun l => lyState (mLayer h l) == 1 && (!factored || grRule (mlayerXOf h l).group == 1))).length

/-- Too many layers are open for layer l to be opened as well (R296). -/
def openStalls (h : Hw) (l : Nat) : Bool :=
  !(mlayerXOf h l).opened && (decide (256 ≤ openCount h false) ||
    (grRule (mGroup h (lyGroup (mLayer h l))) == 1 && decide (16 ≤ openCount h true)))

/-- The mill does not accept a chunk of layer l: its reorder buffer is full, or too many layers are open (R296). -/
def millStalls (h : Hw) (l : Nat) : Bool := decide (131072 ≤ h.mill.held.length) || openStalls h l

/-- Link k still waits with a chunk that was turned away (R296). -/
def linkWaits (h : Hw) (k : Nat) : Bool := h.mill.stalled.any (fun s => s.1 == k && millStalls h s.2)

/-- Place a chunk in the reorder buffer. -/
def holdChunk (c : HeldChunk) : Eff := chain [modMill (fun m => { m with held := m.held ++ [c] }),
  look (fun h => h.mill.held.length) (fun n => peakF mill_REORDER_PEAK 0 n)]

def isNanInf (code : Nat) : Bool := bits code 14 7 == 255

/-- Chunks of a dense layer. -/
def chunkCount (e : Nat) : Nat := (lyN e + 127) / 128

/-- Elements of a chunk that lie within the layer or the embedding row (R295). -/
def chunkLen (e : Nat) (emb : Bool) (unit sub : Nat) : Nat :=
  if emb then (if lyRows e ≤ unit then 0 else min 128 (lyCols e - 128 * sub)) else min 128 (lyN e - 128 * unit)

/-- The first chunk of an attempt opens the layer: the entries are taken as they stand (R288, R296). -/
def openLayer (l : Nat) : Eff := fun h =>
  let e := mLayer h l
  chain [modLayerX l (fun _ => { opened := true, layer := e, group := mGroup h (lyGroup e) }),
    (fun _ => [.drop .millSums (65536 * l) (65536 * l + 65536)]), setLyState l 1, showMill] h

/-- A chunk of an open layer (R297). -/
def openChunk (l unit sub : Nat) (data : List Nat) : Eff := fun h =>
  let x := mlayerXOf h l
  let emb := grRule x.group == 3
  let n := chunkLen x.layer emb unit sub
  let key := if emb then (unit, sub) else (unit, 0)
  let note := modLayerX l (fun x => if x.got.contains key then x
    else { x with got := key :: x.got, recv := x.recv + b2n (decide (unit < chunkCount x.layer)) })
  if x.stopped then chain [note, incF mill_CHUNKS_IN 0] h
  else if x.got.contains key then millAbandon 4 l h
  else
    let newRow := emb && decide (0 < n) && !x.touched.any (fun r => r.1 == unit)
    if newRow && decide (4194304 ≤ h.mill.rowsTouched) then millAbandon 11 l h
    else
      chain [note,
        (if n = 0 then incF mill_CHUNKS_IN 0
          else if (data.take n).any isNanInf then
            chain [modLayerX l (fun x => { x with stopped := true }), setLyState l 0,
              modMill (fun m => { m with held := m.held.filter (fun c => c.layer != l) }), showMill, millAbandon 0 l]
          else chain [whenB newRow (chain [modLayerX l (fun x => { x with touched := x.touched ++ [(unit, 0)] }),
              modMill (fun m => { m with rowsTouched := m.rowsTouched + 1 })]),
            setLyState l 1, showMill, holdChunk { layer := l, unit := unit, sub := sub, data := data }])] h

/-- A chunk of a layer of a frozen group is consumed uninspected; one direct record names the group (R312). -/
def frozenChunk (g : Nat) : Eff := fun h =>
  chain [incF mill_CHUNKS_IN 0, incF mill_FROZEN_HITS 0,
    whenB (!h.mill.frozenGroups.contains g) (chain [modMill (fun m => { m with frozenGroups := g :: m.frozenGroups }),
      raise .mill 0 5, millRecord 5 0 g])] h

/-- A chunk that the mill has accepted (R297). -/
def takeChunk (l unit sub : Nat) (data : List Nat) : Eff := fun h =>
  let x := mlayerXOf h l
  let e := mLayer h l
  if !x.opened && !x.pend && layerBad h l then millAbandon 10 l h
  else if !x.opened && grFrozen (mGroup h (lyGroup e)) then frozenChunk (lyGroup e) h
  else if h.mill.closed then millAbandon 2 l h
  else if x.pend then holdChunk { layer := l, unit := unit, sub := sub, data := data, future := true } h
  else if x.opened then openChunk l unit sub data h
  else chain [openLayer l, openChunk l unit sub data] h

/-- The chunks that waited in the reorder buffer for layer l are taken, unless too many layers are open (R296). -/
def takeHeld (l : Nat) : Eff := fun h =>
  if openStalls h l then []
  else chain [modMill (fun m => { m with held := m.held.filter (fun c => !(c.layer == l && c.future)) }),
    forE (h.mill.held.filter (fun c => c.layer == l && c.future)) (fun c => takeChunk l c.unit c.sub c.data)] h

/-- Layers whose chunks wait only for another layer's phase 1 to complete. -/
def waitingLayers (h : Hw) : List Nat :=
  ((h.mill.held.filter (fun c => c.future && !(mlayerXOf h c.layer).pend)).map (·.layer)).eraseDups

/-- CHUNK (R285, R295 to R297): on the mill link of its layer, unless that link stalls. -/
def effChunk (tag : BitVec 64) (data : List (BitVec 16)) (t : Nat) : Eff := atClk t (fun h =>
  let w := tag.toNat
  let l := bits w 12 0
  if !flag h mill_CTRL_ENABLE 0 then dropToMill w h
  else match millLink h l with
    | none => []
    | some k =>
      if h.mill.lost || linkWaits h k then []
      else if millStalls h l then modMill (fun m => { m with stalled := (k, l) :: m.stalled.filter (fun s => s.1 != k) }) h
      else chain [modMill (fun m => { m with stalled := m.stalled.filter (fun s => s.1 != k) }), dropToMill w,
        takeChunk l (bits w 47 16) (bits w 63 48) (data.map (·.toNat))] h)

-- phase 1

def slow32 (h : Hw) (a : Nat) : Num := s32 (rdNat h .slow a 4)

def putSlow (a : Nat) (v : Num) : Eff := wrNat .slow a 4 (toS32 v)

def fAdd (a b : Num) : Num := rnd32 (numAdd a b)
def fSub (a b : Num) : Num := rnd32 (numSub a b)
def fMul (a b : Num) : Num := rnd32 (numMul a b)
def fDiv (a b : Num) : Num := rnd32 (numDiv a b)
def fSqrt (a : Num) : Num := rnd32 (numSqrt a)
def fNat (n : Nat) : Num := rnd32 (ofInt n)

/-- `pow_s32` of R299, structurally on the bits of t. -/
def powGo : Nat → Num → Num → Nat → Num
  | 0, p, _, _ => p
  | k + 1, p, x, t =>
    if t = 0 then p
    else
      let p := if t % 2 = 1 then fMul p x else p
      powGo k p (if 0 < t / 2 then fMul x x else x) (t / 2)

def powS32 (b : Num) (t : Nat) : Num := powGo 48 numOne b t

/-- 1 − b^t, rounded (R300, R304). -/
def biasCorr (b : Num) (t : Nat) : Num := fSub numOne (powS32 b t)

/-- `dir` of R299. -/
def dirOf (m v bc1 bc2 eps : Num) : Num := fDiv (fDiv m bc1) (fAdd (fSqrt (fDiv v bc2)) eps)

/-- The exact smaller and larger operand (R298). -/
def minNum (a b : Num) : Num := if numLt b a then b else a
def maxNum (a b : Num) : Num := if numLt a b then b else a

/-- `grad` of R299. -/
def gradOf (g code : Nat) : Num :=
  let x := decodeFp fmtW16 code
  let c := gf g 7
  if numLt numZero c then minNum (maxNum x (negate c)) c else x

/-- Base of moment bank b. -/
def momBase (e b : Nat) : Nat := (if b = 0 then lw e 6 28 0 else lw e 7 28 0) * 4096

def rowStat (e base r : Nat) : Nat := base + up64 (4 * lyN e) + 4 * r
def colStat (e base c : Nat) : Nat := base + up64 (4 * lyN e) + up64 (4 * lyRows e) + 4 * c
def srowAddr (e base : Nat) : Nat := base + up64 (4 * lyN e) + up64 (4 * lyRows e) + up64 (4 * lyCols e)

/-- `phase1_adaptive` (R300). -/
def phase1Adaptive (l i code : Nat) : Eff := fun h =>
  let x := mlayerXOf h l
  let e := x.layer
  let g := x.group
  let a0 := momBase e (lyMbank e) + 8 * i
  let a1 := momBase e (1 - lyMbank e) + 8 * i
  let gr := gradOf g code
  let m1 := fAdd (fMul (gf g 3) (slow32 h a0)) (fMul (fSub numOne (gf g 3)) gr)
  let v1 := fAdd (fMul (gf g 4) (slow32 h (a0 + 4))) (fMul (fSub numOne (gf g 4)) (fMul gr gr))
  let t := lyT e + 1
  chain [putSlow a1 m1, putSlow (a1 + 4) v1,
    whenB (grRule g == 2) (modLayerX l (fun x =>
      let u := dirOf m1 v1 (biasCorr (gf g 3) t) (biasCorr (gf g 4) t) (gf g 5)
      { x with un2 := toS32 (fAdd (s32 x.un2) (fMul u u)) }))] h

/-- `phase1_factored` (R300). -/
def phase1Factored (l i code : Nat) : Eff := fun h =>
  let x := mlayerXOf h l
  let e := x.layer
  let g := x.group
  let cols := lyCols e
  let r := i / cols
  let c := i % cols
  let b0 := momBase e (lyMbank e)
  let b1 := momBase e (1 - lyMbank e)
  let gr := gradOf g code
  let q := fAdd (fMul gr gr) (gf g 9)
  let rs := fAdd (s32 x.rs) q
  let cs := fAdd (s32 (smGet (fun _ => 0) h.millSums (65536 * l + c))) q
  let m1 := fAdd (fMul (gf g 3) (slow32 h (b0 + 4 * i))) (fMul (fSub numOne (gf g 3)) gr)
  let r1 := fAdd (fMul (gf g 4) (slow32 h (rowStat e b0 r))) (fMul (fSub numOne (gf g 4)) (fDiv rs (fNat cols)))
  let last := decide (c + 1 = cols)
  chain [putSlow (b1 + 4 * i) m1, (fun _ => [.millSums (65536 * l + c) (toS32 cs)]),
    whenB last (putSlow (rowStat e b1 r) r1),
    modLayerX l (fun x => if last then { x with rs := 0, srow := toS32 (fAdd (s32 x.srow) r1) } else { x with rs := toS32 rs })] h

/-- The next chunk of a layer that is in order (R296). -/
def nextChunk (h : Hw) (l : Nat) : Option HeldChunk :=
  let x := mlayerXOf h l
  h.mill.held.find? (fun c => c.layer == l && !c.future &&
    (if grRule x.group = 3 then x.touched.contains (c.unit, c.sub) else c.unit == x.next))

/-- CHUNK_CONSUME (R296, R300): phase 1 consumes the next chunk in order. -/
def effChunkConsume (l : Nat) : Eff := fun h =>
  let x := mlayerXOf h l
  if !millOn h || x.stopped || x.pend || !x.opened then []
  else match nextChunk h l with
    | none => []
    | some c =>
      let emb := grRule x.group == 3
      let base := if emb then c.unit * lyCols x.layer + 128 * c.sub else 128 * c.unit
      let n := chunkLen x.layer emb c.unit c.sub
      chain [modMill (fun m => { m with held := m.held.erase c }), incF mill_CHUNKS_IN 0,
        forE (List.range n) (fun k => if grRule x.group = 1 then phase1Factored l (base + k) (c.data.getD k 0)
          else phase1Adaptive l (base + k) (c.data.getD k 0)),
        modLayerX l (fun x =>
          if emb then { x with touched := x.touched.map (fun r => if r.1 = c.unit then (r.1, r.2 + 1) else r) }
          else { x with next := x.next + 1 })] h

/-- The column statistics and `SROW` at the end of a factored layer (R300). -/
def endFactored (l : Nat) : Eff := fun h =>
  let x := mlayerXOf h l
  let e := x.layer
  let g := x.group
  let b0 := momBase e (lyMbank e)
  let b1 := momBase e (1 - lyMbank e)
  chain [forE (List.range (lyCols e)) (fun c => fun h =>
      let cs := s32 (smGet (fun _ => 0) h.millSums (65536 * l + c))
      putSlow (colStat e b1 c) (fAdd (fMul (gf g 4) (slow32 h (colStat e b0 c)))
        (fMul (fSub numOne (gf g 4)) (fDiv cs (fNat (lyRows e))))) h),
    putSlow (srowAddr e b1) (s32 x.srow)] h

/-- ns of module clk. -/
def clkNs (c : Nat) : Nat := c * 5 / 6

/-- Every chunk that has arrived of a layer has been consumed, and a dense layer has received all of them. -/
def phase1Ready (h : Hw) (l : Nat) : Bool :=
  let x := mlayerXOf h l
  x.opened && !x.pend && !x.stopped && lyState (mLayer h l) == 1 && !h.mill.held.any (fun c => c.layer == l) &&
    (grRule x.group == 3 || decide (chunkCount x.layer ≤ x.next))

def finishPhase1 (l : Nat) : Eff := fun h =>
  chain [whenB (grRule (mlayerXOf h l).group == 1) (endFactored l), setLyState l 2, setF mill_PHASE1_CLK 0 (clkNs (h.clk - h.mill.stepClk)),
    showMill, whenB (!h.mill.closed) (look waitingLayers (fun ls => forE ls takeHeld))] h

/-- PHASE1_DONE (R301). -/
def effPhase1Done (l t : Nat) : Eff := atClk t (fun h => if millOn h && phase1Ready h l then finishPhase1 l h else [])

-- phase 2

/-- `sched` of R299. -/
def schedOf (g s : Nat) : Num :=
  let lr := gf g 1
  let warm := lw g 0 31 8
  let ds := lw g 8 31 0
  match lw g 0 6 5 with
  | 0 => lr
  | k =>
    if s < warm then fMul lr (fDiv (fNat (s + 1)) (fNat warm))
    else if k = 1 then lr
    else if k = 2 then
      (if ds = 0 ∨ warm + ds ≤ s then gf g 2
        else fAdd lr (fMul (fDiv (fNat (s - warm)) (fNat ds)) (fSub (gf g 2) lr)))
    else fMul lr (fSqrt (fDiv (fNat (max warm 1)) (fNat (s + 1))))

def w32 (x : Nat) : Nat := x % 2 ^ 32
def rotl (x n : Nat) : Nat := w32 ((x <<< n) ||| (x >>> (32 - n)))

/-- The rounds of `gen` (R305). -/
def genRounds : Nat → Nat → Nat → Nat → Nat → Nat → Nat → Nat → Nat
  | 0, _, x0, x1, x2, x3, _, _ => x0 ^^^ x1 ^^^ x2 ^^^ x3
  | n + 1, rnd, x0, x1, x2, x3, k0, k1 =>
    let x0 := w32 (x0 + rotl x1 5 + k0)
    let x3 := rotl (x3 ^^^ x0) 11
    let x2 := w32 (x2 + x3 + k1 + rnd)
    let x1 := rotl (x1 ^^^ x2) 19
    let x0 := w32 (x0 + x2)
    let x3 := rotl (x3 ^^^ x1) 23
    genRounds n (rnd + 1) x0 x1 x2 x3 (w32 (k0 + 0x9E3779B9)) k1

/-- `gen` of R305. -/
def genRandom (seed s a p : Nat) : Nat :=
  genRounds 10 0 (bits p 31 0) (bits p 47 32 ||| (a % 65536 * 65536)) (bits s 31 0) (bits s 47 32 ||| 0xA53C0000) (bits seed 31 0)
    (bits seed 63 32)

/-- The trust ratio (R304). -/
def phiOf (e g un2 : Nat) : Num :=
  let w := s32 (lw e 12 31 0)
  let u := s32 un2
  let phi := if numLt numZero w && numLt numZero u then fDiv (fSqrt w) (fSqrt u) else numOne
  if numLt numZero (gf g 10) then minNum phi (gf g 10) else phi

/-- The master of element i. -/
def masterAddr (e i : Nat) : Nat := lw e 5 28 0 * 4096 + 5 * i
def masterOf (h : Hw) (e i : Nat) : Num := decodeFp fmtM40 (rdNat h .slow (masterAddr e i) 5)

/-- The parameter index of element 0 (R291). -/
def pidxOf (e : Nat) : Nat := lw e 13 31 0 + lw e 14 15 0 * 2 ^ 32

/-- Phase 2 on one element (R304, R306). -/
def phase2Elem (l : Nat) (bc1 bc2 lr phi : Num) (i : Nat) : Eff := fun h =>
  let x := mlayerXOf h l
  let e := x.layer
  let g := x.group
  let b1 := momBase e (1 - lyMbank e)
  let u := if grRule g = 1 then
      dirOf (slow32 h (b1 + 4 * i))
        (fDiv (fMul (slow32 h (rowStat e b1 (i / lyCols e))) (slow32 h (colStat e b1 (i % lyCols e))))
          (fDiv (slow32 h (srowAddr e b1)) (fNat (lyRows e)))) bc1 bc2 (gf g 5)
    else dirOf (slow32 h (b1 + 8 * i)) (slow32 h (b1 + 8 * i + 4)) bc1 bc2 (gf g 5)
  let u := if grRule g = 2 then fMul phi u else u
  let w := masterOf h e i
  let delta := fMul lr (fAdd u (fMul (gf g 6) (rnd32 w)))
  if !isFin delta then chain [incF mill_NONFINITE_COUNT 0, millEvent 7 l, millHold] h
  else
    let seed := getF h mill_SEED_LO 0 + getF h mill_SEED_HI 0 * 2 ^ 32
    let r := srM40 (numSub w delta) (genRandom seed x.step x.attempt ((pidxOf e + i) % 2 ^ 48))
    let n := rnd32 r.1
    chain [wrNat .slow (masterAddr e i) 5 (encodeLong fmtM40 r.1),
      whenB r.2 (chain [incF mill_MASTER_SAT_COUNT 0, millEvent 6 l]),
      whenB (grRule g == 2) (modLayerX l (fun x => { x with wn := toS32 (fAdd (s32 x.wn) (fMul n n)) }))] h

/-- What the accesses to quarter q find, among findings listed by quarter. -/
def ofQuarter (reads : List (Quarter × MemErr)) (q : Nat) : List MemErr := (reads.filter (fun x => x.1.val == q)).map (·.2)

/-- A write of the mill into a quarter's HBM, with the read half of its partial words; the gate counts one to a quarter that is gone (R48,
R317, R362). -/
def millWrite (q a : Nat) (bs : List Byte) (errs : List MemErr) : Eff := fun h =>
  if quarterGone h q then incF (paths_DISCARD q) 0 h else chain [eccWrite 2 q (16 * q) a bs.length errs, hbmWrite q a bs] h

/-- The slot of tile t of quarter q's HBM is written from the tile's contents, which are read (R217, R294); the slot of a tile with a poisoned
line keeps its contents (R364). -/
def millSeal (q t : Nat) (errs : List MemErr) : Eff :=
  let seen := [(4096 * t, 4096)]
  andThen (eccRead 2 q (16 * q) seen errs) (fun h =>
    if (poisonedIn h 2 q seen).isEmpty && (ueLines (errsIn errs 2 seen)).isEmpty then slotWrite q (16 * q) t (tileCrc h 2 q 0 t) errs h else [])

/-- Phase 2 meets a quarter that is gone: the device is failed (R317). -/
def phase2Gone (q : Nat) : Eff := whenE (fun h => quarterGone h q) failDevice

/-- A block of the working copy: header, codes, counts (R307, R227). -/
def workBlock (fm e8 z : Nat) (infok : Bool) (xs : List Num) : OutBlock := stage3 fm false e8 z infok xs

/-- The working copy of row r into buffer b (R294, R307). -/
def workRow (l fm e8 z : Nat) (infok : Bool) (b : Nat) (reads : List (Quarter × MemErr)) (r : Nat) : Eff := fun h =>
  let e := (mlayerXOf h l).layer
  let n := fmtWidth fm
  let j := lyJ e
  let cols := lyCols e
  let xs := (List.range cols).map (fun c => masterOf h e (r * cols + c))
  let blocks := (List.range j).map (fun k =>
    let ys := (xs.drop (32 * k)).take 32
    workBlock fm e8 z infok (if fm = fmtS32 then ys else ys ++ List.replicate (32 - ys.length) numZero))
  let codes := blocks.flatMap (·.codes)
  let hb := lw e (if b = 0 then 9 else 10) 25 0 * 4096
  let pay := if fm = fmtS32 then leBytes (4 * cols) (packCodes 32 codes) else leBytes (4 * n * j) (packCodes n codes)
  let pa := if fm = fmtS32 then hb + 4 * r * cols else hb + r * j * 4 * n
  let ha := hb + up4k (lyRows e * j * 4 * n) + 2 * r * j
  let nanB := fun (o : OutBlock) => o.nanBlock && isQn fm
  let sat := (blocks.map (fun o => if nanB o then 0 else countTrue o.sat)).sum
  let zero := (blocks.map (fun o => if nanB o then 0 else countTrue o.zeroed)).sum
  let nonz := (blocks.map (fun o => if o.nanBlock then 32 else countTrue (o.codes.map (nonzeroCode fm z)))).sum
  let amax := (xs.map (fun x => match x with
    | .fin _ _ _ => encodeLong fmtS32 (absNum (rneLong x fmtS32 false).1)
    | _ => 0)).foldl max 0
  chain [forE (maskQuarters e) (fun q => chain [phase2Gone q, millWrite q pa pay (ofQuarter reads q),
      whenB (decide (fm ≠ fmtS32)) (millWrite q ha (blocks.flatMap (fun o => leBytes 2 o.hdr)) (ofQuarter reads q))]),
    addF mill_WSAT_COUNT 0 sat, addF mill_WZERO_COUNT 0 zero,
    modLayerX l (fun x => { x with cnt :=
      { gid := lyLedger e, total := x.cnt.total + 32 * j, sat := x.cnt.sat + sat, zero := x.cnt.zero + zero
        nonz := x.cnt.nonz + nonz, amax := max x.cnt.amax amax } })] h

/-- Seal the tiles that row r's payload and headers touch in buffer b (R294). -/
def sealRow (l fm b : Nat) (reads : List (Quarter × MemErr)) (r : Nat) : Eff := fun h =>
  let e := (mlayerXOf h l).layer
  let n := fmtWidth fm
  let j := lyJ e
  let hb := lw e (if b = 0 then 9 else 10) 25 0 * 4096
  let pay := if fm = fmtS32 then (hb + 4 * r * lyCols e, 4 * lyCols e) else (hb + r * j * 4 * n, 4 * n * j)
  let hdr := if fm = fmtS32 then [] else [(hb + up4k (lyRows e * j * 4 * n) + 2 * r * j, 2 * j)]
  let tiles := (pay :: hdr).flatMap (fun s => (List.range ((s.1 + s.2 - 1) / 4096 + 1 - s.1 / 4096)).map (· + s.1 / 4096))
  forE (maskQuarters e) (fun q => chain [phase2Gone q, forE tiles (fun t => fun h =>
    if quarterGone h q then incF (paths_DISCARD q) 0 h else millSeal q t (ofQuarter reads q) h)]) h

/-- The ledger entry and `INFOK` of R303; none while the decision pass it waits for has not completed. A pass that never will, because its
reeve was turned off or its quarter reset, is not waited for. -/
def millLedger (h : Hw) (l : Nat) : Option (BitVec 128 × Bool) :=
  let x := mlayerXOf h l
  let q := lowQuarter x.layer
  let y := quarterX h q
  match x.led, x.ledNo with
  | some v, _ => some (BitVec.ofNat 128 v.1, v.2)
  | none, some n =>
    if n ≤ y.passes ∨ y.shut < n then
      let v := decidedEntry h q (lyLedger x.layer)
      some (BitVec.ofNat 128 v.1, v.2)
    else none
  | none, none => none

/-- The rows that phase 2 writes: all of a dense layer, the touched ones of an embedding layer in ascending order. -/
def phase2Rows (x : MillLayerX) : List Nat :=
  if grRule x.group = 3 then insertAll (x.touched.map (·.1)) else List.range (lyRows x.layer)
where
  insertNat (a : Nat) : List Nat → List Nat
    | [] => [a]
    | b :: bs => if a ≤ b then a :: b :: bs else b :: insertNat a bs
  insertAll (l : List Nat) : List Nat := l.foldr insertNat []

/-- The masters of one row (R304, R313). -/
def phase2Row (l r : Nat) (lr phi : Num) : Eff := fun h =>
  let x := mlayerXOf h l
  let e := x.layer
  let g := x.group
  let cols := lyCols e
  if grRule g = 3 then
    let ra := lw e 8 28 0 * 4096 + 4 * r
    let t := min (rdNat h .slow ra 4 + 1) 0xFFFFFFFF
    chain [forE (List.range cols) (fun c => phase2Elem l (biasCorr (gf g 3) t) (biasCorr (gf g 4) t) lr phi (r * cols + c)),
      wrNat .slow ra 4 t] h
  else forE (List.range cols) (fun c => phase2Elem l (biasCorr (gf g 3) (lyT e + 1)) (biasCorr (gf g 4) (lyT e + 1)) lr phi (r * cols + c)) h

/-- The working format of a layer with its exponent, zero point and infinity bit: from `WFMT`, or from the ledger. -/
def workFormat (e : Nat) (led : BitVec 128 × Bool) : Nat × Nat × Nat × Bool :=
  if lyWfmt e = 0 then (ledF led.1 15 12, e8Of led.1, ledF led.1 36 29, led.2) else (lyWfmt e, 127, 0, false)

/-- Phase 2 of layer l over all its rows. -/
def runPhase2 (l : Nat) (wf : Nat × Nat × Nat × Bool) (reads : List (Quarter × MemErr)) : Eff := fun h =>
  let x := mlayerXOf h l
  let e := x.layer
  let b := 1 - lyActive (mLayer h l)
  chain [modLayerX l (fun x => { x with wn := 0, cnt := { gid := lyLedger e } }),
    forE (phase2Rows x) (fun r => phase2Row l r (schedOf x.group x.step) (phiOf e x.group x.un2)),
    forE (phase2Rows x) (workRow l wf.1 wf.2.1 wf.2.2.1 wf.2.2.2 b reads),
    setLw l 14 (if b = 0 then 19 else 23) (if b = 0 then 16 else 20) wf.1] h

/-- PHASE2_LAYER (R303, R304, R429, R521): phase 2 of the next layer begins. `reads` lists by quarter what the read halves of its partial
writes find. -/
def effPhase2Layer (reads : List (Quarter × MemErr)) (t : Nat) : Eff := atClk t (fun h =>
  match h.mill.p2, h.mill.p2run with
  | l :: rest, none =>
    let e := (mlayerXOf h l).layer
    let waits := match h.mill.sec with | some s => s.unacked.contains l | none => false
    if !millOn h || waits then []
    else match (if lyWfmt e = 0 then millLedger h l else some (0, false)) with
      | none => []
      | some led =>
        let wf := workFormat e led
        if lyWfmt e = 0 ∧ (isShort wf.1 || wf.1 == fmtW16) = false then
          chain [modMill (fun m => { m with p2 := rest }), modLayerX l (fun x => { x with done := true, noFlip := true }), setLyState l 3,
            millEvent 10 l, millHold] h
        else chain [modMill (fun m => { m with p2 := rest, p2run := some l }), showMill, runPhase2 l wf reads] h
  | _, _ => [])

/-- PHASE2_DONE (R294, R307, R308): the layer's tiles are sealed, its `STATE` becomes 3 and its tally delivery is made. -/
def effPhase2Done (reads : List (Quarter × MemErr)) (t : Nat) : Eff := atClk t (fun h =>
  match h.mill.p2run with
  | none => []
  | some l =>
    if h.mill.lost then [] else
    let x := mlayerXOf h l
    let e := x.layer
    let b := 1 - lyActive (mLayer h l)
    let fm := lw (mLayer h l) 14 (if b = 0 then 19 else 23) (if b = 0 then 16 else 20)
    let q := lowQuarter e
    chain [forE (phase2Rows x) (sealRow l fm b reads), modMill (fun m => { m with p2run := none }),
      modLayerX l (fun x => { x with done := true }), setLyState l 3, setF mill_PHASE2_CLK 0 (clkNs (h.clk - x.verdictClk)),
      whenB (lyWfmt e == 0) (modQuarter q (fun y => { y with deliveries := y.deliveries ++
        [{ croft := 16 * q, closing := false, c := { x.cnt with ovfb := 0 }, peaks := [] }] })),
      showMill] h)

-- bell edges

/-- The signals of R310 for buffer a in every croft that a layer's entry names; `commit` adds `CSIG`. -/
def layerSignals (e a : Nat) (commit : Bool) : Eff := fun h =>
  let bs := lw e 1 21 16
  forE ((maskQuarters e).filter (fun q => !quarterGone h q)) (fun q =>
    forE ((List.range 16).filter (fun k => bit (lw e 2 15 0) k)) (fun k => chain [
      edgeSig (16 * q + k) (bs + a) 1, edgeSig (16 * q + k) (bs + 1 - a) 0,
      whenB commit (addSigOut (16 * q + k) (lw e 1 29 24) 1)])) h

/-- The commit of a frozen layer that a keep verdict owes (R312). -/
def frozenPend (l bell : Nat) (more : List Nat) : Eff := fun h =>
  modLayerX l (fun _ => { pend := true, done := true, noFlip := true, verdictBell := bell, layer := mLayer h l, more := more }) h

/-- A layer commits (R309, R312, R521) by the snapshot of its entry (R288); a commit that a later keep verdict owes it follows, and the
chunks held for it are taken. -/
def commitLayer (l : Nat) : Eff := fun h =>
  let x := mlayerXOf h l
  let e := mLayer h l
  chain [
    whenB (!x.noFlip) (chain [setLw l 0 21 21 (1 - lyActive e), setLw l 0 22 22 (1 - lyMbank e), setLw l 11 31 0 (lyT e + 1),
      whenB (grRule x.group == 2) (setLw l 12 31 0 x.wn)]),
    closeLayer l, incF mill_COMMITS 0, whenB x.late (raise .mill 0 8),
    fun h => layerSignals x.layer (lyActive (mLayer h l)) true h,
    (match x.more with | [] => skip | b :: bs => frozenPend l b bs),
    whenB (!h.mill.closed) (takeHeld l)] h

/-- A new attempt begins at a step bell edge: what the last left open is discarded (R302, R314). -/
def millStep (step attempt : Nat) : Eff := fun h =>
  chain [forE (openLayers h) closeLayer,
    modMill (fun m => { m with
      held := if m.dead then [] else m.held.filter (·.future)
      rowsTouched := 0, dead := false, frozenGroups := [], stalled := [], stepClk := h.clk }),
    setF mill_STEP_LO 0 (step % 2 ^ 32), setF mill_STEP_HI_STEP 0 (step / 2 ^ 32), setF mill_STEP_HI_ATTEMPT 0 attempt, showMill] h

/-- A layer's entry and its group's, as the running attempt uses them (R288). -/
def entriesOf (h : Hw) (l : Nat) : Nat × Nat :=
  let x := mlayerXOf h l
  if x.opened && !x.pend then (x.layer, x.group) else (mLayer h l, mGroup h (lyGroup (mLayer h l)))

/-- Chunks of a dense layer that have arrived: of this attempt, or held for it. -/
def arrived (h : Hw) (l : Nat) : Nat :=
  let x := mlayerXOf h l
  if x.opened && !x.pend then x.recv
  else (((h.mill.held.filter (fun c => c.layer == l && c.future && decide (c.unit < chunkCount (mLayer h l)))).map (·.unit)).eraseDups).length

/-- An enabled dense layer of a group that is not frozen lacks chunks (R301). -/
def intakeShort (h : Hw) (l : Nat) : Bool :=
  let e := entriesOf h l
  lyEn e.1 && !grFrozen e.2 && grRule e.2 != 3 && decide (arrived h l < chunkCount e.1)

/-- The close edge (R301): embedding layers without waiting chunks complete; what is missing or late abandons the attempt. -/
def millClose : Eff := chain [
  look (fun h => (openLayers h).filter (fun l => grRule (mlayerXOf h l).group == 3 && phase1Ready h l)) (fun ls => forE ls finishPhase1),
  fun h =>
    let late := (openLayers h).filter (fun l => lyState (mLayer h l) == 1) ++ h.mill.held.map (·.layer)
    let short := (listedLayers h).filter (intakeShort h)
    chain [(match short with | [] => skip | l :: _ => millAbandon 1 l), (match late with | [] => skip | l :: _ => millAbandon 3 l)] h]

/-- What a kept update will read of the ledger (R303): the active bank at the verdict edge where the reeve is off, else the outcome of the
pass over the sheet that has just closed. -/
def verdictLedger (h : Hw) (x : MillLayerX) : MillLayerX :=
  let q := lowQuarter x.layer
  if flag h reeve0_CTRL_ENABLE q then { x with led := none, ledNo := some (quarterX h q).shut }
  else
    let v := ledgerOf h q (lyLedger x.layer)
    { x with led := some (v.toNat, polInfok h q (ledF v 85 82)), ledNo := none }

/-- The verdict edge (R302, R312). -/
def millVerdict (keep : Bool) (bell step attempt : Nat) : Eff := fun h =>
  if !keep then chain [forE (openLayers h) closeLayer, modMill (fun m => { m with dead := true }), showMill] h
  else
    let ready := (openLayers h).filter (fun l => lyState (mLayer h l) == 2)
    let rest := (openLayers h).filter (fun l => lyState (mLayer h l) != 2)
    let frozen := (listedLayers h).filter (fun l => lyEn (mLayer h l) && grFrozen (mGroup h (lyGroup (mLayer h l))) &&
      !(openLayers h).contains l)
    chain [
      forE ready (fun l => modLayerX l (fun x => verdictLedger h { x with
        pend := true, done := false, late := false, noFlip := false, verdictBell := bell, verdictClk := h.clk, step := step, attempt := attempt })),
      forE rest closeLayer,
      forE frozen (fun l => if (mlayerXOf h l).pend then modLayerX l (fun x => { x with more := x.more ++ [bell] }) else frozenPend l bell []),
      modMill (fun m => { m with p2 := m.p2 ++ ready }), showMill] h

/-- Layer l is due to commit at a bell (R309). -/
def commitDue (h : Hw) (bell l : Nat) : Bool :=
  let x := mlayerXOf h l
  x.pend && decide (x.verdictBell + lyCdelay x.layer ≤ bell)

/-- The commits of layer l that are due at an edge: one for each keep verdict. -/
def commitsOf (commit : Bool) (bell l : Nat) : Nat → Eff
  | 0 => skip
  | n + 1 => fun h =>
    if !commitDue h bell l then []
    else if !(mlayerXOf h l).done then modLayerX l (fun x => { x with late := true }) h
    else if commit then chain [commitLayer l, commitsOf commit bell l n] h
    else []

/-- Commits at an edge (R309): each layer whose delay has passed commits at a `COMMIT` edge once its phase 2 has completed, and is
late where it has not. -/
def millCommits (commit : Bool) (bell : Nat) : Eff := fun h =>
  forE ((listedLayers h).filter (commitDue h bell)) (fun l => commitsOf commit bell l (1 + (mlayerXOf h l).more.length)) h

/-- At each step bell edge the buffer signals of every enabled layer are rewritten (R310). -/
def bufferSignals : Eff := fun h => forE ((listedLayers h).filter (fun l => lyEn (mLayer h l)))
  (fun l => layerSignals (mLayer h l) (lyActive (mLayer h l)) false) h

-- meanings, one per command

/-- MILL_ENABLE_WRITE. -/
def execMillEnableWrite (v : Bool) (s : State) : Host.Outcome State Fault Refusal :=
  run (bySoftware (effMillEnableWrite v)) s

/-- CHUNK. -/
def execChunk (tag : BitVec 64) (data : List (BitVec 16)) (t : Nat) (s : State) : Host.Outcome State Fault Refusal :=
  run (effChunk tag data t) s

/-- CHUNK_CONSUME. -/
def execChunkConsume (layer : Nat) (s : State) : Host.Outcome State Fault Refusal :=
  run (effChunkConsume layer) s

/-- PHASE1_DONE. -/
def execPhase1Done (layer : Nat) (t : Nat) (s : State) : Host.Outcome State Fault Refusal :=
  run (effPhase1Done layer t) s

/-- PHASE2_LAYER. -/
def execPhase2Layer (t : Nat) (s : State) (reads : List (Quarter × MemErr) := []) : Host.Outcome State Fault Refusal :=
  run (effPhase2Layer reads t) s

/-- PHASE2_DONE. -/
def execPhase2Done (t : Nat) (s : State) (reads : List (Quarter × MemErr) := []) : Host.Outcome State Fault Refusal :=
  run (effPhase2Done reads t) s

end Sys2Proof.Machine
end

