-- ==== Sys2Proof/Machine/Granary.lean ====
section
/-! DEFINITION. The granary (R427 to R448): securing a copy with the buddy, holding a buddy's copy, replay windows, fills and the
delivery of kept messages in catch-up. -/

namespace Sys2Proof.Machine

/-- Word k of the region table as the mill has read it (R374). -/
def regW (h : Hw) (k : Nat) : Nat :=
  match h.mill.region with
  | some w => w.getD k 0
  | none => 0

/-- The device of a valid `BUDDY_DEV`. -/
def buddyDev (h : Hw) : Option Nat := if bit (regW h 8) 31 then some (bits (regW h 8) 16 0) else none

/-- The quarter whose pound sends for the mill: the lowest that answers. -/
def millQ (h : Hw) : Nat := ((List.range 4).find? (fun q => !quarterGone h q)).getD 0

/-- Send a message from mill to mill (R340, R431, R440). -/
def sendMill (typ sub dev daddr : Nat) (bs : List Byte) : Eff := fun h =>
  let m : Msg := { typ := BitVec.ofNat 4 typ, sub := BitVec.ofNat 4 sub }
  sendMsg (millQ h) (withPayload { m with ddev := BitVec.ofNat 17 dev, dunit := 3, daddr := BitVec.ofNat 40 daddr } bs) h

/-- DATA messages of 4 KiB, each placed at its offset in 64-byte units; the last is padded to a whole unit. -/
def sendData4k (typ dev : Nat) : Nat → Nat → List Byte → Eff
  | 0, _, _ => skip
  | n + 1, off, bs =>
    let b := bs.take 4096
    whenB (!b.isEmpty) (chain [sendMill typ 1 dev off (b ++ List.replicate (up64 b.length - b.length) 0),
      sendData4k typ dev n (off + 64) (bs.drop 4096)])

def sendPages (typ dev off : Nat) (bs : List Byte) : Eff := sendData4k typ dev (bs.length / 4096 + 1) off bs

/-- The offset bit that marks a DATA message of the small parts: bits [38:0] then count from page 0 of the small-state area (or of
fill staging). DESIGN CHOICE, log 35. -/
def smallBit : Nat := 2 ^ 39

/-- The index that stands for the small parts in LAYER_END and ACK (R431). -/
def smallIx : Nat := 0xFFFFFFFF

-- the layout of a copy

def zeros (n : Nat) : List Byte := List.replicate n 0

def padTo (n : Nat) (bs : List Byte) : List Byte := bs ++ zeros (n - bs.length)

/-- The format of buffer b of a layer, from its entry (R287). -/
def fmtBuf (e b : Nat) : Nat := lw e 14 (if b = 0 then 19 else 23) (if b = 0 then 16 else 20)

def actFmt (e : Nat) : Nat := fmtBuf e (lyActive e)

/-- Where the parts of layer's copy lie on this device, in the order of R432: 0 the layer record, 1 slow tier, 2 HBM; address and
length. -/
def layerParts (h : Hw) (l : Nat) : List (Nat × Nat × Nat) :=
  let e := mLayer h l
  let rule := grRule (mGroup h (lyGroup e))
  [(0, 0, 64), (1, masterAddr e 0, 5 * lyN e), (1, momBase e (lyMbank e), bankBytes rule e)] ++
    (if rule = 3 then [(1, lw e 8 28 0 * 4096, 4 * lyRows e)] else []) ++
    [(2, lw e (if lyActive e = 0 then 9 else 10) 25 0 * 4096, bufBytes e (fmtWidth (actFmt e)))]

/-- Pages of a layer's copy. -/
def layerPages (h : Hw) (l : Nat) : Nat := (((layerParts h l).map (fun p => up64 p.2.2)).sum + 4095) / 4096

/-- Bytes of one part. -/
def partBytes (h : Hw) (l : Nat) (p : Nat × Nat × Nat) : List Byte :=
  let e := mLayer h l
  padTo (up64 p.2.2) (match p.1 with
    | 0 => leBytes 4 l ++ leBytes 4 (lyN e) ++ leBytes 4 (lyT e) ++ leBytes 4 (lw e 12 31 0) ++ leBytes 4 (actFmt e)
    | 1 => rdBytes h .slow p.2.1 p.2.2
    | _ => rdBytes h .hbm (lowQuarter e * hbmD + p.2.1) p.2.2)

/-- The copy of one layer. -/
def layerCopy (h : Hw) (l : Nat) : List Byte := (layerParts h l).flatMap (partBytes h l)

/-- Layers that a copy holds: every enabled layer whose tables are valid, ascending (R427). -/
def securedLayers (h : Hw) : List Nat := (listedLayers h).filter (fun l => lyEn (mLayer h l) && !layerBad h l)

/-- The bytes of one sequence slot, packed in the order of R433. -/
def slotBytes (s : Slot) : List Byte :=
  leBytes 16 (s.pos + s.mb * 2 ^ 32 + s.base * 2 ^ 48 + s.len * 2 ^ 74 + s.cur * 2 ^ 100)

/-- The 1 KiB of a croft snapshot (R433). -/
def snapBytes (x : List Nat × List Nat × List Slot) : List Byte :=
  padTo 1024 (padTo 16 (x.1.flatMap (leBytes 4)) ++ x.2.1.flatMap (leBytes 2) ++ x.2.2.flatMap slotBytes)

/-- The small parts by page of the small-state area (R433). -/
def smallPages (s : Securing) : List (Nat × List Byte) :=
  (List.range 256).map (fun n => (1 + n, (List.range 256).flatMap (fun k =>
    leBytes 16 (smGet (fun _ => ledgerReset) s.ledger (256 * n + k)).toNat))) ++
  (List.range 128).map (fun n => (257 + n, (List.range 512).flatMap (fun k =>
    let r := recOf (s.sheets.getD (n / 32) {}) (512 * (n % 32) + k)
    leBytes 8 (min r.total (2 ^ 40 - 1) + min r.sat (2 ^ 24 - 1) * 2 ^ 40)))) ++
  (List.range 4).map (fun q => (385 + q, padTo 4096 ((s.reeves.getD q []).flatMap (leBytes 4)))) ++
  (List.range 16).map (fun n => (389 + n, ((s.crofts.drop (4 * n)).take 4).flatMap snapBytes))

-- securing

/-- What a croft's snapshot holds in the clk of the edge: the snapshot, or where none has been taken the croft as it stands. -/
def croftSmall (h : Hw) (c : Nat) : List Nat × List Nat × List Slot :=
  let x := croftX h c
  if x.snapTaken then (x.snapPc, x.snapSig, x.snapSlots)
  else ((List.range 3).map (fun s => getF h stream_PC (3 * c + s)), (List.range 64).map (sigVal h c), (List.range 32).map (slotOf h c))

/-- A new copy of layers ls with the small parts as they stand in this clk (R428). -/
def newCopy (h : Hw) (ls : List Nat) (bell step attempt batch : Nat) : Securing :=
  { bell := bell, step := step, attempt := attempt, batch := batch, clk := h.clk, toSend := ls, unacked := ls ++ [smallIx]
    ledger := h.ledger
    sheets := (List.range 4).map (fun q => (quarterX h q).lastFinal)
    reeves := (List.range 4).map (fun q =>
      [getF h reeve0_WIDEN_USED q, getF h reeve0_SHEET_COUNT q, getF h reeve0_STATUS_BANK q])
    crofts := (List.range 64).map (croftSmall h) }

/-- The local edge of a step bell (R428, R448): a copy begins at the first attempt of a secure step, or where `SEC_NOW` asks for it. -/
def secureEdge (secure : Bool) (bell step attempt batch : Nat) : Eff := fun h =>
  let again := match h.mill.lastSec with | some (s, _) => s == step | none => false
  let now := flag h mill_GRAN_CTRL_SEC_NOW 0
  if catchingUp h || !millOn h || !((secure && !again) || now) then []
  else
    chain [modMill (fun m => { m with lastSec := if again then m.lastSec else some (step, bell) }),
      (if (buddyDev h).isNone then skip
        else fun h =>
          let ls := securedLayers h
          chain [setFlag mill_GRAN_STATUS_SECURING 0 true, setFlag mill_GRAN_STATUS_COPY_VALID 0 false,
            modMill (fun m => { m with sec := some (newCopy h ls bell step attempt batch) })] h)] h

/-- BEGIN and the small parts go first: they are complete from the edge on. -/
def beginCopy (dev : Nat) (s : Securing) : Eff := fun h => chain [
  sendMill 6 0 dev 0 (leBytes 8 s.bell ++ leBytes 6 s.step ++ leBytes 2 s.attempt ++ leBytes 8 s.batch ++
    leBytes 4 (getF h mill_EPOCH 0)),
  setFlag mill_GRAN_CTRL_SEC_NOW 0 false,
  forE (smallPages s) (fun p => sendPages 6 dev (smallBit + 64 * p.1) p.2),
  sendMill 6 2 dev 0 (leBytes 4 smallIx),
  modMill (fun m => { m with sec := some { s with begun := true } })] h

/-- The state of a layer is that of R428: its last commit of step σ − 1 has been made. -/
def layerSettled (h : Hw) (step l : Nat) : Bool :=
  let x := mlayerXOf h l
  !x.pend || x.noFlip || x.step == step

/-- What the copy of a layer reads of the HBM of the lowest quarter of its `QMASK`. -/
def copySpans (h : Hw) (l : Nat) : List (Nat × Nat) := ((layerParts h l).filter (fun p => p.1 == 2)).map (·.2)

/-- Send the next layer in ascending index (R429). -/
def sendLayer (dev : Nat) (reads : List (Quarter × MemErr)) : Eff := fun h =>
  match h.mill.sec with
  | none => []
  | some s =>
    match s.toSend with
    | [] => []
    | l :: ls =>
      if !layerSettled h s.step l then []
      else
        let q := lowQuarter (mLayer h l)
        chain [eccRead 2 q (16 * q) (copySpans h l) (ofQuarter reads q), fun h => sendPages 6 dev (64 * s.page) (layerCopy h l) h, sendMill 6 2 dev 0 (leBytes 4 l),
        modMill (fun m => { m with sec := some { s with toSend := ls, page := s.page + layerPages h l } })] h

/-- SECURE_LAYER_SEND (R429). -/
def effSecureLayerSend (reads : List (Quarter × MemErr)) : Eff := fun h =>
  match h.mill.sec, buddyDev h with
  | some s, some dev =>
    if !millOn h then []
    else chain [whenB (!s.begun) (beginCopy dev s), sendLayer dev reads] h
  | _, _ => []

/-- A FILL or SECURE message of one subtype, whole at a device (R340, R343): routed onward, discarded, or for this device's mill. -/
def atMill (src : MsgSrc) (m : Msg) (t typ sub : Nat) (e : Eff) : Eff :=
  whenB ((m.typ.toNat == typ && m.sub.toNat == sub) || !m.crcOk) (arrive src m t true (fun _ => whenE (fun h => !h.mill.lost) e))

/-- The receiver accepts a SECURE message (R375, R431). -/
def secureOk (h : Hw) (m : Msg) : Bool := h.mill.region.isSome && buddyDev h == some m.sdev.toNat

def buddyBase (h : Hw) : Nat := regW h 4 * 4096
def replayBase (h : Hw) : Nat := regW h 6 * 4096

/-- SECURE_BEGIN (R430, R431): the buddy's copy is incomplete from now on. -/
def effSecureBegin (src : MsgSrc) (m : Msg) (t : Nat) : Eff := atMill src m t 6 0 (fun h =>
  if !secureOk h m || regW h 5 == 0 then []
  else chain [setFlag mill_GRAN_STATUS_BUDDY_VALID 0 false,
    modMill (fun x => { x with rxHead := m.payload.take 28, rxEnds := [], rxPages := 1 }),
    wrNat .slow (buddyBase h + 4) 4 1] h)

/-- SECURE_DATA (R431, R433): the bytes go to their place in the buddy region, or in the small-state area. -/
def effSecureData (src : MsgSrc) (m : Msg) (t : Nat) : Eff := atMill src m t 6 1 (fun h =>
  let a := m.daddr.toNat
  let n := m.payload.length
  if !secureOk h m then []
  else if smallBit ≤ a then
    let o := 64 * (a - smallBit)
    if o < 4096 ∨ 512 * 4096 < o + n then [] else wrBytes .slow o m.payload h
  else if regW h 5 * 4096 < 64 * a + n then []
  else chain [setFlag mill_GRAN_STATUS_BUDDY_VALID 0 false, wrBytes .slow (buddyBase h + 64 * a) m.payload,
    modMill (fun x => { x with rxPages := max x.rxPages ((64 * a + n + 4095) / 4096) })] h)

/-- SECURE_LAYER_END (R431): every DATA byte of the layer has been written by now, and ACK goes back. -/
def effSecureLayerEnd (src : MsgSrc) (m : Msg) (t : Nat) : Eff := atMill src m t 6 2 (fun h =>
  if !secureOk h m then []
  else chain [modMill (fun x => { x with rxEnds := x.rxEnds ++ [ofLe (m.payload.take 4)] }),
    sendMill 6 3 m.sdev.toNat 0 (padTo 4 (m.payload.take 4))] h)

/-- Bytes 0 to 47 of a copy's header (R432). -/
def copyHeader (h : Hw) (state source : Nat) : List Byte :=
  let b := padTo 28 h.mill.rxHead
  leBytes 4 1 ++ leBytes 4 state ++ b ++ leBytes 4 source ++
    leBytes 4 (h.mill.rxEnds.filter (· != smallIx)).length ++ leBytes 4 h.mill.rxPages

/-- SECURE_COMPLETE (R431, R432). -/
def effSecureComplete (src : MsgSrc) (m : Msg) (t : Nat) : Eff := atMill src m t 6 4 (fun h =>
  let b := copyHeader h 2 m.sdev.toNat
  if !secureOk h m || regW h 5 == 0 then []
  else chain [wrBytes .slow (buddyBase h) (padTo 4096 (b ++ leBytes 4 (crc32c b))), setFlag mill_GRAN_STATUS_BUDDY_VALID 0 true] h)

/-- The copy that is being sent ends; a device that lost its steward waited for it, and fails (R28). -/
def endCopy : Eff := chain [modMill (fun x => { x with sec := none }), setFlag mill_GRAN_STATUS_SECURING 0 false,
  whenE (fun h => h.gate.stewWait == 2) (chain [modGate (fun g => { g with stewWait := 0 }), failDevice])]

/-- SECURE_ACK (R429, R431): the layer's phase 2 is free; the last one completes the copy. -/
def effSecureAck (src : MsgSrc) (m : Msg) (t : Nat) : Eff := atMill src m t 6 3 (fun h =>
  match h.mill.sec with
  | none => []
  | some s =>
    let l := ofLe (m.payload.take 4)
    if !secureOk h m || !s.begun || s.toSend.contains l then []
    else
      let left := s.unacked.filter (· != l)
      if left.isEmpty then
        chain [endCopy, sendMill 6 4 m.sdev.toNat 0 [], setFlag mill_GRAN_STATUS_COPY_VALID 0 true,
          setF mill_SECURED_STEP_LO 0 (s.step % 2 ^ 32), setF mill_SECURED_STEP_HI 0 (s.step / 2 ^ 32),
          setF mill_SECURED_BELL_LO 0 (s.bell % 2 ^ 32), setF mill_SECURED_BELL_HI 0 (s.bell / 2 ^ 32),
          setF mill_SEC_TIME 0 (min (clkNs (h.clk - s.clk)) 0xFFFFFFFF), millRecord 16 0 m.sdev.toNat] h
      else modMill (fun x => { x with sec := some { s with unacked := left } }) h)

/-- SECURE_ACK_TIMEOUT (R431, R446): the copy stays incomplete, and phase 2 no longer waits for it. -/
def effSecureAckTimeout : Eff := fun h =>
  match h.mill.sec with
  | none => []
  | some s =>
    if !s.begun then []
    else chain [endCopy, setFlag mill_GRAN_STATUS_COPY_VALID 0 false, millRecord 17 2 ((buddyDev h).getD 0)] h

/-- SEC_NOW (R448). -/
def effSecNow : Eff := setFlag mill_GRAN_CTRL_SEC_NOW 0 true

/-- The secure interval `SECURE_N` for the time one secure costs, the system's mean time between failures in seconds and the mean duration
of a kept step (R434). -/
def secureN (costNs mtbfS stepNs : Nat) : Nat :=
  min (max ((isqrt (2 * costNs * mtbfS * 10 ^ 9) + stepNs / 2) / stepNs) 1) (2 ^ 32 - 1)

-- replay windows

/-- Bytes that the kept messages and the bell log take in the replay region. -/
def replayBytes (h : Hw) : Nat := (h.mill.kept.map (fun k => up64 k.2.2.length)).sum + 40 * h.mill.bellLog.length

def showReplay : Eff := look (fun h => (replayBytes h + 4095) / 4096) (fun n => setF mill_REPLAY_USED 0 n)

/-- Bytes of the replay region whose layout the spec does not state become free values. -/
def undefReplay (off n : Nat) : Eff := fun h =>
  [.mem .slow (replayBase h + off) ((List.range n).map (Config.freeByte 1100 h.free)), .free (h.free + 1)]

/-- The replay region cannot take a copy (R436). -/
def replayFull (dev : Nat) : Eff := chain [setFlag mill_GRAN_STATUS_REPLAY_FULL 0 true, millRecord 18 2 dev]

/-- REPLAY_APPEND (R435, R436). -/
def effReplayAppend : Eff := whenE (fun h => !h.mill.lost) (fun h =>
  let room := regW h 7 * 4096
  let used := replayBytes h
  match h.mill.toKeep, h.mill.toLog with
  | k :: ks, _ =>
    let n := up64 k.2.2.length
    chain [modMill (fun x => { x with toKeep := ks }),
      (if used + n ≤ room then chain [modMill (fun x => { x with kept := x.kept ++ [k] }), undefReplay used n, showReplay]
        else replayFull k.1)] h
  | [], t :: ts =>
    chain [modMill (fun x => { x with toLog := ts }),
      (if used + 40 ≤ room then chain [modMill (fun x => { x with bellLog := x.bellLog ++ [t] }), undefReplay used 40, showReplay]
        else replayFull 0)] h
  | [], [] => [])

/-- The first local edge of a step bell with `STEP` σ + 2 frees what is older than σ's step bell (R436). -/
def replayFree (step : Nat) : Eff := fun h =>
  match h.mill.lastSec with
  | none => []
  | some (s, b) =>
    if step ≠ s + 2 ∨ h.mill.freed = some s then []
    else chain [modMill (fun x => { x with
        freed := some s
        kept := x.kept.filter (fun k => decide (b % 2 ^ 32 ≤ k.2.1))
        bellLog := x.bellLog.filter (fun t => decide (b ≤ t.bell.toNat)) }),
      setFlag mill_GRAN_STATUS_REPLAY_FULL 0 false, showReplay] h

-- fills

def fillKind (h : Hw) : Nat := getF h mill_FILL_SRC_KIND 0

def jobHeld (h : Hw) : Bool := flag h bellMaster_STATUS_HELD 0

/-- FILL_GO (R440): the request names the kind, this device's logical ID and its epoch. -/
def effFillGo : Eff := fun h =>
  if !jobHeld h || !millOn h || flag h mill_GRAN_STATUS_FILLING 0 || fillKind h == 3 then []
  else chain [setFlag mill_GRAN_STATUS_FILLING 0 true, setF mill_FILL_BYTES_LO 0 0, setF mill_FILL_BYTES_HI 0 0,
    modMill (fun x => { x with fillCrc := 0xFFFFFFFF, fillBytes := 0, fillBuf := [] }),
    sendMill 5 0 (getF h mill_FILL_SRC_DEVICE 0) 0
      (leBytes 4 (fillKind h) ++ leBytes 4 (deviceId h (millQ h)) ++ leBytes 4 (getF h mill_EPOCH 0))] h

/-- The header of the held copy says complete, for device `dev`. -/
def holdsCopy (h : Hw) (dev : Nat) : Bool :=
  rdNat h .slow (buddyBase h + 4) 4 == 2 && rdNat h .slow (buddyBase h + 36) 4 == dev

/-- Serve byte runs as DATA, then END with the total and the CRC (R440). -/
def serveFill (dev : Nat) (runs : List (Nat × List Byte)) : Eff := fun _h =>
  let all := runs.flatMap (·.2)
  chain [forE runs (fun r => sendPages 5 dev r.1 r.2), sendMill 5 2 dev 0 (leBytes 8 all.length ++ leBytes 4 (crc32c all))] _h

def refuseFill (dev cause : Nat) : Eff := sendMill 5 3 dev 0 (leBytes 4 cause)

/-- FILL_REQUEST (R440, R446). -/
def effFillRequest (src : MsgSrc) (m : Msg) (t : Nat) : Eff := atMill src m t 5 0 (fun h =>
  let kind := ofLe (m.payload.take 4)
  let id := ofLe ((m.payload.drop 4).take 4)
  let epoch := ofLe ((m.payload.drop 8).take 4)
  let dev := m.sdev.toNat
  if h.mill.region.isNone then []
  else if kind = 0 then
    (if buddyDev h ≠ some id then refuseFill dev 2 h
      else if !holdsCopy h id then refuseFill dev 1 h
      else if epoch < rdNat h .slow (buddyBase h + 32) 4 then refuseFill dev 3 h
      else
        let pages := rdNat h .slow (buddyBase h + 44) 4
        serveFill dev [(0, rdBytes h .slow (buddyBase h) (4096 * pages)), (smallBit + 64, rdBytes h .slow 4096 (511 * 4096))] h)
  else if kind = 1 then
    serveFill dev [(0, (h.mill.kept.filter (fun k => k.1 == id)).flatMap (fun k => padTo (up64 k.2.2.length) k.2.2))] h
  else if kind = 2 then
    let bs := h.mill.bellLog.flatMap tokenBytes
    serveFill dev [(0, padTo (up64 bs.length) bs)] h
  else [])

/-- The part of this device's layers that a byte offset of the copy falls into: layer, part, offset within the part. -/
def findPart (h : Hw) : List Nat → Nat → Nat → Option (Nat × (Nat × Nat × Nat) × Nat)
  | [], _, _ => none
  | l :: ls, page, off =>
    let n := layerPages h l
    if off < 4096 * (page + n) then
      go l (layerParts h l) (off - 4096 * page)
    else findPart h ls (page + n) off
where
  go (l : Nat) : List (Nat × Nat × Nat) → Nat → Option (Nat × (Nat × Nat × Nat) × Nat)
    | [], _ => none
    | p :: ps, o => if o < up64 p.2.2 then some (l, p, o) else go l ps (o - up64 p.2.2)

/-- One 64-byte line of the layers of a copy goes to this device's own region (R440). -/
def fillLine (reads : List (Quarter × MemErr)) (off : Nat) (bs : List Byte) : Eff := fun h =>
  match findPart h (securedLayers h) 1 off with
  | none => []
  | some (l, p, o) =>
    let e := mLayer h l
    let b := bs.take (p.2.2 - o)
    match p.1 with
    | 0 => chain [setLw l 11 31 0 (ofLe ((bs.drop 8).take 4)), setLw l 12 31 0 (ofLe ((bs.drop 12).take 4)),
        setLw l 14 (if lyActive e = 0 then 19 else 23) (if lyActive e = 0 then 16 else 20) (ofLe ((bs.drop 16).take 4))] h
    | 1 => wrBytes .slow (p.2.1 + o) b h
    | _ => forE (maskQuarters e) (fun q => chain [millWrite q (p.2.1 + o) b (ofQuarter reads q),
        whenE (fun h => !quarterGone h q) (millSeal q ((p.2.1 + o) / 4096) (ofQuarter reads q))]) h

def fillLines (reads : List (Quarter × MemErr)) : Nat → Nat → List Byte → Eff
  | 0, _, _ => skip
  | n + 1, off, bs => whenB (!bs.isEmpty) (chain [fillLine reads off (bs.take 64), fillLines reads n (off + 64) (bs.drop 64)])

/-- Where a DATA message of a copy goes: header and small parts to fill staging, layers to this device's own region (R440, R441). -/
def fillCopy (reads : List (Quarter × MemErr)) (a : Nat) (bs : List Byte) : Eff := fun h =>
  if smallBit ≤ a then
    let o := 64 * (a - smallBit)
    if o + bs.length ≤ 512 * 4096 then wrBytes .slow (replayBase h + o) bs h else []
  else
    let hd := bs.take (4096 - 64 * a)
    chain [whenB (!hd.isEmpty) (wrBytes .slow (replayBase h + 64 * a) hd),
      fillLines reads (bs.length / 64 + 1) (64 * a + hd.length) (bs.drop hd.length)] h

/-- A FILL message of the running fill. -/
def fillOk (h : Hw) (m : Msg) : Bool :=
  h.mill.region.isSome && flag h mill_GRAN_STATUS_FILLING 0 && m.sdev.toNat == getF h mill_FILL_SRC_DEVICE 0

/-- FILL_DATA (R440). -/
def effFillData (src : MsgSrc) (m : Msg) (reads : List (Quarter × MemErr)) (t : Nat) : Eff := atMill src m t 5 1 (fun h =>
  if !fillOk h m then []
  else
    let n := h.mill.fillBytes + m.payload.length
    chain [modMill (fun x => { x with fillCrc := m.payload.foldl (crcByteR 0x82F63B78) x.fillCrc, fillBytes := n }),
      setF mill_FILL_BYTES_LO 0 (n % 2 ^ 32), setF mill_FILL_BYTES_HI 0 (n / 2 ^ 32),
      (if fillKind h = 0 then fillCopy reads m.daddr.toNat m.payload
        else chain [modMill (fun x => { x with fillBuf := x.fillBuf ++ [(m.daddr.toNat, m.payload)] }),
          undefReplay (512 * 4096 + 64 * m.daddr.toNat) (min m.payload.length (regW h 7 * 4096 - (512 * 4096 + 64 * m.daddr.toNat)))])] h)

def insertRun (r : Nat × List Byte) : List (Nat × List Byte) → List (Nat × List Byte)
  | [] => [r]
  | x :: xs => if r.1 ≤ x.1 then r :: x :: xs else x :: insertRun r xs

/-- Kept messages that a filled window spells, each with its `SBELL`. -/
def splitMsgs : Nat → List Byte → List (Nat × List Byte)
  | 0, _ => []
  | n + 1, bs =>
    let w0 := ofLe (bs.take 8)
    let w1 := ofLe ((bs.drop 8).take 8)
    let w2 := ofLe ((bs.drop 16).take 8)
    let w3 := ofLe ((bs.drop 24).take 8)
    let len := 36 + statedLen (bits w2 55 40) (bits w3 47 40)
    if bs.length < 36 ∨ w0 % 16 = 0 then []
    else (bits w1 63 32, bs.take len) :: splitMsgs n (bs.drop (up64 len))

def splitTokens : Nat → List Byte → List Token
  | 0, _ => []
  | n + 1, bs => if bs.length < 40 then [] else parseToken (bs.take 40) :: splitTokens n (bs.drop 40)

/-- What a completed fill leaves for the catch-up (R438, R442). -/
def keepFill : Eff := fun h =>
  let bs := (h.mill.fillBuf.foldr insertRun []).flatMap (·.2)
  if fillKind h = 1 then modMill (fun x => { x with fillBuf := [], cuMsgs := x.cuMsgs ++ splitMsgs bs.length bs }) h
  else if fillKind h = 2 then
    modMill (fun x => { x with fillBuf := [], cuTokens := splitTokens bs.length bs }) h
  else []

def fillFails : Eff := fun h => chain [setFlag mill_GRAN_STATUS_FILLING 0 false, setFlag mill_GRAN_STATUS_FILL_FAIL 0 true,
  millRecord 20 3 (getF h mill_FILL_SRC_DEVICE 0)] h

/-- FILL_END (R440): the byte count and the CRC over every DATA payload must match. -/
def effFillEnd (src : MsgSrc) (m : Msg) (t : Nat) : Eff := atMill src m t 5 2 (fun h =>
  if !fillOk h m then []
  else if ofLe (m.payload.take 8) = h.mill.fillBytes ∧ ofLe ((m.payload.drop 8).take 4) = h.mill.fillCrc ^^^ 0xFFFFFFFF then
    chain [setFlag mill_GRAN_STATUS_FILLING 0 false, setFlag mill_GRAN_STATUS_FILL_DONE 0 true, keepFill,
      millRecord 19 0 (getF h mill_FILL_SRC_DEVICE 0)] h
  else fillFails h)

/-- FILL_REFUSE (R440, R444). -/
def effFillRefuse (src : MsgSrc) (m : Msg) (t : Nat) : Eff := atMill src m t 5 3 (whenE (fun h => fillOk h m) fillFails)

/-- FILL_TIMEOUT (R440, R444). -/
def effFillTimeout : Eff := whenE (fun h => flag h mill_GRAN_STATUS_FILLING 0) fillFails

/-- NO_SPARE (R444, R447). -/
def effNoSpare : Eff := fun h => millRecord 23 3 (deviceId h (millQ h)) h

/-- A kept message is delivered by the pound of its quarter as it was the first time (R442); `sh` is the sheet that a sheet's payload
spells. -/
def replayMsg (q : Nat) (m : Msg) (reads : List MemErr) (sh : Sheet) : Eff :=
  if m.typ = 1 then deliverBytes q m reads
  else if m.typ = 2 then (if m.sub = 1 then deliverResponse q m reads else deliverGet q m reads)
  else if m.typ = 3 then
    (if m.sub = 0 then deliverReduce q m reads else if m.sub = 1 then deliverPartial sh q m else if m.sub = 2 then deliverFinal sh q m else skip)
  else skip

/-- CATCHUP_DELIVERY (R442): the first kept message of the running interval, from clk slack + 1 on. -/
def effCatchupDelivery (reads : List MemErr) (sh : Sheet) (t : Nat) : Eff := atClk t (fun h =>
  match h.bell.lastEdge with
  | none => []
  | some c =>
    match h.mill.cuMsgs.find? (fun k => k.1 == h.bell.edgeBell % 2 ^ 32) with
    | none => []
    | some k =>
      let m := parseMsg k.2
      if !catchingUp h || decide (h.clk < c + h.bell.slack + 1) then []
      else chain [modMill (fun x => { x with cuMsgs := x.cuMsgs.erase k }), replayMsg m.dq.toNat m reads sh] h)

-- meanings, one per command

/-- SECURE_LAYER_SEND. -/
def execSecureLayerSend (s : State) (reads : List (Quarter × MemErr) := []) : Host.Outcome State Fault Refusal :=
  run (effSecureLayerSend reads) s

/-- SECURE_BEGIN. -/
def execSecureBegin (m : MsgIn) (s : State) (t : Nat := 0) : Host.Outcome State Fault Refusal :=
  run (effSecureBegin m.src m.msg t) s

/-- SECURE_DATA. -/
def execSecureData (m : MsgIn) (s : State) (t : Nat := 0) : Host.Outcome State Fault Refusal :=
  run (effSecureData m.src m.msg t) s

/-- SECURE_LAYER_END. -/
def execSecureLayerEnd (m : MsgIn) (s : State) (t : Nat := 0) : Host.Outcome State Fault Refusal :=
  run (effSecureLayerEnd m.src m.msg t) s

/-- SECURE_ACK. -/
def execSecureAck (m : MsgIn) (t : Nat) (s : State) : Host.Outcome State Fault Refusal :=
  run (effSecureAck m.src m.msg t) s

/-- SECURE_COMPLETE. -/
def execSecureComplete (m : MsgIn) (s : State) (t : Nat := 0) : Host.Outcome State Fault Refusal :=
  run (effSecureComplete m.src m.msg t) s

/-- SECURE_ACK_TIMEOUT. -/
def execSecureAckTimeout (s : State) : Host.Outcome State Fault Refusal :=
  run effSecureAckTimeout s

/-- SEC_NOW. -/
def execSecNow (s : State) : Host.Outcome State Fault Refusal :=
  run (bySoftware effSecNow) s

/-- FILL_GO. -/
def execFillGo (s : State) : Host.Outcome State Fault Refusal :=
  run (bySoftware effFillGo) s

/-- FILL_REQUEST. -/
def execFillRequest (m : MsgIn) (s : State) (t : Nat := 0) : Host.Outcome State Fault Refusal :=
  run (effFillRequest m.src m.msg t) s

/-- FILL_DATA. -/
def execFillData (m : MsgIn) (s : State) (t : Nat := 0) (reads : List (Quarter × MemErr) := []) : Host.Outcome State Fault Refusal :=
  run (effFillData m.src m.msg reads t) s

/-- FILL_END. -/
def execFillEnd (m : MsgIn) (s : State) (t : Nat := 0) : Host.Outcome State Fault Refusal :=
  run (effFillEnd m.src m.msg t) s

/-- FILL_REFUSE. -/
def execFillRefuse (m : MsgIn) (s : State) (t : Nat := 0) : Host.Outcome State Fault Refusal :=
  run (effFillRefuse m.src m.msg t) s

/-- FILL_TIMEOUT. -/
def execFillTimeout (s : State) : Host.Outcome State Fault Refusal :=
  run effFillTimeout s

/-- NO_SPARE. -/
def execNoSpare (s : State) : Host.Outcome State Fault Refusal :=
  run (bySoftware effNoSpare) s

/-- REPLAY_APPEND. -/
def execReplayAppend (s : State) : Host.Outcome State Fault Refusal :=
  run effReplayAppend s

/-- CATCHUP_DELIVERY. -/
def execCatchupDelivery (t : Nat) (s : State) (reads : List MemErr := []) (sh : Sheet := {}) : Host.Outcome State Fault Refusal :=
  run (effCatchupDelivery reads sh t) s

end Sys2Proof.Machine
end

