-- ==== Sys2Proof/Machine/Fec.lean ====
section
/-! DEFINITION. The FEC of a causeway port (R322): RS(544,514) over 10-bit symbols, codewords of a continuous bit stream, the groups of 2,570
slots with their marker block, and the distribution of symbols over the lanes. -/

namespace Sys2Proof.Machine

/-- Times the primitive element of GF(2^10), with the polynomial of IEEE 802.3, x^10 + x^3 + 1. PRESUMED, log 67. -/
def gfDouble (a : Nat) : Nat := if 512 ≤ a then (2 * a - 1024) ^^^ 9 else 2 * a

/-- A product in GF(2^10), over the bits of b from the lowest. -/
def gfMulGo : Nat → Nat → Nat → Nat
  | 0, _, _ => 0
  | n + 1, a, b => (if b % 2 = 1 then a else 0) ^^^ gfMulGo n (gfDouble a) (b / 2)

def gfMul (a b : Nat) : Nat := gfMulGo 10 a b

/-- A polynomial times x + r, its coefficients from the highest power down. -/
def mulRoot (p : List Nat) (r : Nat) : List Nat := List.zipWith (· ^^^ ·) (p ++ [0]) (0 :: p.map (gfMul r))

/-- Powers 0 to n − 1 of the primitive element. -/
def gfPowers : Nat → Nat → List Nat
  | 0, _ => []
  | n + 1, a => a :: gfPowers n (gfDouble a)

/-- The generator polynomial: the product of x + α^i over i from 0 to 29, without its leading 1. -/
def rsGen : List Nat := ((gfPowers 30 1).foldl mulRoot [1]).drop 1

/-- One message symbol enters the division by the generator. -/
def rsStep (r : List Nat) (m : Nat) : List Nat :=
  let f := m ^^^ r.headD 0
  List.zipWith (fun a g => a ^^^ gfMul f g) (r.drop 1 ++ [0]) rsGen

/-- The 544 symbols of a codeword: the message, then the 30 check symbols. -/
def rsEncode (m : List Nat) : List Nat := m ++ m.foldl rsStep (List.replicate 30 0)

/-- Message symbols of 10 bits, the first from the lowest bits. -/
def symbolsOf (n bits : Nat) : List Nat := (List.range n).map (fun i => bits / 2 ^ (10 * i) % 1024)

/-- Symbols go round the active lanes, the lowest first. -/
def overLanes (n : Nat) (xs : List Nat) : List (List Nat) :=
  (List.range n).map (fun k => (List.range ((xs.length + n - 1 - k) / n)).map (fun i => xs.getD (n * i + k) 0))

/-- Slots of a group: 1,024 codewords of 5,140 message bits. -/
def groupSlots : Nat := 2570

/-- Bits of a slot, and message bits of a codeword. -/
def slotBits : Nat := 2048
def wordBits : Nat := 5140

/-- A flit takes the next slot; the first slot of a group carries the marker block. -/
def fecTake (x : PortX) (bs : List Byte) : PortX :=
  let mark := x.fecSlot == 0
  let x := if mark then { x with fecBits := x.fecBits + (Config.markerBlock x.fecGroup).toNat * 2 ^ x.fecLen, fecLen := x.fecLen + slotBits } else x
  let n := x.fecSlot + 1 + b2n mark
  { x with
    fecBits := x.fecBits + ofLe bs * 2 ^ x.fecLen, fecLen := x.fecLen + slotBits
    fecSlot := if n = groupSlots then 0 else n, fecGroup := if n = groupSlots then x.fecGroup + 1 else x.fecGroup }

/-- A flit enters the encoder of a port; a codeword that is complete leaves it. -/
def fecPut (p : Nat) (bs : List Byte) : Eff := fun h =>
  let x := fecTake (portX h p) bs
  let lanes := ((List.range 8).filter (fun k => bit (getF h port0_LANES_ACTIVE p) k)).length
  if x.fecLen < wordBits then modPort p (fun _ => x) h
  else chain [modPort p (fun _ => { x with fecBits := x.fecBits / 2 ^ wordBits, fecLen := x.fecLen - wordBits }),
    emit (.codeword p (overLanes lanes (rsEncode (symbolsOf 514 x.fecBits))))] h

end Sys2Proof.Machine
end

