-- ==== Sys2Proof/Machine/Links.lean ====
section
/-! DEFINITION. The causeway ports (R320 to R338): training, delay measurement, the flit layer, retry and credits. -/

namespace Sys2Proof.Machine

/-- Port states of R325. -/
def stDark : Nat := 0
def stEq : Nat := 1
def stAlign : Nat := 2
def stIdent : Nat := 3
def stMeasure : Nat := 4
def stUp : Nat := 5
def stRetrain : Nat := 6
def stFailed : Nat := 7

def portState (h : Hw) (p : Nat) : Nat := getF h port0_STATUS_STATE p

def setPort (p s : Nat) : Eff := setF port0_STATUS_STATE p s

/-- What training runs: the state, or the part of `RETRAIN` that runs (R325). -/
def trainPhase (h : Hw) (p : Nat) : Nat := if portState h p = stRetrain then (portX h p).phase else portState h p

/-- Training goes on with its next part; within `RETRAIN` the state stays as it is. -/
def setPhase (p s : Nat) : Eff := fun h =>
  if portState h p = stRetrain then modPort p (fun x => { x with phase := s }) h else setPort p s h

/-- `UNACKED`, `CREDITk` and `REPLAY_PEAK` (R355). -/
def showPort (p : Nat) : Eff := fun h =>
  let x := portX h p
  chain [setF port1_STATUS_UNACKED p x.replay.length, peakF port1_REPLAY_PEAK p x.replay.length,
    forE (List.range 4) (fun k => setF (port1_CREDIT k) p (x.credits.getD k 0))] h

-- leaving UP

/-- The flits of a message not yet begun: from the first `SOM` on. -/
def unbegun (l : List QFlit) : List QFlit := l.dropWhile (fun x => !x.f.som)

def begun (l : List QFlit) : List QFlit := l.takeWhile (fun x => !x.f.som)

/-- Group flits into messages: each starts at a `SOM`. -/
def groupMsgs : List QFlit → List (List QFlit)
  | [] => []
  | f :: fs => match groupMsgs fs with
    | [] => [[f]]
    | g :: gs => if (g.headD f).f.som then [f] :: g :: gs else (f :: g) :: gs

/-- A message whose port left `UP` before its first flit is routed again (R352). -/
def routeAgain (vc : Nat) (g : List QFlit) : Eff := fun h =>
  let q := (g.headD { by_ := 0, f := {} }).by_
  let m := parseHeader ((g.headD { by_ := 0, f := {} }).f.payload)
  match routePort h q m with
  | none => discardMsg q m (some 1) false vc h
  | some (p, fb) => chain [whenB fb (raise .pound q 7), modPort p (fun x => setChanQ x (chanQ x vc ++ g) vc)] h

/-- A queued message is a BELL message: it goes to the tree neighbour of its port and nowhere else (R345). -/
def isBell (g : List QFlit) : Bool := ((g.headD { by_ := 0, f := {} }).f.payload.headD 0).toNat % 16 == 4

def rerouteChan (p vc : Nat) : Eff := fun h =>
  let l := chanQ (portX h p) vc
  let gs := groupMsgs (unbegun l)
  chain [modPort p (fun x => setChanQ x (begun l ++ (gs.filter isBell).flatten) vc), forE (gs.filter (fun g => !isBell g)) (routeAgain vc)] h

/-- The port leaves `UP` for state s (R329, R352). -/
def leaveUp (p s : Nat) : Eff :=
  chain [setPort p s, raise .port0 p 1, forE (List.range 4) (rerouteChan p)]

/-- The port enters `RETRAIN` from `UP` (R325, R334). -/
def enterRetrain (p : Nat) : Eff :=
  chain [leaveUp p stRetrain, raise .port0 p 2, modPort p (fun x => { x with phase := stAlign, toReplay := [] })]

/-- The flits that a port holds are lost, and its sequence state starts anew; unacknowledged messages raise `PORT_FAILED`, and those of VC 0
and VC 1 an abandon (R347). What has come in of an incomplete message is discarded at the next `SOM` of its channel (R352). -/
def dropLink (p : Nat) : Eff := fun h =>
  let lost := (portX h p).replay
  chain [modPort p (fun x =>
      { x with
        txSeq := 0, rxSeq := 0, rxAny := false, replay := [], toReplay := [], q0 := [], q1 := [], q2 := [], q3 := []
        starve1 := 0, starve2 := 0 }),
    showPort p, whenB (!lost.isEmpty) (raise .port0 p 3),
    whenB (lost.any (fun r => decide (r.f.vc.toNat ≤ 1))) (abandonQ ⟨.port0, p⟩ (p / 8))] h

-- sending

/-- The header fields that every flit carries: the acknowledgement and returned credits (R330, R332, R336). -/
def stampFlit (x : PortX) (f : Flit) : Flit × PortX :=
  let vc := ((List.range 4).find? (fun k => decide (0 < x.toReturn.getD k 0))).getD 0
  let n := min 255 (x.toReturn.getD vc 0)
  ({ f with ackseq := BitVec.ofNat 12 (x.rxSeq + 4095), ackv := x.rxAny, crvc := BitVec.ofNat 2 vc, crcnt := BitVec.ofNat 8 n },
   { x with toReturn := x.toReturn.set vc (x.toReturn.getD vc 0 - n) })

/-- Send one flit as it stands: it enters the FEC encoder (R322). -/
def putFlit (p : Nat) (f : Flit) : Eff := fun h =>
  let r := stampFlit (portX h p) f
  chain [modPort p (fun _ => r.2), emit (.flit p r.1), fecPut p (flitBytes r.1)] h

/-- Send a link control flit (R333): its type in payload byte 0. -/
def sendControl (p code a b c : Nat) (bytes : List Byte) : Eff :=
  chain [emit (.control p code a b c), putFlit p { kind := 2, payload := BitVec.ofNat 8 code :: bytes }]

/-- Receive buffer sizes in flits (R335). -/
def rxSize : Nat → Nat
  | 0 => 128 | 1 => 64 | _ => 32

/-- A port that enters `IDENT` names itself to its partner (R328). -/
def sendIdent (p : Nat) : Eff := fun h =>
  let dev := deviceId h (p / 8)
  let ep := getF h port0_EPOCH_TX p
  sendControl p 0x10 dev p ep (Config.identBytes
    { device := BitVec.ofNat 17 dev, port := BitVec.ofNat 5 p, epoch := BitVec.ofNat 32 ep, credits := (List.range 4).map rxSize }) h

/-- A round of the delay measurement begins (R327). -/
def sendMeasure (p : Nat) : Eff := sendControl p 0x11 0 0 0 []

-- training

/-- An attempt fails (R329). -/
def trainFail (p : Nat) : Eff := fun h =>
  if portState h p = stRetrain then chain [incF port0_TRAIN_FAIL p, dropLink p, setPort p stEq] h
  else
    let n := (portX h p).failRow + 1
    chain [incF port0_TRAIN_FAIL p, modPort p (fun x => { x with failRow := n }),
      (if 3 ≤ n then chain [setPort p stFailed, raise .port0 p 3] else setPort p stEq)] h

/-- PORT_ENABLE_WRITE (R325, R354). -/
def effPortEnableWrite (p : Port) (v : Bool) : Eff := fun h =>
  let i := p.val
  if v then setFlag port0_CTRL_ENABLE i true h
  else
    let s := portState h i
    chain [setFlag port0_CTRL_ENABLE i false,
      (if s = stUp then leaveUp i stDark else if s = stFailed then skip else setPort i stDark),
      whenB (decide (s ≠ stDark ∧ s ≠ stFailed)) (dropLink i),
      modPort i (fun x => { x with held := false, failRow := 0 })] h

/-- PORT_RETRAIN (R354). -/
def effPortRetrain (p : Port) : Eff := fun h => if portUp h p.val then enterRetrain p.val h else []

/-- SIGNAL_DETECTED (R325). -/
def effSignalDetected (p : Port) : Eff := fun h =>
  if portState h p.val = stDark ∧ flag h port0_CTRL_ENABLE p.val = true ∧ quarterGone h (p.val / 8) = false then
    setPort p.val stEq h
  else []

/-- Width ×4 on the lower or upper lanes (R326). -/
def useX4 (p : Nat) (upper : Bool) : Eff :=
  chain [setFlag port0_STATUS_X4 p true, setFlag port0_STATUS_UPPER p upper,
    setF port0_LANES_ACTIVE p (if upper then 0xF0 else 0x0F), raise .port0 p 6]

/-- EQ_DONE (R326). -/
def effEqDone (p : Port) (lanesOk : BitVec 8) : Eff := fun h =>
  let i := p.val
  let l := lanesOk.toNat
  if portState h i ≠ stEq then []
  else
    chain [setF port0_LANES_FAILED i (255 - l),
      (if l = 255 then chain [setFlag port0_STATUS_X4 i false, setFlag port0_STATUS_UPPER i false, setF port0_LANES_ACTIVE i 255,
          setPort i stAlign]
        else if flag h port0_CTRL_ALLOW_X4 i && decide (l % 16 = 15) then chain [useX4 i false, setPort i stAlign]
        else if flag h port0_CTRL_ALLOW_X4 i && decide (l / 16 = 15) then chain [useX4 i true, setPort i stAlign]
        else trainFail i)] h

/-- Training goes on with the exchange of identities. -/
def enterIdent (p : Nat) : Eff := chain [setPhase p stIdent, sendIdent p]

/-- ALIGN_DONE (R326): `partner` is the half of the lanes that the partner runs on, none for all eight. -/
def effAlignDone (p : Port) (partner : Option Bool) : Eff := fun h =>
  let i := p.val
  if trainPhase h i ≠ stAlign then []
  else
    match partner with
    | none => enterIdent i h
    | some u =>
      if flag h port0_STATUS_X4 i then (if flag h port0_STATUS_UPPER i = u then enterIdent i h else trainFail i h)
      else if flag h port0_CTRL_ALLOW_X4 i then chain [useX4 i u, enterIdent i] h
      else trainFail i h

/-- The partner differs from what the registers expect (R328). -/
def peerWrong (h : Hw) (p : Nat) (id : Ident) : Bool :=
  (flag h port0_PEER_EXPECT_CHECK p &&
    (decide (id.device.toNat ≠ getF h port0_PEER_EXPECT_DEVICE p) || decide (id.port.toNat ≠ getF h port0_PEER_EXPECT_PORT p))) ||
  (decide (getF h port0_EPOCH_EXPECT p ≠ 0) && decide (id.epoch.toNat ≠ getF h port0_EPOCH_EXPECT p))

/-- IDENT (R328, R336). -/
def effIdent (p : Port) (id : Ident) : Eff := fun h =>
  let i := p.val
  if trainPhase h i ≠ stIdent then []
  else
    let bad := peerWrong h i id
    chain [setF port0_PEER_ID_DEVICE i id.device.toNat, setF port0_PEER_ID_PORT i id.port.toNat,
      setFlag port0_PEER_ID_VALID i (!bad), setF port0_PEER_EPOCH i id.epoch.toNat,
      modPort i (fun x => { x with held := bad }),
      (if bad then raise .port0 i 4
        else chain [setPhase i stMeasure, modPort i (fun x =>
          { x with
            credits := (List.range 4).map (fun k => id.credits.getD k 0), rxUsed := [0, 0, 0, 0], toReturn := [0, 0, 0, 0]
            rounds := 0, sum := 0 }), showPort i, sendMeasure i])] h

/-- MEASURE_REQUEST (R327): answered with t3 − t2. -/
def effMeasureRequest (p : Port) (t2 t3 : Nat) : Eff := fun h =>
  if trainPhase h p.val = stMeasure ∨ portUp h p.val = true then
    sendControl p.val 0x12 (t3 - t2) 0 0 (Config.measureBytes (t3 - t2)) h
  else []

/-- The port enters `UP` with a new delay (R327, R334). -/
def enterUp (p : Nat) (d : Nat) : Eff := fun h =>
  let prev := getF h port0_DELAY p
  let d := d % 2 ^ 24
  let shift := (portX h p).everUp && (decide (prev + 16 < d) || decide (d + 16 < prev))
  chain [setF port0_DELAY_PREV p prev, setF port0_DELAY p d, incF port0_TRAIN_COUNT p, setPort p stUp, raise .port0 p 0,
    whenB shift (raise .port0 p 5),
    modPort p (fun x => { x with everUp := true, failRow := 0, toReplay := x.replay.map (·.f.seq.toNat) })] h

/-- MEASURE_RESPONSE (R327): after 64 rounds D_p is set. -/
def effMeasureResponse (p : Port) (t1 t4 diff : Nat) : Eff := fun h =>
  let i := p.val
  if trainPhase h i ≠ stMeasure then []
  else
    let x := portX h i
    let s := x.sum + (((t4 : Int) - t1) - diff)
    if 63 ≤ x.rounds then
      chain [modPort i (fun x => { x with rounds := 0, sum := 0 }), enterUp i (wrapInt ((s + 64) / 128) 24)] h
    else chain [modPort i (fun x => { x with rounds := x.rounds + 1, sum := s }), sendMeasure i] h

/-- LINK_DOWN (R329). -/
def effLinkDown (p : Port) : Eff := fun h => if portUp h p.val then enterRetrain p.val h else []

/-- TRAIN_TIMEOUT (R329): a port held by a mismatch stays in `IDENT` (R328). -/
def effTrainTimeout (p : Port) : Eff := fun h =>
  let s := portState h p.val
  if (portX h p.val).held then []
  else if (stEq ≤ s ∧ s ≤ stMeasure) ∨ s = stRetrain then trainFail p.val h
  else []

-- the flit layer

/-- Send a new data flit: it takes a sequence number and a credit, and stays in the replay buffer (R332, R335). -/
def sendData (p vc : Nat) (f : Flit) : Eff := fun h =>
  let x := portX h p
  let g := { f with seq := BitVec.ofNat 12 x.txSeq, vc := BitVec.ofNat 2 vc, kind := 0 }
  chain [putFlit p g, incF port1_FLITS_TX p,
    modPort p (fun x =>
      { x with
        txSeq := (x.txSeq + 1) % 4096, replay := x.replay ++ [{ f := g, sent := h.clk }]
        credits := x.credits.set vc (x.credits.getD vc 0 - 1) }),
    showPort p] h

/-- A data flit of a channel may be sent. -/
def maySend (x : PortX) (vc : Nat) : Bool :=
  !(chanQ x vc).isEmpty && decide (0 < x.credits.getD vc 0) && decide (x.replay.length < 256)

/-- The channel of the next new flit: VC 3, VC 0, VC 1, VC 2 in that order, but VC 1 and VC 2 have one slot in every 16 (R337). -/
def pickVc (x : PortX) : Option Nat :=
  if maySend x 1 && decide (14 ≤ x.starve1) then some 1
  else if maySend x 2 && decide (14 ≤ x.starve2) then some 2
  else [3, 0, 1, 2].find? (maySend x)

/-- A bell token that has waited, in its channel or in the replay buffer, is formed anew for the clk it is sent in: `ACC` covers the wait, and
the message CRC with it (R262, R345). -/
def reformToken (f : Flit) (wait : Nat) : Flit :=
  let b := f.payload.headD 0
  if f.som && b == 0x04 then
    let acc := ofLe ((f.payload.drop 56).take 4) + 16 * wait
    let body := f.payload.take 56 ++ leBytes 4 acc ++ (f.payload.drop 60).take 12
    { f with payload := body ++ leBytes 4 (crc32c body) }
  else f

/-- Replay the oldest flit that waits for it; the eighth replay of one flit takes the port to `RETRAIN` (R334). -/
def replayOne (p seq : Nat) : Eff := fun h =>
  match (portX h p).replay.find? (fun r => r.f.seq.toNat == seq) with
  | none => modPort p (fun x => { x with toReplay := x.toReplay.drop 1 }) h
  | some r =>
    let f := { reformToken r.f (h.clk - r.sent) with replay := true }
    chain [putFlit p f, incF port1_REPLAYS p,
      modPort p (fun x =>
        { x with
          toReplay := x.toReplay.drop 1
          replay := x.replay.map (fun y => if y.f.seq.toNat == seq then { y with f := { f with replay := false }, n := y.n + 1, sent := h.clk } else y) }),
      whenB (decide (8 ≤ r.n + 1)) (enterRetrain p)] h

/-- FLIT_SLOT (R337): a pending replay, then a new data flit, then a null flit. -/
def effFlitSlot (p : Port) (t : Nat) : Eff := atClk t (fun h =>
  let i := p.val
  let x := portX h i
  if !portUp h i then []
  else
    match x.toReplay with
    | s :: _ => replayOne i s h
    | [] =>
      let pick := pickVc x
      let wait := fun (k n : Nat) => if pick = some k ∨ maySend x k = false then 0 else n + 1
      chain [modPort i (fun x => { x with starve1 := wait 1 x.starve1, starve2 := wait 2 x.starve2 }),
        (match pick with
          | some vc => (match chanQ x vc with
            | [] => skip
            | f :: fs => chain [modPort i (fun x => setChanQ x fs vc), sendData i vc (reformToken f.f (h.clk - f.since))])
          | none => putFlit i { kind := 1 })] h)

/-- An acknowledgement up to `ackseq` frees the replay buffer (R332). -/
def ackUpTo (p ackseq : Nat) : Eff := fun h =>
  let x := portX h p
  if x.replay.any (fun r => r.f.seq.toNat == ackseq) then
    let left := (x.replay.dropWhile (fun r => r.f.seq.toNat != ackseq)).drop 1
    chain [modPort p (fun x => { x with replay := left, toReplay := x.toReplay.filter (fun s => left.any (fun r => r.f.seq.toNat == s)) }),
      showPort p] h
  else []

/-- Credits come back (R336). -/
def addCredits (p vc n : Nat) : Eff :=
  chain [modPort p (fun x => { x with credits := x.credits.set vc (x.credits.getD vc 0 + n) }), showPort p]

/-- A NAK of the expected sequence number (R333, R334). -/
def sendNak (p : Nat) : Eff := fun h => sendControl p 0x02 (portX h p).rxSeq 0 0 (0 :: leBytes 2 (portX h p).rxSeq) h

/-- A flit is discarded whole (R331, R334). -/
def discardFlit (p : Nat) : Eff := chain [incF port1_CRC_ERR p, raise .port1 p 0, sendNak p]

/-- A data flit in sequence with room is accepted (R332, R338); a `SOM` on a channel whose message is incomplete discards that
message, whose header its first flit held (R347, R352). -/
def acceptFlit (p : Nat) (fl : Flit) : Eff := fun h =>
  let vc := fl.vc.toNat
  let half := fl.som && (portX h p).asmOn.getD vc false
  chain [incF port1_FLITS_RX p,
    modPort p (fun x =>
      { x with
        rxSeq := (x.rxSeq + 1) % 4096, rxAny := true, rxUsed := x.rxUsed.set vc (x.rxUsed.getD vc 0 + 1)
        asmOn := x.asmOn.set vc (!fl.eom), asmHead := if fl.som then x.asmHead.set vc fl.payload else x.asmHead }),
    whenB half (discardMsg (p / 8) (parseHeader ((portX h p).asmHead.getD vc [])) (some 0) true vc)] h

/-- A data flit (R332, R334, R335): buffer that has been freed is the peer's credit only once it has been returned. -/
def dataFlit (p : Nat) (fl : Flit) : Eff := fun h =>
  let x := portX h p
  let ahead := (fl.seq.toNat + 4096 - x.rxSeq) % 4096
  if ahead = 0 then
    (if x.rxUsed.getD fl.vc.toNat 0 + x.toReturn.getD fl.vc.toNat 0 < rxSize fl.vc.toNat then acceptFlit p fl h
      else chain [raise .port1 p 3, enterRetrain p] h)
  else if 2048 ≤ ahead then []
  else sendNak p h

/-- A flit sets a reserved value of its header (R330). -/
def flitReserved (fl : Flit) : Bool :=
  fl.kind == 3 || (fl.kind == 0 && (fl.vlen == 0 || decide (241 ≤ fl.vlen.toNat)))

/-- FLIT_RECEIVE (R323, R330 to R336): `fecOk` says that no codeword that overlaps the flit was uncorrectable; `corrected` and `uncorr` count the
corrected symbols and the uncorrectable codewords among those that begin in the flit, or in the marker block before it. -/
def effFlitReceive (p : Port) (fl : Flit) (crcOk fecOk : Bool) (corrected uncorr : Nat) : Eff := fun h =>
  let i := p.val
  if !portUp h i then []
  else
    chain [addF port1_FEC_CORR i corrected, modPort i (fun x => { x with fecSyms := x.fecSyms + corrected }),
      whenB (decide (0 < uncorr)) (addF port1_FEC_UNCORR i uncorr),
      (if !crcOk || !fecOk || decide (0 < uncorr) || flitReserved fl then discardFlit i
        else chain [whenB fl.ackv (ackUpTo i fl.ackseq.toNat), whenB (fl.crcnt != 0) (addCredits i fl.crvc.toNat fl.crcnt.toNat),
          whenB (fl.kind == 0) (dataFlit i fl)])] h

/-- ACK (R332, R333). -/
def effAck (p : Port) (ackseq : BitVec 12) : Eff := whenE (fun h => portUp h p.val) (ackUpTo p.val ackseq.toNat)

/-- NAK (R334): replay from the expected sequence number. -/
def effNak (p : Port) (expected : BitVec 12) : Eff := fun h =>
  let l := ((portX h p.val).replay.dropWhile (fun r => r.f.seq != expected)).map (·.f.seq.toNat)
  if portUp h p.val then modPort p.val (fun x => { x with toReplay := l }) h else []

/-- CREDIT (R336). -/
def effCredit (p : Port) (c0 c1 c2 c3 : BitVec 16) : Eff := whenE (fun h => portUp h p.val)
  (chain [addCredits p.val 0 c0.toNat, addCredits p.val 1 c1.toNat, addCredits p.val 2 c2.toNat, addCredits p.val 3 c3.toNat])

/-- REPLAY_TIMEOUT (R334). -/
def effReplayTimeout (p : Port) : Eff := whenE (fun h => portUp h p.val)
  (modPort p.val (fun x => { x with toReplay := x.replay.map (·.f.seq.toNat) }))

/-- CREDIT_STALL (R337). -/
def effCreditStall (p : Port) (vc : Fin 4) : Eff := fun h =>
  let x := portX h p.val
  if portUp h p.val && !(chanQ x vc.val).isEmpty && decide (x.credits.getD vc.val 0 = 0) then raise .port1 p.val 2 h else []

/-- FEC_GROUP_END (R323). -/
def effFecGroupEnd (p : Port) : Eff := fun h =>
  chain [whenB (decide (getF h port1_FEC_LIMIT p.val < (portX h p.val).fecSyms)) (raise .port1 p.val 1),
    modPort p.val (fun x => { x with fecSyms := 0 })] h

/-- Send a one-flit message of VC 3 in the coming flit slot, or queue it where a replay, the replay buffer or credit holds it up
(R345). -/
def sendBellMsg (p : Nat) (m : Msg) : Eff := fun h =>
  let x := portX h p
  if !portUp h p then []
  else
    match toFlits 3 1 true (msgBytes m) with
    | f :: _ =>
      if x.toReplay.isEmpty && decide (0 < x.credits.getD 3 0) && decide (x.replay.length < 256) && x.q3.all (fun y => y.f.som) then
        sendData p 3 f h
      else modPort p (fun x => { x with q3 := x.q3 ++ [{ by_ := p / 8, f := f, since := h.clk }] }) h
    | [] => []

-- meanings, one per command

/-- PORT_ENABLE_WRITE. -/
def execPortEnableWrite (p : Port) (v : Bool) (s : State) : Host.Outcome State Fault Refusal :=
  run (byQuarter (p.val / 8) (effPortEnableWrite p v)) s

/-- PORT_RETRAIN. -/
def execPortRetrain (p : Port) (s : State) : Host.Outcome State Fault Refusal :=
  run (byQuarter (p.val / 8) (effPortRetrain p)) s

/-- EQ_DONE. -/
def execEqDone (p : Port) (lanesOk : BitVec 8) (s : State) : Host.Outcome State Fault Refusal :=
  run (effEqDone p lanesOk) s

/-- ALIGN_DONE. -/
def execAlignDone (p : Port) (partner : Option Bool) (s : State) : Host.Outcome State Fault Refusal :=
  run (effAlignDone p partner) s

/-- IDENT. -/
def execIdent (p : Port) (id : Ident) (s : State) : Host.Outcome State Fault Refusal :=
  run (effIdent p id) s

/-- MEASURE_REQUEST. -/
def execMeasureRequest (p : Port) (t2 t3 : Nat) (s : State) : Host.Outcome State Fault Refusal :=
  run (effMeasureRequest p t2 t3) s

/-- MEASURE_RESPONSE. -/
def execMeasureResponse (p : Port) (t1 t4 diff : Nat) (s : State) : Host.Outcome State Fault Refusal :=
  run (effMeasureResponse p t1 t4 diff) s

/-- LINK_DOWN. -/
def execLinkDown (p : Port) (s : State) : Host.Outcome State Fault Refusal :=
  run (effLinkDown p) s

/-- TRAIN_TIMEOUT. -/
def execTrainTimeout (p : Port) (s : State) : Host.Outcome State Fault Refusal :=
  run (effTrainTimeout p) s

/-- FLIT_SLOT. -/
def execFlitSlot (p : Port) (t : Nat) (s : State) : Host.Outcome State Fault Refusal :=
  run (effFlitSlot p t) s

/-- FLIT_RECEIVE. -/
def execFlitReceive (p : Port) (fl : Flit) (crcOk fecOk : Bool) (corrected : Nat) (s : State) (uncorr : Nat := 0) :
    Host.Outcome State Fault Refusal :=
  run (effFlitReceive p fl crcOk fecOk corrected uncorr) s

/-- ACK. -/
def execAck (p : Port) (ackseq : BitVec 12) (s : State) : Host.Outcome State Fault Refusal :=
  run (effAck p ackseq) s

/-- NAK. -/
def execNak (p : Port) (expected : BitVec 12) (s : State) : Host.Outcome State Fault Refusal :=
  run (effNak p expected) s

/-- CREDIT. -/
def execCredit (p : Port) (c0 c1 c2 c3 : BitVec 16) (s : State) : Host.Outcome State Fault Refusal :=
  run (effCredit p c0 c1 c2 c3) s

/-- REPLAY_TIMEOUT. -/
def execReplayTimeout (p : Port) (s : State) : Host.Outcome State Fault Refusal :=
  run (effReplayTimeout p) s

/-- CREDIT_STALL. -/
def execCreditStall (p : Port) (vc : Fin 4) (s : State) : Host.Outcome State Fault Refusal :=
  run (effCreditStall p vc) s

/-- FEC_GROUP_END. -/
def execFecGroupEnd (p : Port) (s : State) : Host.Outcome State Fault Refusal :=
  run (effFecGroupEnd p) s

/-- SIGNAL_DETECTED. -/
def execSignalDetected (p : Port) (s : State) : Host.Outcome State Fault Refusal :=
  run (effSignalDetected p) s

end Sys2Proof.Machine
end

