-- ==== Sys2Proof/Machine/Watch.lean ====
section
/-! DEFINITION. The check unit's decisions and the watch (R403 to R423): diagnoses, random-operand tiles, slots, votes, quarantine
and the quarantine signals. -/

namespace Sys2Proof.Machine

-- the check unit

def showDiag (c : Nat) : Eff := look (fun h => (croftX h c).diag.length) (fun n => setF check_STATUS_DIAG_QUEUE c n)

/-- A checker found at fault is marked; with all eight entries in use the croft is quarantined (R405). -/
def markChecker (c f i j kind : Nat) : Eff := fun h =>
  if markedCell h c f i j kind then []
  else match (List.range 8).find? (fun m => !flag h (check_MARK_VALID m) c) with
    | none => chain [raise .check c 3, quarantineCroft c] h
    | some m => chain [setF (check_MARK_ROW m) c i, setF (check_MARK_COL m) c j, setF (check_MARK_FIELD m) c f,
        setF (check_MARK_KIND m) c kind, setFlag (check_MARK_VALID m) c true] h

/-- The re-execution finds the checker at fault: the product is what the check engine forms, or the value's parity is what was stored
(R403). -/
def checkerFault (m : Capture) : Bool :=
  if m.kind = 1 then decide (m.va * m.vw = m.p) else decide (parityBits m.value (if m.kind = 2 then 16 else 12) 3 = m.stored)

/-- CHECK_DIAGNOSIS (R403 to R405): the oldest capture is decided. -/
def effCheckDiagnosis (c : Croft) (t : Nat) : Eff := atClk t (fun h =>
  let cv := c.val
  match (croftX h cv).diag with
  | [] => []
  | m :: rest =>
    let chk := checkerFault m
    chain [modCroft cv (fun x => { x with diag := rest }), showDiag cv,
      setF check_DIAG_INFO_FIELD cv m.field, setF check_DIAG_INFO_KIND cv m.kind, setFlag check_DIAG_INFO_CHECKER cv chk,
      setFlag check_DIAG_INFO_FORCED cv m.forced, setFlag check_DIAG_INFO_VALID cv true,
      (if chk then chain [incF check_CHECKER_FAULTS cv, raise .check cv 0, markChecker cv m.field m.row m.col m.kind]
        else resultFault cv (!m.forced && !m.watch))] h)

/-- At a bell edge the cell checks' events of earlier clks occur; those of the edge's own clk, or of one that the skew brings later, wait
for the next (R117). -/
def fieldEdge (fi : Nat) : Eff := fun h =>
  let due := (fieldX h fi).pendEv.filter (fun e => decide (e.1 < h.clk))
  if due.isEmpty then []
  else chain [modField fi (fun x => { x with pendEv := x.pendEv.filter (fun e => decide (h.clk ≤ e.1)) }),
    raiseMask .field fi (due.foldl (fun m e => m ||| 2 ^ e.2) 0)] h

-- the tile (R412, R413)

/-- Formats of activations and weights of slot number j: F8E, F4, F6 × F8W, Q4, Q8, W16, F8W, Q2 × F6. -/
def watchPair (j : Nat) : Nat × Nat :=
  ([(11, 11), (9, 9), (10, 12), (4, 4), (8, 8), (13, 13), (12, 12), (2, 10)] : List (Nat × Nat)).getD (j / 64 % 8) (11, 11)

def watchGanged (j : Nat) : Bool := j / 64 % 8 == 4 || j / 64 % 8 == 5

def watchRotates (j : Nat) : Bool := j / 512 % 2 == 1

/-- K-steps of the tile. -/
def watchSteps (j : Nat) : Nat := if watchGanged j then 256 else 1024

/-- An operand code: the generator's low bits, 0 in place of a NaN or infinity code. -/
def watchCode (seed j fm p : Nat) : Nat :=
  let code := bits (genRandom seed j 0xFFFF p) (fmtWidth fm - 1) 0
  if isQn fm || isFin (decodeFp fm code) then code else 0

/-- A block header for the codes of a block. -/
def watchHeader (seed j fm p : Nat) (codes : List Nat) : Nat :=
  let r := genRandom seed j 0xFFFF p
  if isQn fm then mkHdr (bits r (fmtWidth fm + 3) 4) (0x78 + bits r 3 0)
  else mkHdr (auxOf fm codes) (if fm = fmtW16 then 0x7F else 0x78 + bits r 3 0)

/-- Activation codes of row i in run r, and weight codes of column c of field f. -/
def watchActs (seed j r i : Nat) : List Nat := (List.range 32).map (fun k => watchCode seed j (watchPair j).1 (256 * (32 * r + k) + i))
def watchWeights (seed j f r c : Nat) : List Nat :=
  (List.range 32).map (fun k => watchCode seed j (watchPair j).2 (2 ^ 18 * (1 + f) + 256 * (32 * r + k) + c))

/-- Elements of cell (i, c) of field f in k-step k of the tile, as presented. -/
def watchPresented (seed j f i c k : Nat) : Option (Int × Int) × Option (Int × Int) :=
  let fa := (watchPair j).1
  let fw := (watchPair j).2
  let r := k / 32
  let as := watchActs seed j r i
  let ws := watchWeights seed j f r c
  (presented fa (as.getD (k % 32) 0) (watchHeader seed j fa (2 ^ 21 + 256 * r + i) as),
   presented fw (ws.getD (k % 32) 0) (watchHeader seed j fw (2 ^ 21 + 2 ^ 13 * (1 + f) + 256 * r + c) ws))

/-- The run register of cell (i, c) of field f in run r after the first n of its k-steps. -/
def watchReg (seed j f i c r n : Nat) : RunReg :=
  let fa := (watchPair j).1
  let fw := (watchPair j).2
  let ha := watchHeader seed j fa (2 ^ 21 + 256 * r + i) (watchActs seed j r i)
  let hw := watchHeader seed j fw (2 ^ 21 + 2 ^ 13 * (1 + f) + 256 * r + c) (watchWeights seed j f r c)
  (List.range n).foldl (fun x k => let e := watchPresented seed j f i c (32 * r + k); takeProduct x e.1 e.2 0) (startRun fa fw ha hw)

/-- The accumulator of cell (i, c) of field f after the first n runs of the tile. -/
def watchAcc (seed j f i c n : Nat) : BitVec 36 := (List.range n).foldl (fun a r => foldAcc a (watchReg seed j f i c r 32)) 0

def watchCell (seed j f i c : Nat) : BitVec 36 := watchAcc seed j f i c (watchSteps j / 32)

/-- The bytes that row i of field f contributes to the CRC: 256 packed codes, then eight headers (R414). -/
def watchRowBytes (seed j f i : Nat) : List Byte :=
  let fm := if watchGanged j then fmtW16 else 11
  let d : DrainReq :=
    { id := 0, stream := 0, run := 0, takenClk := 0, fields := 15, fmtOut := fm, jit := !watchGanged j, rot := watchRotates j
      dest := false, outl := false, group := 0, target := 0, cols := [], wdStore := 0 }
  let o := rowStages f fm d 127 0 false ((List.range 256).map (fun c => a36Num (watchCell seed j f i c)))
  leBytes (32 * fmtWidth fm) (packCodes (fmtWidth fm) (o.blocks.flatMap (·.codes))) ++ o.blocks.flatMap (fun b => leBytes 2 b.hdr)

/-- The four CRCs that a croft without a fault forms in a slot of number j (R414). -/
def watchCrcs (seed j : Nat) : List Word :=
  (List.range 4).map (fun f => BitVec.ofNat 32 (crc32c ((List.range 256).flatMap (watchRowBytes seed j f))))

-- slots

def watchSeed (h : Hw) : Nat := getPair h watch_SEED_LO watch_SEED_HI 0

def watchJ (h : Hw) : Nat := getPair h watch_SLOT_LO watch_SLOT_HI 0

def setJ (j : Nat) : Eff := setPair watch_SLOT_LO watch_SLOT_HI 0 (j % 2 ^ 48)

/-- The divisor of the share (R408). -/
def shareDiv (s : Nat) : Nat := 512 / 2 ^ s

/-- Window length of an interval of `period` (R408). -/
def watchWin (h : Hw) (period : Nat) : Nat :=
  let s := getF h watch_CTRL_SHARE 0
  if s = 0 ∨ 4 < s then 0 else 12 * period / shareDiv s

/-- The subject of slot number j (R410). -/
def rotSubject (j : Nat) : Nat := 16 * (j % 4) + j / 4 % 16

/-- The crofts after c in the order of R410 that are not quarantined: the twin, then the third. -/
def rotOthers (h : Hw) (c : Nat) : List Nat := [(c + 16) % 64, (c + 32) % 64, (c + 48) % 64].filter (fun k => !quarantined h k)

/-- j advances by one; a multiple of 64 completes a rotation (R410). -/
def advanceJ : Eff := fun h =>
  let j := (watchJ h + 1) % 2 ^ 48
  chain [setJ j, whenB (decide (j % 64 = 0)) (chain [incF watch_ROTATIONS 0, raise .watch 0 6])] h

/-- The first of up to n slot numbers from j whose subject and twin can run, and how many are skipped. -/
def findRot (h : Hw) : Nat → Nat → Nat → Option (Nat × Nat × Nat)
  | 0, _, _ => none
  | n + 1, j, skipped =>
    let c := rotSubject j
    match quarantined h c, rotOthers h c with
    | false, t :: _ => some (skipped, c, t)
    | _, _ => findRot h n ((j + 1) % 2 ^ 48) (skipped + 1)

/-- The first croft of quarter q that the rotation reaches from slot number j (R415). -/
def owedSubject (h : Hw) (q : Nat) : Option Nat :=
  ((List.range 64).map (fun k => rotSubject (watchJ h + k))).find? (fun c => c / 16 == q && !quarantined h c)

/-- A croft cannot be taken: a field claimed or busy, the lane serving a pass, or the croft not there (R411). -/
def croftTaken (h : Hw) (c : Nat) : Bool :=
  quarterGone h (c / 16) ||
    (List.range 4).any (fun f => getF h field_STATUS_OWNER (4 * c + f) != 0 || flag h field_STATUS_BUSY (4 * c + f)) ||
    (match (croftX h c).lane with | [] => false | p :: _ => p.granted.isSome)

def showWatch : Eff := fun h => chain [setFlag watch_STATUS_VOTE_PENDING 0 (!h.gate.votes.isEmpty), setF watch_STATUS_OWED 0 h.gate.owed.length,
  setFlag watch_STATUS_SLOT_ACTIVE 0 (!h.gate.watchCrofts.isEmpty)] h

def nextSlot : Eff := modGate (fun g => { g with slotNo := g.slotNo + 1 })

/-- The watch takes a croft for its tile (R411, R412): its four fields are busy and loaded with zero. The tile's sums are in the
accumulators only until its drain has reloaded them with `ZERO` (R175), and no read shows them meanwhile (R119); a reset in between leaves
them undefined as it leaves all (R119). DESIGN CHOICE, log 42. -/
def takeCroft (c : Nat) : Eff := forE (List.range 4) (fun f => chain [setFlag field_STATUS_BUSY (fldIx c f) true,
  setFlag field_ACC_DATA_HI_VALID (fldIx c f) false, fun _ => [.zeroAccs (fldIx c f)],
  modField (fldIx c f) (fun x => { x with loaded := true, kept := false })])

/-- A slot begins on the crofts it uses, or is missed (R411); its tile's plots count from slot clk 256 to 1,311, and it ends in slot clk
2,047 (R412, R456). -/
def startSlot (subject : Nat) (used : List Nat) (other : Option Nat) (use : Nat) (taken : Eff) : Eff := fun h =>
  if used.any (croftTaken h) then chain [nextSlot, incF watch_MISSED 0, raise .watch 0 0] h
  else chain [nextSlot, modGate (fun g => { g with
      slot := some (subject, other, use), watchCrofts := used, watchDue := [(h.clk + 256, 0), (h.clk + 1312, 1), (h.clk + 2047, 2)] }),
    setF watch_STATUS_SUBJECT 0 subject, forE used takeCroft, taken, showWatch] h

/-- Capture a vote's roles and outcome (R416, R417). -/
def captureVote (v : VoteX) (outcome : Nat) : Eff := whenE (fun h => !flag h watch_VOTE_INFO_VALID 0)
  (chain [setF watch_VOTE_INFO_SUBJECT 0 v.subject, setF watch_VOTE_INFO_TWIN 0 v.twin, setF watch_VOTE_INFO_THIRD 0 (v.third.getD 0),
    setF watch_VOTE_INFO_OUTCOME 0 outcome, setFlag watch_VOTE_INFO_INJECTED 0 v.injected, setFlag watch_VOTE_INFO_VALID 0 true])

/-- A croft loses a vote (R416); an injected disagreement quarantines none (R417). -/
def loseVote (v : VoteX) (c : Nat) : Eff := whenB (!v.injected) (chain [quarantineCroft c, raise .check c 8])

def watchHold : Eff := chain [setFlag watch_STATUS_HOLD_REQ 0 true, askHold]

/-- The oldest vote ends with an outcome (R416). -/
def endVote (v : VoteX) (outcome : Nat) : Eff := chain [
  modGate (fun g => { g with votes := g.votes.drop 1 }), showWatch, captureVote v outcome,
  (match outcome with
    | 1 => chain [loseVote v v.twin, raise .watch 0 2]
    | 2 => chain [loseVote v v.subject, raise .watch 0 2]
    | 3 => chain [loseVote v v.subject, loseVote v v.twin, forE v.third.toList (loseVote v), raise .watch 0 3]
    | _ => chain [raise .watch 0 4, whenB (!v.injected) watchHold])]

/-- The slot of a pending vote: without a third croft it ends with outcome 4 and the slot goes unused. -/
def voteSlot (v : VoteX) : Eff := fun h =>
  match v.third with
  | none => chain [nextSlot, endVote v 4] h
  | some c => if quarantined h c then chain [nextSlot, endVote v 4] h else startSlot v.subject [c] (some c) 1 skip h

/-- WATCH_SLOT (R409 to R411, R415): the next slot of the window, for a vote, an owed slot or the rotation. -/
def effWatchSlot (t : Nat) : Eff := atClk t (fun h =>
  let g := h.gate
  if g.slot.isSome || decide (getF h watch_SLOTS 0 ≤ g.slotNo) || decide (h.clk < g.winStart + 2048 * g.slotNo) || flag h bellMaster_STATUS_HELD 0
  then []
  else match g.votes, g.owed with
    | v :: _, _ => voteSlot v h
    | [], q :: qs =>
      let drop := chain [modGate (fun g => { g with owed := qs }), showWatch]
      (match owedSubject h q with
        | none => chain [nextSlot, drop] h
        | some c => match rotOthers h c with
          | [] => chain [nextSlot, drop] h
          | w :: _ => startSlot c [c, w] (some w) 2 drop h)
    | [], [] =>
      (match findRot h 64 (watchJ h) 0 with
        | none => chain [forE (List.range 64) (fun _ => advanceJ), nextSlot] h
        | some (n, c, w) => chain [forE (List.range n) (fun _ => advanceJ), startSlot c [c, w] (some w) 0 skip] h))

/-- The crofts after the twin w in the order of R410. -/
def afterTwin (c w : Nat) : List Nat := (([(c + 16) % 64, (c + 32) % 64, (c + 48) % 64].dropWhile (fun k => k != w)).drop 1)

/-- Subject and twin agree, or disagree (R410, R414, R416, R417). -/
def compareTile (c w use : Nat) (xs xt : List Word) : Eff := fun h =>
  let inj := decide (use = 0) && flag h watch_CTRL_INJ_TWIN 0
  let xt := if inj then (match xt with | x :: r => ~~~x :: r | [] => []) else xt
  let v : VoteX :=
    { subject := c, twin := w, third := (afterTwin c w).find? (fun k => !quarantined h k), xs := xs, xt := xt, injected := inj,
      slotJ := watchJ h }
  chain [whenB inj (setFlag watch_CTRL_INJ_TWIN 0 false),
    whenB (decide (xs ≠ xt)) (chain [raise .watch 0 1, incF watch_MISMATCHES 0, modGate (fun g => { g with votes := g.votes ++ [v] }), showWatch]),
    whenB (decide (use = 0)) advanceJ] h

/-- What the check unit captures of a cell fault in a tile of slot number j (R404). -/
def watchCapture (h : Hw) (j : Nat) (e : WatchErr) : List Capture :=
  let seed := watchSeed h
  let f := e.err.field.val
  let i := e.err.row.val
  let c := e.err.col.val
  let k := e.k.val
  let own := 256 * i + c
  let gang := watchGanged j
  let at' := fun (cell kind : Nat) => { capAt h.clk f cell kind with watch := true }
  let run := (watchReg seed j f i c (k / 32) (k % 32)).reg
  let sum := (watchReg seed j f i c (k / 32) 32).reg
  let acc := watchAcc seed j f i c (k / 32)
  if watchSteps j ≤ k then []
  else match e.err.kind with
    | .residue =>
      let p := watchPresented seed j f i c k
      let va := (p.1.getD (0, 0)).1
      let vw := (p.2.getD (0, 0)).1
      (residueCells gang e.err).map (fun cell => { at' cell 1 with va := va, vw := vw, p := va * vw + errOff gang e.err })
    | .runParity => (parityCheck (wrapInt run 48) (wrapInt (run + e.err.delta) 48) 16 e.err.flips (at' own 2)).toList
    | .runFold => (parityCheck (wrapInt sum 48) (wrapInt (sum + e.err.delta) 48) 16 e.err.flips (at' own 2)).toList
    | .accParity =>
      (parityCheck acc.toNat (BitVec.ofNat 36 (wrapInt ((acc.toNat : Int) + e.err.delta) 36)).toNat 12 e.err.flips (at' own 3)).toList
    | .path => []

/-- An injection armed on a field is used up by the tile's first check of its kind, for the tile enables every cell (R118, R412). -/
def watchInjections (c j : Nat) : Eff := forE (List.range 4) (fun f => fun h =>
  let fi := fldIx c f
  let x := (fieldX h fi).injCells
  let e := watchPresented (watchSeed h) j f (x.1 / 256) (x.1 % 256) 0
  let va := (e.1.getD (0, 0)).1
  let vw := (e.2.getD (0, 0)).1
  let i1 := flag h field_CTRL_INJ_RESIDUE fi
  let i2 := flag h field_CTRL_INJ_RUN_PARITY fi
  let i3 := flag h field_CTRL_INJ_ACC_PARITY fi
  chain [clearInj fi field_CTRL_INJ_RESIDUE i1, clearInj fi field_CTRL_INJ_RUN_PARITY i2, clearInj fi field_CTRL_INJ_ACC_PARITY i3,
    recordMismatches c f ((if i1 then [{ capAt h.clk f x.1 1 with va := va, vw := vw, p := va * vw, watch := true }] else []) ++
      (if i2 then [{ capAt h.clk f x.2.1 2 with watch := true }] else []) ++
      (if i3 then [{ capAt h.clk f x.2.2 3 with watch := true }] else []))] h)

/-- The checks that fired in a croft's tile of slot number j (R402, R404). DESIGN CHOICE: they are recorded with the comparison, log 42. -/
def watchFaults (c j : Nat) (errs : List WatchErr) : Eff := chain [
  watchInjections c j,
  forE (List.range 4) (fun f => fun h =>
    recordMismatches c f ((errs.filter (fun e => e.err.field.val == f)).flatMap (watchCapture h j)) h),
  whenB (errs.any (fun e => e.err.kind == .path)) (pathCheck c true)]

def endSlot : Eff := chain [modGate (fun g => { g with slot := none }), showWatch]

/-- WATCH_COMPARE (R414, R416): `xs` are the CRCs of the subject, or in a vote of the third croft; `xt` are the twin's; `errs` the checks
that fired in the tile. The crofts stay held until the slot ends (R412). -/
def effWatchCompare (xs xt : List Word) (errs : List WatchErr) (t : Nat) : Eff := atClk t (fun h =>
  match h.gate.slot with
  | some (c, some w, use) =>
    if use = 1 then
      (match h.gate.votes with
        | v :: _ => chain [incF check_WATCH_SLOTS w, watchFaults w v.slotJ errs, endSlot, endVote v (if xs = v.xs then 1 else if xs = v.xt then 2 else 3)] h
        | [] => endSlot h)
    else
      let j := watchJ h
      chain [incF check_WATCH_SLOTS c, incF check_WATCH_SLOTS w, watchFaults c j (errs.filter (fun e => !e.twin)), watchFaults w j (errs.filter (fun e => e.twin)), endSlot,
        compareTile c w use xs xt] h
  | _ => [])

/-- A reset of a croft that a running slot uses: the slot is lost and not counted, and its crofts are free again (R423). -/
def loseSlot (p : Nat → Bool) : Eff := fun h =>
  let plots := h.gate.watchDue.any (fun e => e.2 == 1) && !h.gate.watchDue.any (fun e => e.2 == 0)
  if h.gate.watchCrofts.any p then
    chain [forE h.gate.watchCrofts (fun c => chain [watchFree c, whenB plots (tilePlots c false)]),
      modGate (fun g => { g with watchCrofts := [], watchDue := [] }), endSlot] h
  else []

/-- INJ_TWIN (R417). -/
def effInjTwin : Eff := setFlag watch_CTRL_INJ_TWIN 0 true

/-- QUARANTINE (R419). -/
def effQuarantine (c : Croft) : Eff := quarantineCroft c.val

/-- QUARANTINE_CLR (R422): only while the croft does not run. -/
def effQuarantineClr (c : Croft) : Eff := fun h =>
  let cv := c.val
  if !quarantined h cv || croftRunning h cv then []
  else chain [setFlag croft_STATUS_QUARANTINED cv false, forE (List.range 4) (fun f => setFlag field_STATUS_QUARANTINED (4 * cv + f) false),
    setF (quarF cv) 0 (putBits (getF h (quarF cv) 0) (cv % 32) (cv % 32) 0),
    modGate (fun g => { g with quarNew := g.quarNew.filter (fun x => x.1 != cv), quarIn := g.quarIn.filter (· != cv) })] h

-- bell edges

/-- An interval begins: its window and its slots (R408, R409). While the share is 0, the slots owed are dropped (R415). -/
def watchOpen (period : Nat) : Eff := fun h =>
  let w := watchWin h period
  chain [whenB (decide (getF h watch_CTRL_SHARE 0 = 0)) (chain [modGate (fun g => { g with owed := [] }), showWatch]), modGate (fun g => { g with slotNo := 0, winStart := h.clk + 12 * period - w }), setF watch_SLOTS 0 (w / 2048),
    whenB (decide (getF h watch_CTRL_SHARE 0 ≠ 0) && decide (w / 2048 = 0)) (raise .watch 0 7)] h

/-- A brownout-touched interval has ended: one slot is owed to each quarter, unless the share is 0 (R415). -/
def oweSlots : Eff := fun h =>
  if getF h watch_CTRL_SHARE 0 = 0 then []
  else chain [modGate (fun g => { g with owed := List.range 4 }), showWatch] h

/-- The streams of a croft whose quarantine takes effect stop instead of beginning a step (R145, R420). `QUARANTINE_STOP` is raised for a
croft whose streams are `STOPPED` already, too. DESIGN CHOICE (R145), log 16. -/
def stopQuarantined (c : Nat) : Eff := chain [
  whenE (fun h => flag h croft_STATUS_STOPPING c) (setFlag croft_CTRL_RUN c false),
  forE (List.range 3) (fun s => chain [setState (3 * c + s) 0, setFlag stream_STATUS_LATE (3 * c + s) false,
    modStream (3 * c + s) (fun x => { x with passed := false })]),
  setFlag croft_STATUS_STOPPING c false, setFlag croft_STATUS_PARKED c false,
  modCroft c (fun x => { x with stepPend := false, abandoned := false }), raise .croft c 4]

/-- Quarantines set before the clk of a step bell edge take effect at it (R420, R422). -/
def quarantineEdge : Eff := fun h =>
  let due := (h.gate.quarNew.filter (fun x => decide (x.2 < h.clk))).map (·.1)
  let after := h.gate.quarIn ++ due
  let multi := (List.range 4).any (fun q => due.any (fun c => c / 16 == q) && decide (1 < (after.filter (fun c => c / 16 == q)).length))
  chain [modGate (fun g => { g with quarNew := g.quarNew.filter (fun x => decide (h.clk ≤ x.2)), quarIn := after }),
    forE due stopQuarantined, whenB multi (chain [raise .watch 0 5, watchHold])] h

/-- Crofts of quarter q that receive the quarantine signals (R425). -/
def qvarCrofts (h : Hw) (q : Nat) : Nat :=
  getF h ([watch_QVAR_CROFTS_LO_Q0, watch_QVAR_CROFTS_LO_Q1, watch_QVAR_CROFTS_HI_Q2, watch_QVAR_CROFTS_HI_Q3].getD q watch_QVAR_CROFTS_LO_Q0) 0

/-- The quarantine signals (R421). -/
def quarantineSignals : Eff := fun h =>
  if !flag h watch_QVAR_SIG_EN 0 then []
  else forE (List.range 4) (fun q =>
    let low := (List.range 16).find? (fun k => h.gate.quarIn.contains (16 * q + k))
    let sig := getF h watch_QVAR_SIG_SIG 0
    let vals := b2n low.isSome :: (List.range 4).map (fun b => bits (low.getD 0) b b)
    forE ((List.range 16).filter (fun k => bit (qvarCrofts h q) k && !quarterGone h q)) (fun k =>
      forE (List.range 5) (fun i => whenB (decide (sig + i < 64)) (edgeSig (16 * q + k) (sig + i) (vals.getD i 0))))) h

-- meanings, one per command

/-- CHECK_DIAGNOSIS. -/
def execCheckDiagnosis (c : Croft) (t : Nat) (s : State) : Host.Outcome State Fault Refusal :=
  run (effCheckDiagnosis c t) s

/-- WATCH_SLOT. -/
def execWatchSlot (t : Nat) (s : State) : Host.Outcome State Fault Refusal :=
  run (effWatchSlot t) s

/-- WATCH_COMPARE. -/
def execWatchCompare (xs xt : List Word) (t : Nat) (s : State) (errs : List WatchErr := []) : Host.Outcome State Fault Refusal :=
  run (effWatchCompare xs xt errs t) s

/-- INJ_TWIN. -/
def execInjTwin (s : State) : Host.Outcome State Fault Refusal :=
  run (bySoftware effInjTwin) s

/-- QUARANTINE. -/
def execQuarantine (c : Croft) (s : State) : Host.Outcome State Fault Refusal :=
  run (bySoftware (effQuarantine c)) s

/-- QUARANTINE_CLR. -/
def execQuarantineClr (c : Croft) (s : State) : Host.Outcome State Fault Refusal :=
  run (bySoftware (effQuarantineClr c)) s

end Sys2Proof.Machine
end

