-- ==== Sys2Proof/Machine/Resets.lean ====
section
/-! DEFINITION. What each reset kind does to the state (R45, R119, R463, R465, R466): kept, returned to reset values, or left
undefined. -/

namespace Sys2Proof.Machine

-- pages

/-- Offsets of a page's registers that hold RWS fields, and the mask of those fields (R10, R11). -/
def rwsRegs (k : PageKind) : List (Nat × Nat) :=
  ((rowsOf k).filter (fun f => f.acc == .rws)).map (fun f =>
    (f.off, ((rowsOf k).filter (fun g => g.acc == .rws && g.off == f.off)).foldl (fun m g => m ||| fldMask g) 0))

/-- The updates that give pages their RWS values back after a reset: the stored ones after a power-on or a module reset, those
in force before it after any other (R465). -/
def rwsBack (toStored : Bool) (ps : List Page) (h : Hw) : List Upd :=
  ps.flatMap (fun p => (rwsRegs p.kind).map (fun om =>
    let a := pageBase p.kind p.inst + om.1
    let src := if toStored then storedReg h a else reg h a
    let m := BitVec.ofNat 32 om.2
    .regs a ((resetReg a &&& ~~~m) ||| (src &&& m))))

/-- Registers of a range return to their reset values, `LOCK` among them (R45). -/
def dropRegs (toStored : Bool) (ps : List Page) (lo hi : Nat) : Eff := fun h => .drop .regs lo hi :: rwsBack toStored ps h

/-- A croft that the watch page names quarantined (R419). -/
def quarSet (h : Hw) (c : Nat) : Bool := bit (getF h (quarF c) 0) (c % 32)

/-- Quarantines are kept by croft and quarter resets (R465, R466). -/
def keepQuarantine (c : Nat) : Eff := whenE (fun h => quarSet h c)
  (chain [setFlag croft_STATUS_QUARANTINED c true, forE (List.range 4) (fun f => setFlag field_STATUS_QUARANTINED (4 * c + f) true)])

/-- Fallow is left, as a write of 0 or any reset does it (R464). -/
def leaveFallow : Eff := fun h =>
  if flag h reset_CTRL_FALLOW 0 then
    chain [setFlag reset_CTRL_FALLOW 0 false,
      modGate (fun g => { g with goingFallow := false, leavingFallow := flag h reset_STATUS_IN_FALLOW 0 })] h
  else []

-- crofts

/-- What a croft holds beside its pages, barn and accumulators. -/
def clearCroft (c : Nat) : Eff := fun _ =>
  [Upd.crofts c {}] ++ (List.range 3).map (fun s => Upd.streams (3 * c + s) {}) ++ (List.range 4).map (fun f => Upd.fields (4 * c + f) {}) ++
    [Upd.drop .sigs (64 * c) (64 * c + 64), Upd.drop .keepAdds (64 * c) (64 * c + 64), Upd.drop .slots (32 * c) (32 * c + 32),
     Upd.drop .tslots (64 * c) (64 * c + 64)]

def undefAccs (c : Nat) : Eff := fun _ => (List.range 4).map (fun f => .undef (100 + 4 * c + f))

/-- What the gate holds of crofts that are reset: their running watch slot is lost (R423), and an abandon has nothing left to
reach there. -/
def forgetCrofts (p : Nat → Bool) : Eff := chain [loseSlot p,
  modGate (fun g => { g with faultStep := g.faultStep.filter (fun x => !p x.1) }),
  modBell (fun b => { b with reach := b.reach.filter (fun c => !p c) })]

/-- A move that a reset stops leaves the slots of the tiles it partly wrote undefined (R222): free values. -/
def undefSlots (c : Nat) : Eff := fun h =>
  forE ((croftX h c).sluice.flatMap (·.wrote)) (fun key => drawFree (csumSet key)) h

/-- A croft reset (R119, R463, R465): a pass stops at once and releases its plots in the next clk (R456). -/
def resetCroft (c : Nat) : Eff := fun h =>
  let q := c / 16
  let held := match (croftX h c).lane with
    | [] => none
    | p :: _ => if p.granted.isSome then some p.demand else none
  chain [forgetCrofts (· == c),
    modQuarter q (fun x => { x with
      order := x.order.filter (fun o => o.1 != c)
      releases := x.releases ++ (held.toList.map (fun d => (c, d, h.clk + 1)))
      sendRows := x.sendRows.filter (fun r => r.croft != c) }),
    dropRegs false [] (croftBase c) (croftBase c + 0x10000), undefSlots c, clearCroft c, fun _ => [.drop .windows (16 + c) (17 + c)], undefAccs c, keepQuarantine c,
    look (fun h => !(quarterX h q).order.isEmpty) (setFlag dyke_STATUS_WAITING q)] h

-- ports

def resetPort (toStored : Bool) (p : Nat) : Eff :=
  chain [dropRegs toStored [⟨.port0, p⟩, ⟨.port1, p⟩] (portBase p) (portBase p + 0x2000), fun _ => [.ports p {}]]

-- quarters

/-- Pages of quarter q with RWS fields. -/
def rwsPages (q : Nat) : List Page :=
  (List.range 8).flatMap (fun k => [⟨.port0, 8 * q + k⟩, ⟨.port1, 8 * q + k⟩]) ++ (List.range 3).map (fun s => ⟨.hbm0, 3 * q + s⟩) ++
    [⟨.dyke, q⟩]

/-- Everything in quarter q but its barns, commons and HBM (R463, R465). -/
def resetQuarter (toStored : Bool) (q : Nat) : Eff := chain [
  forgetCrofts (fun c => c / 16 == q),
  dropRegs toStored (rwsPages q) (quarterBase q) (quarterBase q + 0x400000),
  forE (List.range 16) (fun k => chain [undefSlots (16 * q + k), clearCroft (16 * q + k)]),
  forE (List.range 16) (fun k => undefAccs (16 * q + k)),
  fun _ => [.quarters q {}, .drop .ledger (16384 * q) (16384 * (q + 1)), .drop .shadow (16384 * q) (16384 * (q + 1)),
    .drop .routes (32768 * q) (32768 * (q + 1)), .drop .windows (2 * q) (2 * q + 2),
    .drop .windows (16 + 16 * q) (32 + 16 * q), .drop .windows (96 + 3 * q) (99 + 3 * q)],
  fun _ => (List.range 8).map (fun k => .ports (8 * q + k) {}),
  fun _ => (List.range 16).map (fun k => .undef (16 * q + k)),
  fun _ => [.undef (64 + q)],
  modGate (fun g => { g with
    poison := g.poison.filter (fun x => x.1 / 3 != q)
    ceWindow := g.ceWindow.filter (fun x => x.1 / 3 != q)
    scrubPos := g.scrubPos.filter (fun x => x.1 / 3 != q)
    writeBack := g.writeBack.filter (fun x => match x.1 with
      | .barn => x.2 / 0xC00000 / 16 != q
      | .commons => x.2 / 0x4000000 != q) }),
  forE (List.range 16) (fun k => keepQuarantine (16 * q + k))]

-- the device

/-- The book window page at a reset of the gate: reset values, then the steward's counters (R502, R504). -/
def resetBookPage (drops : List Nat) : Eff := chain [dropRegs false [] 0x101000 0x102000,
  modGate (fun g => { g with bookSnap := none, bookSeq := none, bookMove := none }),
  forE (List.range 5) (fun s => setF (book_DROP s) 0 (drops.getD s 0)), showBook]

def dropCounts (h : Hw) : List Nat := (List.range 5).map (fun s => getF h (book_DROP s) 0)

/-- What every reset that spans the gate does, beside the causes it records: gate, quarters, mill and host port (R463, R465). The
reset page shows `LAST_CAUSE` and `RESET_COUNT` as the steward supplies them (R469). -/
def resetDevice (toStored : Bool) (cause count : Nat) : Eff := fun h =>
  chain [loseSlot (fun _ => true),
    dropRegs false [] 0 0x7000,
    setF reset_LAST_CAUSE 0 cause, setF reset_RESET_COUNT 0 count,
    dropRegs false [] 0x200000 0x201000, dropRegs false [] 0x300000 0x301000,
    forE (List.range 4) (resetQuarter toStored),
    fun _ => (List.range 8).map (fun r => .rings r {}),
    fun _ => [.drop .msix 0x202000 0x203008, .drop .mgroups 0 (2 ^ 32), .drop .mlayers 0 (2 ^ 32), .drop .mlayerX 0 (2 ^ 32),
      .drop .millSums 0 (2 ^ 48), .drop .windows 8 16, .bell {}, .mill {}, .gateQ [],
      .gate { temps := h.gate.temps, rails := h.gate.rails, perst := h.gate.perst, linkDown := true, off := h.gate.off }],
    modStew (fun s => { s with spdmHost := 0 }),
    resetBookPage (dropCounts h)] h

/-- HBM and the slow tier lose their contents, checksum slots with them (R465). -/
def losePackages : Eff := fun _ => [.undef 68, .undef 69, .undef 70, .undef 71, .undef 72]

/-- Clear the host rings page, its rings, MSI-X and the configuration state (R395). -/
def resetHostFunction : Eff := chain [dropRegs false [] 0x200000 0x201000, fun _ => [.drop .msix 0x202000 0x203008],
  fun _ => (List.range 8).map (fun r => .rings r {}), modGate (fun g => { g with turn0 := none, turn1 := none, msixOn := false, msixMask := false })]

end Sys2Proof.Machine
end

