-- ==== Sys2Proof/Machine/Sluice.lean ====
section
/-! DEFINITION. The sluice: its instructions (R177, R178), descriptors (R197 to R199), moves, lane images (R204), the stash codec
(R209 to R213), tile checksums (R214 to R219) and the checksum window of the barn control page. -/

namespace Sys2Proof.Machine

-- the queue

/-- `STATUS` of the sluice (R224). -/
def showSluice (c : Nat) : Eff := fun h =>
  let q := (croftX h c).sluice
  chain [setF sluice_STATUS_QDEPTH c q.length, setFlag sluice_STATUS_BUSY c (q.any (fun i => decide (0 < i.next)))] h

/-- A movement instruction enters the sluice queue of 16 (R163, R177). It keeps the number of the slot that is selected now; the slot's
fields are read when the sluice begins it. DESIGN CHOICE (R178), log 23. -/
def queueSluice (c : Croft) (st : Strm) (w : BitVec 128) (t op : Nat) : Eff :=
  issue c st w t op okMove (fun h =>
    if 16 ≤ (croftX h c.val).sluice.length then []
    else
      let s : SluiceInstr := { op := op, stream := strmIx st, slot := getF h stream_SLOT (sIx c st), desc := wb w 47 24,
                               count := wb w 23 16, sig := wb w 53 48, sen := bit w.toNat 54 }
      chain [modCroft c.val (fun x => { x with sluice := x.sluice ++ [s] }), showSluice c.val, retire (sIx c st)] h)

def effMove (c : Croft) (st : Strm) (w : BitVec 128) (t : Nat) : Eff := queueSluice c st w t 0x30
def effStash (c : Croft) (st : Strm) (w : BitVec 128) (t : Nat) : Eff := queueSluice c st w t 0x31
def effUnstash (c : Croft) (st : Strm) (w : BitVec 128) (t : Nat) : Eff := queueSluice c st w t 0x32
def effCheck (c : Croft) (st : Strm) (w : BitVec 128) (t : Nat) : Eff := queueSluice c st w t 0x33

-- descriptors

/-- A descriptor's fields (R197). -/
structure Desc where
  typ : Nat
  vsrc : Bool
  wdst : Bool
  ss : Nat
  ds : Nat
  fmt : Nat
  ring : Nat
  codec : Bool
  rows : Nat
  rowLen : Nat
  saddr : Nat
  daddr : Nat
  sstride : Nat
  dstride : Nat
  haddr : Nat
  hstride : Nat
  kruns : Nat
  run0 : Nat
  poff : Nat
  pattern : Nat
  words : List Nat
deriving DecidableEq, Repr

def readDesc (h : Hw) (c a : Nat) : Desc :=
  let wd := fun k => barnNat h c (a + 8 * k) 8
  let w0 := wd 0
  { typ := bits w0 3 0, vsrc := bit w0 4, wdst := bit w0 5, ss := bits w0 7 6, ds := bits w0 9 8, fmt := bits w0 13 10,
    ring := bits w0 14 14, codec := bit w0 15, rows := bits w0 31 16, rowLen := bits w0 55 32, saddr := bits (wd 1) 37 0,
    daddr := bits (wd 2) 37 0, sstride := bits (wd 3) 31 0, dstride := bits (wd 3) 63 32, haddr := bits (wd 4) 37 0,
    hstride := bits (wd 5) 31 0, kruns := bits (wd 6) 18 0, run0 := bits (wd 6) 51 32, poff := bits (wd 6) 25 0,
    pattern := wd 7, words := (List.range 8).map wd }

def maskOf (fs : List (Nat × Nat)) : Nat := fs.foldl (fun m f => m ||| ((2 ^ (f.1 - f.2 + 1) - 1) <<< f.2)) 0

/-- Bits of each word that a move type uses (R197, R199); every other bit must be 0. -/
def descMasks (typ : Nat) : List Nat :=
  let a38 := maskOf [(37, 0)]
  let lo := maskOf [(31, 0)]
  let hi := maskOf [(63, 32)]
  let rl := [(31, 16), (55, 32)]
  match typ with
  | 0 => [maskOf ([(3, 0), (4, 4), (5, 5), (7, 6), (9, 8)] ++ rl), a38, a38, lo ||| hi, 0, 0, 0, 0]
  | 1 => [maskOf ([(3, 0), (5, 5), (9, 8)] ++ rl), 0, a38, hi, 0, 0, 0, maskOf [(63, 0)]]
  | 2 => [maskOf [(3, 0), (4, 4), (7, 6), (13, 10), (14, 14), (31, 16)], a38, a38, lo, a38, lo, maskOf [(18, 0), (51, 32)], 0]
  | 3 => [maskOf ([(3, 0), (5, 5), (9, 8)] ++ rl), 0, a38, hi, 0, 0, 0, 0]
  | 4 => [maskOf ([(3, 0), (4, 4), (7, 6)] ++ rl), a38, 0, lo, 0, 0, 0, 0]
  | 5 => [maskOf ([(3, 0), (4, 4), (5, 5), (9, 9), (15, 15)] ++ rl), a38, 0, lo, 0, 0, maskOf [(25, 0)], 0]
  | 6 => [maskOf ([(3, 0), (4, 4), (5, 5), (7, 7)] ++ rl), 0, a38, hi, 0, 0, maskOf [(25, 0)], 0]
  | _ => []

/-- Move types an instruction allows (R199). -/
def typeAllowed (op typ : Nat) : Bool :=
  match op with
  | 0x30 => decide (typ ≤ 3)
  | 0x31 => typ == 5
  | 0x32 => typ == 6
  | _ => typ == 4

/-- Row r of a side. -/
def rowSpans (base stride rows n : Nat) : List (Nat × Nat) := (List.range (rows + 1)).map (fun r => (base + r * stride, n))

/-- Source and destination rows of one COPY overlap (R199). -/
def rowsOverlap (d : Desc) : Bool :=
  let n := d.rowLen
  let sEnd := d.saddr + d.rows * d.sstride + n
  let dEnd := d.daddr + d.rows * d.dstride + n
  if sEnd ≤ d.daddr ∨ dEnd ≤ d.saddr then false
  else (rowSpans d.saddr d.sstride d.rows n).any (fun a =>
    (rowSpans d.daddr d.dstride d.rows n).any (fun b => decide (a.1 < b.1 + n) && decide (b.1 < a.1 + n)))

/-- Number of stash units of a descriptor (R209). -/
def unitCount (d : Desc) : Nat := ((d.rows + 1) * d.rowLen + 4031) / 4032

/-- The ring of a lane piece in bytes, 0 for none (R201). -/
def laneRing (h : Hw) (c : Nat) (d : Desc) : Nat :=
  (if d.ring = 0 then getF h barn_RING_ASIZE c else getF h barn_RING_WSIZE c) * 65536

/-- What a run of a lane piece writes: in each of its lines the groups that are its own, then its header block (R200). -/
def laneItems (d : Desc) (j : Nat) : List (Nat × Nat) :=
  let n := fmtWidth d.fmt
  let p := pitch d.fmt
  let r := d.run0 + j
  ((List.range 47).map (fun x =>
    let line := 32 * r + x
    let lo := x - 31
    (line / 32 * segLen p + line % 32 * p + lo * 2 * n, (min x 15 + 1 - lo) * 2 * n))) ++ [(r * segLen p + 32 * p, 512)]

def laneParts (d : Desc) (ring j : Nat) : List (Nat × Nat) := (laneItems d j).flatMap (ringParts d.daddr ring)

/-- One past the last byte of the barn that a lane piece writes (R198, R200). -/
def pieceEnd (h : Hw) (c : Nat) (d : Desc) : Nat :=
  let ring := laneRing h c d
  if ring = 0 then d.daddr + (d.run0 + d.kruns + 1) * segLen (pitch d.fmt) + 14 * pitch d.fmt + 32 * fmtWidth d.fmt
  else (List.range (d.kruns + 1)).foldl (fun m j => (laneParts d ring j).foldl (fun m s => max m (s.1 + s.2)) m) 0

/-- The page of unit u (R209). -/
def stashPage (pg : Slot) (d : Desc) (u : Nat) : Nat := pg.base + (pg.cur + d.poff + u) % pg.len

/-- The pages a STASH or an UNSTASH uses (R209). -/
def stashPages (pg : Slot) (d : Desc) : List Nat := (List.range (unitCount d)).map (stashPage pg d)

/-- The cause for which a descriptor is invalid, 0 for a valid one (R198, R224). Of several causes the first in this order counts; `ROWLEN` 0
is cause 2, and one that is no multiple of 64 is cause 3. DESIGN CHOICE (R198), log 23. -/
def descCause (h : Hw) (c op : Nat) (d : Desc) (pg : Slot) : Nat :=
  let ms := descMasks d.typ
  let reserved := (List.range 8).any (fun k => decide (d.words.getD k 0 &&& ms.getD k 0 ≠ d.words.getD k 0))
  let n := fmtWidth d.fmt
  let last := fun (a s l : Nat) => a + d.rows * s + l
  if !typeAllowed op d.typ then 1
  else if reserved || d.ss == 3 || d.ds == 3 || (d.typ == 2 && (d.rows != 255 || !hasHeader d.fmt)) || (d.typ == 3 && !d.wdst) ||
      (d.typ == 4 && !d.vsrc) || (d.typ != 2 && d.rowLen == 0) then 2
  else if d.rowLen % 64 != 0 || d.saddr % 64 != 0 || d.daddr % 64 != 0 || d.sstride % 64 != 0 || d.dstride % 64 != 0 ||
      (d.typ == 2 && (d.haddr % 64 != 0 || d.hstride % 64 != 0)) then 3
  else if (d.typ == 2 && (decide (spSize d.ss < d.saddr + 255 * d.sstride + 4 * n * (d.kruns + 1)) ||
        decide (spSize d.ss < d.haddr + 255 * d.hstride + 2 * (d.kruns + 1)) || decide (0xC00000 < pieceEnd h c d))) ||
      ((d.typ == 0 || d.typ == 4 || d.typ == 5) && decide (spSize d.ss < last d.saddr d.sstride d.rowLen)) ||
      ((d.typ == 0 || d.typ == 1 || d.typ == 3 || d.typ == 6) && decide (spSize d.ds < last d.daddr d.dstride d.rowLen)) then 4
  else if d.typ == 0 && d.ss == d.ds && rowsOverlap d then 2
  else if (d.typ == 5 || d.typ == 6) && (pg.len == 0 || decide (pg.len < d.poff + unitCount d)) then 5
  else if (d.typ == 5 || d.typ == 6) && (stashPages pg d).any (fun p => decide (hbmD < (p + 1) * 4096)) then 4
  else 0

-- reads with verification

/-- A source byte as delivered; none where its tile is withheld. -/
def srcByte (h : Hw) (bad : List Nat) (sp q c a : Nat) : Option Byte :=
  if bad.contains (a / 4096) then none else some (rd8 h (spMem sp) (spAddr sp q c a))

/-- The first fault's tile address is captured; the fault is counted and the step abandoned (R219, R224, R407). -/
def csumFault (q c sp tile : Nat) : Eff := fun h =>
  chain [incF sluice_CSUM_FAULT_COUNT c,
    whenB (!flag h sluice_FAULT_ADDR_HI_VALID c) (chain [setF sluice_FAULT_ADDR_LO c (4096 * tile % 2 ^ 32),
      setF sluice_FAULT_ADDR_HI_ADDR c (4096 * tile / 2 ^ 32), setF sluice_FAULT_ADDR_HI_SPACE c sp,
      setFlag sluice_FAULT_ADDR_HI_VALID c true]),
    raise .sluice c 3, abandonCroft .sluice c c, dataFault q (if sp = 0 then c % 16 else 0) sp (4096 * tile)] h

def csumRetry (c : Nat) : Eff := chain [incF sluice_CSUM_RETRY_COUNT c, raise .sluice c 2]

/-- A tile's contents match its slot. -/
def tileMatches (h : Hw) (sp q c t : Nat) : Bool := tileCrc h sp q c t == csumGet h (csumKey sp q c t)

/-- Where the slot of an HBM tile lies (R367); the slots of barns and commons lie outside their address spaces (R215). -/
def slotSpans (sp : Nat) (tiles : List Nat) : List (Nat × Nat) := if sp = 2 then tiles.map (fun t => (hbmD + 4 * t, 4)) else []

/-- A poisoned line of HBM is one of tile t, or the one that holds its slot (R364, R367). -/
def lineOfTile (t line : Nat) : Bool := decide (line / 4096 = t) || decide (line = (hbmD + 4 * t) / 64 * 64)

/-- Of some tiles of a space, those with a poisoned line, given the spans that are read. -/
def poisonedTiles (h : Hw) (sp q : Nat) (tiles : List Nat) (spans : List (Nat × Nat)) (errs : List MemErr) : List Nat :=
  let lines := poisonedIn h sp q spans ++ ueLines (errsIn errs sp spans)
  tiles.filter (fun t => lines.any (lineOfTile t))

/-- A tile reads otherwise the first time than on the re-read (R219). -/
def misreadTile (errs : List MemErr) (sp t : Nat) : Bool :=
  errs.any (fun e => e.sp.val == sp && e.case == .misread && e.addr / 4096 == t)

/-- Read spans of a space, verifying the tiles they touch when `verify` (R219, R363, R364, R368): the tiles that are withheld go to `k`. -/
def readSource (sp q c : Nat) (spans : List (Nat × Nat)) (verify : Bool) (errs : List MemErr) (k : List Nat → Eff) : Eff :=
  let tiles := spanTiles spans
  let seen := if verify then tiles.map (fun t => (4096 * t, 4096)) ++ slotSpans sp tiles else spans
  andThen (eccRead sp q c seen errs) (fun h =>
    let poison := poisonedTiles h sp q tiles seen errs
    let mism := if verify then tiles.filter (fun t => !poison.contains t && !tileMatches h sp q c t) else []
    let bad := poison ++ mism
    let retry := if verify then tiles.filter (fun t => !bad.contains t && misreadTile errs sp t) else []
    chain [forE retry (fun _ => csumRetry c), forE bad (fun t => csumFault q c sp t), k bad] h)

/-- Write the slots of tiles from their whole contents (R217), which are read; a tile with a poisoned line is no tile to be sealed, and its
slot keeps its contents (R219, R364). -/
def sealTiles (sp q c : Nat) (tiles : List Nat) (errs : List MemErr) : Eff :=
  forE tiles (fun t =>
    let seen := [(4096 * t, 4096)]
    andThen (eccRead sp q c seen errs) (fun h =>
      if (poisonedTiles h sp q [t] seen errs).isEmpty then
        (if sp = 2 then slotWrite q c t (tileCrc h sp q c t) errs else sealTile sp q c t) h
      else csumFault q c sp t h))

-- moves

/-- Split n bytes from a at tile ends. -/
def splitTiles : Nat → Nat → Nat → List (Nat × Nat)
  | 0, _, _ => []
  | fuel + 1, a, n =>
    if n = 0 then []
    else
      let m := min n (4096 - a % 4096)
      (a, m) :: splitTiles fuel (a + m) (n - m)

/-- Lines (64 bytes) that a write of n bytes at a of space sp changes; a protected program region takes none (R125, R224). -/
def linesWritten (h : Hw) (sp c a n : Nat) : Nat :=
  let cut := if sp = 0 && croftRunning h c then min (a + n) (protHi h c) - max a (protLo h c) else 0
  (n - cut + 63) / 64

/-- Copy one span; withheld tiles leave the destination as it was. -/
def copySpan (d : Desc) (q c : Nat) (bad : List Nat) (sa da n : Nat) : Eff :=
  forE (splitTiles (n / 4096 + 2) sa n) (fun s => fun h =>
    if bad.contains (s.1 / 4096) then []
    else
      let bs := rdBytes h (spMem d.ss) (spAddr d.ss q c s.1) s.2
      chain [addF sluice_LINES_MOVED c (linesWritten h d.ds c (da + (s.1 - sa)) s.2), spWrite d.ds q c (da + (s.1 - sa)) bs] h)

/-- The tiles that destination rows touch. -/
def destTiles (d : Desc) : List Nat := spanTiles (rowSpans d.daddr d.dstride d.rows d.rowLen)

/-- The tiles a COPY writes: those with at least one delivered byte (R217). -/
def copiedTiles (d : Desc) (bad : List Nat) : List Nat :=
  if bad.isEmpty then destTiles d
  else spanTiles ((List.range (d.rows + 1)).flatMap (fun r =>
      ((splitTiles (d.rowLen / 4096 + 2) (d.saddr + r * d.sstride) d.rowLen).filter (fun s => !bad.contains (s.1 / 4096))).map
        (fun s => (d.daddr + r * d.dstride + (s.1 - (d.saddr + r * d.sstride)), s.2))))

/-- COPY (R199). -/
def moveCopy (d : Desc) (q c : Nat) (errs : List MemErr) : Eff :=
  readSource d.ss q c (rowSpans d.saddr d.sstride d.rows d.rowLen) d.vsrc errs (fun bad =>
    chain [forE (List.range (d.rows + 1)) (fun r => copySpan d q c bad (d.saddr + r * d.sstride) (d.daddr + r * d.dstride) d.rowLen),
      whenB d.wdst (sealTiles d.ds q c (copiedTiles d bad) errs)])

/-- FILL (R199). -/
def moveFill (d : Desc) (q c : Nat) (errs : List MemErr) : Eff :=
  let row := (List.replicate (d.rowLen / 8) (leBytes 8 d.pattern)).flatten
  chain [forE (List.range (d.rows + 1)) (fun r => fun h =>
      chain [addF sluice_LINES_MOVED c (linesWritten h d.ds c (d.daddr + r * d.dstride) d.rowLen),
        spWrite d.ds q c (d.daddr + r * d.dstride) row] h),
    whenB d.wdst (sealTiles d.ds q c (destTiles d) errs)]

/-- SEAL (R199). -/
def moveSeal (d : Desc) (q c : Nat) (errs : List MemErr) : Eff := sealTiles d.ds q c (destTiles d) errs

/-- VERIFY (R199, R219). -/
def moveVerify (d : Desc) (q c : Nat) (errs : List MemErr) : Eff :=
  readSource d.ss q c (rowSpans d.saddr d.sstride d.rows d.rowLen) true errs (fun _ => skip)

-- lane images

/-- The source of a LANE move: payload and header spans (R204). -/
def laneSpans (d : Desc) : List (Nat × Nat) :=
  rowSpans d.saddr d.sstride 255 (4 * fmtWidth d.fmt * (d.kruns + 1)) ++ rowSpans d.haddr d.hstride 255 (2 * (d.kruns + 1))

/-- Block j of source row v: its codes, each none where withheld, its header, and all its codes as stored. Where the tile of the payload is
withheld and that of the header is not, the header's `AUX` is checked against the codes as stored. DESIGN CHOICE (R67), log 23. -/
def laneBlock (h : Hw) (d : Desc) (q c : Nat) (bad : List Nat) (row j : Nat) : List (Option Nat) × Option Nat × List Nat :=
  let n := fmtWidth d.fmt
  let a := d.saddr + row * d.sstride + 4 * n * j
  let codes := unpackCodes n 32 (ofLe (rdBytes h (spMem d.ss) (spAddr d.ss q c a) (4 * n)))
  let ok := fun (e : Nat) => !bad.contains ((a + e * n / 8) / 4096) && !bad.contains ((a + (e * n + n - 1) / 8) / 4096)
  let ha := d.haddr + row * d.hstride + 2 * j
  let hw := ofLe (rdBytes h (spMem d.ss) (spAddr d.ss q c ha) 2)
  ((List.range 32).map (fun e => if ok e then some (codes.getD e 0) else none),
    if bad.contains (ha / 4096) then none else some hw, codes)

/-- Merge delivered codes of a group with the bits already there. -/
def mergeGroup (n old : Nat) (cs : List (Option Nat)) : Nat :=
  packCodes n ((List.range 16).map (fun k => match cs.getD k none with | some x => x | none => (old >>> (n * k)) % 2 ^ n))

/-- Write bytes of an image, each byte wrapped separately (R200). -/
def ringWrite (c base ring off : Nat) (bs : List Byte) : Eff :=
  if ring = 0 ∨ off % ring + bs.length ≤ ring then barnWrite c (base + wrapOff off ring) bs
  else
    let k := ring - off % ring
    chain [barnWrite c (base + off % ring) (bs.take k), barnWrite c base (bs.drop k)]

def ringNat (h : Hw) (c base ring off n : Nat) : Nat :=
  ofLe ((List.range n).map (fun k => rd8 h .barn (c * 0xC00000 + base + wrapOff (off + k) ring)))

/-- One run of a lane piece (R200, R204, R205). -/
def laneRun (d : Desc) (q c ring : Nat) (bad : List Nat) (errs : List MemErr) (j : Nat) : Eff := fun h =>
  let n := fmtWidth d.fmt
  let p := pitch d.fmt
  let r := d.run0 + j
  let blocks := (List.range 256).map (fun row => laneBlock h d q c bad row j)
  let hdr := fun (row : Nat) => (blocks.getD row ([], none, [])).2.1
  let ill := fun (row : Nat) => match hdr row with
    | none => false
    | some w => !hdrOk d.fmt w (blocks.getD row ([], none, [])).2.2
  let nBad := ((List.range 256).filter ill).length
  chain [
    forE (laneParts d ring j) (fun s => eccWrite 0 q c s.1 s.2 errs),
    forE (List.range 32) (fun kk => forE (List.range 16) (fun g => fun h =>
      let lam := 32 * r + kk + g
      let off := lam / 32 * segLen p + lam % 32 * p + g * 2 * n
      let cs := (List.range 16).map (fun e => ((blocks.getD (16 * g + e) ([], none, [])).1).getD kk none)
      let old := if cs.all (·.isSome) then 0 else ringNat h c d.daddr ring off (2 * n)
      if cs.all (·.isNone) then [] else ringWrite c d.daddr ring off (leBytes (2 * n) (mergeGroup n old cs)) h)),
    forE (List.range 256) (fun row => match hdr row with
      | none => skip
      | some w => ringWrite c d.daddr ring (r * segLen p + 32 * p + 2 * row)
          (leBytes 2 (if ill row then w / 256 * 256 + 255 else w))),
    addF sluice_LINES_MOVED c (32 * ((32 * n + 63) / 64) + 8),
    whenB (decide (0 < nBad)) (chain [addF sluice_HDR_BAD_COUNT c nBad, raise .sluice c 1])] h

/-- LANE (R204). -/
def moveLane (d : Desc) (q c : Nat) (errs : List MemErr) : Eff := fun h =>
  let ring := laneRing h c d
  readSource d.ss q c (laneSpans d) d.vsrc errs (fun bad => forE (List.range (d.kruns + 1)) (fun j => laneRun d q c ring bad errs j)) h

-- the stash codec

/-- The 63 chunks of a unit that hold a nonzero byte, as a mask (R210). -/
def chunkMask (u : List Byte) : Nat :=
  (List.range 63).foldl (fun m k => if ((u.drop (64 * k)).take 64).any (· != 0) then m + 2 ^ k else m) 0

/-- The zero-run stream: the chunks of a mask in ascending order (R211). -/
def zeroRun (u : List Byte) (m : Nat) : List Byte :=
  (List.range 63).flatMap (fun k => if bit m k then (u.drop (64 * k)).take 64 else [])

/-- Code length of a nibble in table t (R212). -/
def codeLen (t s : Nat) : Nat :=
  match t with
  | 1 => if s = 0 then 1 else 5
  | 2 => if s = 0 then 2 else if s = 1 ∨ s = 15 then 3 else 5
  | _ => if s = 0 then 1 else if s = 1 ∨ s = 15 then 3 else 6

/-- Nibbles in ascending (length, value). -/
def codeOrder (t : Nat) : List Nat := (List.range 7).flatMap (fun l => (List.range 16).filter (fun s => codeLen t s == l))

/-- The canonical codes of R212: (nibble, length, code). -/
def codeTable (t : Nat) : List (Nat × Nat × Nat) :=
  ((codeOrder t).foldl (fun (st : Nat × Nat × List (Nat × Nat × Nat)) s =>
    let l := codeLen t s
    let code := st.1 <<< (l - st.2.1)
    (code + 1, l, st.2.2 ++ [(s, l, code)])) (0, 0, [])).2.2

def nibbles (bs : List Byte) : List Nat := bs.flatMap (fun b => [b.toNat % 16, b.toNat / 16])

/-- Bits of a code, most significant first. -/
def codeBits (l v : Nat) : List Bool := (List.range l).map (fun k => bit v (l - 1 - k))

/-- Bytes of a bit string; stream bit q is bit 7 − q % 8 of byte q // 8 (R211). -/
def packBits : Nat → List Bool → List Byte
  | 0, _ => []
  | n + 1, bs => BitVec.ofNat 8 ((List.range 8).foldl (fun v k => 2 * v + b2n (bs.getD k false)) 0) :: packBits n (bs.drop 8)

def huffBits (t : Nat) (bs : List Byte) : List Bool :=
  let tab := codeTable t
  (nibbles bs).flatMap (fun s => match tab.find? (fun e => e.1 == s) with | some e => codeBits e.2.1 e.2.2 | none => [])

def huffSize (t : Nat) (bs : List Byte) : Nat := (((nibbles bs).map (codeLen t)).sum + 7) / 8

/-- The coded page of a unit: header and stream (R210, R211). -/
def encodeUnit (codec : Bool) (u : List Byte) : List Byte :=
  let m := chunkMask u
  let z := zeroRun u m
  let mk := fun (mode table mask : Nat) (s : List Byte) =>
    leBytes 64 (mode + 4 * table + 16 * s.length + 2 ^ 64 * mask) ++ s
  let raw := mk 0 0 (2 ^ 63 - 1) u
  if !codec then raw
  else
    let sizes : List (Nat × Nat × Nat) := [(1, 0, z.length), (2, 1, huffSize 1 z), (2, 2, huffSize 2 z), (2, 3, huffSize 3 z)]
    let best : Nat × Nat × Nat := sizes.foldl (fun b x => if x.2.2 < b.2.2 then x else b) (1, 0, z.length)
    if 4032 ≤ best.2.2 then raw
    else if best.1 = 1 then mk 1 0 m z
    else mk 2 best.2.1 m (packBits best.2.2 (huffBits best.2.1 z))

/-- Decode up to n nibbles; none where no code matches or the stream ends early (R213). -/
def huffDecode (tab : List (Nat × Nat × Nat)) : Nat → List Bool → Option (List Nat)
  | 0, _ => some []
  | n + 1, bs =>
    match tab.find? (fun e => decide (e.2.1 ≤ bs.length) && codeBits e.2.1 e.2.2 == bs.take e.2.1) with
    | none => none
    | some e => (huffDecode tab n (bs.drop e.2.1)).map (e.1 :: ·)

def byteBits (bs : List Byte) : List Bool := bs.flatMap (fun b => (List.range 8).map (fun k => bit b.toNat (7 - k)))

def joinNibbles : List Nat → List Byte
  | a :: b :: r => BitVec.ofNat 8 (a + 16 * b) :: joinNibbles r
  | _ => []

/-- Put a zero-run stream's chunks back in their places. -/
def spreadChunks (m : Nat) : Nat → List Byte → List Byte
  | 0, _ => []
  | k + 1, s =>
    if bit m (62 - k) then s.take 64 ++ spreadChunks m k (s.drop 64) else List.replicate 64 0 ++ spreadChunks m k s

/-- Decode a page; none where its header or stream is inconsistent (R213). -/
def decodePage (pg : List Byte) : Option (List Byte) :=
  let hd := ofLe (pg.take 64)
  let mode := bits hd 1 0
  let table := bits hd 3 2
  let clen := bits hd 15 4
  let m := bits hd 126 64
  let s := (pg.drop 64).take clen
  let s1 := 64 * ((List.range 63).filter (fun k => bit m k)).length
  if mode = 3 ∨ 4032 < clen then none
  else if mode = 0 then (if clen = 4032 ∧ m = 2 ^ 63 - 1 then some s else none)
  else if mode = 1 then (if clen = s1 then some (spreadChunks m 63 s) else none)
  else if table = 0 then none
  else (huffDecode (codeTable table) (2 * s1) (byteBits s)).map (fun ns => spreadChunks m 63 (joinNibbles ns))

/-- STASH (R209 to R212): units coded into pages, each page's slot holding the CRC of its unit (R216). A unit whose source lies
partly in a withheld tile is not written. -/
def moveStash (d : Desc) (q c : Nat) (pg : Slot) (errs : List MemErr) : Eff :=
  readSource d.ss q c (rowSpans d.saddr d.sstride d.rows d.rowLen) d.vsrc errs (fun bad => fun h =>
    let all := (List.range (d.rows + 1)).flatMap (fun r =>
      (List.range d.rowLen).map (fun k => srcByte h bad d.ss q c (d.saddr + r * d.sstride + k)))
    forE (List.range (unitCount d)) (fun u =>
      let part := (all.drop (4032 * u)).take 4032
      if part.any (·.isNone) then skip
      else
        let bs := part.map (·.getD 0)
        let unit := bs ++ List.replicate (4032 - bs.length) 0
        let page := stashPage pg d u
        let code := encodeUnit d.codec unit
        let lines := (code.length + 63) / 64
        chain [hbmWrite q (4096 * page) (code ++ List.replicate (64 * lines - code.length) 0),
          slotWrite q c page (BitVec.ofNat 32 (crc32c unit)) errs, incF sluice_STASH_IN c, addF sluice_STASH_OUT c lines,
          addF sluice_LINES_MOVED c lines]) h)

/-- The bytes of stash page as an UNSTASH reads it, and its unit if it decodes and matches its slot (R213, R219). -/
def unitOf (h : Hw) (q page : Nat) : Option (List Byte) :=
  match decodePage (rdBytes h .hbm (q * hbmD + 4096 * page) 4096) with
  | none => none
  | some u => if BitVec.ofNat 32 (crc32c u) = csumGet h (csumKeyHbm q page) then some u else none

/-- What an UNSTASH reads of a page: its header, the lines its `CLEN` names, and its slot (R210, R213). -/
def pageSpans (h : Hw) (q page : Nat) : List (Nat × Nat) :=
  let clen := bits (rdNat h .hbm (q * hbmD + 4096 * page) 2) 15 4
  [(4096 * page, 64 + 64 * min 63 ((clen + 63) / 64)), (hbmD + 4 * page, 4)]

/-- UNSTASH (R209, R213): a page that fails is not delivered, and its bytes of the destination stay. -/
def moveUnstash (d : Desc) (q c : Nat) (pg : Slot) (errs : List MemErr) : Eff := fun h =>
  let pages := stashPages pg d
  let spans := pages.flatMap (pageSpans h q)
  andThen (eccRead 2 q c spans errs) (fun h =>
    let poison := poisonedTiles h 2 q pages spans errs
    let units := pages.map (fun p => if poison.contains p then none else unitOf h q p)
    let bad := (List.range pages.length).filter (fun u => (units.getD u none).isNone)
    let retry := (List.range pages.length).filter (fun u => (units.getD u none).isSome && misreadTile errs 2 (pages.getD u 0))
    let lines := (List.range (d.rows + 1)).flatMap (fun r => (List.range (d.rowLen / 64)).map (fun l =>
      (d.daddr + r * d.dstride + 64 * l, r * d.rowLen + 64 * l)))
    let given := lines.filter (fun x => (units.getD (x.2 / 4032) none).isSome)
    chain [forE retry (fun _ => csumRetry c), forE bad (fun u => csumFault q c 2 (pages.getD u 0)),
      forE given (fun x => fun h =>
        chain [addF sluice_LINES_MOVED c (linesWritten h d.ds c x.1 64),
          spWrite d.ds q c x.1 ((((units.getD (x.2 / 4032) none).getD []).drop (x.2 % 4032)).take 64)] h),
      whenB d.wdst (sealTiles d.ds q c (spanTiles (given.map (fun x => (x.1, 64)))) errs)] h) h

-- commands

/-- The slots of the tiles that a descriptor's move writes into (R222). -/
def writtenKeys (h : Hw) (q c : Nat) (d : Desc) (pg : Slot) : List Nat :=
  match d.typ with
  | 0 | 1 | 6 => (destTiles d).map (csumKey d.ds q c)
  | 2 => (spanTiles ((List.range (d.kruns + 1)).flatMap (laneParts d (laneRing h c d)))).map (csumKeyBarn c)
  | 5 => (stashPages pg d).map (csumKeyHbm q)
  | _ => []

/-- Begin the next descriptor of the oldest instruction (R178, R195, R198): `typ` is the move type the command performs; a
descriptor that no type names is refused by whichever command meets it. -/
def descStep (c : Croft) (t typ : Nat) (errs : List MemErr) (body : Desc → Nat → Nat → Slot → Eff) : Eff := atClk t (fun h =>
  let cv := c.val
  let q := cv / 16
  match (croftX h cv).sluice with
  | [] => []
  | s :: rest =>
    if s.count < s.next then []
    else
      let a := s.desc + 64 * s.next
      let pg := s.page.getD (slotOf h cv s.slot)
      let out := decide (0xC00000 < a + 64)
      if !out && (readDesc h cv a).typ != typ && decide ((readDesc h cv a).typ ≤ 6) then []
      else andThen (if out then skip else eccRead 0 q cv [(a, 64)] errs) (fun h =>
        let d := readDesc h cv a
        let cause := if out then 4 else descCause h cv s.op d pg
        let wrote := if cause ≠ 0 then [] else writtenKeys h q cv d pg
        chain [modCroft cv (fun x => { x with
            sluice := { s with next := s.next + 1, page := some pg, wrote := s.wrote ++ wrote } :: rest }), showSluice cv,
          (if cause ≠ 0 then descInvalid cv a cause else andThen (body d q cv pg) (incF sluice_DESC_COUNT cv))] h) h)

def effDescCopy (c : Croft) (errs : List MemErr) (t : Nat) : Eff := descStep c t 0 errs (fun d q c _ => moveCopy d q c errs)
def effDescFill (c : Croft) (errs : List MemErr) (t : Nat) : Eff := descStep c t 1 errs (fun d q c _ => moveFill d q c errs)
def effDescLane (c : Croft) (errs : List MemErr) (t : Nat) : Eff := descStep c t 2 errs (fun d q c _ => moveLane d q c errs)
def effDescSeal (c : Croft) (errs : List MemErr) (t : Nat) : Eff := descStep c t 3 errs (fun d q c _ => moveSeal d q c errs)
def effDescVerify (c : Croft) (errs : List MemErr) (t : Nat) : Eff := descStep c t 4 errs (fun d q c _ => moveVerify d q c errs)
def effDescStash (c : Croft) (errs : List MemErr) (t : Nat) : Eff := descStep c t 5 errs (fun d q c pg => moveStash d q c pg errs)
def effDescUnstash (c : Croft) (errs : List MemErr) (t : Nat) : Eff := descStep c t 6 errs (fun d q c pg => moveUnstash d q c pg errs)

/-- DESC_COMPLETE (R177, R221, R224): the instruction's descriptors have completed, after `wait` clk spent on arbitrations; its signal is
added. -/
def effDescComplete (c : Croft) (wait t : Nat) : Eff := atClk t (fun h =>
  match (croftX h c.val).sluice with
  | [] => []
  | s :: rest =>
    if s.next ≤ s.count then []
    else chain [addF sluice_WAIT_CLK c.val wait, modCroft c.val (fun x => { x with sluice := rest }), showSluice c.val, doneSig c.val s.sig s.sen] h)

/-- The slot that `CSUM_SEL` of croft c selects (R215, R225). -/
def csumSelKey (h : Hw) (c : Nat) : Nat :=
  let t := getF h barn_CSUM_SEL_TILE c
  if flag h barn_CSUM_SEL_SPACE c then csumKeyCommons (c / 16) t else csumKeyBarn c t

/-- CSUM_DATA_WRITE (R218, R225). -/
def effCsumDataWrite (c : Croft) (v : Word) : Eff := fun h =>
  csumSet (csumSelKey h c.val) v h

-- meanings, one per command

/-- MOVE. -/
def execMove (c : Croft) (st : Strm) (w : BitVec 128) (t : Nat) (s : State) : Host.Outcome State Fault Refusal :=
  run (effMove c st w t) s

/-- STASH. -/
def execStash (c : Croft) (st : Strm) (w : BitVec 128) (t : Nat) (s : State) : Host.Outcome State Fault Refusal :=
  run (effStash c st w t) s

/-- UNSTASH. -/
def execUnstash (c : Croft) (st : Strm) (w : BitVec 128) (t : Nat) (s : State) : Host.Outcome State Fault Refusal :=
  run (effUnstash c st w t) s

/-- CHECK. -/
def execCheck (c : Croft) (st : Strm) (w : BitVec 128) (t : Nat) (s : State) : Host.Outcome State Fault Refusal :=
  run (effCheck c st w t) s

/-- DESC_COPY. -/
def execDescCopy (c : Croft) (errs : List MemErr) (t : Nat) (s : State) : Host.Outcome State Fault Refusal :=
  run (effDescCopy c errs t) s

/-- DESC_FILL. -/
def execDescFill (c : Croft) (errs : List MemErr) (t : Nat) (s : State) : Host.Outcome State Fault Refusal :=
  run (effDescFill c errs t) s

/-- DESC_LANE. -/
def execDescLane (c : Croft) (errs : List MemErr) (t : Nat) (s : State) : Host.Outcome State Fault Refusal :=
  run (effDescLane c errs t) s

/-- DESC_SEAL. -/
def execDescSeal (c : Croft) (errs : List MemErr) (t : Nat) (s : State) : Host.Outcome State Fault Refusal :=
  run (effDescSeal c errs t) s

/-- DESC_VERIFY. -/
def execDescVerify (c : Croft) (errs : List MemErr) (t : Nat) (s : State) : Host.Outcome State Fault Refusal :=
  run (effDescVerify c errs t) s

/-- DESC_STASH. -/
def execDescStash (c : Croft) (errs : List MemErr) (t : Nat) (s : State) : Host.Outcome State Fault Refusal :=
  run (effDescStash c errs t) s

/-- DESC_UNSTASH. -/
def execDescUnstash (c : Croft) (errs : List MemErr) (t : Nat) (s : State) : Host.Outcome State Fault Refusal :=
  run (effDescUnstash c errs t) s

/-- DESC_COMPLETE. -/
def execDescComplete (c : Croft) (t : Nat) (s : State) (wait : Nat := 0) : Host.Outcome State Fault Refusal :=
  run (effDescComplete c wait t) s

/-- CSUM_DATA_WRITE. -/
def execCsumDataWrite (c : Croft) (v : Word) (s : State) : Host.Outcome State Fault Refusal :=
  run (byQuarter (c.val / 16) (effCsumDataWrite c v)) s

end Sys2Proof.Machine
end

