-- ==== Sys2Proof/Machine/HostRings.lean ====
section
/-! DEFINITION. The host port: link, rings, commands, completions and interrupts, and the host-function reset (R380 to R398). -/

namespace Sys2Proof.Machine

-- rings

def rgDisabled : Nat := 0
def rgRunning : Nat := 1
def rgStopped : Nat := 2
def rgError : Nat := 3

def ringState (h : Hw) (r : Nat) : Nat := getF h (hostRings_RING_STATUS_STATE r) 0
def sqHead (h : Hw) (r : Nat) : Nat := getF h (hostRings_RING_STATUS_SQ_HEAD r) 0
def sqSize (h : Hw) (r : Nat) : Nat := 2 ^ getF h (hostRings_RING_CFG_SQ_LOG r) 0
def cqSize (h : Hw) (r : Nat) : Nat := 2 ^ getF h (hostRings_RING_CFG_CQ_LOG r) 0

def sqBase (h : Hw) (r : Nat) : Nat := getF h (hostRings_SQ_BASE_LO r) 0 * 4096 + getF h (hostRings_SQ_BASE_HI r) 0 * 2 ^ 32
def cqBase (h : Hw) (r : Nat) : Nat := getF h (hostRings_CQ_BASE_LO r) 0 * 4096 + getF h (hostRings_CQ_BASE_HI r) 0 * 2 ^ 32

/-- Put bit r of a mask field. -/
def setBitF (f : Fld) (i r : Nat) (b : Bool) : Eff := fun h =>
  let v := getF h f i
  setF f i (if b then v ||| 2 ^ r else v - (v &&& 2 ^ r)) h

/-- A ring's state, with the bits of `STATUS` that show it (R389, R398). -/
def setRing (r st : Nat) : Eff := chain [setF (hostRings_RING_STATUS_STATE r) 0 st,
  setBitF hostRings_STATUS_RUNNING 0 r (st == rgRunning), setBitF hostRings_STATUS_ERROR 0 r (st == rgError)]

/-- What PCIe's base address registers read after all ones are written to them (R380): BAR0 of 64 bits, not prefetchable, 64 MiB; no
other. -/
def barProbe : List Word := [0xFC000004, 0xFFFFFFFF, 0, 0, 0, 0]

/-- The MSI-X capability in configuration space (R380, R383): 64 vectors, table and pending bits in BAR0; message control, table, PBA. -/
def msixCapability (h : Hw) : List Nat :=
  [63 + b2n h.gate.msixMask * 2 ^ 14 + b2n h.gate.msixOn * 2 ^ 15, 0x202000, 0x203000]

/-- A ring that is disabled starts anew (R389); completions that its interrupt has counted stay counted (R395). -/
def disableRing (r : Nat) : Eff := chain [setRing r rgDisabled, setF (hostRings_RING_STATUS_SQ_HEAD r) 0 0,
  setFlag (hostRings_RING_CTRL_ABORT r) 0 false, modRing r (fun x => { irqPend := x.irqPend })]

/-- An abort completes (R391). -/
def abortDone (r : Nat) : Eff := fun h => chain [raise .hostRings 0 4, setFlag (hostRings_RING_CTRL_ABORT r) 0 false,
  (if (ringX h r).disabling then disableRing r else setRing r rgStopped),
  modRing r (fun x => { x with aborting := false, disabling := false })] h

/-- RING_ENABLE (R389): `EN` written 1. Written while an earlier 0 still aborts a command, it shows in `EN`, and the ring is `DISABLED` once
the abort is done; the next 1 enables it. -/
def effRingEnable (r : Ring) : Eff := fun h =>
  if hostAway h then []
  else chain [setFlag (hostRings_RING_CTRL_EN r.val) 0 true,
    whenB (ringState h r.val == rgDisabled) (setRing r.val rgRunning)] h

/-- The command in progress ends with a status and a result. -/
def endCmd (r st res : Nat) : Eff := modRing r (fun x => { x with result := some (st, res) })

/-- The same where no device line fails, so that R390 states no result: a free value. -/
def endCmdFree (r st : Nat) : Eff := drawFree (fun lo => drawFree (fun hi => endCmd r st (lo.toNat + hi.toNat * 2 ^ 32)))

/-- What ends the command in progress at an abort (R391): a copy stands at a line, a `SEAL` at a tile, a wait ends. -/
def abortCmd (r : Nat) : Eff := fun h =>
  let x := ringX h r
  match x.cmd with
  | none => abortDone r h
  | some w =>
    if x.result.isSome then []
    else
      let op := bits (w.headD 0) 7 0
      endCmd r 4 (if op = 3 then 4096 * x.moved else if op = 7 then 0 else x.moved) h

def startAbort (r : Nat) : Eff := chain [setFlag (hostRings_RING_CTRL_ABORT r) 0 true, modRing r (fun x => { x with aborting := true }), abortCmd r]

/-- ABORT (R391): only while the ring is `RUNNING`. -/
def effAbort (r : Ring) : Eff := fun h =>
  if hostAway h || ringState h r.val != rgRunning || (ringX h r.val).aborting then [] else startAbort r.val h

/-- RING_DISABLE (R389): a command in progress is first aborted. -/
def effRingDisable (r : Ring) : Eff := fun h =>
  let i := r.val
  if hostAway h || !flag h (hostRings_RING_CTRL_EN i) 0 then []
  else chain [setFlag (hostRings_RING_CTRL_EN i) 0 false,
    (if ringState h i == rgRunning && (ringX h i).cmd.isSome then
      chain [modRing i (fun x => { x with disabling := true }), whenB (!(ringX h i).aborting) (startAbort i)]
     else disableRing i)] h

-- doorbells

def doorbellBad : Eff := raise .hostRings 0 3

/-- SQ_DOORBELL (R384, R387). -/
def effSqDoorbell (r : Ring) (v : Word) : Eff := fun h =>
  if hostAway h then []
  else if ringState h r.val != rgRunning || decide (sqSize h r.val ≤ v.toNat) then doorbellBad h
  else modRing r.val (fun x => { x with sqTail := v.toNat }) h

/-- CQ_DOORBELL (R387, R388): entries up to the index are released. -/
def effCqDoorbell (r : Ring) (v : Word) : Eff := fun h =>
  if hostAway h then []
  else if ringState h r.val != rgRunning || decide (cqSize h r.val ≤ v.toNat) then doorbellBad h
  else
    let n := cqSize h r.val
    modRing r.val (fun x => { x with cqHead := v.toNat, cqUsed := x.cqUsed - (v.toNat + n - x.cqHead) % n }) h

-- beginning a command

def ringPrio (h : Hw) (r : Nat) : Nat := getF h (hostRings_RING_CFG_PRIO r) 0

/-- A ring has work waiting and may begin it. -/
def ringReady (h : Hw) (r : Nat) : Bool :=
  let x := ringX h r
  ringState h r == rgRunning && x.cmd.isNone && !x.aborting && sqHead h r != x.sqTail

/-- The ring that begins next: `PRIO` 1 first, turns in ascending ring number within a priority (R386). -/
def nextRing (h : Hw) : Option Nat :=
  let pick := fun (p : Nat) (last : Option Nat) =>
    let rs := (List.range 8).filter (fun r => ringReady h r && ringPrio h r == p)
    match rs.find? (fun r => match last with | none => true | some l => decide (l < r)) with
    | some r => some r
    | none => rs.head?
  match pick 1 h.gate.turn1 with
  | some r => some r
  | none => pick 0 h.gate.turn0

/-- The descriptor words at the SQ head, read as the command begins (R385, R390). -/
def readSq (h : Hw) (r : Nat) : List Nat :=
  (List.range 8).map (fun k => rdNat h .hostMem ((sqBase h r + 64 * sqHead h r + 8 * k) % 2 ^ 64) 8)

def cmdOp (w : List Nat) : Nat := bits (w.getD 0 0) 7 0

/-- Bits of words 0 to 3 that a command names (R390, R393, R394). -/
def cmdMasks (op : Nat) : List Nat :=
  let w0 := maskOf [(7, 0), (9, 9), (31, 16)]
  let all := 2 ^ 64 - 1
  match op with
  | 1 => [w0, all, maskOf [(46, 0)], maskOf [(30, 0)]]
  | 2 => [w0, all, maskOf [(45, 0), (47, 47)], maskOf [(30, 0)]]
  | 3 => [w0, 0, maskOf [(45, 0)], maskOf [(30, 0)]]
  | 4 => [w0, all, maskOf [(40, 0)], maskOf [(30, 0)]]
  | 5 => [w0, all, maskOf [(40, 0)], maskOf [(30, 0)]]
  | 6 => [w0, all, 0, 0]
  | 7 => [w0, all, 0, 0]
  | 8 => [w0, all, 0, 0]
  | _ => [w0, 0, 0, 0]

/-- A copy's parts (R393, R394). -/
def cHost (w : List Nat) : Nat := w.getD 1 0
def cAddr (w : List Nat) : Nat := if 4 ≤ cmdOp w then bits (w.getD 2 0) 40 0 else bits (w.getD 2 0) 37 0
def cSpace (w : List Nat) : Nat := bits (w.getD 2 0) 39 38
def cQuarter (w : List Nat) : Nat := bits (w.getD 2 0) 41 40
def cCroft (w : List Nat) : Nat := 16 * cQuarter w + bits (w.getD 2 0) 45 42
def cLen (w : List Nat) : Nat := bits (w.getD 3 0) 30 0

/-- Size of the slow tier in bytes (R22). -/
def slowSize : Nat := 1536 * 2 ^ 30

/-- Size of the space that a copy reaches. -/
def cSize (w : List Nat) : Nat := if cmdOp w < 4 then spSize (cSpace w) else slowSize

/-- The first line that a copy of status 0x03 would fail at (R390): the line of a misaligned address, else the first beyond its space. -/
def cFailLine (w : List Nat) : Nat := if cAddr w % 64 ≠ 0 then cAddr w / 64 * 64 else max (cAddr w) (cSize w)

/-- The status with which a command is refused at its beginning, 0 for none (R390, R393, R394). -/
def cmdStatus (h : Hw) (w : List Nat) : Nat :=
  let op := cmdOp w
  let ms := cmdMasks op
  let n := cLen w
  if 8 < op then 1
  else if (List.range 8).any (fun k => decide (w.getD k 0 &&& ms.getD k 0 ≠ w.getD k 0)) then 2
  else if op = 0 ∨ 6 ≤ op then 0
  else if n = 0 ∨ 2 ^ 30 < n then 2
  else if op < 4 && (cSpace w == 3 || (cSpace w != 0 && bits (w.getD 2 0) 45 42 != 0)) then 2
  else if op = 4 ∧ flag h mill_CTRL_ENABLE 0 then 8
  else if n % 64 ≠ 0 ∨ cAddr w % 64 ≠ 0 ∨ cHost w % 64 ≠ 0 then 3
  else if cSize w < cAddr w + n then 3
  else 0

def crofsOf (h : Hw) (mask : Nat) : List Nat :=
  (List.range 64).filter (fun c => bit mask c && !quarterInReset h (c / 16) && !quarterParked h (c / 16))

/-- Begin the command at the SQ head, if the row's own operation is that command's (R385, R386); a refused descriptor ends at
once. -/
def beginCmd (r op : Nat) : Eff := fun h =>
  if hostAway h || (ringX h r).cmd.isSome || nextRing h != some r then []
  else
    let w := readSq h r
    let st := cmdStatus h w
    if cmdOp w ≠ op ∧ cmdOp w ≤ 8 then []
    else chain [
      modRing r (fun x => { x with cmd := some w, moved := 0, result := none, prot := none }),
      setF (hostRings_RING_STATUS_SQ_HEAD r) 0 ((sqHead h r + 1) % sqSize h r),
      modGate (fun g => if ringPrio h r = 1 then { g with turn1 := some r } else { g with turn0 := some r }),
      whenB (st != 0) (if st = 3 ∧ cAddr w % 64 + cHost w % 64 + cLen w % 64 = 0 ∨ st = 3 ∧ cAddr w % 64 ≠ 0 then endCmd r st (cFailLine w)
        else endCmdFree r st)] h

/-- The command of ring r that is in progress and has not ended, if its operation is `op`. -/
def onCmd (r op : Nat) (k : List Nat → RingX → Eff) : Eff := fun h =>
  let x := ringX h r
  match x.cmd, x.result with
  | some w, none => if cmdOp w = op ∧ !hostAway h then k w x h else []
  | _, _ => []

/-- A ring command begins if it has not, and goes on. -/
def ringCmd (r op : Nat) (k : List Nat → RingX → Eff) : Eff := chain [beginCmd r op, onCmd r op k]

-- copies

/-- What a host read of a word finds (R368, R390): counted, captured and raised as by any read, without an abandon. -/
def hostFinding (sp q c a : Nat) (e : EccCase) : Eff :=
  if sp = 0 then barnScrubbed c a e else if sp = 1 then commonsScrubbed q a e else hbmFinding q a e

/-- What a host read of [a, a + n) reads: with `verify` the whole tiles and their slots (R219). -/
def hostSpans (sp a n : Nat) (verify : Bool) : List (Nat × Nat) :=
  let tiles := spanTiles [(a, n)]
  if verify then tiles.map (fun t => (4096 * t, 4096)) ++ slotSpans sp tiles else [(a, n)]

/-- Where a host read of [a, a + n) stops: bytes delivered before it, the failing line, and the status; none where nothing stops it
(R390). With `verify`, whole tiles are read and a tile that does not verify is not delivered (R219). -/
def readStop (h : Hw) (sp q c a n : Nat) (verify : Bool) (errs : List MemErr) : Option (Nat × Nat × Nat) :=
  let tiles := spanTiles [(a, n)]
  let seen := hostSpans sp a n verify
  let ue := (errsIn errs sp seen).filter (fun e => e.case == .uncorrectable)
  let lines := poisonedIn h sp q seen ++ ue.map (fun e => e.addr / 64 * 64)
  let at' := fun (t l : Nat) => if l / 4096 = t then max a l else max a (4096 * t)
  let bad6 := if verify then tiles.flatMap (fun t => (lines.filter (lineOfTile t)).map (fun l => (max a (4096 * t), at' t l, 6)))
    else lines.map (fun l => (max a l, max a l, 6))
  let bad7 := if verify then (tiles.filter (fun t => !tileMatches h sp q c t && !lines.any (lineOfTile t))).map
    (fun t => (max a (4096 * t), max a (4096 * t), 7)) else []
  (bad6 ++ bad7).foldl (fun m x => match m with
    | none => some x
    | some y => if x.2.1 < y.2.1 then some x else some y) none

/-- The events of a tile of a barn that mismatches on re-read, without an abandon (R219, R390); no page owns the checksums of
commons and HBM. -/
def hostCsumFault (sp c tile : Nat) : Eff := fun h =>
  if sp ≠ 0 then []
  else chain [incF sluice_CSUM_FAULT_COUNT c,
    whenB (!flag h sluice_FAULT_ADDR_HI_VALID c) (chain [setF sluice_FAULT_ADDR_LO c (4096 * tile), setF sluice_FAULT_ADDR_HI_ADDR c 0,
      setF sluice_FAULT_ADDR_HI_SPACE c 0, setFlag sluice_FAULT_ADDR_HI_VALID c true]),
    raise .sluice c 3] h

/-- The findings of a host read up to the place where it stops. -/
def readFindings (sp q c a n : Nat) (verify : Bool) (errs : List MemErr) (stop : Option (Nat × Nat × Nat)) : Eff := fun h =>
  let tiles := spanTiles [(a, n)]
  let seen := hostSpans sp a n verify
  let before := fun (x : Nat) => match stop with
    | none => true
    | some s => if verify then decide (x / 4096 ≤ s.2.1 / 4096) || tiles.any (fun t => decide (t ≤ s.2.1 / 4096) && decide (x / 64 * 64 = (hbmD + 4 * t) / 64 * 64))
      else decide (x < s.2.1 + 64)
  let es := (errsIn errs sp seen).filter (fun e => before e.addr)
  let pz := (poisonedIn h sp q seen).filter before
  let retry := tiles.filter (fun t => verify && before (4096 * t) && tileMatches h sp q c t && misreadTile es sp t)
  chain [forE pz (fun l => deliverPoison q l),
    forE es (fun e => fun h => if sp = 2 && isPoisoned h q e.addr then [] else hostFinding sp q c e.addr e.case h),
    whenB (sp == 0) (forE retry (fun _ => csumRetry c)),
    (match stop with
      | some (_, l, 7) => hostCsumFault sp c (l / 4096)
      | _ => skip)] h

/-- Seal tiles for the host, up to the first with a line that is poisoned or uncorrectable; the number that were sealed and that line go to
`k` (R217, R390). -/
def hostSeal (sp q c : Nat) (errs : List MemErr) (k : Nat → Option Nat → Eff) : List Nat → Nat → Eff
  | [], n => k n none
  | t :: ts, n => fun h =>
    let stop := readStop h sp q c (4096 * t) 4096 false errs
    chain [readFindings sp q c (4096 * t) 4096 false errs stop,
      (match stop with
        | some s => k n (some s.2.1)
        | none => chain [(fun h => if sp = 2 then slotWrite q c t (tileCrc h sp q c t) errs h else sealTile sp q c t h),
            hostSeal sp q c errs k ts (n + 1)])] h

/-- Bytes of a copy that this step moves. -/
def stepBytes (w : List Nat) (x : RingX) (lines : Nat) : Nat := min (64 * lines) (cLen w - x.moved)

/-- The copy has moved n more bytes and ends once all have been moved: with status 0x09 where the program region was skipped. -/
def copyMoved (r : Nat) (w : List Nat) (n : Nat) : Eff := chain [modRing r (fun x => { x with moved := x.moved + n }), fun h =>
  let x := ringX h r
  if x.moved < cLen w then []
  else match x.prot with
    | some a => endCmd r 9 a h
    | none => endCmd r 0 x.moved h]

/-- A host access to a quarter in reset or parked (R371). -/
def quarterAway (h : Hw) (q : Nat) : Bool := quarterInReset h q || quarterParked h q

/-- COPY_IN (R125, R217, R393). -/
def stepCopyIn (r lines : Nat) (errs : List MemErr) (hostErr : Bool) (w : List Nat) (x : RingX) : Eff := fun h =>
  let n := stepBytes w x lines
  let sp := cSpace w
  let q := cQuarter w
  let c := cCroft w
  let a := cAddr w + x.moved
  if hostErr then endCmd r 5 a h
  else if n = 0 then []
  else if quarterAway h q then chain [hostDiscard q, copyMoved r w n] h
  else
    let bs := (List.range n).map (fun k => rd8 h .hostMem ((cHost w + x.moved + k) % 2 ^ 64))
    let hit := sp == 0 && touchesProt h c a n
    let wrote := fun (t : Nat) => !(sp == 0 && touchesProt h c (4096 * t) 4096)
    chain [whenB (sp == 2) (forE ((List.range 3).map (fun k => 3 * q + k)) (fun k => setFlag hbm0_STATUS_SELF_REFRESH k false)),
      spWrite sp q c a bs,
      whenB (hit && x.prot.isNone) (modRing r (fun x => { x with prot := some (max a (protLo h c)) })),
      (if bit (w.getD 2 0) 46 then
        hostSeal sp q c errs (fun _ stop => match stop with
          | none => copyMoved r w n
          | some l => endCmd r 6 l) ((spanTiles [(a, n)]).filter wrote) 0
      else copyMoved r w n)] h

def effCopyIn (r : Ring) (lines : Nat) (errs : List MemErr) (hostErr : Bool) : Eff :=
  ringCmd r.val 1 (stepCopyIn r.val lines errs hostErr)

/-- COPY_OUT (R219, R390, R393). -/
def stepCopyOut (r lines : Nat) (errs : List MemErr) (w : List Nat) (x : RingX) : Eff := fun h =>
  let n := stepBytes w x lines
  let sp := cSpace w
  let q := cQuarter w
  let c := cCroft w
  let a := cAddr w + x.moved
  if n = 0 then []
  else if quarterAway h q then chain [hostDiscard q, endCmd r 6 a] h
  else
    let v := bit (w.getD 2 0) 47
    let stop := readStop h sp q c a n v errs
    let m := match stop with | none => n | some s => s.1 - a
    chain [whenB (sp == 2) (forE ((List.range 3).map (fun k => 3 * q + k)) (fun k => setFlag hbm0_STATUS_SELF_REFRESH k false)),
      readFindings sp q c a n v errs stop,
      fun h => [.mem .hostMem ((cHost w + x.moved) % 2 ^ 64) (rdBytes h (spMem sp) (spAddr sp q c a) m)],
      (match stop with
        | none => copyMoved r w n
        | some s => endCmd r s.2.2 s.2.1)] h

def effCopyOut (r : Ring) (lines : Nat) (errs : List MemErr) : Eff :=
  ringCmd r.val 2 (stepCopyOut r.val lines errs)

/-- SEAL (R199, R217, R393): 64 lines are one tile; `moved` counts tiles. -/
def stepSeal (r lines : Nat) (errs : List MemErr) (w : List Nat) (x : RingX) : Eff := fun h =>
  let sp := cSpace w
  let q := cQuarter w
  let c := cCroft w
  let all := spanTiles [(cAddr w, cLen w)]
  let ts := (all.drop x.moved).take (lines / 64)
  if quarterAway h q then chain [hostDiscard q, endCmd r 6 (cAddr w)] h
  else if ts.isEmpty then []
  else hostSeal sp q c errs (fun n stop => chain [modRing r (fun y => { y with moved := y.moved + n }),
      (match stop with
        | some l => endCmd r 6 l
        | none => whenB (decide (all.length ≤ x.moved + n)) (endCmd r 0 all.length))]) ts 0 h

/-- SEAL reads nothing of host memory. -/
def effSeal (r : Ring) (lines : Nat) (errs : List MemErr) : Eff := ringCmd r.val 3 (stepSeal r.val lines errs)

/-- SLOW_WRITE (R25, R393): the mill writes the slow tier. -/
def stepSlowWrite (r lines : Nat) (hostErr : Bool) (w : List Nat) (x : RingX) : Eff := fun h =>
  let n := stepBytes w x lines
  let a := cAddr w + x.moved
  if hostErr then endCmd r 5 a h
  else if n = 0 then []
  else chain [fun h => [.mem .slow a ((List.range n).map (fun k => rd8 h .hostMem ((cHost w + x.moved + k) % 2 ^ 64)))],
    copyMoved r w n] h

def effSlowWrite (r : Ring) (lines : Nat) (hostErr : Bool) : Eff :=
  ringCmd r.val 4 (stepSlowWrite r.val lines hostErr)

/-- SLOW_READ (R393). -/
def stepSlowRead (r lines : Nat) (w : List Nat) (x : RingX) : Eff := fun h =>
  let n := stepBytes w x lines
  let a := cAddr w + x.moved
  if n = 0 then []
  else chain [fun h => [.mem .hostMem ((cHost w + x.moved) % 2 ^ 64) (rdBytes h .slow a n)], copyMoved r w n] h

def effSlowRead (r : Ring) (lines : Nat) : Eff :=
  ringCmd r.val 5 (stepSlowRead r.val lines)

-- commands without data

def effHostNop (r : Ring) : Eff := ringCmd r.val 0 (fun _ _ => endCmd r.val 0 0)

/-- CROFT_START (R127, R393): in one clk, as writes of `RUN`. -/
def effCroftStart (r : Ring) : Eff := ringCmd r.val 6 (fun w _ => fun h =>
  chain [forE (crofsOf h (w.getD 1 0)) (fun c => runWrite c true), endCmd r.val 0 0] h)

/-- CROFT_STOP (R127, R393): it completes once no masked croft runs. -/
def effCroftStop (r : Ring) : Eff := ringCmd r.val 7 (fun w x => fun h =>
  let cs := crofsOf h (w.getD 1 0)
  chain [whenB (x.moved == 0) (chain [forE cs (fun c => runWrite c false), modRing r.val (fun x => { x with moved := 1 })]),
    whenE (fun h => !cs.any (croftRunning h)) (endCmd r.val 0 0)] h)

/-- The last local edge meets a `BELL_WAIT` (R393). -/
def bellMet (h : Hw) (n : Nat) : Bool := h.bell.lastEdge.isSome && decide (n ≤ h.bell.edgeBell)

/-- BELL_WAIT: at once when the last edge meets it. -/
def effBellWait (r : Ring) : Eff := ringCmd r.val 8 (fun w _ => fun h =>
  if bellMet h (w.getD 1 0) then endCmd r.val 0 h.bell.edgeBell h else [])

/-- At a local edge the waiting `BELL_WAIT` commands that it meets complete. -/
def bellWaitEdge : Eff := forE (List.range 8) (fun r => onCmd r 8 (fun w _ => fun h =>
  if bellMet h (w.getD 1 0) then endCmd r 0 h.bell.edgeBell h else []))

-- completions

/-- A ring fault (R389). -/
def ringFault (r : Nat) : Eff := chain [setRing r rgError, setFlag (hostRings_RING_CTRL_ABORT r) 0 false,
  modRing r (fun x => { x with cmd := none, result := none, aborting := false, disabling := false, cqWait := false }),
  raise .hostRings 0 2]

/-- A ring's interrupt is sent (R392). -/
def ringIrq (r : Nat) : Eff := fun h =>
  chain [modRing r (fun x => { x with irqPend := 0 }), sendMsix (getF h (hostRings_RING_CFG_VEC r) 0)] h

/-- A completion with `IRQ` 1 counts toward the ring's interrupt. -/
def countIrq (r : Nat) : Eff := fun h =>
  let n := (ringX h r).irqPend + 1
  if getF h (hostRings_IRQ_CFG_IRQ_COUNT r) 0 ≤ n then ringIrq r h
  else modRing r (fun x => { x with irqPend := n }) h

/-- The completion entry (R390). -/
def cqEntry (h : Hw) (r : Nat) (w : List Nat) (st res : Nat) : List Byte :=
  leBytes 8 (bits (w.getD 0 0) 31 16 + sqHead h r * 2 ^ 16 + st * 2 ^ 32 + b2n (ringX h r).phase * 2 ^ 48) ++ leBytes 8 res

/-- The entry is written and the ring goes on (R388, R390 to R392). -/
def postCmd (r : Nat) (w : List Nat) (st res : Nat) : Eff := fun h =>
  let x := ringX h r
  let last := decide (x.cqTail + 1 = cqSize h r)
  chain [wrBytes .hostMem ((cqBase h r + 16 * x.cqTail) % 2 ^ 64) (cqEntry h r w st res),
    modRing r (fun x => { x with
      cmd := none, result := none, cqWait := false, cqUsed := x.cqUsed + 1
      cqTail := if last then 0 else x.cqTail + 1
      phase := x.phase != last }),
    incF hostRings_CMD_COUNT 0, whenB (st != 0 && st != 4) (raise .hostRings 0 1), whenB (bit (w.getD 0 0) 9) (countIrq r),
    whenB x.aborting (abortDone r)] h

/-- COMMAND_COMPLETE (R388): the entry of the command that has ended is written once a slot is free. `writeOk` 0: the access on
CXL.cache fails, the write of the entry or, with no command in progress, the read of the next descriptor (R389). -/
def effCommandComplete (r : Ring) (writeOk : Bool) : Eff := fun h =>
  let i := r.val
  let x := ringX h i
  if hostAway h then []
  else match x.cmd, x.result with
    | some w, some (st, res) =>
      if cqSize h i ≤ x.cqUsed then
        (if x.cqWait then [] else chain [modRing i (fun x => { x with cqWait := true }), raise .hostRings 0 0] h)
      else if writeOk then postCmd i w st res h
      else ringFault i h
    | none, _ => if writeOk || !ringReady h i then [] else ringFault i h
    | _, _ => []

/-- IRQ_DELAY_EXPIRE (R392). -/
def effIrqDelayExpire (r : Ring) : Eff := fun h =>
  if (ringX h r.val).irqPend = 0 ∨ getF h (hostRings_IRQ_CFG_IRQ_DELAY r.val) 0 = 0 then [] else ringIrq r.val h

-- the link and the host-function reset

/-- The command in progress ends with status 0x0A (R382, R390): a copy or a `SEAL` fails at the first line it has not moved. -/
def lostCmd (r : Nat) : Eff := fun h =>
  let x := ringX h r
  let w := x.cmd.getD []
  let op := cmdOp w
  if op = 3 then endCmd r 10 (if x.moved = 0 then cAddr w else 4096 * (cAddr w / 4096 + x.moved)) h
  else if 1 ≤ op ∧ op ≤ 5 then endCmd r 10 (cAddr w + x.moved) h
  else endCmdFree r 10 h

/-- HOST_LINK_LOSS (R382): every enabled ring stops, and its command in progress ends with status 0x0A. -/
def effHostLinkLoss : Eff := fun h =>
  if h.gate.linkDown then []
  else
    let rs := (List.range 8).filter (fun r => flag h (hostRings_RING_CTRL_EN r) 0)
    chain [modGate (fun g => { g with linkDown := true, linkLost := true }),
      forE rs (fun r => chain [
        whenE (fun h => (ringX h r).cmd.isSome && (ringX h r).result.isNone) (lostCmd r),
        setRing r rgError, setFlag (hostRings_RING_CTRL_ABORT r) 0 false,
        modRing r (fun x => { x with aborting := false, disabling := false }), raise .hostRings 0 2])] h

/-- Messages left pending by the link, and of entries no longer masked, are sent (R392). -/
def flushMsix : Eff := forE (List.range 64) (fun v => fun h =>
  let p := 0x203000 + 4 * (v / 32)
  let w := smGet msixDflt h.msix p
  if bit w.toNat (v % 32) && h.gate.msixOn && !msixHeld h v then
    chain [fun _ => [.msix p (w &&& ~~~(BitVec.ofNat 32 (2 ^ (v % 32))))], fun h => [.outbox (.msix v :: h.outbox)]] h
  else [])

/-- A record of the steward's own (R495, R497). -/
def stewQueued (code sev value : Nat) : QRec := { source := 8, code := code, sev := sev, flags := 2, payload := value }

/-- HOST_LINK_UP (R381, R382): the modes are ×16 and ×8 at 64 or 32 GT/s; 68-byte flits only at 32 GT/s. `cfg` is how the host's
configuration software then leaves MSI-X: no row of the table is a configuration write. DESIGN CHOICE (R380), log 7. -/
def hostLinkUp (width : Nat) (rate32 flit68 : Bool) (cfg : MsixCtl) (fail : Eff) : Eff := fun h =>
  if !h.gate.linkDown || h.gate.perst || h.gate.off || h.stew.bootFailed then []
  else if width ≠ 8 ∧ width ≠ 16 then fail h
  else
    let lost := h.gate.linkLost
    chain [modGate (fun g => { g with linkDown := false, linkLost := false, msixOn := cfg.enable, msixMask := cfg.mask }),
      setF hostRings_LINK_WIDTH 0 width, setFlag hostRings_LINK_RATE 0 rate32, setFlag hostRings_LINK_FLIT256 0 (!(rate32 && flit68)),
      whenB (width == 8 || rate32) (raise .hostRings 0 5),
      whenB lost (chain [incF hostRings_RETRAIN_COUNT 0, raise .hostRings 0 6]), flushMsix] h

/-- FLR (R395, R396): a command in progress ends without a completion; a warm reset absorbs it. -/
def effFlr : Eff := fun h =>
  if hostAway h || h.gate.warmRuns || h.gate.moduleRuns then []
  else chain [leaveFallow, resetHostFunction, modGate (fun g => { g with flr := true })] h

/-- FLR_DONE (R396); `cfg` is how the host's software then re-enables MSI-X. DESIGN CHOICE (R396), log 7. -/
def effFlrDone (cfg : MsixCtl) : Eff := fun h =>
  if h.gate.flr then chain [modGate (fun g => { g with flr := false }), raise .hostRings 0 7,
    modGate (fun g => { g with msixOn := cfg.enable, msixMask := cfg.mask }), flushMsix] h else []

-- meanings, one per command

/-- SQ_DOORBELL. -/
def execSqDoorbell (r : Ring) (v : Word) (s : State) : Host.Outcome State Fault Refusal :=
  run (effSqDoorbell r v) s

/-- CQ_DOORBELL. -/
def execCqDoorbell (r : Ring) (v : Word) (s : State) : Host.Outcome State Fault Refusal :=
  run (effCqDoorbell r v) s

/-- RING_ENABLE. -/
def execRingEnable (r : Ring) (s : State) : Host.Outcome State Fault Refusal :=
  run (effRingEnable r) s

/-- RING_DISABLE. -/
def execRingDisable (r : Ring) (s : State) : Host.Outcome State Fault Refusal :=
  run (effRingDisable r) s

/-- ABORT. -/
def execAbort (r : Ring) (s : State) : Host.Outcome State Fault Refusal :=
  run (effAbort r) s

/-- HOST_NOP. -/
def execHostNop (r : Ring) (s : State) : Host.Outcome State Fault Refusal :=
  run (effHostNop r) s

/-- COPY_IN. -/
def execCopyIn (r : Ring) (lines : Nat) (errs : List MemErr) (hostErr : Bool) (s : State) : Host.Outcome State Fault Refusal :=
  run (effCopyIn r lines errs hostErr) s

/-- COPY_OUT. -/
def execCopyOut (r : Ring) (lines : Nat) (errs : List MemErr) (_hostErr : Bool) (s : State) : Host.Outcome State Fault Refusal :=
  run (effCopyOut r lines errs) s

/-- SEAL. -/
def execSeal (r : Ring) (lines : Nat) (errs : List MemErr) (_hostErr : Bool) (s : State) : Host.Outcome State Fault Refusal :=
  run (effSeal r lines errs) s

/-- SLOW_WRITE. -/
def execSlowWrite (r : Ring) (lines : Nat) (_errs : List MemErr) (hostErr : Bool) (s : State) : Host.Outcome State Fault Refusal :=
  run (effSlowWrite r lines hostErr) s

/-- SLOW_READ. -/
def execSlowRead (r : Ring) (lines : Nat) (_errs : List MemErr) (_hostErr : Bool) (s : State) : Host.Outcome State Fault Refusal :=
  run (effSlowRead r lines) s

/-- CROFT_START. -/
def execCroftStart (r : Ring) (s : State) : Host.Outcome State Fault Refusal :=
  run (effCroftStart r) s

/-- CROFT_STOP. -/
def execCroftStop (r : Ring) (s : State) : Host.Outcome State Fault Refusal :=
  run (effCroftStop r) s

/-- BELL_WAIT. -/
def execBellWait (r : Ring) (s : State) : Host.Outcome State Fault Refusal :=
  run (effBellWait r) s

/-- COMMAND_COMPLETE. -/
def execCommandComplete (r : Ring) (writeOk : Bool) (s : State) : Host.Outcome State Fault Refusal :=
  run (effCommandComplete r writeOk) s

/-- IRQ_DELAY_EXPIRE. -/
def execIrqDelayExpire (r : Ring) (s : State) : Host.Outcome State Fault Refusal :=
  run (effIrqDelayExpire r) s

/-- HOST_LINK_LOSS. -/
def execHostLinkLoss (s : State) : Host.Outcome State Fault Refusal :=
  run effHostLinkLoss s

/-- FLR. -/
def execFlr (s : State) : Host.Outcome State Fault Refusal :=
  run effFlr s

/-- FLR_DONE. -/
def execFlrDone (s : State) (cfg : MsixCtl := {}) : Host.Outcome State Fault Refusal :=
  run (effFlrDone cfg) s

end Sys2Proof.Machine
end

