-- ==== Sys2Proof/Machine/Book.lean ====
section
/-! DEFINITION. The parish book (R493 to R504): records, the full book, the window and its cursor, operating hours. -/

namespace Sys2Proof.Machine

-- writing

/-- Number of slots (R493). -/
def bookSlots : Nat := 16384

/-- The lowest-numbered empty slot at or above n, of a list of the slots that hold records, rising. -/
def lowestEmpty : List (Nat × Nat) → Nat → Nat
  | [], n => n
  | (k, _) :: rest, n => if k = n then lowestEmpty rest (n + 1) else n

/-- The slot of the record with the lowest `SEQ` among those of at most a severity (R499). -/
def victimSlot (l : List (Nat × Nat)) (sev : Nat) : Option Nat :=
  ((l.filter (fun x => decide (recSev x.2 ≤ sev))).foldl (fun m x => match m with
    | none => some x
    | some y => if recSeq x.2 < recSeq y.2 then some x else some y) none).map (·.1)

/-- The slot a new record takes (R499). -/
def slotFor (h : Hw) (sev : Nat) : Option Nat :=
  if h.book.length < bookSlots then some (lowestEmpty h.book 0) else victimSlot h.book sev

/-- The steward writes a record (R493 to R499). -/
def bookPut (r : QRec) : Eff := fun h =>
  match slotFor h r.sev with
  | none => chain [countDrop r.sev, raise .book 0 1] h
  | some n => chain [fun _ => [.book n (bookRecord h.stew.seq h.stew.ticks h.stew.cycles r)],
      modStew (fun s => { s with seq := s.seq + 1 }), showBook,
      whenE (fun h => decide (bookSlots ≤ h.book.length) && !h.stew.wasFull)
        (chain [modStew (fun s => { s with wasFull := true }), raise .book 0 0])] h

/-- A record of the steward's own (R495, R497). -/
def stewRecord (code sev value : Nat) : Eff := fun h =>
  bookPut { bell := (match h.bell.lastEdge with | none => 0 | some _ => h.bell.edgeBell % 2 ^ 32), source := 8, code := code, sev := sev,
            flags := 2, payload := value } h

/-- The operating time never goes backwards (R494). -/
def setTicks (ticks : Nat) : Eff := modStew (fun s => { s with ticks := max s.ticks ticks })

/-- RECORD_WRITE (R498, R499): the steward takes the oldest record of the gate's queue; while an erase runs they wait (R501). -/
def effRecordWrite (ticks : Nat) : Eff := fun h =>
  match h.gateQ with
  | [] => []
  | r :: rest =>
    if !h.stew.alive || h.gate.off || h.stew.erasing.isSome then []
    else chain [setTicks ticks, fun _ => [.gateQ rest], bookPut r] h

/-- HOURS_COMMIT (R494, R499). -/
def effHoursCommit (ticks : Nat) : Eff := fun h =>
  if !h.stew.alive || h.gate.off then []
  else chain [setTicks ticks, fun h => modStew (fun s => { s with committed := s.ticks, drops := dropCounts h }) h] h

-- the window

def bookWords (h : Hw) (n : Nat) : List Nat := (List.range 16).map (fun k => bits (bookSlot h n) (32 * k + 31) (32 * k))

/-- CURSOR_WRITE (R500, R502). -/
def effCursorWrite (slot : BitVec 14) : Eff := fun h =>
  if hostAway h || flag h book_STATUS_BUSY 0 then []
  else chain [setCursor slot.toNat, modGate (fun g => { g with bookSeq := none })] h

/-- The snapshot that a read of `WINDOW0` takes. -/
def bookTouch : Eff := fun h =>
  let n := bookCursor h
  modGate (fun g => { g with bookSnap := some (n, bookWords h n), bookSeq := some (recSeq (bookSlot h n)) }) h

/-- WINDOW_READ (R500): a read of `WINDOW0` takes a snapshot of the slot at the cursor. -/
def effWindowRead : Eff := fun h => chain [bookTouch, emit (.regData (BitVec.ofNat 32 ((bookWords h (bookCursor h)).getD 0 0)))] h

/-- The `SEQ` that `NEXT` and `PREV` start from (R500). -/
def bookFrom (h : Hw) : Nat :=
  match h.gate.bookSeq with
  | some s => s
  | none => recSeq (bookSlot h (bookCursor h))

/-- A write to `STEP` (R500, R502): the move is under way from now on, and completes in the first clk that passes (`endMove`). DESIGN
CHOICE on how long it takes, log 50. -/
def moveStep (move : Nat) : Eff := fun h =>
  if hostAway h || flag h book_STATUS_BUSY 0 then []
  else chain [setFlag book_STATUS_BUSY 0 true, modGate (fun g => { g with bookMove := some (move, bookFrom h) })] h

def effNext : Eff := moveStep 1
def effPrev : Eff := moveStep 2
def effOldest : Eff := moveStep 3
def effNewest : Eff := moveStep 4

-- erase

/-- An erase begins: every slot empties and every drop counter becomes 0 (R501). -/
def startErase (tr : Transport) : Eff := fun h =>
  let n := h.book.length
  chain [fun _ => [.drop .book 0 bookSlots], forE (List.range 5) (fun s => setF (book_DROP s) 0 0),
    modStew (fun s => { s with erasing := some tr, erased := n, drops := [0, 0, 0, 0, 0], wasFull := false }), showBook] h

/-- It ends with one `BOOK_ERASED` record. -/
def endErase : Eff := fun h => chain [modStew (fun s => { s with erasing := none }), stewRecord 40 0 h.stew.erased, showBook] h

-- meanings, one per command

/-- HOURS_COMMIT. -/
def execHoursCommit (ticks : Nat) (s : State) : Host.Outcome State Fault Refusal :=
  run (effHoursCommit ticks) s

/-- RECORD_WRITE. -/
def execRecordWrite (ticks : Nat) (s : State) : Host.Outcome State Fault Refusal :=
  run (effRecordWrite ticks) s

/-- CURSOR_WRITE. -/
def execCursorWrite (slot : BitVec 14) (s : State) : Host.Outcome State Fault Refusal :=
  run (effCursorWrite slot) s

/-- WINDOW_READ. -/
def execWindowRead (s : State) : Host.Outcome State Fault Refusal :=
  run (readBySoftware effWindowRead) s

/-- NEXT. -/
def execNext (s : State) : Host.Outcome State Fault Refusal :=
  run effNext s

/-- PREV. -/
def execPrev (s : State) : Host.Outcome State Fault Refusal :=
  run effPrev s

/-- OLDEST. -/
def execOldest (s : State) : Host.Outcome State Fault Refusal :=
  run effOldest s

/-- NEWEST. -/
def execNewest (s : State) : Host.Outcome State Fault Refusal :=
  run effNewest s

end Sys2Proof.Machine
end

