-- ==== Sys2Proof/Machine/Steward.lean ====
section
/-! DEFINITION. The steward (R471 to R492): firmware slots and boot, attestation, owner commands, the persistent configuration window
and the mailbox. -/

namespace Sys2Proof.Machine

-- responses

/-- The steward serves a transport: it is alive and powered, and the host's needs the link and a device that has booted (R476). -/
def stewUp (h : Hw) (tr : Transport) : Bool :=
  h.stew.alive && !h.gate.off && (tr == .mctp || (!hostAway h && !h.stew.bootFailed))

/-- The static address that the steward answers on at the management I3C bus (R482, R509): 0x40 + MADDR as last sampled. -/
def i3cAddress (h : Hw) : Nat := 0x40 + (Config.maddr h.stew.straps).toNat

/-- A command completes (R489): the mailbox page shows status and response. -/
def respond (tr : Transport) (st : Nat) (body : List Byte) : Eff := chain [emit (.steward tr st body),
  whenB (tr == .host) (chain [setF mailbox_RESULT_STATUS 0 st, setF mailbox_RESULT_LEN 0 body.length,
    forE (List.range ((body.length + 3) / 4)) (fun k => setF (mailbox_BUFFER k) 0 (ofLe ((body.drop (4 * k)).take 4))),
    setFlag mailbox_CMD_GO 0 false, setFlag mailbox_STATUS_BUSY 0 false]),
  raise .mailbox 0 0, whenB (st != 0) (raise .mailbox 0 1)]

/-- A mailbox command runs unless an erase is in progress (R489, R501). -/
def stewCmd (tr : Transport) (e : Eff) : Eff := fun h =>
  if !stewUp h tr then []
  else if h.stew.erasing.isSome then (if h.stew.erasing == some .host && tr == .host then [] else respond tr 5 [] h)
  else e h

def showOwner : Eff := look (fun h => !h.stew.owner.isEmpty) (setFlag mailbox_STATUS_OWNED 0)

/-- A new generation of the persistent configuration (R472). -/
def newGen : Eff := modStew (fun s => { s with gen := s.gen + 1 })

-- firmware

def listPut {α : Type} (i : Nat) (v : α) (l : List α) : List α := l.set i v

def fwActive (h : Hw) (ty : Nat) : Nat := h.stew.active.getD (ty - 1) 0

/-- The header of the image of a type that runs (R481, R488). -/
def fwRunning (h : Hw) (ty : Nat) : List Byte := h.stew.running.getD (ty - 1) []

/-- Number of the slot `ab` of an image type. -/
def fwSlot (ty ab : Nat) : Nat := 2 * (ty - 1) + ab

/-- Slot size in bytes (R471). -/
def fwSize (ty : Nat) : Nat := if ty = 2 then 0x1000000 else 0x800000

def fwByte (h : Hw) (slot off : Nat) : Byte :=
  match ((h.stew.slots.getD slot {}).bytes.find? (fun x => x.1 == off)) with
  | some x => x.2
  | none => Config.factoryFlash slot off

def fwBytes (h : Hw) (slot off n : Nat) : List Byte := (List.range n).map (fun k => fwByte h slot (off + k))
def fwNat (h : Hw) (slot off n : Nat) : Nat := ofLe (fwBytes h slot off n)

/-- An image in a slot verifies (R474, R475). -/
def fwVerifies (h : Hw) (ty ab : Nat) : Bool :=
  let s := fwSlot ty ab
  let cert := fwBytes h s 128 1024
  let len := fwNat h s 16 4
  fwNat h s 0 4 == 0x4D495356 && fwNat h s 4 1 == ty && fwNat h s 5 3 == 0 && fwNat h s 56 8 == 0 &&
    decide (fwNat h s 52 4 < 2) && decide (len + 1152 ≤ fwSize ty) && Config.x509Verify cert ty &&
    Config.ecdsaVerify (Config.certKey cert) (fwBytes h s 0 64) (fwBytes h s 64 64) &&
    Config.sha256 (fwBytes h s 1152 len) == fwBytes h s 20 32 &&
    decide (h.stew.floors.getD (ty - 1) 0 ≤ fwNat h s 12 4)

/-- The image in a slot runs, and its slot is the active one (R476). -/
def runSlot (ty ab : Nat) : Eff := fun h =>
  modStew (fun s => { s with active := listPut (ty - 1) ab s.active, running := listPut (ty - 1) (fwBytes h (fwSlot ty ab) 0 64) s.running }) h

/-- The image of a type is chosen at a boot (R476). -/
def bootType (ty : Nat) : Eff := fun h =>
  let a := fwActive h ty
  if fwVerifies h ty a then runSlot ty a h
  else if fwVerifies h ty (1 - a) then chain [raise .mailbox 0 4, runSlot ty (1 - a), newGen] h
  else chain [modStew (fun s => { s with bootFailed := true }), stewRecord 37 4 ty] h

/-- Gate and mill firmware are verified before they are released (R476). -/
def bootRelease : Eff := chain [modStew (fun s => { s with bootFailed := false }), bootType 2, bootType 3]

/-- Images that complete a boot raise their floors (R477). -/
def raiseFloors (tys : List Nat) : Eff := forE tys (fun ty => fun h =>
  let hd := fwRunning h ty
  let svn := ofLe ((hd.drop 12).take 4)
  if (hd.getD 52 0).getLsbD 0 && decide (h.stew.floors.getD (ty - 1) 0 < svn) then
    chain [modStew (fun x => { x with floors := listPut (ty - 1) svn x.floors }), newGen] h
  else [])

/-- FW_WRITE (R488, R489): into the inactive slot; what it held has then not verified. -/
def effFwWrite (tr : Transport) (req : Bytes) : Eff := stewCmd tr (fun h =>
  let ty := (req.getD 0 0).toNat
  let off := ofLe ((req.drop 4).take 4)
  let data := req.drop 8
  if req.length < 8 ∨ 2048 < req.length ∨ ty = 0 ∨ 3 < ty ∨ off % 8 ≠ 0 ∨ fwSize ty < off + data.length then respond tr 2 [] h
  else
    let s := fwSlot ty (1 - fwActive h ty)
    let put := (List.range data.length).map (fun k => (off + k, data.getD k 0))
    let kept := (h.stew.slots.getD s {}).bytes.filter (fun b => decide (b.1 < off) || decide (off + data.length ≤ b.1))
    chain [modStew (fun x => { x with slots := listPut s (FwSlot.mk (put ++ kept) false) x.slots }), respond tr 0 []] h)

def badType (req : List Byte) : Bool := req.length != 1 || req.getD 0 0 == 0 || decide (3 < (req.getD 0 0).toNat)

/-- FW_STAGE (R488): verifies the inactive slot. -/
def effFwStage (tr : Transport) (req : Bytes) : Eff := stewCmd tr (fun h =>
  let ty := (req.getD 0 0).toNat
  if badType req then respond tr 2 [] h
  else
    let ab := 1 - fwActive h ty
    let ok := fwVerifies h ty ab
    let s := fwSlot ty ab
    chain [modStew (fun x => { x with slots := listPut s (FwSlot.mk (x.slots.getD s {}).bytes ok) x.slots }),
      respond tr (if ok then 0 else 4) []] h)

/-- The inactive slot of a type becomes active, if it has verified since its last write (R488). -/
def activate (tr : Transport) (req : List Byte) : Eff := fun h =>
  let ty := (req.getD 0 0).toNat
  if badType req then respond tr 2 [] h
  else
    let ab := 1 - fwActive h ty
    if (h.stew.slots.getD (fwSlot ty ab) {}).verified then
      chain [modStew (fun x => { x with active := listPut (ty - 1) ab x.active }), newGen, respond tr 0 []] h
    else respond tr 4 [] h

/-- FW_ACTIVATE (R488, R489): status 0x06 while owned. -/
def effFwActivate (tr : Transport) (req : Bytes) : Eff := stewCmd tr (fun h =>
  if !h.stew.owner.isEmpty then respond tr 6 [] h else activate tr req h)

-- nonce, information

/-- The nonce of a counter value (R485). -/
def nonceOf (ctr : Nat) : List Byte := Config.sha256 (Config.nonceKey ++ leBytes 8 ctr ++ leBytes 8 Config.serial)

/-- GET_NONCE (R485, R489). -/
def effGetNonce (tr : Transport) (req : Bytes) : Eff := stewCmd tr (fun h =>
  if !req.isEmpty then respond tr 2 [] h
  else
    let n := nonceOf (h.stew.nonceCtr + 1)
    chain [modStew (fun s => { s with nonceCtr := s.nonceCtr + 1, nonce := some n }), newGen, respond tr 0 n] h)

/-- NONCE_EXPIRE (R485): after 60 s. -/
def effNonceExpire : Eff := modStew (fun s => { s with nonce := none })

/-- GET_INFO (R489): measurement 7, then `VERSION` and `SVN` of each running image, then the floors. -/
def effGetInfo (tr : Transport) (req : Bytes) : Eff := stewCmd tr (fun h =>
  if !req.isEmpty then respond tr 2 [] h
  else respond tr 0 (Config.identityInfo ++
    [1, 2, 3].flatMap (fun ty => ((fwRunning h ty).drop 8).take 8) ++ h.stew.floors.flatMap (leBytes 4)) h)

-- the persistent configuration window

/-- The oldest forwarded RWS write is committed (R487). -/
def commitOne : Eff := fun h =>
  match h.stew.forwarded with
  | [] => []
  | x :: rest => chain [modStew (fun s => { s with forwarded := rest }), fun h => [.stored x.1 ((storedReg h x.1 &&& ~~~x.2.1) ||| (x.2.2 &&& x.2.1))], newGen] h

def commitAll : Eff := fun h => forE h.stew.forwarded (fun _ => commitOne) h

/-- RWS_COMMIT (R10, R487). -/
def effRwsCommit : Eff := whenE (fun h => h.stew.alive && !h.gate.off) commitOne

def closeWindow : Eff := chain [modStew (fun s => { s with window := false, deadline := 0 }), setFlag mailbox_STATUS_PERSIST_OPEN 0 false,
  setF mailbox_PERSIST_LEFT 0 0]

/-- CLOSE_PERSIST (R487): it completes when every commit has completed. -/
def effClosePersist (tr : Transport) (req : Bytes) : Eff := stewCmd tr (fun h =>
  if !req.isEmpty then respond tr 2 [] h else chain [commitAll, closeWindow, respond tr 0 []] h)

/-- PERSIST_WINDOW_EXPIRE (R487). -/
def effPersistWindowExpire : Eff := whenE (fun h => h.stew.window) closeWindow

-- owner commands

/-- A blob's parts (R484). -/
def blobCode (b : List Byte) : Nat := ofLe ((b.drop 4).take 2)
def blobLen (b : List Byte) : Nat := ofLe ((b.drop 6).take 2)
def blobPayload (b : List Byte) : List Byte := (b.drop 48).take (blobLen b)

/-- A blob's length agrees with its `LEN`. -/
def blobSized (b : List Byte) : Bool := decide (112 ≤ b.length) && decide (blobLen b ≤ 1024) && b.length == 112 + blobLen b

/-- `MAGIC`, `SERIAL` and `NONCE` are right (R485). -/
def blobFresh (h : Hw) (b : List Byte) : Bool :=
  ofLe (b.take 4) == 0x314E574F && ofLe ((b.drop 8).take 8) == Config.serial && h.stew.nonce == some ((b.drop 16).take 32)

def blobSigned (key b : List Byte) : Bool := Config.ecdsaVerify key (b.take (48 + blobLen b)) (b.drop (48 + blobLen b))

/-- A refused blob (R485). -/
def authFail (tr : Transport) : Eff := chain [raise .mailbox 0 2, incF mailbox_AUTH_FAILS 0, respond tr 3 []]

/-- An owner command of code `code` (R483 to R486); `first` is what an unowned device does with it. -/
def ownerCmd (tr : Transport) (req : List Byte) (code : Nat) (first : Eff) (k : List Byte → Eff) : Eff := stewCmd tr (fun h =>
  let c := blobCode req
  if !blobSized req then respond tr 2 [] h
  else if c ≠ code ∧ 1 ≤ c ∧ c ≤ 5 then []
  else
    let fresh := blobFresh h req
    chain [modStew (fun s => { s with nonce := none }),
      (if !fresh then authFail tr
       else if h.stew.owner.isEmpty then (if c = code then first else respond tr 2 [])
       else if !blobSigned h.stew.owner req then authFail tr
       else if c ≠ code then respond tr 2 []
       else k (blobPayload req))] h)

/-- An owner command that needs an owner. -/
def owned (tr : Transport) (req : List Byte) (code : Nat) (k : List Byte → Eff) : Eff := ownerCmd tr req code (respond tr 6 []) k

/-- OPEN_PERSIST (R486, R487). -/
def effOpenPersist (tr : Transport) (req : Bytes) : Eff := owned tr req 1 (fun p => fun h =>
  let s := ofLe p
  if p.length ≠ 2 ∨ s = 0 ∨ 600 < s then respond tr 2 [] h
  else chain [modStew (fun x => { x with window := true, deadline := h.clk + s * clkSecond }), setFlag mailbox_STATUS_PERSIST_OPEN 0 true,
    setF mailbox_PERSIST_LEFT 0 s, raise .mailbox 0 5, respond tr 0 []] h)

/-- ERASE_CONFIG (R10, R486): every stored RWS value returns to its reset value. -/
def effEraseConfig (tr : Transport) (req : Bytes) : Eff := owned tr req 2 (fun p =>
  if !p.isEmpty then respond tr 2 []
  else chain [modStew (fun s => { s with forwarded := [] }), fun _ => [.drop .stored 0 (2 ^ 26)], newGen, respond tr 0 []])

/-- ERASE_BOOK (R486, R501). -/
def effEraseBook (tr : Transport) (req : Bytes) : Eff := owned tr req 3 (fun p =>
  if !p.isEmpty then respond tr 2 []
  else chain [startErase tr, whenB (tr == .host) (chain [setFlag mailbox_CMD_GO 0 true, setFlag mailbox_STATUS_BUSY 0 true])])

/-- BOOK_ERASE_DONE (R501). -/
def effBookEraseDone : Eff := fun h =>
  match h.stew.erasing with
  | none => []
  | some tr => if h.stew.alive && !h.gate.off then chain [endErase, respond tr 0 []] h else []

def installOwner (tr : Transport) (key : List Byte) : Eff := chain [modStew (fun s => { s with owner := key }), newGen, showOwner, respond tr 0 []]

/-- SET_OWNER (R483, R484, R486, R509): an unowned device takes its first key only while the strap is asserted, signed by that key. -/
def effSetOwner (tr : Transport) (req : Bytes) (strap : Bool) : Eff :=
  ownerCmd tr req 4
    (if !strap then respond tr 6 []
     else if (blobPayload req).length ≠ 64 then respond tr 2 []
     else if blobSigned (blobPayload req) req then installOwner tr (blobPayload req)
     else authFail tr)
    (fun p => if p.length = 0 ∨ p.length = 64 then installOwner tr p else respond tr 2 [])

/-- OWNER_FW_ACTIVATE (R486). -/
def effOwnerFwActivate (tr : Transport) (req : Bytes) : Eff := owned tr req 5 (fun p => activate tr p)

-- heartbeat

/-- HEARTBEAT (R490). -/
def effHeartbeat : Eff := whenE (fun h => !h.gate.off) (chain [modStew (fun s => { s with alive := true }), setFlag mailbox_STATUS_ALIVE 0 true, showOwner])

/-- STEWARD_LOST (R28, R490): the command in progress completes with status 0x05; the device computes on to the next step bell. -/
def effStewardLost : Eff := fun h =>
  if !h.stew.alive then []
  else chain [setFlag mailbox_STATUS_ALIVE 0 false, raise .mailbox 0 3,
    (match h.stew.erasing with | some tr => respond tr 5 [] | none => skip),
    modStew (fun s => { s with alive := false, erasing := none }), showBook, modGate (fun g => { g with stewWait := 1 })] h

-- SPDM

def spdmState (h : Hw) (tr : Transport) : Nat := if tr == .host then h.stew.spdmHost else h.stew.spdmMctp

def setSpdm (tr : Transport) (n : Nat) : Eff := modStew (fun s => if tr == .host then { s with spdmHost := n } else { s with spdmMctp := n })

def spdmOut (tr : Transport) (code : Nat) (body : List Byte) : Eff := emit (.steward tr code body)

/-- An SPDM `ERROR` response (code 0x7F) with an error code of the DMTF standard. -/
def spdmError (tr : Transport) (e : Nat) : Eff := spdmOut tr 0x7F [BitVec.ofNat 8 e]

/-- A request in its turn (R480): otherwise `UnexpectedRequest`. -/
def spdmReq (tr : Transport) (need : Nat) (e : Eff) : Eff := fun h =>
  if !stewUp h tr then [] else if spdmState h tr < need then spdmError tr 4 h else e h

/-- GET_VERSION: version 1.2 only. -/
def effGetVersion (tr : Transport) : Eff := spdmReq tr 0 (chain [setSpdm tr 1, spdmOut tr 0x04 [1, 0x00, 0x12]])

/-- GET_CAPABILITIES: `CERT_CAP`, `CHAL_CAP`, `MEAS_CAP` with signatures. -/
def effGetCapabilities (tr : Transport) : Eff := spdmReq tr 1 (chain [setSpdm tr 2, spdmOut tr 0x61 (leBytes 4 0x16)])

/-- NEGOTIATE_ALGORITHMS: DMTF measurements, SHA-256, ECDSA P-256. -/
def effNegotiateAlgorithms (tr : Transport) : Eff := spdmReq tr 2
  (chain [setSpdm tr 3, spdmOut tr 0x63 ([1] ++ leBytes 4 2 ++ leBytes 4 0x10 ++ leBytes 4 1)])

/-- GET_DIGESTS: slot 0 alone holds a chain (R479). -/
def effGetDigests (tr : Transport) : Eff := spdmReq tr 3 (spdmOut tr 0x01 ([1] ++ Config.sha256 Config.certChain))

/-- GET_CERTIFICATE. -/
def effGetCertificate (tr : Transport) (slot : BitVec 8) (off len : BitVec 16) : Eff := spdmReq tr 3
  (if slot ≠ 0 then spdmError tr 1 else spdmOut tr 0x02 ((Config.certChain.drop off.toNat).take len.toNat))

/-- Measurement blocks 1 to 8 (R481). -/
def measurement (h : Hw) (i : Nat) : List Byte :=
  match i with
  | 1 => Config.bootRomDigest
  | 2 => ((fwRunning h 1).drop 20).take 32
  | 3 => ((fwRunning h 2).drop 20).take 32
  | 4 => ((fwRunning h 3).drop 20).take 32
  | 5 => h.stew.floors.flatMap (leBytes 4) ++ h.stew.active.flatMap (leBytes 1) ++ [0]
  | 6 => Config.sha256 (Config.configImage h.stew.trims h.stew.calibration h.stored h.stew.owner h.stew.floors h.stew.active h.stew.nonceCtr)
  | 7 => Config.identityInfo
  | _ => if h.stew.owner.isEmpty then List.replicate 32 0 else Config.sha256 h.stew.owner

def allMeasurements (h : Hw) : List Byte := (List.range 8).flatMap (fun k => measurement h (k + 1))

/-- CHALLENGE. -/
def effChallenge (tr : Transport) (slot : BitVec 8) (nonce : Bytes) : Eff := spdmReq tr 3 (fun h =>
  if slot ≠ 0 ∨ nonce.length ≠ 32 then spdmError tr 1 h
  else spdmOut tr 0x03 (Config.sha256 Config.certChain ++ Config.sha256 (allMeasurements h) ++
    Config.ecdsaSign (Config.spdmTranscript (allMeasurements h) nonce)) h)

/-- GET_MEASUREMENTS: index 0 asks for their number, 0xFF for all of them. -/
def effGetMeasurements (tr : Transport) (index : BitVec 8) (sign : Bool) (nonce : Bytes) : Eff := spdmReq tr 3 (fun h =>
  let i := index.toNat
  if (8 < i ∧ i ≠ 255) ∨ (sign ∧ nonce.length ≠ 32) then spdmError tr 1 h
  else
    let body := if i = 0 then [8] else if i = 255 then allMeasurements h else measurement h i
    spdmOut tr 0x60 (body ++ (if sign then Config.ecdsaSign (Config.spdmTranscript body nonce) else [])) h)

/-- SPDM_UNSUPPORTED (R480). -/
def effSpdmUnsupported (tr : Transport) (_code : BitVec 8) : Eff := fun h =>
  if stewUp h tr then spdmError tr 7 h else []

-- meanings, one per command

/-- RWS_COMMIT. -/
def execRwsCommit (s : State) : Host.Outcome State Fault Refusal :=
  run effRwsCommit s

/-- HEARTBEAT. -/
def execHeartbeat (s : State) : Host.Outcome State Fault Refusal :=
  run effHeartbeat s

/-- STEWARD_LOST. -/
def execStewardLost (s : State) : Host.Outcome State Fault Refusal :=
  run effStewardLost s

/-- GET_INFO. -/
def execGetInfo (tr : Transport) (req : Bytes) (s : State) : Host.Outcome State Fault Refusal :=
  run (effGetInfo tr req) s

/-- GET_NONCE. -/
def execGetNonce (tr : Transport) (req : Bytes) (s : State) : Host.Outcome State Fault Refusal :=
  run (effGetNonce tr req) s

/-- OPEN_PERSIST. -/
def execOpenPersist (tr : Transport) (req : Bytes) (s : State) : Host.Outcome State Fault Refusal :=
  run (effOpenPersist tr req) s

/-- ERASE_CONFIG. -/
def execEraseConfig (tr : Transport) (req : Bytes) (s : State) : Host.Outcome State Fault Refusal :=
  run (effEraseConfig tr req) s

/-- ERASE_BOOK. -/
def execEraseBook (tr : Transport) (req : Bytes) (s : State) : Host.Outcome State Fault Refusal :=
  run (effEraseBook tr req) s

/-- BOOK_ERASE_DONE. -/
def execBookEraseDone (s : State) : Host.Outcome State Fault Refusal :=
  run effBookEraseDone s

/-- SET_OWNER. -/
def execSetOwner (tr : Transport) (req : Bytes) (strap : Bool) (s : State) : Host.Outcome State Fault Refusal :=
  run (effSetOwner tr req strap) s

/-- OWNER_FW_ACTIVATE. -/
def execOwnerFwActivate (tr : Transport) (req : Bytes) (s : State) : Host.Outcome State Fault Refusal :=
  run (effOwnerFwActivate tr req) s

/-- CLOSE_PERSIST. -/
def execClosePersist (tr : Transport) (req : Bytes) (s : State) : Host.Outcome State Fault Refusal :=
  run (effClosePersist tr req) s

/-- PERSIST_WINDOW_EXPIRE. -/
def execPersistWindowExpire (s : State) : Host.Outcome State Fault Refusal :=
  run effPersistWindowExpire s

/-- NONCE_EXPIRE. -/
def execNonceExpire (s : State) : Host.Outcome State Fault Refusal :=
  run effNonceExpire s

/-- FW_WRITE. -/
def execFwWrite (tr : Transport) (req : Bytes) (s : State) : Host.Outcome State Fault Refusal :=
  run (effFwWrite tr req) s

/-- FW_STAGE. -/
def execFwStage (tr : Transport) (req : Bytes) (s : State) : Host.Outcome State Fault Refusal :=
  run (effFwStage tr req) s

/-- FW_ACTIVATE. -/
def execFwActivate (tr : Transport) (req : Bytes) (s : State) : Host.Outcome State Fault Refusal :=
  run (effFwActivate tr req) s

/-- GET_VERSION. -/
def execGetVersion (tr : Transport) (s : State) : Host.Outcome State Fault Refusal :=
  run (effGetVersion tr) s

/-- GET_CAPABILITIES. -/
def execGetCapabilities (tr : Transport) (s : State) : Host.Outcome State Fault Refusal :=
  run (effGetCapabilities tr) s

/-- NEGOTIATE_ALGORITHMS. -/
def execNegotiateAlgorithms (tr : Transport) (s : State) : Host.Outcome State Fault Refusal :=
  run (effNegotiateAlgorithms tr) s

/-- GET_DIGESTS. -/
def execGetDigests (tr : Transport) (s : State) : Host.Outcome State Fault Refusal :=
  run (effGetDigests tr) s

/-- GET_CERTIFICATE. -/
def execGetCertificate (tr : Transport) (slot : BitVec 8) (off len : BitVec 16) (s : State) : Host.Outcome State Fault Refusal :=
  run (effGetCertificate tr slot off len) s

/-- CHALLENGE. -/
def execChallenge (tr : Transport) (slot : BitVec 8) (nonce : Bytes) (s : State) : Host.Outcome State Fault Refusal :=
  run (effChallenge tr slot nonce) s

/-- GET_MEASUREMENTS. -/
def execGetMeasurements (tr : Transport) (index : BitVec 8) (sign : Bool) (nonce : Bytes) (s : State) : Host.Outcome State Fault Refusal :=
  run (effGetMeasurements tr index sign nonce) s

/-- SPDM_UNSUPPORTED. -/
def execSpdmUnsupported (tr : Transport) (code : BitVec 8) (s : State) : Host.Outcome State Fault Refusal :=
  run (effSpdmUnsupported tr code) s

end Sys2Proof.Machine
end

