-- ==== Sys2Proof/Machine/Power.lean ====
section
/-! DEFINITION. Power, rails, temperature, clocks, resets and low-power states (R285, R449 to R470, R506, R508). -/

namespace Sys2Proof.Machine

-- module reset and power-on

/-- A module reset (R452, R463): the steward survives it; its window closes, its nonce lapses, and operating hours and drop
counters are committed (R485, R487, R494), and the address straps are sampled (R509). -/
def moduleReset (cause : Nat) (cycle : Bool) (record : Eff) : Eff := fun h =>
  let count := getF h reset_RESET_COUNT 0
  chain [record, commitAll, closeWindow,
    fun h => modStew (fun s => { s with nonce := none, committed := s.ticks, drops := dropCounts h,
                                        cycles := s.cycles + b2n cycle, straps := s.straps + 1 }) h,
    resetDevice true cause (count + 1), losePackages,
    modGate (fun g => { g with moduleRuns := true, booted := false })] h

/-- A module reset that the steward makes for a fault, with its FATAL record (R497). -/
def faultReset (cause code value : Nat) : Eff := whenE (fun h => h.stew.alive && !h.gate.off)
  (moduleReset cause false (stewRecord code 4 value))

/-- INPUT_LOSS (R506): everything but the steward's flash is lost; what it had not committed goes with it (R487, R494, R498). -/
def effInputLoss : Eff := fun h =>
  if h.gate.off then []
  else
    let count := getF h reset_RESET_COUNT 0
    chain [resetDevice true 0 count, losePackages, dropRegs false [] 0x100000 0x101000,
      fun h => forE (List.range 5) (fun s => setF (book_DROP s) 0 (h.stew.drops.getD s 0)) h,
      modStew (fun s => { s with
        alive := false, nonce := none, window := false, deadline := 0, forwarded := [], ticks := s.committed, spdmMctp := 0
        bootFailed := false }),
      modGate (fun g => { g with off := true, temps := [], rails := [] })] h

/-- Operating time of a record in units of 1/65,536 hour (R493, R494). -/
def recTicks (r : Nat) : Nat := bits r 95 64 * 65536 + bits r 63 48

def newestTicks (h : Hw) : Nat := match pickRecord h false (fun _ => true) with
  | some n => recTicks (bookSlot h n)
  | none => 0

/-- Sectors of the book whose seals fail lose their 64 slots; one record counts what was lost (R498). -/
def loseSectors (l : List Nat) : Eff := fun h =>
  let ls := (l.filter (fun s => decide (s < 256)))
  let n := (h.book.filter (fun x => ls.contains (x.1 / 64))).length
  if ls.isEmpty then []
  else chain [fun _ => ls.map (fun s => .drop .book (64 * s) (64 * s + 64)), stewRecord 41 3 n, showBook] h

/-- POWER_ON (R454, R472, R476, R494, R497, R498, R502, R509): `sealsLost` are sectors of the book whose seals fail, `cfgOk` says
that a configuration generation verifies. -/
def effPowerOn (sealsLost : List Nat) (cfgOk : Bool) : Eff := fun h =>
  if !h.gate.off then []
  else chain [
    fun h => modStew (fun s => { s with alive := true, cycles := s.cycles + 1, ticks := max s.committed (newestTicks h),
                                        straps := s.straps + 1 }) h,
    modGate (fun g => { g with off := false, linkDown := true, moduleRuns := true, booted := true }),
    incF reset_RESET_COUNT 0, setF reset_LAST_CAUSE 0 0, showOwner,
    whenE (fun h => h.stew.erasing.isSome) (chain [fun _ => [.drop .book 0 bookSlots], endErase]),
    loseSectors sealsLost,
    (if cfgOk then chain [bootType 1, whenE (fun h => !h.stew.bootFailed) (chain [raiseFloors [1], stewRecord 39 0 0, bootRelease])]
     else chain [modStew (fun s => { s with bootFailed := true }), stewRecord 37 4 0]),
    showBook] h

/-- HBM stacks of a quarter have trained (R454). -/
def trainStacks (q : Nat) : Eff := forE (List.range 3) (fun s => setFlag hbm0_STATUS_TRAINED (3 * q + s) true)

/-- The mill's links have trained (R285, R454). -/
def trainMill : Eff := chain [setFlag mill_STATUS_LINK0_UP 0 true, setFlag mill_STATUS_LINK1_UP 0 true]

/-- A reset completes with the host link up (R463); `cfg` is how the host's software then sets MSI-X up. DESIGN CHOICE (R380), log 7. -/
def linkBack (cfg : MsixCtl) : Eff :=
  modGate (fun g => { g with linkDown := false, linkLost := false, msixOn := cfg.enable, msixMask := cfg.mask })

/-- MODULE_RESET_DONE (R454, R476, R477, R497, R508). -/
def effModuleResetDone (cfg : MsixCtl) : Eff := fun h =>
  if !h.gate.moduleRuns || h.gate.perst || h.gate.off || h.stew.bootFailed then []
  else chain [
    whenB (!h.gate.booted) (chain [fun h => stewRecord 39 0 (getF h reset_LAST_CAUSE 0) h, bootRelease]),
    whenE (fun h => !h.stew.bootFailed) (chain [raiseFloors [2, 3], forE (List.range 4) trainStacks, trainMill,
      modGate (fun g => { g with moduleRuns := false, booted := false }), linkBack cfg])] h

/-- POWER_CYCLE and MODULE_RESET (R463, R489, R494). -/
def effPowerCycle (tr : Transport) : Eff := stewCmd tr (chain [respond tr 0 [], moduleReset 2 true skip])
def effModuleReset (tr : Transport) : Eff := stewCmd tr (chain [respond tr 0 [], moduleReset 1 false skip])

-- warm reset

/-- A warm device reset starts (R463); the gate and mill firmware are verified before they are released (R476). -/
def startWarm (cause : Nat) : Eff := fun h =>
  if h.gate.warmRuns || h.gate.moduleRuns || h.gate.off then []
  else chain [resetDevice false cause (getF h reset_RESET_COUNT 0), modGate (fun g => { g with warmRuns := true }), bootRelease] h

/-- WARM (R463, R466): any other key is refused. -/
def effWarm (key : BitVec 16) : Eff := fun h =>
  if key = 0x5A17 then startWarm 9 h else if h.gate.warmRuns then [] else raise .reset 0 7 h

/-- CXL_RESET (R380, R395). -/
def effCxlReset : Eff := startWarm 8

/-- WARM_DONE (R463, R467, R508). -/
def effWarmDone (cfg : MsixCtl) : Eff := fun h =>
  if !h.gate.warmRuns || h.gate.perst || h.stew.bootFailed then []
  else chain [modGate (fun g => { g with warmRuns := false }), linkBack cfg, forE (List.range 4) trainStacks, trainMill, raise .reset 0 0] h

/-- PERST_FALL (R508): a running device performs a warm reset of cause 10. -/
def effPerstFall : Eff := chain [modGate (fun g => { g with perst := true }), startWarm 10]

/-- PERST_RISE (R508). -/
def effPerstRise : Eff := modGate (fun g => { g with perst := false })

/-- HOST_LINK_UP: when no mode can be reached the link stays down and the steward records `HOST_LINK_FAIL` (R381, R497). -/
def effHostLinkUp (width : Nat) (rate32 flit68 : Bool) (cfg : MsixCtl) : Eff := hostLinkUp width rate32 flit68 cfg (stewRecord 38 3 0)

-- quarter, croft and port resets

/-- Phase 2 of a layer with quarter q in its `QMASK` runs. -/
def phase2In (h : Hw) (q : Nat) : Bool := h.mill.p2run.any (fun l => bit (lyQmask (mlayerXOf h l).layer) q)

/-- QUARTER_RESET (R463); under a running phase 2 it fails the device (R317). -/
def effQuarterReset (q : Quarter) : Eff := fun h =>
  if quarterInReset h q.val || quarterParked h q.val then []
  else chain [leaveFallow, whenB (phase2In h q.val) failDevice, resetQuarter false q.val, setBitF reset_STATUS_IN_RESET 0 q.val true, setBitF reset_QUARTER_RESET 0 q.val true] h

/-- QUARTER_DONE (R463, R466): a park asked for meanwhile takes effect. -/
def effQuarterDone (q : Quarter) : Eff := fun h =>
  if !quarterInReset h q.val then []
  else
    let park := h.gate.parkNext.contains q.val
    chain [setBitF reset_STATUS_IN_RESET 0 q.val false, setBitF reset_QUARTER_RESET 0 q.val false, trainStacks q.val, raise .reset 0 1,
      whenB park (modGate (fun g => { g with parkNext := g.parkNext.filter (· != q.val), parking := q.val :: g.parking }))] h

def croftBitF (c : Nat) : Fld := if c < 32 then reset_CROFT_RESET_LO else reset_CROFT_RESET_HI

/-- CROFT_RESET (R119, R463, R466). -/
def effCroftReset (c : Croft) : Eff := fun h =>
  if quarterGone h (c.val / 16) then []
  else chain [leaveFallow, resetCroft c.val, setBitF (croftBitF c.val) 0 (c.val % 32) true] h

/-- CROFT_DONE. -/
def effCroftDone (c : Croft) : Eff := fun h =>
  if bit (getF h (croftBitF c.val) 0) (c.val % 32) then
    chain [setBitF (croftBitF c.val) 0 (c.val % 32) false, raise .reset 0 2] h
  else []

/-- PORT_RESET (R463, R466): messages of which no flit has been sent are routed again (R352). -/
def effPortReset (p : Port) : Eff := fun h =>
  if quarterGone h (p.val / 8) then []
  else chain [leaveFallow, whenB (portUp h p.val) (chain [setPort p.val stDark, forE (List.range 4) (rerouteChan p.val)]), resetPort false p.val] h

-- low-power states

/-- Every croft of a set is `STOPPED`. -/
def allStopped (h : Hw) (cs : List Nat) : Bool := cs.all (fun c => (List.range 3).all (fun s => strmState h (3 * c + s) == 0))

/-- PARK (R464, R466). -/
def effPark (q : Quarter) (v : Bool) : Eff := fun h =>
  let i := q.val
  let on := bit (getF h reset_PARK 0) i
  if v then
    if on then []
    else if quarterInReset h i then
      chain [setBitF reset_PARK 0 i true, modGate (fun g => { g with parkNext := i :: g.parkNext })] h
    else if allStopped h ((List.range 16).map (fun k => 16 * i + k)) then
      chain [setBitF reset_PARK 0 i true, modGate (fun g => { g with parking := i :: g.parking })] h
    else raise .reset 0 7 h
  else if on then
    chain [setBitF reset_PARK 0 i false,
      modGate (fun g => { g with
        parkNext := g.parkNext.filter (· != i), parking := g.parking.filter (· != i)
        unparking := if quarterParked h i then i :: g.unparking else g.unparking })] h
  else []

/-- PARKED (R464, R465). -/
def effParked (q : Quarter) : Eff := fun h =>
  if !h.gate.parking.contains q.val then []
  else chain [resetQuarter false q.val, modGate (fun g => { g with parking := g.parking.filter (· != q.val) }),
    setBitF reset_STATUS_PARKED 0 q.val true, raise .reset 0 3] h

/-- UNPARKED (R464): the quarter comes up as after a quarter reset. -/
def effUnparked (q : Quarter) : Eff := fun h =>
  if !h.gate.unparking.contains q.val then []
  else chain [modGate (fun g => { g with unparking := g.unparking.filter (· != q.val) }),
    setBitF reset_STATUS_PARKED 0 q.val false, trainStacks q.val, raise .reset 0 4] h

def selfRefreshAll (b : Bool) : Eff := forE (List.range 12) (fun k => whenE (fun h => !quarterAway h (k / 3)) (setFlag hbm0_STATUS_SELF_REFRESH k b))

/-- FALLOW (R464). -/
def effFallow (v : Bool) : Eff := fun h =>
  if v then
    if flag h reset_CTRL_FALLOW 0 then []
    else if allStopped h (List.range 64) && !flag h bellMaster_STATUS_RUNNING 0 && !flag h mill_CTRL_ENABLE 0 then
      chain [setFlag reset_CTRL_FALLOW 0 true, modGate (fun g => { g with goingFallow := true, leavingFallow := false })] h
    else raise .reset 0 7 h
  else leaveFallow h

/-- FALLOW_ENTERED (R464): HBM is in self-refresh. -/
def effFallowEntered : Eff := fun h =>
  if h.gate.goingFallow then chain [modGate (fun g => { g with goingFallow := false }), setFlag reset_STATUS_IN_FALLOW 0 true,
    selfRefreshAll true, raise .reset 0 5] h
  else []

/-- FALLOW_LEFT (R464). -/
def effFallowLeft : Eff := fun h =>
  if h.gate.leavingFallow then chain [modGate (fun g => { g with leavingFallow := false }), setFlag reset_STATUS_IN_FALLOW 0 false,
    selfRefreshAll false, raise .reset 0 6] h
  else []

-- the input

/-- BROWNOUT (R450, R451): the interval that runs, or that a resume will open, is touched. -/
def effBrownout (mv : BitVec 16) : Eff := fun h =>
  if h.gate.off || flag h power_STATUS_BROWNOUT 0 then []
  else chain [setFlag power_STATUS_BROWNOUT 0 true, setF power_VIN 0 mv.toNat, incF power_BROWNOUT_COUNT 0,
    whenB h.bell.lastEdge.isSome (setFlag power_STATUS_TOUCHED 0 true), raise .power 0 0] h

/-- BROWNOUT_END (R450): `minMv` is the lowest input seen. -/
def effBrownoutEnd (minMv : BitVec 16) : Eff := fun h =>
  if h.gate.off || !flag h power_STATUS_BROWNOUT 0 then []
  else chain [setFlag power_STATUS_BROWNOUT 0 false, setF power_BROWNOUT_MIN 0 minMv.toNat, raise .power 0 1] h

/-- UNDERVOLT (R452). -/
def effUndervolt (mv : BitVec 16) : Eff := faultReset 3 32 mv.toNat

/-- OVERVOLT (R467). -/
def effOvervolt (mv : BitVec 16) : Eff := whenE (fun h => !h.gate.off) (chain [setF power_VIN 0 mv.toNat, raise .power 0 2])

/-- OVERVOLT_RESET (R452). -/
def effOvervoltReset (mv : BitVec 16) : Eff := faultReset 4 33 mv.toNat

/-- POWER_HIGH (R452): the input power over 10 ms. -/
def effPowerHigh (watts : BitVec 12) : Eff := whenE (fun h => !h.gate.off)
  (chain [setF power_PIN 0 watts.toNat, peakF power_PIN_PEAK 0 watts.toNat, whenB (decide (3000 < watts.toNat)) (raise .power 0 3)])

-- rails

/-- Setpoint of a rail in mV, numbered in the order of R453; none beyond the last. -/
def railSetpoint (r : Nat) : Option Nat :=
  if r < 4 then some 750
  else if r < 8 then some 850
  else if r = 8 then some 800
  else if r < 13 then some 900
  else if r = 13 then some 1200
  else if r < 50 then some (([1100, 400, 1800] : List Nat).getD ((r - 14) % 3) 0)
  else ([some 800, some 1800, some 1050, some 500, some 3300, some 1800, some 3300] : List (Option Nat)).getD (r - 50) none

/-- `RAIL_DATA` shows the selected rail. -/
def showRail : Eff := fun h =>
  match h.gate.rails.find? (fun x => x.1 == getF h power_RAIL_SEL 0) with
  | some x => chain [setF power_RAIL_DATA_MV 0 x.2.1, setF power_RAIL_DATA_A 0 x.2.2] h
  | none => chain [setF power_RAIL_DATA_MV 0 0, setF power_RAIL_DATA_A 0 0] h

/-- RAIL_SAMPLE (R453): `tripped` says that the rail has been more than 6 % off, or above its current limit, for 10 µs. -/
def effRailSample (rail : Fin 64) (mv ma : BitVec 16) (tripped : Bool) : Eff := fun h =>
  match railSetpoint rail.val with
  | none => []
  | some s =>
    let dev := if mv.toNat < s then s - mv.toNat else mv.toNat - s
    if h.gate.off then []
    else chain [modGate (fun g => { g with rails := (rail.val, mv.toNat, ma.toNat) :: g.rails.filter (fun x => x.1 != rail.val) }), showRail,
      whenB (decide (3 * s < 100 * dev)) (raise .power 0 6), whenB tripped (faultReset 5 34 rail.val)] h

-- temperature

/-- Warning, critical and shutdown thresholds of a sensor in °C (R461). -/
def thresholds (s : Nat) : Int × Int × Int :=
  if s < 36 then (95, 105, 115) else if s < 48 then (95, 105, 110) else if s < 72 then (85, 95, 105) else (110, 120, 125)

/-- A threshold is reached at or above it and re-arms 5 °C below it (R461): whether it is held after a reading. -/
def holdsAt (was : Bool) (thr deg : Int) : Bool := decide (thr ≤ deg) || (was && decide (thr - 5 < deg))

def byteOf (d : Int) : Nat := (d % 256).toNat

def showTemp : Eff := fun h =>
  match h.gate.temps.find? (fun x => x.1 == getF h power_TEMP_SEL 0) with
  | some x => chain [setF power_TEMP_DATA_DEG_C 0 (byteOf x.2.1), setF power_TEMP_DATA_PEAK 0 (byteOf x.2.2)] h
  | none => chain [setF power_TEMP_DATA_DEG_C 0 0, setF power_TEMP_DATA_PEAK 0 0] h

/-- The first threshold event's sensor is captured. -/
def captureSensor (s : Nat) : Eff := whenE (fun h => !flag h power_THERM_SENSOR_VALID 0)
  (chain [setF power_THERM_SENSOR_SENSOR 0 s, setFlag power_THERM_SENSOR_VALID 0 true])

def putMember (l : List Nat) (s : Nat) (b : Bool) : List Nat := if b then (if l.contains s then l else s :: l) else l.filter (· != s)

/-- TEMP_SAMPLE (R461, R462). -/
def effTempSample (sensor : Fin 76) (degC : Int) : Eff := fun h =>
  let s := sensor.val
  let th := thresholds s
  let warn := holdsAt (h.gate.warn.contains s) th.1 degC
  let crit := holdsAt (h.gate.crit.contains s) th.2.1 degC
  let newWarn := warn && !h.gate.warn.contains s
  let newCrit := crit && !h.gate.crit.contains s
  let peak := match h.gate.temps.find? (fun x => x.1 == s) with
    | some x => max x.2.2 degC
    | none => degC
  if h.gate.off then []
  else chain [
    modGate (fun g => { g with
      temps := (s, degC, peak) :: g.temps.filter (fun x => x.1 != s)
      warn := putMember g.warn s warn
      crit := putMember g.crit s crit }),
    showTemp,
    look (fun h => !h.gate.warn.isEmpty) (setFlag power_STATUS_THERM_WARN 0), look (fun h => !h.gate.crit.isEmpty) (setFlag power_STATUS_THERM_CRIT 0),
    whenB newWarn (chain [captureSensor s, raise .power 0 4]),
    whenB newCrit (chain [captureSensor s, raise .power 0 5, abandonGate ⟨.power, 0⟩]),
    whenB (decide (th.2.2 ≤ degC)) (faultReset 6 35 (s + 256 * byteOf degC))] h

-- clocks and quarter power

/-- A port's light is gone (R460). -/
def darkPort (p : Nat) : Eff := fun h =>
  let s := portState h p
  if s = stDark ∨ s = stFailed then []
  else chain [(if s = stUp then leaveUp p stDark else setPort p stDark), dropLink p] h

/-- PLL_UNLOCK (R28, R460). -/
def effPllUnlock (which : ClockLoss) : Eff :=
  match which with
  | .quarterTree q => whenE (fun h => !h.gate.off) (chain [failQuarter q.val, raise .power 0 7])
  | .gatePll => faultReset 7 36 0
  | .millPll => faultReset 7 36 1
  | .memoryPhy => faultReset 7 36 2
  | .moduleRef => faultReset 7 36 3
  | .causewayRef q => forE (List.range 8) (fun k => darkPort (8 * q.val + k))

/-- QPOWER_SAMPLE (R457). -/
def effQpowerSample (q : Quarter) (watts : BitVec 10) : Eff := fun h =>
  if quarterGone h q.val then []
  else chain [setF dyke_QPOWER q.val watts.toNat, peakF dyke_QPOWER_PEAK q.val watts.toNat,
    whenB (decide (480 < watts.toNat)) (raise .dyke q.val 1)] h

/-- MILL_LINK_DEGRADED (R28, R285): `up` and `full` say how the link stands. -/
def effMillLinkDegraded (l : Fin 2) (up full : Bool) : Eff := fun h =>
  let f := if l.val = 0 then mill_STATUS_LINK0_UP else mill_STATUS_LINK1_UP
  let other := if l.val = 0 then mill_STATUS_LINK1_UP else mill_STATUS_LINK0_UP
  chain [setFlag f 0 up, whenB (!(up && full)) (raise .mill 0 9), whenB (!up && !flag h other 0) failMill] h

-- meanings, one per command

/-- HOST_LINK_UP. -/
def execHostLinkUp (width : Nat) (rate32 flit68 : Bool) (s : State) (cfg : MsixCtl := {}) : Host.Outcome State Fault Refusal :=
  run (effHostLinkUp width rate32 flit68 cfg) s

/-- POWER_ON. -/
def execPowerOn (sealsLost : List Nat) (cfgOk : Bool) (s : State) : Host.Outcome State Fault Refusal :=
  run (effPowerOn sealsLost cfgOk) s

/-- INPUT_LOSS. -/
def execInputLoss (s : State) : Host.Outcome State Fault Refusal :=
  run effInputLoss s

/-- BROWNOUT. -/
def execBrownout (mv : BitVec 16) (s : State) : Host.Outcome State Fault Refusal :=
  run (effBrownout mv) s

/-- BROWNOUT_END. -/
def execBrownoutEnd (minMv : BitVec 16) (s : State) : Host.Outcome State Fault Refusal :=
  run (effBrownoutEnd minMv) s

/-- UNDERVOLT. -/
def execUndervolt (mv : BitVec 16) (s : State) : Host.Outcome State Fault Refusal :=
  run (effUndervolt mv) s

/-- OVERVOLT. -/
def execOvervolt (mv : BitVec 16) (s : State) : Host.Outcome State Fault Refusal :=
  run (effOvervolt mv) s

/-- OVERVOLT_RESET. -/
def execOvervoltReset (mv : BitVec 16) (s : State) : Host.Outcome State Fault Refusal :=
  run (effOvervoltReset mv) s

/-- POWER_HIGH. -/
def execPowerHigh (watts : BitVec 12) (s : State) : Host.Outcome State Fault Refusal :=
  run (effPowerHigh watts) s

/-- RAIL_SAMPLE. -/
def execRailSample (rail : Fin 64) (mv ma : BitVec 16) (tripped : Bool) (s : State) : Host.Outcome State Fault Refusal :=
  run (effRailSample rail mv ma tripped) s

/-- TEMP_SAMPLE. -/
def execTempSample (sensor : Fin 76) (degC : Int) (s : State) : Host.Outcome State Fault Refusal :=
  run (effTempSample sensor degC) s

/-- PLL_UNLOCK. -/
def execPllUnlock (which : ClockLoss) (s : State) : Host.Outcome State Fault Refusal :=
  run (effPllUnlock which) s

/-- QPOWER_SAMPLE. -/
def execQpowerSample (q : Quarter) (watts : BitVec 10) (s : State) : Host.Outcome State Fault Refusal :=
  run (effQpowerSample q watts) s

/-- WARM. -/
def execWarm (key : BitVec 16) (s : State) : Host.Outcome State Fault Refusal :=
  run (bySoftware (effWarm key)) s

/-- WARM_DONE. -/
def execWarmDone (s : State) (cfg : MsixCtl := {}) : Host.Outcome State Fault Refusal :=
  run (effWarmDone cfg) s

/-- QUARTER_RESET. -/
def execQuarterReset (q : Quarter) (s : State) : Host.Outcome State Fault Refusal :=
  run (bySoftware (effQuarterReset q)) s

/-- QUARTER_DONE. -/
def execQuarterDone (q : Quarter) (s : State) : Host.Outcome State Fault Refusal :=
  run (effQuarterDone q) s

/-- CROFT_RESET. -/
def execCroftReset (c : Croft) (s : State) : Host.Outcome State Fault Refusal :=
  run (bySoftware (effCroftReset c)) s

/-- CROFT_DONE. -/
def execCroftDone (c : Croft) (s : State) : Host.Outcome State Fault Refusal :=
  run (effCroftDone c) s

/-- PORT_RESET. -/
def execPortReset (p : Port) (s : State) : Host.Outcome State Fault Refusal :=
  run (bySoftware (effPortReset p)) s

/-- PARK. -/
def execPark (q : Quarter) (v : Bool) (s : State) : Host.Outcome State Fault Refusal :=
  run (bySoftware (effPark q v)) s

/-- PARKED. -/
def execParked (q : Quarter) (s : State) : Host.Outcome State Fault Refusal :=
  run (effParked q) s

/-- UNPARKED. -/
def execUnparked (q : Quarter) (s : State) : Host.Outcome State Fault Refusal :=
  run (effUnparked q) s

/-- FALLOW. -/
def execFallow (v : Bool) (s : State) : Host.Outcome State Fault Refusal :=
  run (bySoftware (effFallow v)) s

/-- FALLOW_ENTERED. -/
def execFallowEntered (s : State) : Host.Outcome State Fault Refusal :=
  run effFallowEntered s

/-- FALLOW_LEFT. -/
def execFallowLeft (s : State) : Host.Outcome State Fault Refusal :=
  run effFallowLeft s

/-- MODULE_RESET_DONE. -/
def execModuleResetDone (s : State) (cfg : MsixCtl := {}) : Host.Outcome State Fault Refusal :=
  run (effModuleResetDone cfg) s

/-- PERST_FALL. -/
def execPerstFall (s : State) : Host.Outcome State Fault Refusal :=
  run effPerstFall s

/-- PERST_RISE. -/
def execPerstRise (s : State) : Host.Outcome State Fault Refusal :=
  run effPerstRise s

/-- MILL_LINK_DEGRADED. -/
def execMillLinkDegraded (l : Fin 2) (up full : Bool) (s : State) : Host.Outcome State Fault Refusal :=
  run (effMillLinkDegraded l up full) s

/-- POWER_CYCLE. -/
def execPowerCycle (tr : Transport) (s : State) : Host.Outcome State Fault Refusal :=
  run (effPowerCycle tr) s

/-- MODULE_RESET. -/
def execModuleReset (tr : Transport) (s : State) : Host.Outcome State Fault Refusal :=
  run (effModuleReset tr) s

/-- CXL_RESET. -/
def execCxlReset (s : State) : Host.Outcome State Fault Refusal :=
  run effCxlReset s

end Sys2Proof.Machine
end

