-- ==== Sys2Proof/Machine/Bell.lean ====
section
/-! DEFINITION. The bell (R258 to R283): tokens, acknowledgements, the master, the local edge and what every unit does at it, and the
reach of an abandon (R141, R143, R145, R267, R270, R273, R310, R421, R442, R451). -/

namespace Sys2Proof.Machine

/-- Bits of a token's `FLAGS` (R259). -/
def fStep : Nat := 0
def fClose : Nat := 1
def fVerdict : Nat := 2
def fCommit : Nat := 3
def fSecure : Nat := 4
def fHold : Nat := 5
def fAbandon : Nat := 6

def tokFlag (t : Token) (b : Nat) : Bool := bit t.flags.toNat b

def isMaster (h : Hw) : Bool := flag h bellMaster_CTRL_MASTER 0

/-- Clk of an interval that a token opens (R258), and its slack (R135). -/
def intervalClk (t : Token) : Nat := 12 * t.period.toNat
def slackClk (t : Token) : Nat := intervalClk t * t.slack.toNat / 1000

def childPorts (h : Hw) : List Nat := (List.range 32).filter (fun p => bit (getF h bellMaster_CHILD_PORTS 0) p)

-- messages between tree neighbours (R345)

def bellMsg (h : Hw) (p sub : Nat) (bs : List Byte) : Msg :=
  { typ := 4, sub := BitVec.ofNat 4 sub, ddev := BitVec.ofNat 17 (getF h port0_PEER_ID_DEVICE p), sdev := BitVec.ofNat 17 (deviceId h (p / 8)),
    sq := BitVec.ofNat 2 (p / 8), sbell := BitVec.ofNat 32 h.bell.edgeBell, vc := 3, payload := bs, pbytes := BitVec.ofNat 8 bs.length }

/-- Send a token on a port; a port that is not `UP` carries nothing. -/
def sendToken (p : Nat) (t : Token) : Eff := fun h =>
  if portUp h p then chain [emit (.token p t), sendBellMsg p (bellMsg h p 0 (tokenBytes t))] h else []

/-- The 16 bytes of an acknowledgement (R268). -/
def ackBytes (a : Ack) : List Byte :=
  leBytes 8 a.bell.toNat ++ leBytes 4 a.count.toNat ++ leBytes 1 (b2n a.anom + 2 * b2n a.holdReq) ++ leBytes 3 0

def sendAck (p : Nat) (a : Ack) : Eff := fun h =>
  if portUp h p then chain [emit (.ack p a), sendBellMsg p (bellMsg h p 1 (ackBytes a))] h else []

/-- The device leaves scheduled traffic (R29, R346): its tree work ends and every `UP` port tells the peer. -/
def leaveTraffic : Eff := chain [
  modBell (fun b => { b with left := true, pendTok := [], forwards := [], acks := [], nextEdge := none }),
  setFlag bellMaster_STATUS_RUNNING 0 false,
  forE (List.range 32) (fun p => fun h => if portUp h p then
    sendBellMsg p { typ := 7, sub := 0, ddev := BitVec.ofNat 17 (getF h port0_PEER_ID_DEVICE p),
                    sdev := BitVec.ofNat 17 (deviceId h (p / 8)), sq := BitVec.ofNat 2 (p / 8),
                    sbell := BitVec.ofNat 32 h.bell.edgeBell, vc := 3, pbytes := 255,
                    hops := BitVec.ofNat 6 (getF h quarter_ROUTE_CTRL (p / 8)) } h else [])]

-- the reach of an abandon (R141)

/-- A stream is parked: from `AT_BELL` silently, from the middle of a segment with `ABANDON_STOP`. A stopped, ready, faulted or
parked stream stays as it is. -/
def parkStream (i : Nat) : Eff := fun h =>
  let s := strmState h i
  if 2 ≤ s ∧ s ≤ 6 then
    chain [setState i 8, setFlag stream_STATUS_LATE i false, setF stream_STATUS_CLAIM_WAIT i 0,
      modStream i (fun x => { x with passed := false, abandonRaised := false }), whenB (decide (s ≠ 5)) (raise .stream i 3)] h
  else []

/-- A pass that has begun stops (R119, R456): runs not completely issued are not folded, and its plots are released 32 clk after its
last issue clk. -/
def stopPass (c : Nat) (p : Pass) : Eff := chain [
  leaveLane c p,
  forE (memberList p.fields) (fun f => chain [
    modField (fldIx c f) (fun x => { x with runs := [] }),
    fun h => modField (fldIx c f) (fun x => { x with loadedClk := h.clk }) h,
    setFlag field_STATUS_WIDE (fldIx c f) false, showBusy c f, raise .field (fldIx c f) 7]),
  fun h => modCroft c (fun x => { x with laneFree := h.clk }) h,
  setFlag barn_STATUS_LANE_ACTIVE c false,
  fun h => modQuarter (c / 16) (fun q => { q with releases := q.releases ++ [(c, p.demand, h.clk + 32)] }) h]

/-- The lane at an abandon: passes without a grant leave the lane and the dyke's order; one that has a grant stops unless all its
k-steps are issued. -/
def reachLane (c : Nat) : Eff := fun h =>
  let lane := (croftX h c).lane
  let q := c / 16
  chain [
    forE (lane.filter (fun p => p.granted.isNone)) (leaveLane c),
    forE (lane.filter (fun p => p.granted.isSome && !p.done)) (stopPass c),
    modQuarter q (fun x => { x with order := x.order.filter (fun o => o.1 != c) }),
    look (fun h => !(quarterX h q).order.isEmpty) (setFlag dyke_STATUS_WAITING q)] h

/-- Staged drains and loads that have not begun are discarded; a drain that loses a member field adds no signal. -/
def dropStaged (c : Nat) : Eff := fun h =>
  let ids := (List.range 4).filterMap (fun f => (fieldX h (4 * c + f)).drain.map (·.id))
  let lost := fun (s : DrainSet) => (ids.filter (· == s.id)).length
  chain [
    modCroft c (fun x => { x with drains := (x.drains.map (fun s =>
      if lost s = 0 then s else { s with left := s.left - lost s, sen := false })).filter (fun s => s.left != 0) }),
    forE (List.range 4) (fun f => modField (4 * c + f) (fun x => { x with drain := none, load := none }))] h

/-- Queued work that has not begun is discarded: sluice instructions with descriptors still to begin, vector operations not started, tally
instructions that wait, requests of which the pound has taken nothing. -/
def dropQueued (c : Nat) : Eff := chain [
  modCroft c (fun x => { x with
    sluice := x.sluice.filter (fun s => decide (s.count < s.next))
    vec := x.vec.filter (fun v => v.written)
    tally := []
    pound := x.pound.filter (fun r => !r.data.isEmpty)
    stepPend := false }),
  showSluice c]

/-- An abandon reaches croft c (R141); a croft that runs restores its snapshot at the next step bell edge, whatever its streams do (R143). -/
def reachCroft (c : Nat) : Eff := chain [
  forE (List.range 3) (fun s => parkStream (3 * c + s)),
  whenE (fun h => (List.range 3).any (fun s => strmState h (3 * c + s) == 8)) (setFlag croft_STATUS_PARKED c true),
  whenE (fun h => croftRunning h c) (modCroft c (fun x => { x with abandoned := true })),
  reachLane c, dropStaged c, dropQueued c,
  forE (List.range 3) (fun s => look (fun h => heldMask h (3 * c + s)) (releaseMask c s)),
  settleReleases c,
  modBell (fun b => { b with reach := b.reach.filter (· != c) })]

/-- ABANDON_REACH. -/
def effAbandonReach (c : Croft) (t : Nat) : Eff := atClk t (fun h =>
  if h.bell.reach.contains c.val then reachCroft c.val h else [])

-- the master (R258 to R260, R262, R269, R276, R277)

/-- `STEP`, `ATTEMPT` and `BATCH`. -/
structure StepVals where
  step : Nat
  attempt : Nat
  batch : Nat
deriving DecidableEq, Repr

def tokVals (t : Token) : StepVals := ⟨t.step.toNat, t.attempt.toNat, t.batch.toNat⟩

def regVals (h : Hw) : StepVals :=
  ⟨getPair h bellMaster_STEP_LO bellMaster_STEP_HI 0, getF h bellMaster_ATTEMPT 0, getPair h bellMaster_BATCH_LO bellMaster_BATCH_HI 0⟩

/-- The values of the step bell after a verdict (R260). -/
def nextVals (abandon : Bool) (v : StepVals) : StepVals :=
  if abandon then ⟨v.step, v.attempt + 1, v.batch + 1⟩ else ⟨v.step + 1, 0, v.batch + 1⟩

def verdictIdx (h : Hw) : Nat := getF h bellMaster_STEP_PATTERN_VERDICT_IDX 0

/-- What one token of the master says: bell number, index, values, whether it begins an attempt after a verdict, and its edge. -/
structure Plan where
  bell : Nat
  index : Nat
  vals : StepVals
  fresh : Bool
  edge : Nat
deriving DecidableEq, Repr

/-- The verdict token goes out before the close acknowledgement is complete (R269). -/
def ackLate (h : Hw) (p : Plan) : Bool := decide (p.index = verdictIdx h) && h.bell.closeAck.isNone

/-- `ATTEMPT_LIMIT` is exceeded (R260). -/
def overLimit (h : Hw) (p : Plan) : Bool :=
  p.fresh && h.bell.verdictAbandon && decide (p.index = 0) && decide (getF h bellMaster_ATTEMPT_LIMIT 0 < p.vals.attempt)

/-- The attempt to which the token belongs is anomalous (R269). -/
def planAnom (h : Hw) (p : Plan) : Bool := (if p.fresh then h.bell.anomNext else h.bell.anomCur) || ackLate h p

/-- The flags of a token (R259). -/
def planFlags (h : Hw) (p : Plan) : Nat :=
  let v := verdictIdx h
  let n := getF h bellMaster_SECURE_N 0
  let hold := h.bell.holdNext || (decide (p.index = 0) && (h.bell.holdStep || overLimit h p))
  b2n (decide (p.index = 0)) + 2 * b2n (decide (p.index + 1 = v)) + 4 * b2n (decide (p.index = v)) + 8 * b2n (decide (p.index ≠ v)) +
    16 * b2n (decide (p.index = 0) && decide (n ≠ 0) && decide (p.vals.step % n = 0)) + 32 * b2n hold +
    64 * b2n (decide (p.index ≠ 0) && planAnom h p)

/-- The token of a plan. -/
def planToken (h : Hw) (p : Plan) : Token :=
  { bell := BitVec.ofNat 64 p.bell, step := BitVec.ofNat 48 p.vals.step, attempt := BitVec.ofNat 16 p.vals.attempt,
    period := BitVec.ofNat 26 (getF h bellMaster_PERIOD 0), slack := BitVec.ofNat 8 (getF h bellMaster_SLACK 0),
    flags := BitVec.ofNat 8 (planFlags h p), acc := 0, lead := BitVec.ofNat 24 (getF h bellMaster_LEAD 0),
    batch := BitVec.ofNat 64 p.vals.batch }

def showAnom : Eff := look (fun h => h.bell.anomCur) (setFlag bellMaster_STATUS_ANOMALOUS 0)

/-- The master sends a token on every child port and makes its own edge pending. -/
def masterSend (p : Plan) : Eff := fun h =>
  let t := planToken h p
  let hold := tokFlag t fHold
  let verdict := decide (p.index = verdictIdx h)
  chain [
    whenB (overLimit h p) (raise .bellMaster 0 6),
    whenB (ackLate h p) (raise .bellMaster 0 3),
    whenB verdict (match h.bell.closeAck with
      | some c => setF bellMaster_ACK_MARGIN 0 (h.clk - c)
      | none => skip),
    fun h => modBell (fun b => { b with
      lastTok := some t
      pendTok := b.pendTok ++ [{ tok := t, edge := p.edge, index := p.index }]
      index := p.index
      anomCur := planAnom h p
      anomNext := if p.fresh then false else b.anomNext
      holdNext := b.holdNext && !hold
      holdStep := b.holdStep && !hold
      heldSent := hold
      nextEdge := if hold then none else some (p.edge + intervalClk t)
      verdictAbandon := if verdict then tokFlag t fAbandon else b.verdictAbandon
      closeAck := if p.fresh then none else b.closeAck
      verdictSent := if p.fresh then none else if verdict then some h.clk else b.verdictSent }) h,
    showAnom,
    forE (childPorts h) (fun c => sendToken c t)] h

/-- The next token of the bell log becomes pending (R442); nothing is sent. -/
def catchUpToken (edge : Nat) : Eff := fun h =>
  match h.mill.cuTokens with
  | [] => []
  | t :: rest => chain [modMill (fun m => { m with cuTokens := rest }),
      modBell (fun b => { b with
        lastTok := some t, pendTok := b.pendTok ++ [{ tok := t, edge := edge }]
        nextEdge := if rest.isEmpty then none else some (edge + intervalClk t) })] h

/-- BELL_START (R258, R282): the first token, whose edge falls `LEAD` clk later. A device that has left scheduled traffic starts nothing
(R29). -/
def startBell : Eff := fun h =>
  if !isMaster h || flag h bellMaster_STATUS_RUNNING 0 || h.bell.left then []
  else
    let edge := h.clk + getF h bellMaster_LEAD 0
    chain [setFlag bellMaster_STATUS_RUNNING 0 true,
      (if catchingUp h then chain [modMill (fun m => { m with cuAnom := false, cuWindow := false }), catchUpToken edge]
       else masterSend ⟨getPair h bellMaster_BELL_LO bellMaster_BELL_HI 0, 0, regVals h, true, edge⟩)] h

def effBellStart (t : Nat) : Eff := atClk t startBell

/-- HOLD_NOW (R276): the next step bell holds the job; a job that is held, or about to be, is held once (R280). -/
def effHoldNow : Eff := fun h =>
  if isMaster h && flag h bellMaster_STATUS_RUNNING 0 && !h.bell.heldSent && !jobHeld h then
    modBell (fun b => { b with holdStep := true }) h
  else []

/-- RESUME (R277): the next token is sent in the following clk, and its edge falls `LEAD` clk after that. -/
def resumeBell : Eff := fun h =>
  if !isMaster h || !jobHeld h || !h.bell.heldSent || h.bell.left then []
  else chain [setFlag bellMaster_STATUS_HELD 0 false, modBell (fun b => { b with
      heldSent := false, resumed := true, nextEdge := some (h.clk + 1 + getF h bellMaster_LEAD 0) })] h

def effResume (t : Nat) : Eff := atClk t resumeBell

/-- The token that resumes a held job (R260, R277): a held step bell is repeated with a new bell number; any other hold goes on with the
next bell. The values are those of the registers, which hold the held bell's unless software has rewritten them. -/
def resumePlan (h : Hw) (edge : Nat) : Plan :=
  let s := getF h bellMaster_STEP_PATTERN_STEP_BELLS 0
  let i := if h.bell.index = 0 then 0 else if s ≤ h.bell.index + 1 then 0 else h.bell.index + 1
  let fresh := decide (i = 0) && decide (h.bell.index ≠ 0)
  ⟨getPair h bellMaster_BELL_LO bellMaster_BELL_HI 0 + 1, i, if fresh then nextVals h.bell.verdictAbandon (regVals h) else regVals h, fresh, edge⟩

/-- The token after `k` of a job that runs (R259, R260). -/
def nextPlan (h : Hw) (k : Token) (edge : Nat) : Plan :=
  let s := getF h bellMaster_STEP_PATTERN_STEP_BELLS 0
  let i := if s ≤ h.bell.index + 1 then 0 else h.bell.index + 1
  ⟨k.bell.toNat + 1, i, if i = 0 then nextVals h.bell.verdictAbandon (tokVals k) else tokVals k, decide (i = 0), edge⟩

/-- TOKEN_SEND (R259, R260, R262, R277): the token of the next edge, `LEAD` clk before it. The master's lead may span several bells, so
several of its edges may be pending. -/
def effTokenSend (t : Nat) : Eff := atClk t (fun h =>
  match h.bell.nextEdge, h.bell.lastTok with
  | some e, some k =>
    if !isMaster h || decide (h.clk + getF h bellMaster_LEAD 0 < e) then []
    else if h.bell.resumed then chain [modBell (fun b => { b with resumed := false }), masterSend (resumePlan h e)] h
    else if catchingUp h then catchUpToken e h
    else masterSend (nextPlan h k e) h
  | _, _ => [])

-- receivers (R262 to R265)

/-- `ACC`′ of R263. -/
def accHere (h : Hw) (p : Nat) (tok : Token) : Nat := tok.acc.toNat + getF h port0_DELAY p

/-- t of R263. -/
def tokenT (lead acc : Nat) : Int := (16 * (lead : Int) - (acc : Int) + 8) / 16

/-- A token that R265 discards. -/
def tokenBad (h : Hw) (p : Nat) (tok : Token) : Bool :=
  !flag h bellMaster_UP_PORT_VALID 0 || p != getF h bellMaster_UP_PORT_PORT 0 ||
    (match h.bell.lastTok with | some l => tok.bell != l.bell + 1 | none => false) ||
    tok.rsv || tokFlag tok 7 || (tokFlag tok fAbandon && tokFlag tok fStep) || decide (2 ≤ h.bell.pendTok.length)

/-- BELL_TOKEN (R262, R263, R265). -/
def effBellToken (p : Port) (tok : Token) (t : Nat) : Eff := atClk t (fun h =>
  if !portUp h p.val || (portX h p.val).peerDead || h.bell.left then []
  else if tokenBad h p.val tok then chain [freeRx p.val 3 1, raise .bellMaster 0 7] h
  else
    let acc := accHere h p.val tok
    let t' := tokenT tok.lead.toNat acc
    let late := decide (t' < 1200)
    let own := h.clk + (if late then 1200 else t'.toNat)
    let edge := match h.bell.pendTok.getLast? with
      | some l => max own (l.edge + 1)
      | none => own
    chain [freeRx p.val 3 1,
      setF bellMaster_TOKEN_MARGIN 0 (wrapInt (t' - 1200) 32),
      whenB late (raise .bellMaster 0 0),
      modBell (fun b => { b with
        lastTok := some tok
        pendTok := b.pendTok ++ [{ tok := tok, edge := edge }]
        forwards := b.forwards ++ (childPorts h).map (fun c => (c, { tok with acc := BitVec.ofNat 32 acc }, h.clk)) })] h)

/-- TOKEN_FORWARD (R262): `ACC` grows by the residence time. -/
def effTokenForward (p : Port) (t : Nat) : Eff := atClk t (fun h =>
  match h.bell.forwards.find? (fun f => f.1 == p.val) with
  | none => []
  | some f => chain [modBell (fun b => { b with forwards := b.forwards.erase f }),
      sendToken p.val { f.2.1 with acc := f.2.1.acc + BitVec.ofNat 32 (16 * (h.clk - f.2.2)) }] h)

-- acknowledgements (R268, R269)

def putAck (bell : Nat) (f : AckX → AckX) (as : List AckX) : List AckX :=
  if as.any (fun a => a.bell == bell) then as.map (fun a => if a.bell = bell then f a else a) else as ++ [f { bell := bell }]

/-- BELL_ACK (R268): a child's acknowledgement counts once. -/
def effBellAck (p : Port) (a : Ack) (t : Nat) : Eff := atClk t (fun h =>
  let n := a.bell.toNat
  let known := h.bell.acks.any (fun r => r.bell == n && (r.sent || r.children.contains p.val))
  if !portUp h p.val || (portX h p.val).peerDead || h.bell.left then []
  else chain [freeRx p.val 3 1, whenB ((childPorts h).contains p.val && !known) (modBell (fun b => { b with
      acks := putAck n (fun r => { r with
        children := p.val :: r.children, count := r.count + a.count.toNat, anom := r.anom || a.anom, hold := r.hold || a.holdReq }) b.acks }))] h)

/-- A hold is requested here: by a unit, or because a sensor stays critical (R268, R462). -/
def holdWanted (h : Hw) : Bool := h.bell.holdReq || !h.gate.crit.isEmpty

/-- The master's complete acknowledgement for a bell (R269). -/
def masterAck (r : AckX) : Eff := fun h =>
  let now := match h.bell.lastTok with | some k => (k.step.toNat, k.attempt.toNat) | none => (0, 0)
  let mine := r.attempt == now
  let heldBell := match h.bell.lastTok with | some k => k.bell.toNat | none => 0
  let short := decide (r.count < getF h bellMaster_TREE_SIZE 0)
  let anom := r.anom || short
  let cur := anom && (if r.inWindow then mine else !mine)
  let next := anom && !r.inWindow && mine
  chain [
    whenB (r.isClose && mine) (match h.bell.verdictSent with
      | some v => setF bellMaster_ACK_MARGIN 0 (wrapInt ((v : Int) - (h.clk : Int)) 32)
      | none => fun h => modBell (fun b => { b with closeAck := some h.clk }) h),
    whenB short (raise .bellMaster 0 2),
    modBell (fun b => { b with
      anomCur := b.anomCur || cur
      anomNext := b.anomNext || next
      holdNext := b.holdNext || short
      holdStep := b.holdStep || (r.hold && !(b.heldSent && decide (r.bell < heldBell))) }),
    showAnom] h

/-- The acknowledgement of a bell is complete: the master acts on it, another device sends it on its up port. -/
def completeAck (r : AckX) : Eff := fun h =>
  let r := { r with hold := r.hold || holdWanted h, sent := true }
  chain [modBell (fun b => { b with acks := b.acks.filter (fun a => decide (r.bell < a.bell + 16) && a.bell != r.bell) ++ [r] }),
    (if catchingUp h then skip
     else if isMaster h then masterAck r
     else if flag h bellMaster_UP_PORT_VALID 0 then
      sendAck (getF h bellMaster_UP_PORT_PORT 0) ⟨BitVec.ofNat 64 r.bell, BitVec.ofNat 18 r.count, r.anom, r.hold⟩
     else skip)] h

def allChildren (h : Hw) (r : AckX) : Bool := (childPorts h).all (fun p => r.children.contains p)

/-- ACK_SEND (R268): the edge has passed, and every child has acknowledged it. -/
def effAckSend (t : Nat) : Eff := atClk t (fun h =>
  match h.bell.acks.find? (fun r => (match r.edge with | some e => decide (e < h.clk) | none => false) && !r.sent && allChildren h r) with
  | some r => completeAck r h
  | none => [])

/-- ACK_MISSING (R268): `ACK_WAIT` clk after the edge a child has not acknowledged. -/
def effAckMissing (t : Nat) : Eff := atClk t (fun h =>
  match h.bell.acks.find? (fun r => !r.sent && !allChildren h r &&
      (match r.edge with | some e => decide (e < h.clk) && decide (e + getF h bellMaster_ACK_WAIT 0 ≤ h.clk) | none => false)) with
  | some r => chain [raise .bellMaster 0 1, completeAck r] h
  | none => [])

/-- BELL_LOST (R265, R276): no edge within two periods of the last. -/
def effBellLost (t : Nat) : Eff := atClk t (fun h =>
  match h.bell.lastEdge with
  | none => []
  | some e =>
    if flag h bellMaster_STATUS_RUNNING 0 && !jobHeld h && !bit (getF h bellMaster_FLAGS 0) fHold && !h.bell.left && decide (e + 24 * getF h bellMaster_PERIOD 0 < h.clk) then
      chain [raise .bellMaster 0 8, failDevice, leaveTraffic] h
    else [])

-- what the crofts do at an edge

/-- The croft restores its step snapshot (R143); kept signals take the additions from outside the croft with them. -/
def restoreCroft (c : Nat) : Eff := fun h =>
  let x := croftX h c
  if !(x.abandoned && x.snapTaken) then []
  else
    let keep := getPair h croft_REPLAY_KEEP_LO croft_REPLAY_KEEP_HI c
    chain [
      forE (List.range 64) (fun i => fun h =>
        let v := x.snapSig.getD i 0
        setSig c i (if bit keep i then min 65535 (v + smGet (fun _ => 0) h.keepAdds (64 * c + i)) else v) h),
      fun _ => (List.range 32).map (fun i => .slots (32 * c + i) (x.snapSlots.getD i {})),
      forE (List.range 3) (fun s => whenE (fun h => strmState h (3 * c + s) == 8) (setF stream_PC (3 * c + s) (x.snapPc.getD s 0))),
      modCroft c (fun x => { x with abandoned := false }),
      incF croft_REPLAY_COUNT c, raise .croft c 3] h

/-- One stream at an edge (R127, R135 to R138, R143, R276). -/
def edgeStream (i : Nat) (step hold : Bool) (slack : Nat) : Eff := fun h =>
  let s := strmState h i
  let pass := modStream i (fun x => { x with passed := true })
  if 2 ≤ s ∧ s ≤ 4 then
    (if flag h stream_STATUS_LATE i then [] else
      chain [setFlag stream_STATUS_LATE i true,
        modStream i (fun x => { x with edgeClk := h.clk, edgeSlack := slack, abandonRaised := false })] h)
  else if hold then []
  else if s = 5 then
    (if (streamX h i).passed then []
     else if step then chain [incF stream_SEGMENT i, pass] h
     else chain [incF stream_SEGMENT i, setState i 2, modStream i (fun x => { x with issueFree := h.clk + 1 })] h)
  else if step && (s == 1 || s == 8) then pass h
  else []

/-- A croft at an edge: at a step bell that is not held its streams begin together once all have passed. -/
def edgeCroft (step hold : Bool) (slack : Nat) (c : Nat) : Eff := chain [
  whenB (step && !hold) (chain [modCroft c (fun x => { x with stepPend := true }), setFlag croft_STATUS_PARKED c false]),
  forE (List.range 3) (fun s => edgeStream (3 * c + s) step hold slack),
  beginStep c]

/-- The batch signals of a quarter (R273); an encoding that runs past signal 63 is reserved. -/
def batchSignals (batch q : Nat) : Eff := fun h =>
  let sig := getF h bellRcv_BATCH_SIG_SIG q
  let w := getF h bellRcv_BATCH_SIG_WAYS q + 1
  if !flag h bellRcv_BATCH_SIG_EN q || decide (64 < sig + w) then []
  else forE ((List.range 16).filter (fun k => bit (getF h bellRcv_BATCH_CROFTS q) k)) (fun k =>
    forE (List.range w) (fun j => edgeSig (16 * q + k) (sig + j) (b2n (j == batch % w)))) h

-- the local edge

/-- Quarters that take the edge (R280), and their crofts that run. -/
def liveQuarters (h : Hw) : List Nat := (List.range 4).filter (fun q => !quarterGone h q)
def liveCrofts (h : Hw) : List Nat := (List.range 64).filter (fun c => !quarterGone h (c / 16) && croftRunning h c)

/-- A brownout-touched interval ends (R451); while the job is held no interval runs, and the mark waits for the one the resume opens. -/
def touchEdge : Eff := fun h =>
  if h.bell.lastEdge.isNone || bit (getF h bellMaster_FLAGS 0) fHold || !flag h power_STATUS_TOUCHED 0 then []
  else chain [incF power_TOUCHED_COUNT 0, oweSlots, setFlag power_STATUS_TOUCHED 0 (flag h power_STATUS_BROWNOUT 0)] h

/-- The bell master page shows the token (R282). -/
def showToken (p : PendTok) : Eff :=
  let t := p.tok
  chain [
    setPair bellMaster_BELL_LO bellMaster_BELL_HI 0 t.bell.toNat, setPair bellMaster_STEP_LO bellMaster_STEP_HI 0 t.step.toNat,
    setF bellMaster_ATTEMPT 0 t.attempt.toNat, setPair bellMaster_BATCH_LO bellMaster_BATCH_HI 0 t.batch.toNat,
    setF bellMaster_PERIOD 0 t.period.toNat, setF bellMaster_SLACK 0 t.slack.toNat, setF bellMaster_LEAD 0 t.lead.toNat,
    setF bellMaster_FLAGS 0 t.flags.toNat, setF bellMaster_INDEX 0 p.index]

/-- The receivers at an edge: counts, the held state and their events (R281, R283). -/
def receiverEdge (step hold abandon : Bool) (q : Nat) : Eff := chain [
  incF bellRcv_EDGE_COUNT q, whenB (step && !hold) (incF bellRcv_STEP_EDGES q), setFlag bellRcv_STATUS_HELD q hold,
  whenB abandon (raise .bellRcv q 1), whenB hold (raise .bellRcv q 2)]

/-- Hold requests are cleared at the edge that holds the job; the mill's shows until the resume (R276, R319, R422). -/
def holdEdge (hold : Bool) : Eff :=
  if hold then chain [setFlag bellMaster_STATUS_HELD 0 true, modBell (fun b => { b with holdReq := false }),
    setFlag watch_STATUS_HOLD_REQ 0 false, raise .bellMaster 0 5]
  else chain [whenE (fun h => bit (getF h bellMaster_FLAGS 0) fHold) (setFlag mill_STATUS_HOLD_REQ 0 false),
    setFlag bellMaster_STATUS_HELD 0 false]

/-- Data faults of the last attempt, for R407: the window moves on with each new attempt of the same step. -/
def dataWindow (step attempt : Nat) : Eff := fun h =>
  if h.bell.lastStep = some (step, attempt) then []
  else
    let same := match h.bell.lastStep with | some (s, _) => s == step | none => false
    modGate (fun g => { g with dataPrev := if same then g.dataNow else [], dataNow := [] }) h

/-- A step bell edge before its streams begin (R145, R143, R248, R273). -/
def stepEdge (t : Token) (hold : Bool) : Eff := fun h =>
  let qs := liveQuarters h
  chain [
    dataWindow t.step.toNat t.attempt.toNat,
    modBell (fun b => { b with lastStep := some (t.step.toNat, t.attempt.toNat), closedOf := none }),
    quarantineEdge,
    look liveCrofts (fun cs => forE cs restoreCroft),
    forE qs reeveStep,
    whenB (!hold) (forE qs (batchSignals t.batch.toNat)),
    modMill (fun m => { m with closed := false }), whenE millOn (millStep t.step.toNat t.attempt.toNat),
    replayFree t.step.toNat] h

/-- A verdict edge (R231, R270, R302, R442). -/
def verdictEdge (t : Token) : Eff := fun h =>
  let keep := !tokFlag t fAbandon
  let qs := liveQuarters h
  let on := millOn h
  chain [
    forE ((List.range 64).filter (fun c => qs.contains (c / 16))) deliverAll,
    forE qs closeSheet,
    fun h => modBell (fun b => { b with verdictClk := some h.clk }) h,
    whenB on (millVerdict keep t.bell.toNat t.step.toNat t.attempt.toNat),
    whenB (isMaster h && !keep) (chain [incF bellMaster_ABANDONED 0, raise .bellMaster 0 4])] h

/-- The close edge reports A, and the next window opens in the following clk (R267). -/
def closeReport (t : Token) : Eff := chain [
  fun h => modBell (fun b => { b with closeClk := some h.clk, closedOf := some (t.step.toNat, t.attempt.toNat) }) h,
  fun h => modMill (fun m => { m with cuWindow := m.cuAnom, cuAnom := false }) h]

/-- The acknowledgement of the edge is opened with A as it stands (R268). -/
def openAck (t : Token) : Eff := fun h =>
  let n := t.bell.toNat
  modBell (fun b => { b with acks := putAck n (fun r => { r with
    edge := some h.clk
    anom := r.anom || flag h bellMaster_STATUS_DEVICE_A 0
    attempt := (t.step.toNat, t.attempt.toNat)
    isClose := tokFlag t fClose
    inWindow := b.closedOf != some (t.step.toNat, t.attempt.toNat) }) b.acks }) h

/-- In catch-up a logged keep of an attempt that was anomalous here diverges: the edges stop (R442, R447). -/
def catchUpEdge (t : Token) : Eff := fun h =>
  if !catchingUp h then []
  else if tokFlag t fVerdict && !tokFlag t fAbandon && h.mill.cuWindow then
    chain [setFlag mill_GRAN_STATUS_DIVERGED 0 true, millRecord 21 3 0,
      modBell (fun b => { b with nextEdge := none, pendTok := [] }), setFlag bellMaster_STATUS_RUNNING 0 false] h
  else if h.mill.cuTokens.isEmpty && h.bell.pendTok.isEmpty then setFlag mill_GRAN_STATUS_CATCHUP_END 0 true h
  else []

/-- The first step bell after the steward was lost fails the device, unless it has begun a copy: then the end of the copy does (R28). -/
def stewardEdge (bell : Nat) : Eff := fun h =>
  if h.gate.stewWait ≠ 1 then []
  else if h.mill.sec.any (fun s => s.bell == bell) then modGate (fun g => { g with stewWait := 2 }) h
  else chain [modGate (fun g => { g with stewWait := 0 }), failDevice] h

/-- The local edge of a pending token. -/
def makeEdge (p : PendTok) : Eff := fun h =>
  let t := p.tok
  let step := tokFlag t fStep
  let abandon := tokFlag t fAbandon
  let last := catchingUp h && h.mill.cuTokens.isEmpty && decide (h.bell.pendTok.length ≤ 1)
  let hold := tokFlag t fHold || last
  let qs := liveQuarters h
  chain [
    touchEdge, whenB h.bell.closeClk.isSome openWindow,
    modBell (fun b => { b with
      pendTok := b.pendTok.drop 1, lastEdge := some h.clk, edgeBell := t.bell.toNat, slack := slackClk t }),
    holdEdge hold, showToken p, setFlag bellMaster_STATUS_RUNNING 0 true,
    forE qs (receiverEdge step hold abandon),
    forE ((h.fields.map (·.1)).filter (fun f => qs.contains (f / 64))) fieldEdge,
    whenB abandon (look liveCrofts (fun cs => forE cs reachCroft)),
    whenB step (stepEdge t hold),
    whenB (tokFlag t fClose) (chain [forE ((h.crofts.map (·.1)).filter (fun c => qs.contains (c / 16))) checkClose,
      modMill (fun m => { m with closed := true }), whenE millOn millClose]),
    whenB (tokFlag t fVerdict) (verdictEdge t),
    whenE millOn (millCommits (tokFlag t fCommit && !hold) t.bell.toNat),
    whenB step (chain [bufferSignals, quarantineSignals]),
    look liveCrofts (fun cs => forE cs (edgeCroft step hold (slackClk t))),
    whenB (step && !hold) (secureEdge (tokFlag t fSecure) t.bell.toNat t.step.toNat t.attempt.toNat t.batch.toNat),
    whenB step (stewardEdge t.bell.toNat),
    bellWaitEdge,
    whenE (fun h => flag h mill_GRAN_CTRL_MODE 0) (modMill (fun m => { m with toLog := m.toLog ++ [t] })),
    openAck t, whenB (tokFlag t fClose) (closeReport t),
    whenB (!hold) (watchOpen t.period.toNat),
    catchUpEdge t,
    whenE (fun h => h.gate.failed && !h.bell.left) leaveTraffic] h

/-- BELL_EDGE (R263): the edge of the oldest pending token, in its clk. -/
def effBellEdge (t : Nat) : Eff := fun h =>
  match h.bell.pendTok with
  | [] => []
  | p :: _ => if t < p.edge then [] else atClk p.edge (makeEdge p) h

-- meanings, one per command

/-- ABANDON_REACH. -/
def execAbandonReach (c : Croft) (t : Nat) (s : State) : Host.Outcome State Fault Refusal :=
  run (effAbandonReach c t) s

/-- BELL_START. -/
def execBellStart (t : Nat) (s : State) : Host.Outcome State Fault Refusal :=
  run (bySoftware (effBellStart t)) s

/-- HOLD_NOW. -/
def execHoldNow (s : State) : Host.Outcome State Fault Refusal :=
  run (bySoftware effHoldNow) s

/-- RESUME. -/
def execResume (t : Nat) (s : State) : Host.Outcome State Fault Refusal :=
  run (bySoftware (effResume t)) s

/-- TOKEN_SEND. -/
def execTokenSend (t : Nat) (s : State) : Host.Outcome State Fault Refusal :=
  run (effTokenSend t) s

/-- BELL_TOKEN. -/
def execBellToken (p : Port) (tok : Token) (t : Nat) (s : State) : Host.Outcome State Fault Refusal :=
  run (effBellToken p tok t) s

/-- TOKEN_FORWARD. -/
def execTokenForward (p : Port) (t : Nat) (s : State) : Host.Outcome State Fault Refusal :=
  run (effTokenForward p t) s

/-- BELL_EDGE. -/
def execBellEdge (t : Nat) (s : State) : Host.Outcome State Fault Refusal :=
  run (effBellEdge t) s

/-- ACK_SEND. -/
def execAckSend (t : Nat) (s : State) : Host.Outcome State Fault Refusal :=
  run (effAckSend t) s

/-- BELL_ACK. -/
def execBellAck (p : Port) (a : Ack) (t : Nat) (s : State) : Host.Outcome State Fault Refusal :=
  run (effBellAck p a t) s

/-- ACK_MISSING. -/
def execAckMissing (t : Nat) (s : State) : Host.Outcome State Fault Refusal :=
  run (effAckMissing t) s

/-- BELL_LOST. -/
def execBellLost (t : Nat) (s : State) : Host.Outcome State Fault Refusal :=
  run (effBellLost t) s

end Sys2Proof.Machine
end

