-- ==== Sys2Proof/Machine/Vector.lean ====
section
/-! DEFINITION. The vector unit (R151 to R154, R179 to R181): its queue, the element functions and what an operation writes. -/

namespace Sys2Proof.Machine

-- special functions

/-- A finite number's floor. -/
def floorNum : Num → Int
  | .fin s m e => if 0 ≤ e then mantAt s m e 0 else (mantAt s m 0 0) / (2 ^ (-e).toNat : Nat)
  | _ => 0

/-- `poly` of R153 over the published tables. -/
def poly (fn i : Nat) (r : Num) : Num :=
  let c := fun k => s32 (Config.coeff fn k i).toNat
  let t := rnd32 (numAdd (numMul (c 3) r) (c 2))
  let t := rnd32 (numAdd (numMul t r) (c 1))
  rnd32 (numAdd (numMul t r) (c 0))

/-- x − i / 2^k. -/
def lessFrac (x : Num) (i : Int) (k : Nat) : Num := numSub x (scale2 (-(k : Int)) (ofInt i))

/-- The significand s in [1, 2) and the exponent e with |x| = s × 2^e, for m ≠ 0. -/
def signif (m : Nat) : Num := .fin false m (-(Nat.log2 m : Int))

/-- A special function of an S32 value (R154). -/
def special (fn : Nat) (x : Num) : Num :=
  match x with
  | .nan => .nan
  | .inf s =>
    match fn with
    | 0x30 => if s then numZero else .inf false
    | 0x31 => if s then .nan else .inf false
    | 0x32 => .fin s 0 0
    | 0x33 => if s then .nan else s32 Config.rsqrtInf.toNat
    | 0x36 => if s then negate numOne else numOne
    | 0x37 => if s then numZero else numOne
    | _ => .nan
  | .fin s m e =>
    let t := top m e
    let sg := signif m
    match fn with
    | 0x30 =>
      if !numLt x (ofInt 128) then .inf false
      else if numLt x (ofInt (-126)) then numZero
      else
        let n := floorNum x
        let f := numSub x (ofInt n)
        let i := floorNum (scale2 8 f)
        rnd32 (scale2 n (poly fn i.toNat (lessFrac f i 8)))
    | 0x31 =>
      if m = 0 then .inf true
      else if s then .nan
      else
        let f := numSub sg numOne
        let i := floorNum (scale2 8 f)
        rnd32 (numAdd (ofInt t) (poly fn i.toNat (lessFrac f i 8)))
    | 0x32 =>
      if m = 0 then .inf s
      else
        let f := numSub sg numOne
        let i := floorNum (scale2 8 f)
        let r := rnd32 (scale2 (-t) (poly fn i.toNat (lessFrac f i 8)))
        if s then negate r else r
    | 0x33 =>
      if m = 0 then .inf false
      else if s then .nan
      else
        let f := numSub sg numOne
        let i := floorNum (scale2 7 f)
        let odd : Nat := if t % 2 = 0 then 0 else 128
        rnd32 (scale2 (-(t / 2)) (poly fn (odd + i.toNat) (lessFrac f i 7)))
    | 0x34 =>
      let u := numSub x (ofInt (2 * floorNum (scale2 (-1) x)))
      let i := floorNum (scale2 7 u)
      poly fn i.toNat (lessFrac u i 7)
    | 0x35 =>
      let u := numSub x (ofInt (2 * floorNum (scale2 (-1) x)))
      let i := floorNum (scale2 7 u)
      poly fn i.toNat (lessFrac u i 7)
    | 0x36 =>
      let a := absNum x
      if !numLt a (ofInt 8) then (if s then negate numOne else numOne)
      else
        let i := min (floorNum (scale2 5 a)) 255
        let r := poly fn i.toNat (lessFrac a i 5)
        -- sign(x) is minus for -0 as well: DESIGN CHOICE (R154), log 25
      if s then negate r else r
    | _ =>
      let a := absNum x
      if !numLt a (ofInt 16) then (if s then numZero else numOne)
      else
        let i := min (floorNum (scale2 4 a)) 255
        let p := poly fn i.toNat (lessFrac a i 4)
        if s && decide (m ≠ 0) then rnd32 (numSub numOne p) else p

-- element functions

/-- `MIN` of R180: NaN if either is, −0 below +0. -/
def vMin (a b : Num) : Num :=
  if isNan a || isNan b then .nan
  else if numLt a b then a else if numLt b a then b else if numNeg a then a else b

/-- `MAX` of R180: NaN if either is, +0 above −0. -/
def vMax (a b : Num) : Num :=
  if isNan a || isNan b then .nan
  else if numLt b a then a else if numLt a b then b else if numNeg a then b else a

def vBool (b : Bool) : Num := if b then numOne else numZero

/-- The result of an elementwise function on a, b and the old d, before it is rounded into `FMT_D` (R180). -/
def elemFn (fn : Nat) (a b d : Num) : Num :=
  match fn with
  | 0x00 => numAdd a b
  | 0x01 => numSub a b
  | 0x02 => numMul a b
  | 0x03 => vMin a b
  | 0x04 => vMax a b
  | 0x05 => absNum a
  | 0x06 => negate a
  | 0x07 => vBool (numLt a b)
  | 0x08 => vBool (numLt a b || numEq a b)
  | 0x09 => vBool (numEq a b)
  | 0x0A => if isZero d then b else a
  | 0x10 => numAdd (numMul a b) d
  | 0x0B => a
  | 0x18 => a
  | fn => special fn a

/-- Pairs of a list, added with rounding; one pass of `sum_tree`. -/
def sumPass (f : Nat) : List Num → List Num
  | x :: y :: xs => (rneLong (numAdd x y) f true).1 :: sumPass f xs
  | xs => xs

def sumGo (f : Nat) : Nat → List Num → List Num
  | 0, xs => xs
  | k + 1, xs => sumGo f k (sumPass f xs)

/-- The least k with n ≤ 2^k. -/
def log2Up (n : Nat) : Nat := if n ≤ 1 then 0 else Nat.log2 (n - 1) + 1

/-- `sum_tree` over a row padded with +0 (R152). -/
def sumTree (f : Nat) (xs : List Num) : Num :=
  let k := log2Up xs.length
  (sumGo f k (xs ++ List.replicate (2 ^ k - xs.length) numZero)).headD numZero

/-- The maximum reduction (R152). -/
def maxRow : List Num → Num
  | [] => numZero
  | x :: xs => xs.foldl vMax x

/-- Rows of l elements. -/
def splitRows (l : Nat) : Nat → List Num → List (List Num)
  | 0, _ => []
  | n + 1, xs => xs.take l :: splitRows l n (xs.drop l)

/-- What an operation writes: codes of d, the headers it writes with their places, elements saturated by a conversion, and NaN elements written. -/
structure VecOut where
  codes : List Nat
  hdrs : List (Nat × Nat) := []
  sat : Nat := 0
  nan : Nat := 0
deriving DecidableEq, Repr

/-- Round numbers into a long format and count the NaN. -/
def longOut (fd : Nat) (conv : Bool) (xs : List Num) : VecOut :=
  let rs := xs.map (fun x => roundCode x fd true)
  { codes := rs.map (·.1), sat := if conv then (rs.filter (·.2.1)).length else 0
    nan := (rs.filter (fun r => isNan (decodeFp fd r.1))).length }

/-- One block of 32 converted to a short format: header, codes, saturations, NaN elements (R66, R68, R76, R180). -/
def cvtBlock (fd : Nat) (e8 z : Nat) (xs : List Num) : Nat × List Nat × Nat × Nat :=
  let cs := xs.map (fun x => cvtShort x fd e8 z false)
  let b := shortBlock fd e8 z cs
  let nanB := isQn fd && hdrE8 b.1 == 255
  (b.1, b.2, if nanB then 0 else (cs.filter (·.sat)).length,
    if nanB then 32 else if isQn fd then 0 else (b.2.filter (fun c => isNan (decodeFp fd c))).length)

/-- The headers at `BADDR` that `CVT.HDR` reads. -/
def hdrAt (h : Hw) (c : Nat) (v : VecInstr) (k : Nat) : Nat := barnNat h c (v.baddr + 2 * k) 2

/-- The results of an operation from what the barn holds (R180). `CVT.JIT` writes every header. `CVT.HDR` writes those that its block's
codes change: a Qn block that becomes a NaN block (R68), and `AUX` of a floating-point block, which a producer writes as the maximum
of the block's element exponents (R66). -/
def vecResult (h : Hw) (c : Nat) (v : VecInstr) : VecOut :=
  let e := v.count + 1
  let w := fmtWidth v.fmtA
  let as := (unpackCodes w e (barnNat h c v.aaddr (elemBytes v.fmtA e))).map (decodeFp v.fmtA)
  if fnReduces v.fn then
    let l := v.baddr % 1024 + 1
    if v.fn = 0x20 then
      let cv := as.map (fun x => rneLong x v.fmtD true)
      let o := longOut v.fmtD false ((splitRows l (e / l) (cv.map (·.1))).map (sumTree v.fmtD))
      { o with sat := (cv.filter (·.2.1)).length }
    else longOut v.fmtD false ((splitRows l (e / l) as).map maxRow)
  else if fnBlocks v.fn then
    let bs := splitRows 32 (e / 32) as
    let outs := (List.range bs.length).map (fun k =>
      let xs := bs.getD k []
      if v.fn = 0x19 then cvtBlock v.fmtD (jitE8 xs v.fmtD) 0 xs
      else cvtBlock v.fmtD (hdrE8 (hdrAt h c v k)) (hdrAux (hdrAt h c v k)) xs)
    { codes := outs.flatMap (·.2.1)
      hdrs := ((List.range outs.length).map (fun k => (k, (outs.getD k (0, [], 0, 0)).1))).filter (fun x =>
        decide (v.fn = 0x19) || decide (x.2 ≠ hdrAt h c v x.1))
      sat := (outs.map (·.2.2.1)).sum, nan := (outs.map (·.2.2.2)).sum }
  else
    let bs := if fnReadsB v.fn then (unpackCodes w e (barnNat h c v.baddr (elemBytes v.fmtA e))).map (decodeFp v.fmtA) else []
    let ds := if v.fn = 0x0A ∨ v.fn = 0x10 then
      (unpackCodes (fmtWidth v.fmtD) e (barnNat h c v.daddr (elemBytes v.fmtD e))).map (decodeFp v.fmtD) else []
    longOut v.fmtD (v.fn == 0x18)
      ((List.range e).map (fun k => elemFn v.fn (as.getD k numZero) (bs.getD k numZero) (ds.getD k numZero)))

/-- Number of elements of d. -/
def dCount (v : VecInstr) : Nat := if fnReduces v.fn then (v.count + 1) / (v.baddr % 1024 + 1) else v.count + 1

/-- A region of the operation runs past the barn's end (R160). -/
def pastBarn (v : VecInstr) : Bool :=
  let e := v.count + 1
  decide (0xC00000 < v.aaddr + elemBytes v.fmtA e) || decide (0xC00000 < v.daddr + elemBytes v.fmtD (dCount v)) ||
    (fnReadsB v.fn && decide (0xC00000 < v.baddr + elemBytes v.fmtA e)) ||
    (fnBlocks v.fn && decide (0xC00000 < v.baddr + 2 * (e / 32)))

/-- Elements per clk of an operation (R151): a mixed-format operation runs at the S32 rate; a conversion to a short format runs at that of
the format it reads. DEDUCED (R151), log 24. -/
def vecRate (v : VecInstr) : Nat :=
  let base := if v.fn = 0x10 then 256 else if 0x30 ≤ v.fn then 128 else 512
  if v.fmtA ≠ fmtS32 ∧ (v.fmtD = v.fmtA ∨ isShort v.fmtD = true) then 2 * base else base

/-- Clk that an operation occupies the unit (R151, R181). -/
def vecClks (v : VecInstr) : Nat := (v.count + vecRate v) / vecRate v

def isSpecial (fn : Nat) : Bool := decide (0x30 ≤ fn)

-- the queue

/-- `STATUS` of the vector unit (R158): the operation that executes and its stream. -/
def showVec (c : Nat) : Eff := fun h =>
  match (croftX h c).vec with
  | v :: _ => chain [setFlag vector_STATUS_BUSY c v.written, setF vector_STATUS_OWNER c (if v.written then v.stream + 1 else 0)] h
  | [] => chain [setFlag vector_STATUS_BUSY c false, setF vector_STATUS_OWNER c 0] h

/-- The front operation leaves the queue and its signal is added (R164). -/
def popVec (c : Nat) (v : VecInstr) : Eff :=
  chain [modCroft c (fun x => { x with vec := x.vec.drop 1 }), showVec c, doneSig c v.sig v.sen]

/-- VOP (R163, R179): an operation enters the queue of four. The operation that executes is one of the four until it completes, as is the
pass or the request at the head of the other queues. DESIGN CHOICE (R163), log 24. -/
def effVop (c : Croft) (st : Strm) (w : BitVec 128) (t : Nat) : Eff :=
  issue c st w t 0x40 okVop (fun h =>
    if 4 ≤ (croftX h c.val).vec.length then []
    else
      let v : VecInstr := { stream := strmIx st, fn := wb w 23 16, fmtA := wb w 27 24, fmtD := wb w 31 28, count := wb w 47 32,
                            daddr := wb w 71 48, aaddr := wb w 95 72, baddr := wb w 119 96, sig := wb w 125 120,
                            sen := bit w.toNat 126 }
      chain [modCroft c.val (fun x => { x with vec := x.vec ++ [v] }), retire (sIx c st)] h)

/-- NaN elements were written (R155, R158, R266). -/
def vecNan (c n : Nat) : Eff :=
  whenB (decide (0 < n)) (chain [addF vector_NAN_COUNT c n, raise .vector c 1,
    whenE (fun h => flag h bellRcv_CTRL_NAN_VOP_ABANDON (c / 16)) (abandonCroft .vector c c)])

/-- What an operation reads of the barn (R180): a, and where its function has them b, d and the headers. -/
def vecSpans (v : VecInstr) : List (Nat × Nat) :=
  let e := v.count + 1
  [(v.aaddr, elemBytes v.fmtA e)] ++ (if fnReadsB v.fn then [(v.baddr, elemBytes v.fmtA e)] else []) ++
    (if v.fn = 0x0A ∨ v.fn = 0x10 then [(v.daddr, elemBytes v.fmtD e)] else []) ++ (if v.fn = 0x1A then [(v.baddr, 2 * (e / 32))] else [])

/-- The unit executes an accepted operation: results, counters and events. `reads` is what its reads find, and the read half of its partial
writes (R368). -/
def vecExecute (c : Nat) (v : VecInstr) (reads : List MemErr) : Eff := andThen (eccRead 0 (c / 16) c (vecSpans v) reads) (fun h =>
  let o := vecResult h c v
  chain [
    eccWrite 0 (c / 16) c v.daddr (elemBytes v.fmtD (dCount v)) reads,
    forE o.hdrs (fun x => eccWrite 0 (c / 16) c (v.baddr + 2 * x.1) 2 reads),
    modCroft c (fun x => match x.vec with
      | y :: ys => { x with vec := { y with written := true, freeAt := h.clk + vecClks v } :: ys }
      | [] => x),
    showVec c,
    whenB (isSpecial v.fn) (incF vector_SPECIAL_COUNT c),
    barnWrite c v.daddr (leBytes (elemBytes v.fmtD (dCount v)) (packCodes (fmtWidth v.fmtD) o.codes)),
    forE o.hdrs (fun x => barnWrite c (v.baddr + 2 * x.1) (leBytes 2 x.2)),
    whenB (decide (0 < o.sat)) (chain [addF vector_SAT_COUNT c o.sat, raise .vector c 2]),
    vecNan c o.nan] h)

/-- The front operation of the vector queue of croft c, if it is function `fn` and has not executed: rejected with
`FMT_INVALID`, not performed because it would run past the barn, or executed (R154, R160, R164, R180). -/
def vecRun (c : Croft) (fn : Nat) (pathBad : Bool) (reads : List MemErr) (t : Nat) : Eff := atClk t (fun h =>
  match (croftX h c.val).vec with
  | [] => []
  | v :: _ =>
    if v.fn ≠ fn ∨ v.written = true then []
    else if fnFormats v.fn v.fmtA v.fmtD = false then chain [raise .vector c.val 0, popVec c.val v] h
    else if pastBarn v then popVec c.val v h
    else chain [vecExecute c.val v reads, whenB pathBad (pathCheck c.val false)] h)

def effVopAdd (c : Croft) (pathBad : Bool) (reads : List MemErr) (t : Nat) : Eff := vecRun c 0x00 pathBad reads t
def effVopSub (c : Croft) (pathBad : Bool) (reads : List MemErr) (t : Nat) : Eff := vecRun c 0x01 pathBad reads t
def effVopMul (c : Croft) (pathBad : Bool) (reads : List MemErr) (t : Nat) : Eff := vecRun c 0x02 pathBad reads t
def effVopMin (c : Croft) (pathBad : Bool) (reads : List MemErr) (t : Nat) : Eff := vecRun c 0x03 pathBad reads t
def effVopMax (c : Croft) (pathBad : Bool) (reads : List MemErr) (t : Nat) : Eff := vecRun c 0x04 pathBad reads t
def effVopAbs (c : Croft) (pathBad : Bool) (reads : List MemErr) (t : Nat) : Eff := vecRun c 0x05 pathBad reads t
def effVopNeg (c : Croft) (pathBad : Bool) (reads : List MemErr) (t : Nat) : Eff := vecRun c 0x06 pathBad reads t
def effVopCmpLt (c : Croft) (pathBad : Bool) (reads : List MemErr) (t : Nat) : Eff := vecRun c 0x07 pathBad reads t
def effVopCmpLe (c : Croft) (pathBad : Bool) (reads : List MemErr) (t : Nat) : Eff := vecRun c 0x08 pathBad reads t
def effVopCmpEq (c : Croft) (pathBad : Bool) (reads : List MemErr) (t : Nat) : Eff := vecRun c 0x09 pathBad reads t
def effVopSel (c : Croft) (pathBad : Bool) (reads : List MemErr) (t : Nat) : Eff := vecRun c 0x0A pathBad reads t
def effVopCopy (c : Croft) (pathBad : Bool) (reads : List MemErr) (t : Nat) : Eff := vecRun c 0x0B pathBad reads t
def effVopFma (c : Croft) (pathBad : Bool) (reads : List MemErr) (t : Nat) : Eff := vecRun c 0x10 pathBad reads t
def effVopCvt (c : Croft) (pathBad : Bool) (reads : List MemErr) (t : Nat) : Eff := vecRun c 0x18 pathBad reads t
def effVopCvtJit (c : Croft) (pathBad : Bool) (reads : List MemErr) (t : Nat) : Eff := vecRun c 0x19 pathBad reads t
def effVopCvtHdr (c : Croft) (pathBad : Bool) (reads : List MemErr) (t : Nat) : Eff := vecRun c 0x1A pathBad reads t
def effVopRedSum (c : Croft) (pathBad : Bool) (reads : List MemErr) (t : Nat) : Eff := vecRun c 0x20 pathBad reads t
def effVopRedMax (c : Croft) (pathBad : Bool) (reads : List MemErr) (t : Nat) : Eff := vecRun c 0x21 pathBad reads t
def effVopExp2 (c : Croft) (pathBad : Bool) (reads : List MemErr) (t : Nat) : Eff := vecRun c 0x30 pathBad reads t
def effVopLog2 (c : Croft) (pathBad : Bool) (reads : List MemErr) (t : Nat) : Eff := vecRun c 0x31 pathBad reads t
def effVopRecip (c : Croft) (pathBad : Bool) (reads : List MemErr) (t : Nat) : Eff := vecRun c 0x32 pathBad reads t
def effVopRsqrt (c : Croft) (pathBad : Bool) (reads : List MemErr) (t : Nat) : Eff := vecRun c 0x33 pathBad reads t
def effVopSinpi (c : Croft) (pathBad : Bool) (reads : List MemErr) (t : Nat) : Eff := vecRun c 0x34 pathBad reads t
def effVopCospi (c : Croft) (pathBad : Bool) (reads : List MemErr) (t : Nat) : Eff := vecRun c 0x35 pathBad reads t
def effVopTanh (c : Croft) (pathBad : Bool) (reads : List MemErr) (t : Nat) : Eff := vecRun c 0x36 pathBad reads t
def effVopSigmoid (c : Croft) (pathBad : Bool) (reads : List MemErr) (t : Nat) : Eff := vecRun c 0x37 pathBad reads t

/-- VOP_COMPLETE (R164, R181): the operation that has written its last result leaves, after the clks it occupies, and its signal is
added. -/
def effVopComplete (c : Croft) (t : Nat) : Eff := atClk t (fun h =>
  match (croftX h c.val).vec with
  | [] => []
  | v :: _ => if v.written && decide (v.freeAt ≤ h.clk) then chain [incF vector_OP_COUNT c.val, popVec c.val v] h else [])

-- meanings, one per command

/-- VOP. -/
def execVop (c : Croft) (st : Strm) (w : BitVec 128) (t : Nat) (s : State) : Host.Outcome State Fault Refusal :=
  run (effVop c st w t) s

/-- VOP_ADD. -/
def execVopAdd (c : Croft) (pathBad : Bool) (t : Nat) (s : State) (reads : List MemErr := []) : Host.Outcome State Fault Refusal :=
  run (effVopAdd c pathBad reads t) s

/-- VOP_SUB. -/
def execVopSub (c : Croft) (pathBad : Bool) (t : Nat) (s : State) (reads : List MemErr := []) : Host.Outcome State Fault Refusal :=
  run (effVopSub c pathBad reads t) s

/-- VOP_MUL. -/
def execVopMul (c : Croft) (pathBad : Bool) (t : Nat) (s : State) (reads : List MemErr := []) : Host.Outcome State Fault Refusal :=
  run (effVopMul c pathBad reads t) s

/-- VOP_MIN. -/
def execVopMin (c : Croft) (pathBad : Bool) (t : Nat) (s : State) (reads : List MemErr := []) : Host.Outcome State Fault Refusal :=
  run (effVopMin c pathBad reads t) s

/-- VOP_MAX. -/
def execVopMax (c : Croft) (pathBad : Bool) (t : Nat) (s : State) (reads : List MemErr := []) : Host.Outcome State Fault Refusal :=
  run (effVopMax c pathBad reads t) s

/-- VOP_ABS. -/
def execVopAbs (c : Croft) (pathBad : Bool) (t : Nat) (s : State) (reads : List MemErr := []) : Host.Outcome State Fault Refusal :=
  run (effVopAbs c pathBad reads t) s

/-- VOP_NEG. -/
def execVopNeg (c : Croft) (pathBad : Bool) (t : Nat) (s : State) (reads : List MemErr := []) : Host.Outcome State Fault Refusal :=
  run (effVopNeg c pathBad reads t) s

/-- VOP_CMP_LT. -/
def execVopCmpLt (c : Croft) (pathBad : Bool) (t : Nat) (s : State) (reads : List MemErr := []) : Host.Outcome State Fault Refusal :=
  run (effVopCmpLt c pathBad reads t) s

/-- VOP_CMP_LE. -/
def execVopCmpLe (c : Croft) (pathBad : Bool) (t : Nat) (s : State) (reads : List MemErr := []) : Host.Outcome State Fault Refusal :=
  run (effVopCmpLe c pathBad reads t) s

/-- VOP_CMP_EQ. -/
def execVopCmpEq (c : Croft) (pathBad : Bool) (t : Nat) (s : State) (reads : List MemErr := []) : Host.Outcome State Fault Refusal :=
  run (effVopCmpEq c pathBad reads t) s

/-- VOP_SEL. -/
def execVopSel (c : Croft) (pathBad : Bool) (t : Nat) (s : State) (reads : List MemErr := []) : Host.Outcome State Fault Refusal :=
  run (effVopSel c pathBad reads t) s

/-- VOP_COPY. -/
def execVopCopy (c : Croft) (pathBad : Bool) (t : Nat) (s : State) (reads : List MemErr := []) : Host.Outcome State Fault Refusal :=
  run (effVopCopy c pathBad reads t) s

/-- VOP_FMA. -/
def execVopFma (c : Croft) (pathBad : Bool) (t : Nat) (s : State) (reads : List MemErr := []) : Host.Outcome State Fault Refusal :=
  run (effVopFma c pathBad reads t) s

/-- VOP_CVT. -/
def execVopCvt (c : Croft) (pathBad : Bool) (t : Nat) (s : State) (reads : List MemErr := []) : Host.Outcome State Fault Refusal :=
  run (effVopCvt c pathBad reads t) s

/-- VOP_CVT_JIT. -/
def execVopCvtJit (c : Croft) (pathBad : Bool) (t : Nat) (s : State) (reads : List MemErr := []) : Host.Outcome State Fault Refusal :=
  run (effVopCvtJit c pathBad reads t) s

/-- VOP_CVT_HDR. -/
def execVopCvtHdr (c : Croft) (pathBad : Bool) (t : Nat) (s : State) (reads : List MemErr := []) : Host.Outcome State Fault Refusal :=
  run (effVopCvtHdr c pathBad reads t) s

/-- VOP_RED_SUM. -/
def execVopRedSum (c : Croft) (pathBad : Bool) (t : Nat) (s : State) (reads : List MemErr := []) : Host.Outcome State Fault Refusal :=
  run (effVopRedSum c pathBad reads t) s

/-- VOP_RED_MAX. -/
def execVopRedMax (c : Croft) (pathBad : Bool) (t : Nat) (s : State) (reads : List MemErr := []) : Host.Outcome State Fault Refusal :=
  run (effVopRedMax c pathBad reads t) s

/-- VOP_EXP2. -/
def execVopExp2 (c : Croft) (pathBad : Bool) (t : Nat) (s : State) (reads : List MemErr := []) : Host.Outcome State Fault Refusal :=
  run (effVopExp2 c pathBad reads t) s

/-- VOP_LOG2. -/
def execVopLog2 (c : Croft) (pathBad : Bool) (t : Nat) (s : State) (reads : List MemErr := []) : Host.Outcome State Fault Refusal :=
  run (effVopLog2 c pathBad reads t) s

/-- VOP_RECIP. -/
def execVopRecip (c : Croft) (pathBad : Bool) (t : Nat) (s : State) (reads : List MemErr := []) : Host.Outcome State Fault Refusal :=
  run (effVopRecip c pathBad reads t) s

/-- VOP_RSQRT. -/
def execVopRsqrt (c : Croft) (pathBad : Bool) (t : Nat) (s : State) (reads : List MemErr := []) : Host.Outcome State Fault Refusal :=
  run (effVopRsqrt c pathBad reads t) s

/-- VOP_SINPI. -/
def execVopSinpi (c : Croft) (pathBad : Bool) (t : Nat) (s : State) (reads : List MemErr := []) : Host.Outcome State Fault Refusal :=
  run (effVopSinpi c pathBad reads t) s

/-- VOP_COSPI. -/
def execVopCospi (c : Croft) (pathBad : Bool) (t : Nat) (s : State) (reads : List MemErr := []) : Host.Outcome State Fault Refusal :=
  run (effVopCospi c pathBad reads t) s

/-- VOP_TANH. -/
def execVopTanh (c : Croft) (pathBad : Bool) (t : Nat) (s : State) (reads : List MemErr := []) : Host.Outcome State Fault Refusal :=
  run (effVopTanh c pathBad reads t) s

/-- VOP_SIGMOID. -/
def execVopSigmoid (c : Croft) (pathBad : Bool) (t : Nat) (s : State) (reads : List MemErr := []) : Host.Outcome State Fault Refusal :=
  run (effVopSigmoid c pathBad reads t) s

/-- VOP_COMPLETE. -/
def execVopComplete (c : Croft) (t : Nat) (s : State) : Host.Outcome State Fault Refusal :=
  run (effVopComplete c t) s

end Sys2Proof.Machine
end

