-- ==== Sys2Proof/Machine/Registers.lean ====
section
/-! DEFINITION. Register accesses (R7 to R10, R30 to R33, R36, R39 to R46), the entry windows of R50, and the flits of the quarter
paths (R19). -/

namespace Sys2Proof.Machine

-- who answers

/-- A page that answers nothing: its quarter is in reset, parked or failed (R33). -/
def pageGone (h : Hw) (p : Page) : Bool :=
  match pageQuarter p with
  | none => false
  | some q => quarterGone h q

def locked (h : Hw) (p : Page) : Bool := bit (reg h (lockAddr p)).toNat 0

-- the header

/-- EVENT_RAW_CLEAR (R8, R36): `hwset` are the bits hardware sets in the same clk; they end set. -/
def effEventRawClear (pg : Page) (mask hwset : BitVec 16) : Eff := fun h =>
  if pageGone h pg then []
  else
    let live := 2 ^ pageEvents pg.kind - 1
    chain [setReg (rawAddr pg) (reg h (rawAddr pg) &&& ~~~(BitVec.ofNat 32 (mask &&& ~~~hwset).toNat)),
      forE ((List.range 16).filter (fun e => bit (hwset.toNat &&& live) e)) (fun e => raiseForced pg e false)] h

/-- EVENT_FORCE (R40): an event that hardware raises in the same clk makes one record, which is not marked forced. -/
def effEventForce (pg : Page) (mask hwset : BitVec 16) : Eff := fun h =>
  if pageGone h pg then []
  else
    forE ((List.range (pageEvents pg.kind)).filter (fun e => bit mask.toNat e || bit hwset.toNat e))
      (fun e => raiseForced pg e (!bit hwset.toNat e)) h

/-- LOCK (R45): writing 1 to bit 0 sets `LOCKED`; only a reset of the block clears it. -/
def effLock (pg : Page) (v : Word) : Eff := fun h =>
  if pageGone h pg || !bit v.toNat 0 then [] else setReg (lockAddr pg) 1 h

/-- LOCK_ALL (R45). -/
def effLockAll (v : Word) : Eff := fun h =>
  if !bit v.toNat 0 then [] else (allPages.filter (fun p => !pageGone h p)).map (fun p => .regs (lockAddr p) 1)

-- fields

/-- "Held only" of the bell and watch pages (R282, R425). -/
def bellFree (h : Hw) : Bool := !flag h bellMaster_STATUS_RUNNING 0 || flag h bellMaster_STATUS_HELD 0

/-- The ring whose registers lie at an offset of the host rings page (R398). -/
def ringAt (off : Nat) : Nat := (off - 0x80) / 0x20

/-- The further condition of a field holds (R156, R236, R282, R288, R389). -/
def condOk (h : Hw) (p : Page) (f : Fld) : Bool :=
  match f.cond with
  | .always => true
  | .croftStopped => !croftRunning h p.inst
  | .reeveDisabled => !flag h reeve0_CTRL_ENABLE p.inst
  | .bellHeld => bellFree h
  | .bellToken => bellFree h && flag h bellMaster_CTRL_MASTER 0
  | .ringDisabled => ringState h (ringAt f.off) == rgDisabled
  | .millHeld => !flag h mill_CTRL_ENABLE 0 || jobHeld h

/-- Every bit of a mask cleared. -/
def clearBits (x m : Nat) : Nat := x ^^^ (x &&& m)

/-- What a write of `v` makes of the bits `o` of a field (R7, R8), where hardware sets the bits `s` and clears the bits `k` in the same
clk: a bit that is written 1 through W1C and set by hardware ends set, and one written 1 through W1S ends set whatever hardware
clears. -/
def accWrite (acc : Acc) (lck : Bool) (o v s k : Nat) : Nat :=
  match acc with
  | .rw => v
  | .rws => v
  | .rwl => if lck then o else v
  | .w1c => clearBits o v ||| (s &&& v)
  | .w1s => clearBits o k ||| v
  | .ro => o
  | .wo => 0

/-- One field of a written register: a reserved encoding, or a condition that does not hold, keeps it (R9); `LOCKED` set in the clk of
the write already holds for it (R46). -/
def writeField (h : Hw) (p : Page) (x : SameClk) (v w : Nat) (f : Fld) : Nat :=
  let o := bits w f.hi f.lo
  let n := bits v f.hi f.lo
  if condOk h p f && !rsvHit f.rsv n then
    putBits w f.hi f.lo (accWrite f.acc (locked h p || x.lock) o n (bits x.set.toNat f.hi f.lo) (bits x.clr.toNat f.hi f.lo))
  else w

/-- The fields of the register at an offset of a page, in the table's order. -/
def writeFields (h : Hw) (p : Page) (x : SameClk) (off v : Nat) : Nat :=
  (rowsAt p.kind off).foldl (writeField h p x v) (reg h (pageBase p.kind p.inst + off)).toNat

/-- Encodings that depend on two fields of the register (R9, R225, R282, R283): the written bits with those of a reserved
combination replaced by the old ones. -/
def fixPair (p : Page) (off old v : Nat) : Nat :=
  if p.kind = .bellMaster ∧ off = 0x48 then
    let s := if bits v 15 0 < 3 then bits old 15 0 else bits v 15 0
    if bits v 31 16 < 2 ∨ s ≤ bits v 31 16 then putBits v 31 16 (bits old 31 16) else v
  else if p.kind = .bellRcv ∧ off = 0x40 then
    if 64 < bits v 5 0 + bits v 9 8 + 1 then putBits (putBits v 5 0 (bits old 5 0)) 9 8 (bits old 9 8) else v
  else if p.kind = .barn ∧ off = 0x44 then
    if !bit v 16 && decide (3071 < bits v 13 0) then
      (if 3071 < bits old 13 0 then old else putBits v 13 0 (bits old 13 0))
    else v
  else v

/-- Mask of the RWS fields of a register that a write of `v` takes effect on: a reserved encoding is no write to its field (R9). -/
def rwsWritten (p : Page) (off v : Nat) : Nat :=
  ((rowsAt p.kind off).filter (fun f => f.acc == .rws && !rsvHit f.rsv (bits v f.hi f.lo))).foldl (fun m f => m ||| fldMask f) 0

/-- The gate forwards a write to RWS fields to the steward while the persistent configuration window is open (R10, R11, R487). -/
def forwardRws (p : Page) (off v : Nat) : Eff := fun h =>
  let m := rwsWritten p off v
  if h.stew.window && decide (m ≠ 0) then
    modStew (fun s => { s with forwarded := s.forwarded ++ [(pageBase p.kind p.inst + off, BitVec.ofNat 32 m, BitVec.ofNat 32 v)] }) h
  else []

-- the mailbox

/-- The request bytes in `BUFFER`. -/
def mailBytes (h : Hw) (n : Nat) : List Byte :=
  ((List.range ((n + 3) / 4)).flatMap (fun k => leBytes 4 (getF h (mailbox_BUFFER k) 0))).take n

/-- An owner blob goes to the command its `CODE` names (R484, R486); one that names none is refused as `OPEN_PERSIST` refuses a code
that is not its own. The strap is asserted where its wire says so (R509): a free value. -/
def ownerRequest (req : List Byte) : Eff :=
  match blobCode req with
  | 2 => effEraseConfig .host req
  | 3 => effEraseBook .host req
  | 4 => drawFree (fun w => effSetOwner .host req (w.getLsbD 0))
  | 5 => effOwnerFwActivate .host req
  | _ => effOpenPersist .host req

/-- A request by its opcode (R489). -/
def mailRequest (op : Nat) (req : List Byte) : Eff :=
  match op with
  | 1 => effGetInfo .host req
  | 2 => effGetNonce .host req
  | 3 => ownerRequest req
  | 4 => effClosePersist .host req
  | 5 => effFwWrite .host req
  | 6 => effFwStage .host req
  | 7 => (if req.isEmpty then effPowerCycle .host else stewCmd .host (respond .host 2 []))
  | 8 => (if req.isEmpty then effModuleReset .host else stewCmd .host (respond .host 2 []))
  | 9 => effFwActivate .host req
  | _ => stewCmd .host (respond .host 1 [])

/-- A write of `CMD` (R489): ignored while `GO` is 1. -/
def mailCmd (v : Nat) : Eff := fun h =>
  if flag h mailbox_CMD_GO 0 then []
  else
    let len := bits v 19 8
    chain [setF mailbox_CMD_OPCODE 0 (bits v 7 0), setF mailbox_CMD_LEN 0 len,
      whenB (bit v 31) (chain [setFlag mailbox_CMD_GO 0 true, setFlag mailbox_STATUS_BUSY 0 true,
        (if 2048 < len then stewCmd .host (respond .host 2 []) else mailRequest (bits v 7 0) (mailBytes h len))])] h

-- registers whose write acts

def ofFin {n : Nat} (i : Nat) (k : Fin n → Eff) : Eff := if hi : i < n then k ⟨i, hi⟩ else skip

/-- Each bit of a register that names crofts, quarters or ports. -/
def eachBit {n : Nat} (base v : Nat) (k : Fin n → Eff) : Eff :=
  forE ((List.range 32).filter (fun i => bit v i)) (fun i => ofFin (base + i) k)

/-- A sequence slot with one of its words replaced (R149, R156): 0 `POS`, 1 `MB`, 2 `STASH_BASE`, 3 `STASH_LEN`, 4 `STASH_CUR`. -/
def slotPut (x : Slot) (k v : Nat) : Slot :=
  match k with
  | 0 => { x with pos := v }
  | 1 => { x with mb := v % 2 ^ 16 }
  | 2 => { x with base := v % 2 ^ 26 }
  | 3 => { x with len := v % 2 ^ 26 }
  | _ => { x with cur := v % 2 ^ 26 }

/-- Keys under which R50 holds what is read and written of the slot that `SLOT_SEL` selects and of the entry `POISON_SEL` selects. -/
def slotWin (c : Nat) : Nat := 16 + c
def poisonWin (k : Nat) : Nat := 96 + k

/-- The signal that `SIG_SEL` selects, and the words of the slot that `SLOT_SEL` selects (R156): as the words of an entry (R50) the slot's
words are held, and a write of the highest installs them. -/
def writeSelected (c off v : Nat) : Eff := fun h =>
  if croftRunning h c then []
  else if off = 0x4C then setSig c (getF h croft_SIG_SEL c) (v % 2 ^ 16) h
  else
    let s := getF h croft_SLOT_SEL c
    let k := (off - 0x64) / 4
    let held := (k, v) :: (winX h (slotWin c)).held.filter (fun y => y.1 != k)
    if k = 4 then
      chain [modWin (slotWin c) (fun x => { x with heldIx := none, held := [] }),
        fun _ => [.slots (32 * c + s) (held.foldl (fun x y => slotPut x y.1 y.2) (slotOf h c s))]] h
    else modWin (slotWin c) (fun x => { x with heldIx := some s, held := held }) h

/-- Registers that hold nothing of their own: their write goes elsewhere and leaves the register alone. -/
def redirect (p : Page) (x : SameClk) (off v : Nat) : Option Eff :=
  match p.kind with
  | .gateId => if off = 0x40 then some (effLockAll (BitVec.ofNat 32 v)) else none
  | .croft =>
    if off = 8 then some (runWrite p.inst (bit v 0))
    else if off = 0x4C ∨ (0x64 ≤ off ∧ off ≤ 0x74) then some (writeSelected p.inst off v)
    else none
  | .field =>
    if off = 8 then some (chain [
      whenB (bit v 0) (armResidue p.inst), whenB (bit v 1) (armRunParity p.inst), whenB (bit v 2) (armAccParity p.inst)])
    else none
  | .barn => if off = 0x48 then some (ofFin p.inst (fun c => effCsumDataWrite c (BitVec.ofNat 32 v))) else none
  | .hbm1 => if off = 0x44 then some (ofFin p.inst (fun k => effHbmCsumDataWrite k (BitVec.ofNat 32 v) x.errs)) else none
  | .reeve0 => if off = 8 then some (ofFin p.inst (fun q => effReeveEnableWrite q (bit v 0))) else none
  | .watch =>
    if off = 0x54 then some (eachBit 0 v effQuarantine)
    else if off = 0x58 then some (eachBit 32 v effQuarantine)
    else if off = 0x5C then some (eachBit 0 v effQuarantineClr)
    else if off = 0x60 then some (eachBit 32 v effQuarantineClr)
    else none
  | .reset =>
    if off = 8 then some (effFallow (bit v 0))
    else if off = 0x40 then some (effWarm (BitVec.ofNat 16 v))
    else if off = 0x44 then some (eachBit 0 (v % 16) effQuarterReset)
    else if off = 0x48 then some (forE (List.range 4) (fun i => ofFin i (fun q => effPark q (bit v i))))
    else if off = 0x4C then some (eachBit 0 v effCroftReset)
    else if off = 0x50 then some (eachBit 32 v effCroftReset)
    else if off = 0x54 then some (eachBit 0 v effPortReset)
    else none
  | .mailbox => if off = 0x40 then some (mailCmd v) else none
  | .book =>
    if off = 0x40 then some (effCursorWrite (BitVec.ofNat 14 v))
    else if off = 0x44 then
      some (match v % 8 with | 1 => effNext | 2 => effPrev | 3 => effOldest | 4 => effNewest | _ => skip)
    else none
  | .hostRings =>
    if 0x80 ≤ off ∧ off < 0x180 ∧ off % 0x20 = 0x14 then
      some (ofFin (ringAt off) (fun r => chain [
        (if bit v 0 then effRingEnable r else effRingDisable r), whenB (bit v 1) (effAbort r)]))
    else none
  | _ => none

/-- What a write does beside storing its fields; the fields have been stored. -/
def afterWrite (p : Page) (off v : Nat) : Eff :=
  match p.kind with
  | .bellMaster =>
    if off = 8 then chain [whenB (bit v 1) startBell, whenB (bit v 2) effHoldNow, whenB (bit v 3) resumeBell] else skip
  | .power => if off = 0x5C then showTemp else if off = 0x68 then showRail else skip
  | .mill =>
    if off = 0x80 then chain [whenB (bit v 2) effFillGo, whenB (bit v 4) effNoSpare] else skip
  | .port0 =>
    if off = 8 then ofFin p.inst (fun k => whenB (bit v 1) (effPortRetrain k)) else skip
  | .croft => if off = 0x60 then modWin (slotWin p.inst) (fun _ => {}) else skip
  | .hbm1 => if off = 0x48 then modWin (poisonWin p.inst) (fun _ => {}) else skip
  | .tally => if off = 0x40 then modCroft p.inst (fun x => { x with slotSnap := none }) else skip
  | .reeve3 =>
    if off = 0x40 then modQuarter p.inst (fun x => { x with sheetSnap := none })
    else if off = 0x80 then modQuarter p.inst (fun x => { x with peakSnap := none })
    else skip
  | _ => skip

/-- A discarded write that raises an event: `LEDGER_WRITE` (R236) and `TABLE_WRITE` (R288). -/
def discarded (p : Page) (off : Nat) : Eff := fun h =>
  let fs := rowsAt p.kind off
  if fs.any (fun f => f.cond == .reeveDisabled) && flag h reeve0_CTRL_ENABLE p.inst then raise .reeve0 p.inst 11 h
  else if fs.any (fun f => f.cond == .millHeld) && !(!flag h mill_CTRL_ENABLE 0 || jobHeld h) then raise .mill 0 12 h
  else []

/-- A write of a block-specific register, or of `CTRL` or `EVENT_SEVERITY`. `ENABLE` of a port and of the mill is a field beside others: it acts by
its own command. -/
def writeBlock (p : Page) (x : SameClk) (off v : Nat) : Eff := fun h =>
  match redirect p x off v with
  | some e => e h
  | none =>
    let a := pageBase p.kind p.inst + off
    let old := (reg h a).toNat
    let epoch := p.kind == .mill && off == 0x98 && condOk h p mill_EPOCH
    if p.kind = .port0 ∧ off = 8 then
      chain [setReg a (BitVec.ofNat 32 (putBits (writeFields h p x off v) 0 0 (old % 2))), forwardRws p off v,
        ofFin p.inst (fun k => effPortEnableWrite k (bit v 0)), afterWrite p off v] h
    else if p.kind = .mill ∧ off = 8 then effMillEnableWrite (bit v 0) h
    else
      chain [discarded p off, setReg a (BitVec.ofNat 32 (writeFields h p x off (fixPair p off old v))), forwardRws p off v,
        whenB epoch (look (fun h => deviceId h (millQ h)) (millRecord 22 0)), afterWrite p off v] h

/-- The policy page and the variant map page of a reeve that is on (R236). -/
def reeveShut (h : Hw) (p : Page) : Bool := (p.kind == .reeve1 || p.kind == .reeve2) && flag h reeve0_CTRL_ENABLE p.inst

/-- A write to a page; such a page discards every one (R236). -/
def onPage (p : Page) (e : Eff) : Eff := fun h =>
  if !pageGone h p && reeveShut h p then raise .reeve0 p.inst 11 h else e h

/-- A write of one register of a page. -/
def writePage (p : Page) (x : SameClk) (off : Nat) (v : Word) : Eff := onPage p (fun h =>
  if pageGone h p then []
  else if off = 0x10 then effEventRawClear p (v.setWidth 16) (x.set.setWidth 16) h
  else if off = 0x14 then setReg (enableAddr p) v h
  else if off = 0x18 then effEventForce p (v.setWidth 16) (x.set.setWidth 16) h
  else if off = 0x1C then (if locked h p || x.lock then [] else setReg (sevAddr p) v h)
  else if off = 0x20 then effLock p v h
  else if (rowsAt p.kind off).isEmpty then []
  else writeBlock p x off v.toNat h)

-- entry windows

/-- Entries of a window, words of an entry, and where what R50 holds of the window lies. -/
def winCount : Window → Nat
  | .ledger _ => 16384 | .route _ => 32768 | .millGroup => 4096 | .millLayer => 8192
def winWords : Window → Nat
  | .ledger _ => 4 | .route _ => 2 | .millGroup => 16 | .millLayer => 16
def winKey : Window → Nat
  | .ledger q => 2 * q.val | .route q => 2 * q.val + 1 | .millGroup => 8 | .millLayer => 9
def winGone (h : Hw) : Window → Bool
  | .ledger q => quarterGone h q.val | .route q => quarterGone h q.val | .millGroup => false | .millLayer => false

/-- An entry as a number, its words in ascending order. -/
def winEntry (h : Hw) (w : Window) (ix : Nat) : Nat :=
  match w with
  | .ledger q => (ledgerOf h q.val ix).toNat
  | .route q => (routeOf h q.val ix).toNat
  | .millGroup => mGroup h ix
  | .millLayer => mLayer h ix

def winWordsOf (h : Hw) (w : Window) (ix : Nat) : List Nat :=
  (List.range (winWords w)).map (fun k => bits (winEntry h w ix) (32 * k + 31) (32 * k))

/-- An access to an entry ends the snapshot of another and discards another's held words (R50). -/
def winTouch (ix : Nat) (x : WinX) : WinX :=
  let y := if x.snapIx = some ix then x else { x with snapIx := none, snap := [] }
  if y.heldIx = some ix then y else { y with heldIx := none, held := [] }

/-- A mask of fields over words of an entry: word, high bit, low bit. -/
def entryMask (fs : List (Nat × Nat × Nat)) : Nat :=
  fs.foldl (fun m f => m ||| ((2 ^ (f.2.1 - f.2.2 + 1) - 1) <<< (32 * f.1 + f.2.2))) 0

/-- Fields of a group entry (R289), all "held only". -/
def groupMask : Nat := entryMask [(0, 6, 0), (0, 31, 8), (1, 31, 0), (2, 31, 0), (3, 31, 0), (4, 31, 0), (5, 31, 0), (6, 31, 0), (7, 31, 0),
  (8, 31, 0), (9, 31, 0), (10, 31, 0)]

/-- "Held only" and "disabled only" fields of a layer entry (R291). -/
def layerHeldMask : Nat := entryMask [(0, 20, 0), (0, 31, 24), (1, 13, 0), (1, 21, 16), (1, 29, 24), (2, 15, 0), (3, 23, 0), (4, 23, 0),
  (5, 28, 0), (6, 28, 0), (7, 28, 0), (8, 28, 0), (9, 25, 0), (10, 25, 0), (13, 31, 0), (14, 15, 0)]
def layerOffMask : Nat := entryMask [(0, 21, 21), (0, 22, 22), (11, 31, 0), (12, 31, 0)]

/-- The old entry with the bits of a mask taken from the new one. -/
def mergeMask (old new m : Nat) : Nat := clearBits old m ||| (new &&& m)

/-- Reserved encodings of a layer entry's fields (R291): position, width and whether a value is reserved. -/
def layerRsv : List (Nat × Nat × (Nat → Bool)) :=
  [(15, 12, fun v => v == 0), (19, 16, fun v => v != 0 && v != 0xD && v != 0xF), (31, 24, fun v => v == 0), (53, 48, fun v => v == 63)]

/-- Reserved values of a group entry's `RULE` (R289). -/
def groupRsv : List (Nat × Nat × (Nat → Bool)) := [(3, 0, fun v => decide (4 ≤ v))]

/-- A reserved encoding keeps the field's value (R9). -/
def keepReserved (rsv : List (Nat × Nat × (Nat → Bool))) (old new : Nat) : Nat :=
  rsv.foldl (fun e r => if r.2.2 (bits e r.1 r.2.1) then putBits e r.1 r.2.1 (bits old r.1 r.2.1) else e) new

/-- An entry of a mill table is installed (R288): fields that may not be written keep their values, and `TABLE_WRITE` says that one of
them would have changed. -/
def installMill (group : Bool) (ix new : Nat) : Eff := fun h =>
  let on := flag h mill_CTRL_ENABLE 0
  let held := !on || jobHeld h
  let heldM := if group then groupMask else layerHeldMask
  let offM := if group then 0 else layerOffMask
  let old := if group then mGroup h ix else mLayer h ix
  let kept := (if held then 0 else heldM) ||| (if on then offM else 0)
  let e := mergeMask old new (clearBits (heldM ||| offM) kept)
  chain [whenB (decide ((old &&& kept) ≠ (new &&& kept))) (raise .mill 0 12),
    (if group then fun _ => [.mgroups ix (BitVec.ofNat 512 (keepReserved groupRsv old e))]
      else fun _ => [.mlayers ix (BitVec.ofNat 512 (keepReserved layerRsv old e))])] h

/-- A ledger entry is installed in both banks with `PEND` 0 (R236); a reserved `EOFF` keeps its value (R9, R233). -/
def installLedger (q ix new : Nat) : Eff := fun h =>
  let old := (ledgerOf h q ix).toNat
  let x := bits new 28 20
  let e := if 128 ≤ x ∧ x ≤ 384 then putBits new 28 20 (bits old 28 20) else new
  chain [setLedger q ix (BitVec.ofNat 128 (putBits e 88 88 0)), fun _ => [.shadow (16384 * q + ix) none]] h

def installEntry (w : Window) (ix new : Nat) : Eff :=
  match w with
  | .ledger q => installLedger q.val ix new
  | .route q => fun _ => [.routes (32768 * q.val + ix) (BitVec.ofNat 64 new)]
  | .millGroup => installMill true ix new
  | .millLayer => installMill false ix new

/-- A ledger write while the reeve is on (R236). -/
def ledgerShut (h : Hw) : Window → Option Nat
  | .ledger q => if flag h reeve0_CTRL_ENABLE q.val then some q.val else none
  | _ => none

/-- ENTRY_WORD_WRITE (R50, R236). -/
def effEntryWordWrite (w : Window) (ix word : Nat) (v : Word) : Eff := fun h =>
  if winCount w ≤ ix ∨ winWords w ≤ word ∨ winGone h w = true then []
  else match ledgerShut h w with
    | some q => raise .reeve0 q 11 h
    | none =>
      let x := winTouch ix (winX h (winKey w))
      let held := (word, v.toNat) :: x.held.filter (fun y => y.1 != word)
      if word + 1 = winWords w then
        chain [modWin (winKey w) (fun _ => { x with heldIx := none, held := [] }),
          installEntry w ix (held.foldl (fun e y => putBits e (32 * y.1 + 31) (32 * y.1) y.2) (winEntry h w ix))] h
      else modWin (winKey w) (fun _ => { x with heldIx := some ix, held := held }) h

/-- The window entry and word at a BAR0 address (R49, R52, R287). -/
def windowAt (a : Nat) : Option (Window × Nat × Nat) :=
  if 0x340000 ≤ a ∧ a < 0x380000 then some (.millGroup, (a - 0x340000) / 64, a % 64 / 4)
  else if 0x380000 ≤ a ∧ a < 0x400000 then some (.millLayer, (a - 0x380000) / 64, a % 64 / 4)
  else if 0x1000000 ≤ a ∧ a < 0x2000000 then
    let o := a % 0x400000
    let q : Quarter := Fin.ofNat 4 ((a - 0x1000000) / 0x400000)
    if 0x200000 ≤ o ∧ o < 0x240000 then some (.ledger q, (o - 0x200000) / 16, o % 16 / 4)
    else if 0x240000 ≤ o ∧ o < 0x280000 then some (.route q, (o - 0x240000) / 8, o % 8 / 4)
    else none
  else none

-- the host's register write

/-- Doorbells and the MSI-X table (R383, R387); the pending bits are read-only. -/
def writeHostSpace (a : Nat) (v : Word) : Eff :=
  if 0x201000 ≤ a ∧ a < 0x201040 then
    ofFin ((a - 0x201000) / 8) (fun r => if a % 8 = 0 then effSqDoorbell r v else effCqDoorbell r v)
  else if 0x202000 ≤ a ∧ a < 0x202400 then
    chain [fun _ => [.msix a (if a % 16 = 12 then v &&& 1 else v)], whenB (a % 16 == 12) flushMsix]
  else skip

/-- One aligned 32-bit write (R30, R51, R52). -/
def write32 (x : SameClk) (a : Nat) (v : Word) : Eff :=
  match windowAt a with
  | some x => effEntryWordWrite x.1 x.2.1 x.2.2 v
  | none =>
    if 0x201000 ≤ a ∧ a < 0x204000 then writeHostSpace a v
    else match pageAt a with
      | some p => writePage p x (a % 0x1000) v
      | none => skip

/-- An access that is too narrow or not aligned (R31). -/
def badAccess : Eff := chain [incF gateId_BAD_ACCESS_COUNT 0, raise .gateId 0 0]

/-- REGISTER_WRITE (R7 to R9, R30, R31, R46): a 64-bit write is the lower register's, then the higher's; `same` is what hardware does in
the same clk. -/
def effRegisterWrite (addr : BitVec 26) (size : Nat) (v : BitVec 64) (same : SameClk) : Eff := fun h =>
  let a := addr.toNat
  if hostAway h then []
  else if size = 4 ∧ a % 4 = 0 then write32 same a (v.setWidth 32) h
  else if size = 8 ∧ a % 8 = 0 then
    andThen (write32 same a (v.setWidth 32))
      (write32 { same with set := same.set >>> 32, clr := same.clr >>> 32 } (a + 4) (BitVec.ofNat 32 (v.toNat / 2 ^ 32))) h
  else badAccess h

-- quarter paths

/-- The class that the gate grants a slot of a path (R19, R20): the lowest that waits, but class 3 has one slot in every 16. -/
def pathGrant (x : PathX) : Option Nat :=
  if decide (0 < x.waiting.getD 2 0) && decide (15 ≤ x.hostWait) then some 2
  else (List.range 3).find? (fun k => decide (0 < x.waiting.getD k 0))

/-- The flits that have come to wait join those that wait. -/
def pathCome (x : PathX) (come : List Nat) : PathX :=
  { x with waiting := (List.range 3).map (fun k => x.waiting.getD k 0 + come.getD k 0) }

/-- Slots for which class 3 has waited, after one granted to class k. -/
def hostWaits (x : PathX) (k : Option Nat) : Nat := if k = some 2 ∨ x.waiting.getD 2 0 = 0 then 0 else x.hostWait + 1

/-- The flit of a slot (R19): a replay that waits, else one of the class granted, else a null flit: sequence number, class, and the state
after it was sent. -/
def pathSend (x : PathX) : Option (Nat × Nat) × PathX :=
  match x.toReplay with
  | s :: rest =>
    let u := (x.unacked.find? (fun y => y.1 == s)).getD (s, 0, 0)
    (some (s, u.2.1), { x with
      toReplay := rest, hostWait := hostWaits x none
      unacked := x.unacked.map (fun y => if y.1 = s then (y.1, y.2.1, y.2.2 + 1) else y) })
  | [] =>
    match pathGrant x with
    | none => (none, { x with hostWait := hostWaits x none })
    | some k => (some (x.txSeq, k), { x with
        txSeq := (x.txSeq + 1) % 4096, hostWait := hostWaits x (some k), waiting := x.waiting.set k (x.waiting.getD k 0 - 1)
        unacked := x.unacked ++ [(x.txSeq, k, 0)] })

/-- A flit whose CRC is good is accepted in sequence and acknowledged (R332); one whose CRC fails is asked for again, with all that followed it
(R334). -/
def pathTake (x : PathX) (f : Option (Nat × Nat)) (crcOk : Bool) : PathX :=
  match f with
  | none => x
  | some (s, _) =>
    if crcOk = false then { x with toReplay := x.unacked.map (·.1) }
    else if s = x.rxSeq then { x with rxSeq := (x.rxSeq + 1) % 4096, unacked := x.unacked.filter (fun y => y.1 != s) }
    else x

def setPath (q : Nat) (into : Bool) (x : PathX) : Eff := modQuarter q (fun y => if into then { y with pathIn := x } else { y with pathOut := x })

/-- QUARTER_PATH_FLIT (R19, R20, R28, R47): one flit slot of a path, towards its quarter or from it: `come` counts by class the flits that have
come to wait. A flit whose CRC fails is retried; as on a port, an eighth replay of one flit means that retry fails, and the quarter with
it. DEDUCED (R19), log 68. -/
def effQuarterPathFlit (q : Quarter) (into : Bool) (come : List Nat) (crcOk : Bool) : Eff := fun h =>
  if quarterGone h q.val then []
  else
    let x := pathCome (if into then (quarterX h q.val).pathIn else (quarterX h q.val).pathOut) come
    let r := pathSend x
    let bad := r.1.isSome && !crcOk
    let fails := bad && r.2.unacked.any (fun y => r.1.map (·.1) == some y.1 && decide (8 ≤ y.2.2))
    chain [setPath q.val into (pathTake r.2 r.1 crcOk),
      emit (.path q.val into ((r.1.map (·.2 + 1)).getD 0) (!x.toReplay.isEmpty)),
      whenB bad (chain [incF (paths_RETRY q.val) 0, raise .paths 0 0]),
      whenB fails (chain [raise .paths 0 1, failQuarter q.val])] h

-- meanings, one per command

/-- REGISTER_WRITE. -/
def execRegisterWrite (addr : BitVec 26) (size : Nat) (v : BitVec 64) (s : State) (same : SameClk := {}) :
    Host.Outcome State Fault Refusal :=
  run (effRegisterWrite addr size v same) s

/-- EVENT_RAW_CLEAR. -/
def execEventRawClear (pg : Page) (mask hwset : BitVec 16) (s : State) : Host.Outcome State Fault Refusal :=
  run (bySoftware (onPage pg (effEventRawClear pg mask hwset))) s

/-- EVENT_FORCE. -/
def execEventForce (pg : Page) (mask hwset : BitVec 16) (s : State) : Host.Outcome State Fault Refusal :=
  run (bySoftware (onPage pg (effEventForce pg mask hwset))) s

/-- LOCK. -/
def execLock (pg : Page) (v : Word) (s : State) : Host.Outcome State Fault Refusal :=
  run (bySoftware (onPage pg (effLock pg v))) s

/-- LOCK_ALL. -/
def execLockAll (v : Word) (s : State) : Host.Outcome State Fault Refusal :=
  run (bySoftware (effLockAll v)) s

/-- ENTRY_WORD_WRITE. -/
def execEntryWordWrite (w : Window) (ix word : Nat) (v : Word) (s : State) : Host.Outcome State Fault Refusal :=
  run (bySoftware (effEntryWordWrite w ix word v)) s

/-- QUARTER_PATH_FLIT. -/
def execQuarterPathFlit (q : Quarter) (into : Bool) (come : List Nat) (s : State) (crcOk : Bool := true) :
    Host.Outcome State Fault Refusal :=
  run (effQuarterPathFlit q into come crcOk) s

end Sys2Proof.Machine
end

