-- ==== Sys2Proof/Machine/Reads.lean ====
section
/-! DEFINITION. What a software read of a register returns (R7, R9, R33, R36, R42, R50): the stored bits, with the bits that show a
condition of the device as it stands. A plain read changes nothing, so the table has no command for it; the reads that take a
snapshot are commands of their own. -/

namespace Sys2Proof.Machine

/-- `STATUS.EVENT_PENDING` of a page (R36). -/
def pagePending (h : Hw) (p : Page) : Bool :=
  decide ((reg h (rawAddr p)).toNat &&& (reg h (enableAddr p)).toNat ≠ 0)

def anyPage (h : Hw) (ps : List Page) : Bool := ps.any (pagePending h)

/-- Bits of a list, bit 0 first. -/
def summaryBits (bs : List Bool) : Nat := bs.foldr (fun b n => b2n b + 2 * n) 0

/-- Pages of croft c, in their order (R42, R52). -/
def croftPages (c : Nat) : List Page := (List.range 13).filterMap (croftPageAt c)

def croftSummary (h : Hw) (c : Nat) : Nat := summaryBits ((croftPages c).map (pagePending h))

/-- The block pages of quarter q by summary bit (R42). -/
def blockPages (q : Nat) : List (Nat × List Page) :=
  [(0, [⟨.quarter, q⟩]), (1, [⟨.commons, q⟩]), (2, [⟨.pound, q⟩]), (3, [⟨.reeve0, q⟩, ⟨.reeve1, q⟩, ⟨.reeve2, q⟩, ⟨.reeve3, q⟩]),
   (4, [⟨.dyke, q⟩])] ++ (List.range 8).map (fun i => (5 + i, [⟨.port0, 8 * q + i⟩, ⟨.port1, 8 * q + i⟩])) ++
  (List.range 3).map (fun s => (13 + s, [⟨.hbm0, 3 * q + s⟩, ⟨.hbm1, 3 * q + s⟩, ⟨.hbm2, 3 * q + s⟩, ⟨.hbm3, 3 * q + s⟩])) ++
  [(16, [⟨.bellRcv, q⟩])]

def blockSummary (h : Hw) (q : Nat) : Nat :=
  (blockPages q).foldl (fun n x => n + b2n (anyPage h x.2) * 2 ^ x.1) 0

def croftsSummary (h : Hw) (q : Nat) : Nat := summaryBits ((List.range 16).map (fun k => decide (croftSummary h (16 * q + k) ≠ 0)))

/-- `GATE_EVT.SUMMARY` (R42). -/
def gateSummary (h : Hw) : Nat :=
  summaryBits ((List.range 4).map (fun q => decide (croftsSummary h q ≠ 0) || decide (blockSummary h q ≠ 0)) ++
    ([.gateId, .gateEvt, .bellMaster, .watch, .power, .reset, .paths, .mailbox, .hostRings, .mill, .book] : List PageKind).map
      (fun k => pagePending h ⟨k, 0⟩))

/-- A word of a snapshot, or of the current record where none is held (R50). -/
def snapWord (snap : Option (Nat × List Nat)) (sel : Nat) (now : List Nat) (k : Nat) : Nat :=
  match snap with
  | some (s, ws) => if s = sel then ws.getD k 0 else now.getD k 0
  | none => now.getD k 0

/-- The entry of a stack's poison list that `POISON_SEL` selects (R378). -/
def poisonAt (h : Hw) (k : Nat) : Option Nat := (((stackPoison h k).drop (getF h hbm1_POISON_SEL k)).head?).map (·.2)

/-- The two words of that entry, at 0x04C and 0x050. -/
def poisonWords (h : Hw) (k : Nat) : List Nat :=
  [(poisonAt h k).getD 0 % 2 ^ 32, match poisonAt h k with | none => 0 | some a => a / 2 ^ 32 + 2 ^ 31]

/-- The words of a sequence slot, at 0x064 to 0x074 (R149, R156). -/
def seqSlotWords (x : Slot) : List Nat := [x.pos, x.mb, x.base, x.len, x.cur]

/-- A word of an entry that a selector shows: of the snapshot where one is held, else as it stands (R50). -/
def winWord (x : WinX) (now : List Nat) (k : Nat) : Nat := if x.snapIx.isSome then x.snap.getD k 0 else now.getD k 0

/-- A croft fault of croft c lies within `QUAR_WINDOW` steps (R406, R426). -/
def faultArmed (h : Hw) (c : Nat) : Bool :=
  match h.gate.faultStep.find? (fun x => x.1 == c) with
  | none => false
  | some x => decide ((stepAttempt h).1 ≤ x.2 + getF h watch_QUAR_WINDOW 0)

/-- What a page shows in the place of the stored word, where it shows a condition of the device. -/
def liveWord (h : Hw) (p : Page) (off : Nat) : Option Nat :=
  match p.kind with
  | .gateEvt => if off = 0x40 then some (gateSummary h) else none
  | .quarter =>
    if off = 0x40 then some (croftsSummary h p.inst) else if off = 0x44 then some (blockSummary h p.inst) else none
  | .croft =>
    if off = 0x40 then some (croftSummary h p.inst)
    else if off = 0x4C then some (sigVal h p.inst (getF h croft_SIG_SEL p.inst))
    else if 0x64 ≤ off ∧ off ≤ 0x74 ∧ off % 4 = 0 then
      some (winWord (winX h (slotWin p.inst)) (seqSlotWords (slotOf h p.inst (getF h croft_SLOT_SEL p.inst))) ((off - 0x64) / 4))
    else none
  | .mailbox => if off = 0x48 ∧ h.stew.window = true then some ((h.stew.deadline - h.clk + clkSecond - 1) / clkSecond) else none
  | .barn => if off = 0x48 then some (csumGet h (csumSelKey h p.inst)).toNat else none
  | .hbm1 =>
    if off = 0x44 then some (csumGet h (csumKeyHbm (p.inst / 3) (getF h hbm1_CSUM_SEL p.inst))).toNat
    else if off = 0x4C ∨ off = 0x50 then some (winWord (winX h (poisonWin p.inst)) (poisonWords h p.inst) ((off - 0x4C) / 4))
    else none
  | .reeve3 =>
    let x := quarterX h p.inst
    if 0x44 ≤ off ∧ off < 0x74 then
      let n := getF h reeve3_SHEET_SEL p.inst
      some (snapWord x.sheetSnap n (recordWords (recOf x.lastFinal n)) ((off - 0x44) / 4))
    else if 0x84 ≤ off ∧ off < 0xC8 then
      let n := getF h reeve3_PEAK_SEL p.inst
      some (snapWord x.peakSnap n (peakWords x.lastFinal n) ((off - 0x84) / 4))
    else none
  | .tally =>
    if 0x44 ≤ off ∧ off < 0x70 then
      let n := getF h tally_SLOT_SEL p.inst
      some (snapWord (croftX h p.inst).slotSnap n (slotWords (tslotOf h p.inst n)) ((off - 0x44) / 4))
    else none
  | .book =>
    if 0x80 ≤ off ∧ off < 0xC0 then some (snapWord h.gate.bookSnap (bookCursor h) (bookWords h (bookCursor h)) ((off - 0x80) / 4))
    else none
  | _ => none

/-- Bits of `STATUS` that show a condition of the device. -/
def liveStatus (h : Hw) (p : Page) : Nat :=
  (match p.kind with
    | .croft => b2n (croftRunning h p.inst) + 4 * b2n (croftIdle h p.inst)
    | .check => 8 * b2n (faultArmed h p.inst)
    | _ => 0) + 2 ^ 31 * b2n (pagePending h p)

/-- The stored bits of `STATUS` that a live bit does not replace. -/
def storedStatus (h : Hw) (p : Page) : Nat :=
  let s := (reg h (pageBase p.kind p.inst + 0xC)).toNat
  match p.kind with
  | .croft => clearBits s 5
  | .check => clearBits s 8
  | _ => s

/-- A read of a register of a page. -/
def readPage (h : Hw) (p : Page) (off : Nat) : Nat :=
  if pageGone h p then 0
  else if off = 0xC then storedStatus h p ||| liveStatus h p
  else (liveWord h p off).getD (reg h (pageBase p.kind p.inst + off)).toNat

/-- A read of a word of an entry window, apart from the lowest (R50). -/
def readWindow (h : Hw) (w : Window) (ix word : Nat) : Nat :=
  if winGone h w then 0
  else
    let x := winX h (winKey w)
    if x.snapIx = some ix then x.snap.getD word 0 else (winWordsOf h w ix).getD word 0

/-- An aligned 32-bit read of BAR0 at offset a; during an FLR every read returns all ones (R396). -/
def readReg (h : Hw) (a : Nat) : Word :=
  if h.gate.flr then 0xFFFFFFFF
  else BitVec.ofNat 32
    (match windowAt a with
      | some x => readWindow h x.1 x.2.1 x.2.2
      | none =>
        if 0x202000 ≤ a ∧ a < 0x203008 then (smGet msixDflt h.msix a).toNat
        else match pageAt a with
          | some p => readPage h p (a % 0x1000)
          | none => 0)

/-- An aligned 64-bit read: the lower address in its lower half (R30). -/
def readReg64 (h : Hw) (a : Nat) : BitVec 64 := readReg h (a + 4) ++ readReg h a

/-- The n bytes from an address, each from the register that holds it (R31). -/
def readData (h : Hw) (a n : Nat) : Nat :=
  ofLe ((List.range n).map (fun k => BitVec.ofNat 8 ((readReg h ((a + k) / 4 * 4)).toNat / 256 ^ ((a + k) % 4))))

-- software reads

/-- A read of a word of an entry (R50): the lowest takes the snapshot; any ends what is held of another entry. -/
def touchEntry (w : Window) (ix word : Nat) : Eff := fun h =>
  if winGone h w || decide (winCount w ≤ ix) then []
  else if word = 0 then modWin (winKey w) (fun x => { winTouch ix x with snapIx := some ix, snap := winWordsOf h w ix }) h
  else modWin (winKey w) (winTouch ix) h

/-- A read of the lowest word of what a selector shows takes its snapshot (R50). -/
def touchSelected (key : Nat) (now : List Nat) : Eff := modWin key (fun x => { x with snapIx := some 0, snap := now })

/-- What a read of a register changes: the snapshots of R50, R119, R256, R257 and R500. -/
def touchPage (p : Page) (off : Nat) : Eff := fun h =>
  if pageGone h p then []
  else match p.kind with
    | .field => if off = 0x74 then accTouch p.inst h else []
    | .tally => if off = 0x44 then slotKeyTouch p.inst h else []
    | .reeve3 => if off = 0x44 then sheetTouch p.inst false h else if off = 0x84 then sheetTouch p.inst true h else []
    | .book => if off = 0x80 then bookTouch h else []
    | .croft => if off = 0x64 then touchSelected (slotWin p.inst) (seqSlotWords (slotOf h p.inst (getF h croft_SLOT_SEL p.inst))) h else []
    | .hbm1 => if off = 0x4C then touchSelected (poisonWin p.inst) (poisonWords h p.inst) h else []
    | _ => []

/-- An aligned 32-bit read by software: what it changes, then the data it returns. -/
def read32 (a n : Nat) : Eff :=
  andThen (match windowAt (a / 4 * 4) with
    | some x => touchEntry x.1 x.2.1 x.2.2
    | none => match pageAt a with
      | some p => touchPage p (a % 0x1000 / 4 * 4)
      | none => skip) (fun h => emit (.regData (BitVec.ofNat 32 (readData h a n))) h)

/-- ENTRY_SNAPSHOT_READ (R30, R31, R50, R396): a read of BAR0 by software. At the lowest word of an entry it takes the snapshot that the row
names; a 64-bit read is the lower register's, then the higher's; a narrow one returns the addressed bytes; one that is not naturally
aligned returns data, changes no register and raises `BAD_ACCESS`; and during an FLR every read returns all ones. -/
def effEntrySnapshotRead (addr : BitVec 26) (size : Nat) : Eff := readBySoftware fun h =>
  let a := addr.toNat
  if (size = 1 ∨ size = 2 ∨ size = 4) ∧ a % size = 0 then read32 a size h
  else if size = 8 ∧ a % 8 = 0 then andThen (read32 a 4) (read32 (a + 4) 4) h
  else andThen (emit (.regData (BitVec.ofNat 32 (readData h a (min size 4))))) badAccess h

/-- ENTRY_SNAPSHOT_READ. -/
def execEntrySnapshotRead (addr : BitVec 26) (size : Nat) (s : State) : Host.Outcome State Fault Refusal :=
  run (effEntrySnapshotRead addr size) s

end Sys2Proof.Machine
end

