-- ==== Sys2Proof/Machine/Dispatch.lean ====
section
/-! DEFINITION. One arm per command: which meaning it has. -/

namespace Sys2Proof.Machine

def exec (i : Instr) (s : State) : Host.Outcome State Fault Refusal :=
  match i with
  | .registerWrite addr size v same => Sys2Proof.Machine.execRegisterWrite addr size v s same
  | .eventRawClear pg mask hwset => Sys2Proof.Machine.execEventRawClear pg mask hwset s
  | .eventForce pg mask hwset => Sys2Proof.Machine.execEventForce pg mask hwset s
  | .eventMessage => Sys2Proof.Machine.execEventMessage s
  | .lock pg v => Sys2Proof.Machine.execLock pg v s
  | .lockAll v => Sys2Proof.Machine.execLockAll v s
  | .entrySnapshotRead addr size => Sys2Proof.Machine.execEntrySnapshotRead addr size s
  | .entryWordWrite w ix word v => Sys2Proof.Machine.execEntryWordWrite w ix word v s
  | .rwsCommit => Sys2Proof.Machine.execRwsCommit s
  | .quarterPathFlit q into come crcOk => Sys2Proof.Machine.execQuarterPathFlit q into come s crcOk
  | .croftRunWrite c v => Sys2Proof.Machine.execCroftRunWrite c v s
  | .streamsStopped c => Sys2Proof.Machine.execStreamsStopped c s
  | .icacheFill c st parity errs => Sys2Proof.Machine.execIcacheFill c st parity s errs
  | .jump c st w t => Sys2Proof.Machine.execJump c st w t s
  | .loop c st w t => Sys2Proof.Machine.execLoop c st w t s
  | .halt c st w t => Sys2Proof.Machine.execHalt c st w t s
  | .waitBell c st w t => Sys2Proof.Machine.execWaitBell c st w t s
  | .nop c st w t => Sys2Proof.Machine.execNop c st w t s
  | .signal c st w t => Sys2Proof.Machine.execSignal c st w t s
  | .signalSet c st w t => Sys2Proof.Machine.execSignalSet c st w t s
  | .wait c st w t => Sys2Proof.Machine.execWait c st w t s
  | .waitSatisfied c st t => Sys2Proof.Machine.execWaitSatisfied c st t s
  | .claim c st w t => Sys2Proof.Machine.execClaim c st w t s
  | .claimGrant c st t => Sys2Proof.Machine.execClaimGrant c st t s
  | .release c st w t => Sys2Proof.Machine.execRelease c st w t s
  | .gang c st w t => Sys2Proof.Machine.execGang c st w t s
  | .mask c st w t => Sys2Proof.Machine.execMask c st w t s
  | .wideRun c st w t => Sys2Proof.Machine.execWideRun c st w t s
  | .wideDrain c st w t => Sys2Proof.Machine.execWideDrain c st w t s
  | .run c st w t => Sys2Proof.Machine.execRun c st w t s
  | .load c st w t => Sys2Proof.Machine.execLoad c st w t s
  | .drain c st w t errs => Sys2Proof.Machine.execDrain c st w t s errs
  | .standaloneLoad c f t errs => Sys2Proof.Machine.execStandaloneLoad c f t s errs
  | .passReady c t => Sys2Proof.Machine.execPassReady c t s
  | .dykeGrant q t => Sys2Proof.Machine.execDykeGrant q t s
  | .laneLineRead c img line errs => Sys2Proof.Machine.execLaneLineRead c img line s errs
  | .kstep c errs t reads => Sys2Proof.Machine.execKstep c errs t s reads
  | .passEnd c t => Sys2Proof.Machine.execPassEnd c t s
  | .dykeRelease c t => Sys2Proof.Machine.execDykeRelease c t s
  | .drainRow c f errs t reads => Sys2Proof.Machine.execDrainRow c f errs t s reads
  | .drainRowWrite c f t reads => Sys2Proof.Machine.execDrainRowWrite c f t s reads
  | .injResidue c f => Sys2Proof.Machine.execInjResidue c f s
  | .injRunParity c f => Sys2Proof.Machine.execInjRunParity c f s
  | .injAccParity c f => Sys2Proof.Machine.execInjAccParity c f s
  | .accDataRead c f => Sys2Proof.Machine.execAccDataRead c f s
  | .move c st w t => Sys2Proof.Machine.execMove c st w t s
  | .stash c st w t => Sys2Proof.Machine.execStash c st w t s
  | .unstash c st w t => Sys2Proof.Machine.execUnstash c st w t s
  | .check c st w t => Sys2Proof.Machine.execCheck c st w t s
  | .descCopy c errs t => Sys2Proof.Machine.execDescCopy c errs t s
  | .descFill c errs t => Sys2Proof.Machine.execDescFill c errs t s
  | .descLane c errs t => Sys2Proof.Machine.execDescLane c errs t s
  | .descSeal c errs t => Sys2Proof.Machine.execDescSeal c errs t s
  | .descVerify c errs t => Sys2Proof.Machine.execDescVerify c errs t s
  | .descStash c errs t => Sys2Proof.Machine.execDescStash c errs t s
  | .descUnstash c errs t => Sys2Proof.Machine.execDescUnstash c errs t s
  | .descComplete c t wait => Sys2Proof.Machine.execDescComplete c t s wait
  | .csumDataWrite c v => Sys2Proof.Machine.execCsumDataWrite c v s
  | .vop c st w t => Sys2Proof.Machine.execVop c st w t s
  | .vopAdd c pathBad t reads => Sys2Proof.Machine.execVopAdd c pathBad t s reads
  | .vopSub c pathBad t reads => Sys2Proof.Machine.execVopSub c pathBad t s reads
  | .vopMul c pathBad t reads => Sys2Proof.Machine.execVopMul c pathBad t s reads
  | .vopMin c pathBad t reads => Sys2Proof.Machine.execVopMin c pathBad t s reads
  | .vopMax c pathBad t reads => Sys2Proof.Machine.execVopMax c pathBad t s reads
  | .vopAbs c pathBad t reads => Sys2Proof.Machine.execVopAbs c pathBad t s reads
  | .vopNeg c pathBad t reads => Sys2Proof.Machine.execVopNeg c pathBad t s reads
  | .vopCmpLt c pathBad t reads => Sys2Proof.Machine.execVopCmpLt c pathBad t s reads
  | .vopCmpLe c pathBad t reads => Sys2Proof.Machine.execVopCmpLe c pathBad t s reads
  | .vopCmpEq c pathBad t reads => Sys2Proof.Machine.execVopCmpEq c pathBad t s reads
  | .vopSel c pathBad t reads => Sys2Proof.Machine.execVopSel c pathBad t s reads
  | .vopCopy c pathBad t reads => Sys2Proof.Machine.execVopCopy c pathBad t s reads
  | .vopFma c pathBad t reads => Sys2Proof.Machine.execVopFma c pathBad t s reads
  | .vopCvt c pathBad t reads => Sys2Proof.Machine.execVopCvt c pathBad t s reads
  | .vopCvtJit c pathBad t reads => Sys2Proof.Machine.execVopCvtJit c pathBad t s reads
  | .vopCvtHdr c pathBad t reads => Sys2Proof.Machine.execVopCvtHdr c pathBad t s reads
  | .vopRedSum c pathBad t reads => Sys2Proof.Machine.execVopRedSum c pathBad t s reads
  | .vopRedMax c pathBad t reads => Sys2Proof.Machine.execVopRedMax c pathBad t s reads
  | .vopExp2 c pathBad t reads => Sys2Proof.Machine.execVopExp2 c pathBad t s reads
  | .vopLog2 c pathBad t reads => Sys2Proof.Machine.execVopLog2 c pathBad t s reads
  | .vopRecip c pathBad t reads => Sys2Proof.Machine.execVopRecip c pathBad t s reads
  | .vopRsqrt c pathBad t reads => Sys2Proof.Machine.execVopRsqrt c pathBad t s reads
  | .vopSinpi c pathBad t reads => Sys2Proof.Machine.execVopSinpi c pathBad t s reads
  | .vopCospi c pathBad t reads => Sys2Proof.Machine.execVopCospi c pathBad t s reads
  | .vopTanh c pathBad t reads => Sys2Proof.Machine.execVopTanh c pathBad t s reads
  | .vopSigmoid c pathBad t reads => Sys2Proof.Machine.execVopSigmoid c pathBad t s reads
  | .vopComplete c t => Sys2Proof.Machine.execVopComplete c t s
  | .tallyOpen c st w t busy => Sys2Proof.Machine.execTallyOpen c st w t s busy
  | .tallyClose c st w t busy => Sys2Proof.Machine.execTallyClose c st w t s busy
  | .tallyDeliveryLand q t => Sys2Proof.Machine.execTallyDeliveryLand q t s
  | .slotKeyRead c => Sys2Proof.Machine.execSlotKeyRead c s
  | .send c st w t => Sys2Proof.Machine.execSend c st w t s
  | .recv c st w t => Sys2Proof.Machine.execRecv c st w t s
  | .reduce c st w t => Sys2Proof.Machine.execReduce c st w t s
  | .seqSelect c st w t => Sys2Proof.Machine.execSeqSelect c st w t s
  | .seqAdvance c st w t => Sys2Proof.Machine.execSeqAdvance c st w t s
  | .poundChunkGrant q t reads => Sys2Proof.Machine.execPoundChunkGrant q t s reads
  | .abandonReach c t => Sys2Proof.Machine.execAbandonReach c t s
  | .lateAbandon c st t => Sys2Proof.Machine.execLateAbandon c st t s
  | .bellStart t => Sys2Proof.Machine.execBellStart t s
  | .holdNow => Sys2Proof.Machine.execHoldNow s
  | .resume t => Sys2Proof.Machine.execResume t s
  | .tokenSend t => Sys2Proof.Machine.execTokenSend t s
  | .bellToken p tok t => Sys2Proof.Machine.execBellToken p tok t s
  | .tokenForward p t => Sys2Proof.Machine.execTokenForward p t s
  | .bellEdge t => Sys2Proof.Machine.execBellEdge t s
  | .ackSend t => Sys2Proof.Machine.execAckSend t s
  | .bellAck p a t => Sys2Proof.Machine.execBellAck p a t s
  | .ackMissing t => Sys2Proof.Machine.execAckMissing t s
  | .bellLost t => Sys2Proof.Machine.execBellLost t s
  | .sheetSend q t => Sys2Proof.Machine.execSheetSend q t s
  | .partialSheet src m sh t => Sys2Proof.Machine.execPartialSheet src m sh t s
  | .finalSheet src m sh t => Sys2Proof.Machine.execFinalSheet src m sh s t
  | .decisionPassDone q t => Sys2Proof.Machine.execDecisionPassDone q t s
  | .reeveEnableWrite q v => Sys2Proof.Machine.execReeveEnableWrite q v s
  | .sheetDataRead q peak => Sys2Proof.Machine.execSheetDataRead q peak s
  | .millEnableWrite v => Sys2Proof.Machine.execMillEnableWrite v s
  | .chunk tag data t => Sys2Proof.Machine.execChunk tag data t s
  | .chunkConsume layer => Sys2Proof.Machine.execChunkConsume layer s
  | .phase1Done layer t => Sys2Proof.Machine.execPhase1Done layer t s
  | .phase2Layer t reads => Sys2Proof.Machine.execPhase2Layer t s reads
  | .phase2Done t reads => Sys2Proof.Machine.execPhase2Done t s reads
  | .secureLayerSend reads => Sys2Proof.Machine.execSecureLayerSend s reads
  | .secureBegin m t => Sys2Proof.Machine.execSecureBegin m s t
  | .secureData m t => Sys2Proof.Machine.execSecureData m s t
  | .secureLayerEnd m t => Sys2Proof.Machine.execSecureLayerEnd m s t
  | .secureAck m t => Sys2Proof.Machine.execSecureAck m t s
  | .secureComplete m t => Sys2Proof.Machine.execSecureComplete m s t
  | .secureAckTimeout => Sys2Proof.Machine.execSecureAckTimeout s
  | .secNow => Sys2Proof.Machine.execSecNow s
  | .fillGo => Sys2Proof.Machine.execFillGo s
  | .fillRequest m t => Sys2Proof.Machine.execFillRequest m s t
  | .fillData m t reads => Sys2Proof.Machine.execFillData m s t reads
  | .fillEnd m t => Sys2Proof.Machine.execFillEnd m s t
  | .fillRefuse m t => Sys2Proof.Machine.execFillRefuse m s t
  | .fillTimeout => Sys2Proof.Machine.execFillTimeout s
  | .noSpare => Sys2Proof.Machine.execNoSpare s
  | .replayAppend => Sys2Proof.Machine.execReplayAppend s
  | .catchupDelivery t reads sh => Sys2Proof.Machine.execCatchupDelivery t s reads sh
  | .portEnableWrite p v => Sys2Proof.Machine.execPortEnableWrite p v s
  | .portRetrain p => Sys2Proof.Machine.execPortRetrain p s
  | .eqDone p lanesOk => Sys2Proof.Machine.execEqDone p lanesOk s
  | .alignDone p partner => Sys2Proof.Machine.execAlignDone p partner s
  | .ident p id => Sys2Proof.Machine.execIdent p id s
  | .measureRequest p t2 t3 => Sys2Proof.Machine.execMeasureRequest p t2 t3 s
  | .measureResponse p t1 t4 diff => Sys2Proof.Machine.execMeasureResponse p t1 t4 diff s
  | .linkDown p => Sys2Proof.Machine.execLinkDown p s
  | .trainTimeout p => Sys2Proof.Machine.execTrainTimeout p s
  | .flitSlot p t => Sys2Proof.Machine.execFlitSlot p t s
  | .flitReceive p fl crcOk fecOk corrected uncorr => Sys2Proof.Machine.execFlitReceive p fl crcOk fecOk corrected s uncorr
  | .ack p ackseq => Sys2Proof.Machine.execAck p ackseq s
  | .nak p expected => Sys2Proof.Machine.execNak p expected s
  | .credit p c0 c1 c2 c3 => Sys2Proof.Machine.execCredit p c0 c1 c2 c3 s
  | .replayTimeout p => Sys2Proof.Machine.execReplayTimeout p s
  | .creditStall p vc => Sys2Proof.Machine.execCreditStall p vc s
  | .fecGroupEnd p => Sys2Proof.Machine.execFecGroupEnd p s
  | .put src m t reads => Sys2Proof.Machine.execPut src m t s reads
  | .getRequest src m t reads => Sys2Proof.Machine.execGetRequest src m t s reads
  | .getResponse src m t reads => Sys2Proof.Machine.execGetResponse src m t s reads
  | .getTimeout q t => Sys2Proof.Machine.execGetTimeout q t s
  | .reducePut src m t reads => Sys2Proof.Machine.execReducePut src m t s reads
  | .reduceRelease q t reads => Sys2Proof.Machine.execReduceRelease q t s reads
  | .ctrlDeviceFailed p => Sys2Proof.Machine.execCtrlDeviceFailed p s
  | .echoRequest src m t => Sys2Proof.Machine.execEchoRequest src m t s
  | .echoReply src m t => Sys2Proof.Machine.execEchoReply src m t s
  | .eccWriteback mem => Sys2Proof.Machine.execEccWriteback mem s
  | .scrubRead mem line e t => Sys2Proof.Machine.execScrubRead mem line e t s
  | .hbmTempRead h degC => Sys2Proof.Machine.execHbmTempRead h degC s
  | .slowScrubPass ch ce ue => Sys2Proof.Machine.execSlowScrubPass ch ce ue s
  | .hbmCsumDataWrite h v errs => Sys2Proof.Machine.execHbmCsumDataWrite h v s errs
  | .hostMemRead x e t => Sys2Proof.Machine.execHostMemRead x e t s
  | .hostMemWrite x data poison errs => Sys2Proof.Machine.execHostMemWrite x data poison s errs
  | .sqDoorbell r v => Sys2Proof.Machine.execSqDoorbell r v s
  | .cqDoorbell r v => Sys2Proof.Machine.execCqDoorbell r v s
  | .ringEnable r => Sys2Proof.Machine.execRingEnable r s
  | .ringDisable r => Sys2Proof.Machine.execRingDisable r s
  | .abort r => Sys2Proof.Machine.execAbort r s
  | .hostNop r => Sys2Proof.Machine.execHostNop r s
  | .copyIn r lines errs hostErr => Sys2Proof.Machine.execCopyIn r lines errs hostErr s
  | .copyOut r lines errs hostErr => Sys2Proof.Machine.execCopyOut r lines errs hostErr s
  | .seal r lines errs hostErr => Sys2Proof.Machine.execSeal r lines errs hostErr s
  | .slowWrite r lines errs hostErr => Sys2Proof.Machine.execSlowWrite r lines errs hostErr s
  | .slowRead r lines errs hostErr => Sys2Proof.Machine.execSlowRead r lines errs hostErr s
  | .croftStart r => Sys2Proof.Machine.execCroftStart r s
  | .croftStop r => Sys2Proof.Machine.execCroftStop r s
  | .bellWait r => Sys2Proof.Machine.execBellWait r s
  | .commandComplete r writeOk => Sys2Proof.Machine.execCommandComplete r writeOk s
  | .irqDelayExpire r => Sys2Proof.Machine.execIrqDelayExpire r s
  | .hostLinkLoss => Sys2Proof.Machine.execHostLinkLoss s
  | .hostLinkUp width rate32 flit68 cfg => Sys2Proof.Machine.execHostLinkUp width rate32 flit68 s cfg
  | .flr => Sys2Proof.Machine.execFlr s
  | .flrDone cfg => Sys2Proof.Machine.execFlrDone s cfg
  | .checkDiagnosis c t => Sys2Proof.Machine.execCheckDiagnosis c t s
  | .watchSlot t => Sys2Proof.Machine.execWatchSlot t s
  | .watchCompare xs xt t errs => Sys2Proof.Machine.execWatchCompare xs xt t s errs
  | .injTwin => Sys2Proof.Machine.execInjTwin s
  | .quarantine c => Sys2Proof.Machine.execQuarantine c s
  | .quarantineClr c => Sys2Proof.Machine.execQuarantineClr c s
  | .powerOn sealsLost cfgOk => Sys2Proof.Machine.execPowerOn sealsLost cfgOk s
  | .inputLoss => Sys2Proof.Machine.execInputLoss s
  | .brownout mv => Sys2Proof.Machine.execBrownout mv s
  | .brownoutEnd minMv => Sys2Proof.Machine.execBrownoutEnd minMv s
  | .undervolt mv => Sys2Proof.Machine.execUndervolt mv s
  | .overvolt mv => Sys2Proof.Machine.execOvervolt mv s
  | .overvoltReset mv => Sys2Proof.Machine.execOvervoltReset mv s
  | .powerHigh watts => Sys2Proof.Machine.execPowerHigh watts s
  | .railSample rail mv ma tripped => Sys2Proof.Machine.execRailSample rail mv ma tripped s
  | .tempSample sensor degC => Sys2Proof.Machine.execTempSample sensor degC s
  | .pllUnlock which => Sys2Proof.Machine.execPllUnlock which s
  | .qpowerSample q watts => Sys2Proof.Machine.execQpowerSample q watts s
  | .warm key => Sys2Proof.Machine.execWarm key s
  | .warmDone cfg => Sys2Proof.Machine.execWarmDone s cfg
  | .quarterReset q => Sys2Proof.Machine.execQuarterReset q s
  | .quarterDone q => Sys2Proof.Machine.execQuarterDone q s
  | .croftReset c => Sys2Proof.Machine.execCroftReset c s
  | .croftDone c => Sys2Proof.Machine.execCroftDone c s
  | .portReset p => Sys2Proof.Machine.execPortReset p s
  | .park q v => Sys2Proof.Machine.execPark q v s
  | .parked q => Sys2Proof.Machine.execParked q s
  | .unparked q => Sys2Proof.Machine.execUnparked q s
  | .fallow v => Sys2Proof.Machine.execFallow v s
  | .fallowEntered => Sys2Proof.Machine.execFallowEntered s
  | .fallowLeft => Sys2Proof.Machine.execFallowLeft s
  | .moduleResetDone cfg => Sys2Proof.Machine.execModuleResetDone s cfg
  | .perstFall => Sys2Proof.Machine.execPerstFall s
  | .perstRise => Sys2Proof.Machine.execPerstRise s
  | .millLinkDegraded l up full => Sys2Proof.Machine.execMillLinkDegraded l up full s
  | .heartbeat => Sys2Proof.Machine.execHeartbeat s
  | .stewardLost => Sys2Proof.Machine.execStewardLost s
  | .getInfo tr req => Sys2Proof.Machine.execGetInfo tr req s
  | .getNonce tr req => Sys2Proof.Machine.execGetNonce tr req s
  | .openPersist tr req => Sys2Proof.Machine.execOpenPersist tr req s
  | .eraseConfig tr req => Sys2Proof.Machine.execEraseConfig tr req s
  | .eraseBook tr req => Sys2Proof.Machine.execEraseBook tr req s
  | .bookEraseDone => Sys2Proof.Machine.execBookEraseDone s
  | .setOwner tr req strap => Sys2Proof.Machine.execSetOwner tr req strap s
  | .ownerFwActivate tr req => Sys2Proof.Machine.execOwnerFwActivate tr req s
  | .closePersist tr req => Sys2Proof.Machine.execClosePersist tr req s
  | .persistWindowExpire => Sys2Proof.Machine.execPersistWindowExpire s
  | .nonceExpire => Sys2Proof.Machine.execNonceExpire s
  | .fwWrite tr req => Sys2Proof.Machine.execFwWrite tr req s
  | .fwStage tr req => Sys2Proof.Machine.execFwStage tr req s
  | .fwActivate tr req => Sys2Proof.Machine.execFwActivate tr req s
  | .powerCycle tr => Sys2Proof.Machine.execPowerCycle tr s
  | .moduleReset tr => Sys2Proof.Machine.execModuleReset tr s
  | .getVersion tr => Sys2Proof.Machine.execGetVersion tr s
  | .getCapabilities tr => Sys2Proof.Machine.execGetCapabilities tr s
  | .negotiateAlgorithms tr => Sys2Proof.Machine.execNegotiateAlgorithms tr s
  | .getDigests tr => Sys2Proof.Machine.execGetDigests tr s
  | .getCertificate tr slot off len => Sys2Proof.Machine.execGetCertificate tr slot off len s
  | .challenge tr slot nonce => Sys2Proof.Machine.execChallenge tr slot nonce s
  | .getMeasurements tr index sign nonce => Sys2Proof.Machine.execGetMeasurements tr index sign nonce s
  | .spdmUnsupported tr code => Sys2Proof.Machine.execSpdmUnsupported tr code s
  | .hoursCommit ticks => Sys2Proof.Machine.execHoursCommit ticks s
  | .recordWrite ticks => Sys2Proof.Machine.execRecordWrite ticks s
  | .cursorWrite slot => Sys2Proof.Machine.execCursorWrite slot s
  | .windowRead => Sys2Proof.Machine.execWindowRead s
  | .next => Sys2Proof.Machine.execNext s
  | .prev => Sys2Proof.Machine.execPrev s
  | .oldest => Sys2Proof.Machine.execOldest s
  | .newest => Sys2Proof.Machine.execNewest s
  | .signalDetected p => Sys2Proof.Machine.execSignalDetected p s
  | .hbmTrainFail h => Sys2Proof.Machine.execHbmTrainFail h s
  | .selfRefreshReturn h => Sys2Proof.Machine.execSelfRefreshReturn h s
  | .cxlReset => Sys2Proof.Machine.execCxlReset s

end Sys2Proof.Machine
end

