-- ==== Sys2Proof/Safety.lean ====
section
/-! DEFINITION. What a safe run is (no step faults and none is refused), and the terms in which statements about the commands are made: a
command answers a next state with the queue as it was, an instruction issues, and what a command leaves alone. -/

namespace Sys2Proof.Machine

/-- The outcome is a next state. -/
def isNext : Host.Outcome State Fault Refusal → Bool
  | .next _ => true
  | .fault _ => false
  | .refused _ => false

/-- n steps from a state, each of which answers a next state. -/
def safeFor : Nat → State → Bool
  | 0, _ => true
  | n + 1, s => match step s with
    | .next t => safeFor n t
    | _ => false

/-- The command answers a next state of which P holds of the device, and leaves the queue as it was. -/
def Answers (i : Instr) (s : State) (P : Hw → Prop) : Prop :=
  ∃ t, exec i s = .next t ∧ t.pending = s.pending ∧ P t.hw

/-- Every byte of every memory reads as before. -/
def SameMem (h g : Hw) : Prop := ∀ sp a, rd8 g sp a = rd8 h sp a

/-- Every byte of every memory but n bytes from an address of one reads as before. -/
def SameOutside (h g : Hw) (sp : MemSp) (a n : Nat) : Prop := ∀ sp' x, ¬ (sp' = sp ∧ a ≤ x ∧ x < a + n) → rd8 g sp' x = rd8 h sp' x

/-- Every register outside a set of addresses reads as before. -/
def SameRegs (p : Nat → Prop) (h g : Hw) : Prop := ∀ a, ¬ p a → reg g a = reg h a

/-- Registers that an event of any page may change beside the page's own `EVENT_RAW`: where a record that finds the queue full is
counted (R41, R499). -/
def eventSide (a : Nat) : Bool := a == 0x1010 || a == 0x104C || a == 0x101010 || (decide (0x101058 ≤ a) && decide (a < 0x10106C))

/-- The device at the clk at which a command that carries `t` acts: the module clk has come to `t`, and idle crofts have counted the clks
that passed (R136). -/
def now (s : State) (t : Nat) : Hw := runE (advance t) s.hw

/-- Nothing is due: no watch slot runs, no window is about to open, no move of the book's cursor is under way, and no quarter has a landed
delivery's signal or a late pass. -/
def Quiet (h : Hw) : Prop := h.gate.watchDue = [] ∧ h.gate.bookMove = none ∧ h.bell.closeClk = none ∧
  ∀ q, q < 4 → (quarterX h q).landed = [] ∧ ((quarterX h q).decided.isSome && decide (0 < (quarterX h q).late)) = false

/-- The clk at which a stream issues a word offered at clk `t`. -/
def issueAt (h : Hw) (i t : Nat) : Nat := max t (streamX h i).issueFree

/-- The device at the clk at which a stream issues the word: waits that an earlier clk satisfied have ended, the clk has come, and the waits
of the croft's earlier streams that are satisfied in it have ended (R133, R162). -/
def nowIssue (s : State) (c : Croft) (st : Strm) (t : Nat) : Hw :=
  let k := issueAt s.hw (sIx c st) t
  runE (chain [whenB (decide (s.hw.clk < k)) (settleWaits c.val [0, 1, 2]), advance k, settleWaits c.val (List.range (strmIx st))]) s.hw

/-- What must hold for an instruction word to act: its stream is `RUNNING`, and at the clk of issue the word lies in the program region,
carries the opcode and is no reserved encoding, and its guard holds (R146, R159, R161). -/
def Issues (s : State) (c : Croft) (st : Strm) (w : BitVec 128) (t op : Nat) (ok : BitVec 128 → Bool) : Prop :=
  let h := nowIssue s c st t
  strmState s.hw (sIx c st) = 2 ∧ getF h stream_PC (sIx c st) + 16 ≤ regionLen h c.val ∧ wb w 7 0 = op ∧ guardOk w = true ∧
    ok w = true ∧ guardHolds h c.val w = true

/-- An instruction has been taken: the program counter moved on by one word and one more instruction retired (R158). -/
def Retired (c : Croft) (st : Strm) (h g : Hw) : Prop :=
  getF g stream_PC (sIx c st) = (getF h stream_PC (sIx c st) + 16) % 2 ^ 20 ∧
    getF g stream_RETIRED (sIx c st) = (getF h stream_RETIRED (sIx c st) + 1) % 2 ^ 32

/-- The command acts as an effect on the device and leaves the queue as it was. -/
def Becomes (i : Instr) (s : State) (g : Hw) : Prop := exec i s = .next { s with hw := g }

/-- What stands once a read of spans of a memory by a unit of croft c has met its findings (R363, R368); with no findings, what stood. -/
def afterRead (h : Hw) (sp q c : Nat) (spans : List (Nat × Nat)) (errs : List MemErr) : Hw := runE (eccRead sp q c spans errs) h

/-- What stands once the read half of a write of n bytes has met its findings (R362, R368); with no findings, what stood. -/
def afterPart (h : Hw) (sp q c a n : Nat) (errs : List MemErr) : Hw := runE (eccWrite sp q c a n errs) h

/-- No finding lasts: each word that is read holds what was written to it (R363, R368). -/
def Recovers (errs : List MemErr) : Prop := ∀ e, e ∈ errs → e.case ≠ .uncorrectable

/-- A command that software sends through the host port as a write (R396), and the quarter whose register it writes, if any. -/
def softwareOp : Instr → Option (Option Nat)
  | .registerWrite _ _ _ _ | .eventRawClear _ _ _ | .eventForce _ _ _ | .lock _ _ | .lockAll _ | .entryWordWrite _ _ _ _ => some none
  | .bellStart _ | .holdNow | .resume _ | .secNow | .fillGo | .noSpare | .millEnableWrite _ | .warm _ => some none
  | .quarterReset _ | .croftReset _ | .portReset _ | .park _ _ | .fallow _ | .injTwin | .quarantine _ | .quarantineClr _ => some none
  | .ringEnable _ | .ringDisable _ | .abort _ | .sqDoorbell _ _ | .cqDoorbell _ _ | .cursorWrite _ => some none
  | .croftRunWrite c _ | .injResidue c _ | .injRunParity c _ | .injAccParity c _ | .csumDataWrite c _ => some (some (c.val / 16))
  | .portEnableWrite p _ | .portRetrain p => some (some (p.val / 8))
  | .reeveEnableWrite q _ => some (some q.val)
  | .hbmCsumDataWrite k _ _ => some (some (k.val / 3))
  | _ => none

/-- Software's writes reach the page: the host port carries them, the page answers, and no reeve that is on discards them (R33, R236, R396). -/
def PageOpen (h : Hw) (p : Page) : Prop := hostAway h = false ∧ pageGone h p = false ∧ reeveShut h p = false

/-- The BAR0 address of the lowest word of an entry (R49, R52, R287). -/
def winAddr (w : Window) (ix : Nat) : BitVec 26 :=
  match w with
  | .millGroup => BitVec.ofNat 26 (0x340000 + 64 * ix)
  | .millLayer => BitVec.ofNat 26 (0x380000 + 64 * ix)
  | .ledger q => BitVec.ofNat 26 (0x1200000 + 0x400000 * q.val + 16 * ix)
  | .route q => BitVec.ofNat 26 (0x1240000 + 0x400000 * q.val + 8 * ix)

/-- A path of a quarter, towards it or from it. -/
def pathOf (h : Hw) (q : Nat) (into : Bool) : PathX := if into then (quarterX h q).pathIn else (quarterX h q).pathOut

/-- Event e of a page occurred between h and g: it is raised, and where it was not raised before and the gate's queue had room, a record of
it is queued (R39). -/
def Raised (h g : Hw) (p : Page) (e : Nat) : Prop :=
  rawBit g p e = true ∧
    (rawBit h p e = false → h.gateQ.length < 256 → ∃ r, r ∈ g.gateQ ∧ r.source = pageId p ∧ r.code = e)

/-- An abandon of the step has been raised in quarter q: it is on its way to every croft, and the bell receiver shows it (R141, R267). -/
def Abandoned (g : Hw) (q : Nat) : Prop := g.bell.reach = List.range 64 ∧ rawBit g ⟨.bellRcv, q⟩ 0 = true

/-- Everything but the registers is as it was. -/
def OnlyRegs (h g : Hw) : Prop := g = { h with regs := g.regs }

/-- Everything but the registers, and what an event brings with it, is as it was. -/
def OnlyEvents (h g : Hw) : Prop := g = { h with regs := g.regs, gateQ := g.gateQ, gate := { h.gate with evMsgs := g.gate.evMsgs } }

/-- A flit has left on a port, on top of what had left before it, and after it the codeword that it completed, if any (R322). -/
def SentFlit (os : List Out) (g : Hw) (i : Nat) (f : Flit) : Prop :=
  g.outbox = .flit i f :: os ∨ ∃ ls, g.outbox = .codeword i ls :: .flit i f :: os

/-- A link control flit has left on a port (R333). -/
def SentControl (h g : Hw) (i code a b c : Nat) : Prop :=
  ∃ f : Flit, f.kind = 2 ∧ f.payload.headD 0 = BitVec.ofNat 8 code ∧ SentFlit (.control i code a b c :: h.outbox) g i f

/-- A port is as it was, but for the credits that it still owes and its FEC encoder, which every flit that leaves changes (R322, R336). -/
def SamePort (x y : PortX) : Prop :=
  y = { x with toReturn := y.toReturn, fecBits := y.fecBits, fecLen := y.fecLen, fecSlot := y.fecSlot, fecGroup := y.fecGroup }

/-- A stream instruction: its croft, stream, word, clk of issue, opcode, and which words are no reserved encoding (R162). -/
def streamOp : Instr → Option (Croft × Strm × BitVec 128 × Nat × Nat × (BitVec 128 → Bool))
  | .jump c st w t => some (c, st, w, t, 0x01, okJump)
  | .loop c st w t => some (c, st, w, t, 0x02, okLoop)
  | .halt c st w t => some (c, st, w, t, 0x03, okNone)
  | .waitBell c st w t => some (c, st, w, t, 0x04, okWaitBell)
  | .nop c st w t => some (c, st, w, t, 0x05, okNop)
  | .signal c st w t => some (c, st, w, t, 0x10, okSignal)
  | .signalSet c st w t => some (c, st, w, t, 0x11, okSignal)
  | .wait c st w t => some (c, st, w, t, 0x12, okSignal)
  | .claim c st w t => some (c, st, w, t, 0x13, okFields)
  | .release c st w t => some (c, st, w, t, 0x14, okFields)
  | .run c st w t => some (c, st, w, t, 0x20, okRun)
  | .drain c st w t _ => some (c, st, w, t, 0x21, okDrain)
  | .load c st w t => some (c, st, w, t, 0x22, okLoad)
  | .mask c st w t => some (c, st, w, t, 0x23, okMask)
  | .gang c st w t => some (c, st, w, t, 0x24, okGang)
  | .wideRun c st w t => some (c, st, w, t, 0x25, okWideRun)
  | .wideDrain c st w t => some (c, st, w, t, 0x26, okWideDrain)
  | .move c st w t => some (c, st, w, t, 0x30, okMove)
  | .stash c st w t => some (c, st, w, t, 0x31, okMove)
  | .unstash c st w t => some (c, st, w, t, 0x32, okMove)
  | .check c st w t => some (c, st, w, t, 0x33, okMove)
  | .vop c st w t => some (c, st, w, t, 0x40, okVop)
  | .tallyOpen c st w t _ => some (c, st, w, t, 0x50, okTallyOpen)
  | .tallyClose c st w t _ => some (c, st, w, t, 0x51, okTallyClose)
  | .send c st w t => some (c, st, w, t, 0x60, okLink 0)
  | .recv c st w t => some (c, st, w, t, 0x61, okLink 1)
  | .reduce c st w t => some (c, st, w, t, 0x62, okLink 2)
  | .seqSelect c st w t => some (c, st, w, t, 0x70, okSeqSelect)
  | .seqAdvance c st w t => some (c, st, w, t, 0x71, okSeqAdvance)
  | _ => none

/-- A vector operation: its croft, whether its path check failed, its clk, the errors its reads find, and its function code (R180). -/
def vopOf : Instr → Option (Croft × Bool × Nat × List MemErr × Nat)
  | .vopAdd c b t es => some (c, b, t, es, 0x00)
  | .vopSub c b t es => some (c, b, t, es, 0x01)
  | .vopMul c b t es => some (c, b, t, es, 0x02)
  | .vopMin c b t es => some (c, b, t, es, 0x03)
  | .vopMax c b t es => some (c, b, t, es, 0x04)
  | .vopAbs c b t es => some (c, b, t, es, 0x05)
  | .vopNeg c b t es => some (c, b, t, es, 0x06)
  | .vopCmpLt c b t es => some (c, b, t, es, 0x07)
  | .vopCmpLe c b t es => some (c, b, t, es, 0x08)
  | .vopCmpEq c b t es => some (c, b, t, es, 0x09)
  | .vopSel c b t es => some (c, b, t, es, 0x0A)
  | .vopCopy c b t es => some (c, b, t, es, 0x0B)
  | .vopFma c b t es => some (c, b, t, es, 0x10)
  | .vopCvt c b t es => some (c, b, t, es, 0x18)
  | .vopCvtJit c b t es => some (c, b, t, es, 0x19)
  | .vopCvtHdr c b t es => some (c, b, t, es, 0x1A)
  | .vopRedSum c b t es => some (c, b, t, es, 0x20)
  | .vopRedMax c b t es => some (c, b, t, es, 0x21)
  | .vopExp2 c b t es => some (c, b, t, es, 0x30)
  | .vopLog2 c b t es => some (c, b, t, es, 0x31)
  | .vopRecip c b t es => some (c, b, t, es, 0x32)
  | .vopRsqrt c b t es => some (c, b, t, es, 0x33)
  | .vopSinpi c b t es => some (c, b, t, es, 0x34)
  | .vopCospi c b t es => some (c, b, t, es, 0x35)
  | .vopTanh c b t es => some (c, b, t, es, 0x36)
  | .vopSigmoid c b t es => some (c, b, t, es, 0x37)
  | _ => none

/-- A descriptor command: its croft, the errors its reads find, its clk, and the move type it performs (R199). -/
def descOf : Instr → Option (Croft × List MemErr × Nat × Nat)
  | .descCopy c es t => some (c, es, t, 0)
  | .descFill c es t => some (c, es, t, 1)
  | .descLane c es t => some (c, es, t, 2)
  | .descSeal c es t => some (c, es, t, 3)
  | .descVerify c es t => some (c, es, t, 4)
  | .descStash c es t => some (c, es, t, 5)
  | .descUnstash c es t => some (c, es, t, 6)
  | _ => none

/-- A completion signal has been added: with `SEN` 1 the signal is one higher, and no higher than 65,535 (R132, R164). -/
def SignalAdded (h g : Hw) (c sig : Nat) (sen : Bool) : Prop := sen = true → sigVal g c sig = min (sigVal h c sig + 1) 65535

/-- The bytes have been written at an address of a memory, and no other byte of any memory has changed. -/
def Wrote (h g : Hw) (sp : MemSp) (a : Nat) (bs : List Byte) : Prop :=
  (∀ k, k < bs.length → rd8 g sp (a + k) = bs.getD k 0) ∧ SameOutside h g sp a bs.length

/-- The quarter whose pound takes a message: the port's, or the one it names where it comes through the gate. -/
def takerOf (src : MsgSrc) (m : Msg) : Nat :=
  match src with
  | .port p => p.val / 8
  | .gate _ => m.dq.toNat

/-- A message for this device reaches it: its check and its reserved values hold, and the port that carries it is `UP`, has not reported its
device failed and belongs to a quarter that answers, or the quarter that sent it answers (R339, R341, R346). -/
def Reaches (h : Hw) (src : MsgSrc) (m : Msg) : Prop :=
  m.crcOk = true ∧ msgReserved m = false ∧
    match src with
    | .port p => portUp h p.val = true ∧ (portX h p.val).peerDead = false ∧ quarterGone h (p.val / 8) = false ∧
        m.ddev.toNat = deviceId h (p.val / 8)
    | .gate sq => quarterGone h sq.val = false

/-- It is delivered by the pound of the quarter it names, which answers (R18, R21, R341, R347). -/
def Arrives (h : Hw) (src : MsgSrc) (m : Msg) : Prop :=
  Reaches h src m ∧ addressGone h m = false ∧ m.dq.toNat = takerOf src m

/-- A message has been handed to a port or to another quarter, and nothing else has left. -/
def Sent (h g : Hw) (m : Msg) : Prop := ∃ port q, g.outbox = .message port q m :: h.outbox

/-- A pound has discarded a message of channel vc for event e: it is counted and the event raised, and on a channel of scheduled traffic the
step is abandoned (R266, R347). -/
def Discarded (h g : Hw) (q e vc : Nat) : Prop :=
  getF g pound_DISCARDS q = (getF h pound_DISCARDS q + 1) % 2 ^ 32 ∧ rawBit g ⟨.pound, q⟩ e = true ∧ (vc ≤ 1 → Abandoned g q)

/-- A direct record of the mill has been queued, where the gate's queue had room for it and for those that the command made before it
(R41, R497). -/
def Recorded (h g : Hw) (code : Nat) : Prop := h.gateQ.length + 32 ≤ 256 → ∃ r, r ∈ g.gateQ ∧ r.source = 0xB ∧ r.code = code

/-- A message from mill to mill as it leaves (R340, R431, R440). -/
def millMsg (h : Hw) (typ sub dev : Nat) (bs : List Byte) : Msg :=
  fillSource h (millQ h) (withPayload { typ := BitVec.ofNat 4 typ, sub := BitVec.ofNat 4 sub, ddev := BitVec.ofNat 17 dev, dunit := 3 } bs)

/-- The mill can send to a device: it has not left scheduled traffic, is in no catch-up, and there is a way (R29, R343, R442). -/
def MillSends (h : Hw) (m : Msg) : Prop := h.bell.left = false ∧ catchingUp h = false ∧ sendable h (millQ h) m = true

/-- A message is among what has left. -/
def Left (g : Hw) (m : Msg) : Prop := ∃ port q, .message port q m ∈ g.outbox

/-- A FILL or SECURE message of one subtype reaches this device, and its mill works (R28, R340). -/
def AtMill (h : Hw) (i : MsgIn) (typ sub : Nat) : Prop :=
  Reaches h i.src i.msg ∧ i.msg.typ.toNat = typ ∧ i.msg.sub.toNat = sub ∧ h.mill.lost = false

/-- Nothing but the receive buffer of a port has changed: the message has left it (R336). -/
def OnlyCredit (h g : Hw) : Prop := g = { h with ports := g.ports }

/-- How often a reset has left a storage region undefined. -/
def epochOf (h : Hw) (r : Nat) : Nat := smGet (fun _ => 0) h.epochs r

/-- A byte of a region that a reset between h and g left undefined: it reads as the free value of the new epoch (R465). -/
def Undefined (h g : Hw) (sp : MemSp) (r a : Nat) : Prop := rd8 g sp a = Config.freeByte r (epochOf h r + 1) a

/-- The host's memory, the slow tier and HBM read as before. -/
def KeptStores (h g : Hw) : Prop :=
  ∀ a, rd8 g .hostMem a = rd8 h .hostMem a ∧ rd8 g .slow a = rd8 h .slow a ∧ (a < 4 * hbmD → rd8 g .hbm a = rd8 h .hbm a)

/-- Fallow has been left, or is being left (R464). -/
def FallowLeft (h g : Hw) : Prop :=
  flag g reset_CTRL_FALLOW 0 = false ∧
    (flag h reset_CTRL_FALLOW 0 = true → g.gate.goingFallow = false ∧ g.gate.leavingFallow = flag h reset_STATUS_IN_FALLOW 0)

/-- What a croft holds beside its barn is as at reset, and its accumulators are undefined (R119, R465). -/
def CroftCleared (h g : Hw) (c : Nat) : Prop :=
  (∀ k, k < 3 → strmState g (3 * c + k) = 0 ∧ streamX g (3 * c + k) = {}) ∧ croftX g c = {} ∧
    (∀ i, i < 64 → sigVal g c i = 0 ∧ tslotOf g c i = {}) ∧ (∀ i, i < 32 → slotOf g c i = {}) ∧
    (∀ f k, f < 4 → k < 65536 →
      accOf g (4 * c + f) k = Config.freeAcc (epochOf h (100 + 4 * c + f) + 1) (65536 * (4 * c + f) + k))

/-- What a quarter holds is as at reset, its poison lists are empty, and its barns and commons are undefined (R463, R465). -/
def QuarterCleared (h g : Hw) (q : Nat) : Prop :=
  (∀ k, k < 16 → CroftCleared h g (16 * q + k)) ∧
    (∀ e, e < 16384 → ledgerOf g q e = ledgerReset ∧ shadowOf g q e = none) ∧ (∀ x, x < 32768 → routeOf g q x = 0) ∧
    quarterX g q = {} ∧ (∀ k, k < 8 → portX g (8 * q + k) = {}) ∧ (∀ a, isPoisoned g q a = false) ∧
    getF g quarter_DEVICE_ID q = bits (resetReg (fAddr quarter_DEVICE_ID q)).toNat quarter_DEVICE_ID.hi quarter_DEVICE_ID.lo ∧
    (∀ a, a / 0xC00000 / 16 = q → Undefined h g .barn (a / 0xC00000) a) ∧
    (∀ a, a / 0x4000000 = q → Undefined h g .commons (64 + q) a)

/-- A reset that spans the gate, the quarters, the mill and the host port (R463, R465). -/
def DeviceCleared (h g : Hw) : Prop :=
  g.bell = {} ∧ g.mill = {} ∧ (∀ q, q < 4 → QuarterCleared h g q) ∧ (∀ r, r < 8 → ringX g r = {}) ∧
    (∀ c, c < 64 → quarantined g c = false) ∧ g.gate.slot = none ∧ g.gate.votes = [] ∧ g.gate.owed = []

/-- A module reset (R463, R465, R485, R487, R494): the RWS values that had been forwarded are stored, the window closes, the nonce lapses,
operating hours are committed, and HBM and the slow tier lose their contents. -/
def ModuleResets (h g : Hw) (cause : Nat) : Prop :=
  DeviceCleared h g ∧ getF g reset_LAST_CAUSE 0 = cause ∧ getF g reset_RESET_COUNT 0 = (getF h reset_RESET_COUNT 0 + 1) % 2 ^ 32 ∧
    g.gate.moduleRuns = true ∧ g.gate.linkDown = true ∧ g.gate.off = h.gate.off ∧ g.stew.nonce = none ∧ g.stew.window = false ∧
    g.stew.forwarded = [] ∧ g.stew.owner = h.stew.owner ∧ g.stew.floors = h.stew.floors ∧ g.stew.ticks = h.stew.ticks ∧
    g.stew.committed = h.stew.ticks ∧
    (∀ q, q < 4 → getF g dyke_BUDGET q = bits (storedReg g (fAddr dyke_BUDGET q)).toNat 14 0) ∧
    (∀ a, rd8 g .hostMem a = rd8 h .hostMem a ∧ Undefined h g .slow 72 a ∧ (a < 4 * hbmD → Undefined h g .hbm (68 + a / hbmD) a))

/-- A warm device reset (R463, R465): the steward, the slow tier, HBM and the RWS values in force are kept. -/
def WarmResets (h g : Hw) (cause : Nat) : Prop :=
  DeviceCleared h g ∧ getF g reset_LAST_CAUSE 0 = cause ∧ getF g reset_RESET_COUNT 0 = getF h reset_RESET_COUNT 0 ∧
    g.gate.warmRuns = true ∧ g.gate.linkDown = true ∧ g.stew.owner = h.stew.owner ∧ g.stew.window = h.stew.window ∧
    g.stew.nonce = h.stew.nonce ∧ g.stored = h.stored ∧ (∀ q, q < 4 → getF g dyke_BUDGET q = getF h dyke_BUDGET q) ∧ KeptStores h g

/-- The steward has written a record of its own into the lowest empty slot of a book that is not full (R495, R497, R499). -/
def BookRecorded (h g : Hw) (code sev value : Nat) : Prop :=
  h.book.length < 16384 → g.stew.seq = h.stew.seq + 1 ∧
    bookSlot g (lowestEmpty h.book 0) = bookRecord h.stew.seq h.stew.ticks h.stew.cycles
      { bell := (match h.bell.lastEdge with | none => 0 | some _ => h.bell.edgeBell % 2 ^ 32), source := 8, code := code, sev := sev,
        flags := 2, payload := value }

/-- The steward has answered on a transport: status and bytes; on the host's, the mailbox page shows the status and is free again, and
`CMD_DONE`, or `CMD_ERROR` with it, is raised (R489). -/
def Responded (h g : Hw) (tr : Transport) (st : Nat) (body : List Byte) : Prop :=
  g.outbox = .steward tr st body :: h.outbox ∧ rawBit g ⟨.mailbox, 0⟩ 0 = true ∧ (st ≠ 0 → rawBit g ⟨.mailbox, 0⟩ 1 = true) ∧
    (tr = .host → getF g mailbox_RESULT_STATUS 0 = st ∧ flag g mailbox_CMD_GO 0 = false ∧ flag g mailbox_STATUS_BUSY 0 = false)

/-- An owner command that the steward carries out: its lengths agree, its serial and nonce are right, and the owner has signed it (R484,
R485). -/
def Authorised (h : Hw) (b : List Byte) (code : Nat) : Prop :=
  blobSized b = true ∧ blobCode b = code ∧ blobFresh h b = true ∧ h.stew.owner ≠ [] ∧ blobSigned h.stew.owner b = true

end Sys2Proof.Machine
end

