-- ==== Sys2Proof/WellFormed.lean ====
section
/-! DEFINITION. Which commands are well formed: operands that name something the device has, and a stream instruction whose word
carries the opcode of its row (R162). The meanings do not rely on it. -/

namespace Sys2Proof

/-- A page the device has (R51 to R53). -/
def Page.wf (p : Page) : Bool := decide (p.inst < Machine.pageCount p.kind)

/-- An entry the window has (R49, R287). -/
def Window.wf (w : Window) (ix : Nat) : Bool :=
  match w with
  | .ledger _ => decide (ix < 16384)
  | .route _ => decide (ix < 32768)
  | .millGroup => decide (ix < 4096)
  | .millLayer => decide (ix < 8192)

/-- Words of an entry of the window. -/
def Window.words : Window → Nat
  | .ledger _ => 4 | .route _ => 2 | .millGroup => 16 | .millLayer => 16

/-- The opcode byte that the word of a stream instruction carries (R162). -/
def Instr.streamWord : Instr → Option (Nat × BitVec 128)
  | .jump _ _ w _ => some (0x01, w)
  | .loop _ _ w _ => some (0x02, w)
  | .halt _ _ w _ => some (0x03, w)
  | .waitBell _ _ w _ => some (0x04, w)
  | .nop _ _ w _ => some (0x05, w)
  | .signal _ _ w _ => some (0x10, w)
  | .signalSet _ _ w _ => some (0x11, w)
  | .wait _ _ w _ => some (0x12, w)
  | .claim _ _ w _ => some (0x13, w)
  | .release _ _ w _ => some (0x14, w)
  | .run _ _ w _ => some (0x20, w)
  | .drain _ _ w _ _ => some (0x21, w)
  | .load _ _ w _ => some (0x22, w)
  | .mask _ _ w _ => some (0x23, w)
  | .gang _ _ w _ => some (0x24, w)
  | .wideRun _ _ w _ => some (0x25, w)
  | .wideDrain _ _ w _ => some (0x26, w)
  | .move _ _ w _ => some (0x30, w)
  | .stash _ _ w _ => some (0x31, w)
  | .unstash _ _ w _ => some (0x32, w)
  | .check _ _ w _ => some (0x33, w)
  | .vop _ _ w _ => some (0x40, w)
  | .tallyOpen _ _ w _ _ => some (0x50, w)
  | .tallyClose _ _ w _ _ => some (0x51, w)
  | .send _ _ w _ => some (0x60, w)
  | .recv _ _ w _ => some (0x61, w)
  | .reduce _ _ w _ => some (0x62, w)
  | .seqSelect _ _ w _ => some (0x70, w)
  | .seqAdvance _ _ w _ => some (0x71, w)
  | _ => none

/-- Operands that name a page, an entry, a layer, or carry a fixed amount of data. -/
def Instr.operandsOk : Instr → Bool
  | .registerWrite _ size _ _ => size == 1 || size == 2 || size == 4 || size == 8
  | .eventRawClear pg _ _ => pg.wf
  | .eventForce pg _ _ => pg.wf
  | .lock pg _ => pg.wf
  | .entrySnapshotRead _ size => size == 1 || size == 2 || size == 4 || size == 8
  | .entryWordWrite w ix word _ => w.wf ix && decide (word < w.words)
  | .chunk _ data _ => data.length == 128
  | .chunkConsume layer => decide (layer < 8192)
  | .phase1Done layer _ => decide (layer < 8192)
  | .hostMemWrite _ data _ _ => data.length == 64
  | .hostLinkUp width _ _ _ => width == 16 || width == 8 || width == 4 || width == 2 || width == 1
  | .challenge _ _ nonce => nonce.length == 32
  | _ => true

/-- A well-formed command. -/
def Instr.wf (i : Instr) : Bool :=
  i.operandsOk && (match i.streamWord with | none => true | some (op, w) => w.toNat % 256 == op)

end Sys2Proof
end

