-- ==== Sys2Proof/Certificates/Slice0/Obligations.lean ====
section
/-! DEFINITION. The statements for the provers, family by family. Each says under which conditions on the state and the operands the
commands it names answer a next state, and what that state holds. -/

section
open Sys2Proof Sys2Proof.Machine

/-! The machine as a whole -/

/-- A step of a state with a command at the front of its queue is that command on the queue's rest. Follows from the form of the
block; no rule of the spec. -/
def Obligations.StepRunsFrontCommand : Prop :=
  ∀ (c : Instr) (rest : List Instr) (h : Hw), step ⟨c :: rest, h⟩ = exec c ⟨rest, h⟩

/-- No command is refused; every command but the two that carry a host address answers a next state from every state, and those two
do wherever the address lies in the one HDM range of R369. The queue is never changed by a command. -/
def Obligations.EveryCommandAnswers : Prop :=
  (∀ (c : Instr) (s : State), (∀ x e t, c = .hostMemRead x e t → x < 4 * hbmD) → (∀ x d p es, c = .hostMemWrite x d p es → x < 4 * hbmD) →
    Answers c s (fun _ => True)) ∧
  (∀ (c : Instr) (s : State) (r : Refusal), exec c s ≠ .refused r)

/-- Every step, from every state in canonical form, leaves every memory and every table in canonical form, and every reserved bit,
`ID` and `VERSION` as they must read. -/
def Obligations.CanonicalFormKept : Prop :=
  ∀ s t : State, s.hw.wf = true → step s = .next t → t.hw.wf = true

/-- In every state of that form, outside an FLR, `ID` of every page whose quarter answers reads the page's block type and instance, `VERSION` reads
0x0001_0000, and the reserved bits of the header registers read 0 (R9, R36, R37). A page whose quarter is in reset, parked or failed reads 0
in every register, and a write to it changes nothing (R21, R28). During an FLR every register reads all ones (R396). -/
def Obligations.HeadersRead : Prop :=
  (∀ (h : Hw) (p : Page), h.wf = true → p.wf = true → h.gate.flr = false → pageGone h p = false →
    readReg h (pageBase p.kind p.inst) = BitVec.ofNat 32 (p.inst * 65536 + pageType p.kind) ∧
    readReg h (pageBase p.kind p.inst + 4) = 0x00010000 ∧
    (∀ j, 16 ≤ j → (readReg h (rawAddr p)).getLsbD j = false ∧ (readReg h (enableAddr p)).getLsbD j = false) ∧
    readReg h (pageBase p.kind p.inst + 0x18) = 0) ∧
  (∀ (h : Hw) (p : Page) (x : SameClk) (off : Nat) (v : Word), pageGone h p = true →
    readPage h p off = 0 ∧ runE (writePage p x off v) h = h) ∧
  (∀ (h : Hw) (a : Nat), h.gate.flr = true → readReg h a = 0xFFFFFFFF)

/-- What reset leaves (R36, R43, R282, R469): no event raised or enabled, no page locked, the default vectors, the bell's defaults, no
stream running, the reset counted, and every memory and table in canonical form. -/
def Obligations.ResetLeaves : Prop :=
   (let h := State.reset.hw
    (∀ p, p.wf = true → reg h (rawAddr p) = 0 ∧ reg h (enableAddr p) = 0 ∧ reg h (lockAddr p) = 0) ∧
    readReg h 0x1048 = 0x3F3E3D3C ∧ readReg h 0x2040 = 0x000186A0 ∧ readReg h 0x2044 = 0x32 ∧ readReg h 0x2048 = 0x00020004 ∧
    (∀ i, i < 192 → strmState h i = 0) ∧ readReg h 0x505C = 1 ∧ readReg h 0x5058 = 0 ∧
    (∀ c i, sigVal h c i = 0) ∧ (∀ q e, ledgerOf h q e = 0x88888888000000000000000000000000)) ∧
   (State.reset.hw.wf = true ∧ State.reset.pending = [])
/-! Registers -/

/-- EVENT_RAW_CLEAR and EVENT_FORCE (R8, R40): a written 1 clears or raises the event; a bit that hardware sets in the same clk ends
set. An event of a page that software's writes reach is raised in no other way by the command, unless its record found the queue full. A
forced event that was not raised has a record that is marked. On the policy and variant map pages of a reeve that is on, these writes and
LOCK are discarded and raise `LEDGER_WRITE` (R236); while the host port carries no transaction none arrives (R396). -/
def Obligations.EventBitsWritten : Prop :=
  (∀ (s : State) (pg : Page) (mask hwset : BitVec 16), pg.wf = true → PageOpen s.hw pg →
    (s.hw.gateQ.length + 32 ≤ 256 ∨ (pg.kind ≠ .gateEvt ∧ pg.kind ≠ .book)) →
    Answers (.eventRawClear pg mask hwset) s (fun g =>
      (∀ e, e < pageEvents pg.kind → rawBit g pg e = ((rawBit s.hw pg e && !mask.getLsbD e) || hwset.getLsbD e)) ∧
      OnlyEvents s.hw g) ∧
    Answers (.eventForce pg mask hwset) s (fun g =>
      (∀ e, e < pageEvents pg.kind → rawBit g pg e = (rawBit s.hw pg e || mask.getLsbD e || hwset.getLsbD e)) ∧
      (∀ e, e < pageEvents pg.kind → rawBit s.hw pg e = false → mask.getLsbD e = true → (pg.kind, e) ≠ (PageKind.mill, 5) →
        s.hw.gateQ.length + 32 ≤ 256 →
        ∃ r, r ∈ g.gateQ ∧ r.source = pageId pg ∧ r.code = e ∧ r.flags = (if hwset.getLsbD e then 0 else 1)) ∧
      OnlyEvents s.hw g)) ∧
  (∀ (s : State) (pg : Page) (mask hwset : BitVec 16) (v : Word) (i : Instr),
    i = .eventRawClear pg mask hwset ∨ i = .eventForce pg mask hwset ∨ i = .lock pg v →
    (hostAway s.hw = true → exec i s = .next s) ∧
    (hostAway s.hw = false → pageGone s.hw pg = false → reeveShut s.hw pg = true → Answers i s (fun g =>
      Raised s.hw g ⟨.reeve0, pg.inst⟩ 11 ∧ OnlyEvents s.hw g)))

/-- EVENT_MESSAGE (R43, R44, R392, R396): the oldest message that is due leaves on the vector of its severity; where the vector or the
function is masked or the host link is down it becomes a pending bit; a function whose MSI-X is not enabled sends nothing. -/
def Obligations.EventMessageSent : Prop :=
  ∀ (s : State) (sev : Nat) (rest : List Nat), s.hw.gate.evMsgs = sev :: rest → sev < 4 →
    let v := sevVector s.hw sev
    let sent := { s.hw with gate := { s.hw.gate with evMsgs := rest } }
    let held := bit (smGet msixDflt s.hw.msix (0x202000 + 16 * v + 12)).toNat 0 || s.hw.gate.msixMask || s.hw.gate.linkDown
    (s.hw.gate.msixOn = false → Becomes .eventMessage s sent) ∧
    (s.hw.gate.msixOn = true → held = false → Becomes .eventMessage s { sent with outbox := .msix v :: s.hw.outbox }) ∧
    (s.hw.gate.msixOn = true → held = true → Answers .eventMessage s (fun g =>
      g = { sent with msix := g.msix } ∧ (smGet msixDflt g.msix (0x203000 + 4 * (v / 32))).getLsbD (v % 32) = true))

/-- LOCK and LOCK_ALL (R45, R46): writing 1 to bit 0 locks the page, or every page that answers; writing 0 changes nothing, so software
cannot clear `LOCKED`. On a locked page, and in the clk in which `LOCKED` is set, a write of `EVENT_SEVERITY`, which is RWL, is ignored. -/
def Obligations.LockHolds : Prop :=
  ∀ (s : State) (pg : Page) (v : Word), pg.wf = true → PageOpen s.hw pg →
    (v.getLsbD 0 = true → Answers (.lock pg v) s (fun g =>
      locked g pg = true ∧ OnlyRegs s.hw g ∧ SameRegs (fun a => a = lockAddr pg) s.hw g)) ∧
    (v.getLsbD 0 = true → Answers (.lockAll v) s (fun g =>
      (∀ p : Page, p.wf = true → pageGone s.hw p = false → locked g p = true) ∧ OnlyRegs s.hw g ∧
      SameRegs (fun a => ∃ p : Page, p.wf = true ∧ a = lockAddr p) s.hw g)) ∧
    (v.getLsbD 0 = false → exec (.lock pg v) s = .next s ∧ exec (.lockAll v) s = .next s) ∧
    (∀ (x : BitVec 64) (same : SameClk), locked s.hw pg = true ∨ same.lock = true →
      exec (.registerWrite (BitVec.ofNat 26 (sevAddr pg)) 4 x same) s = .next s)

/-- REGISTER_WRITE of a header register (R36, R38): `EVENT_ENABLE`, and on an unlocked page `EVENT_SEVERITY`, take the written value in
the bits of the events that the page has, and no other register changes.
A write of a register with several fields (R7, R8, R9, R45, R46): each field takes what its access code makes of the written bits and of
what hardware does to it in the same clk; where its condition does not hold, or the written encoding is reserved, it keeps its value, and
the other fields do not. -/
def Obligations.RegistersWritten : Prop :=
   (∀ (s : State) (pg : Page) (v : BitVec 64) (same : SameClk), pg.wf = true → PageOpen s.hw pg →
      Answers (.registerWrite (BitVec.ofNat 26 (enableAddr pg)) 4 v same) s (fun g =>
        (∀ e, e < 32 → (reg g (enableAddr pg)).getLsbD e = (decide (e < pageEvents pg.kind) && v.getLsbD e)) ∧
        OnlyRegs s.hw g ∧ SameRegs (fun a => a = enableAddr pg) s.hw g) ∧
      (locked s.hw pg = false → same.lock = false → Answers (.registerWrite (BitVec.ofNat 26 (sevAddr pg)) 4 v same) s (fun g =>
        (∀ e, e < pageEvents pg.kind → sevOf g pg e = v.toNat / 4 ^ e % 4) ∧
        OnlyRegs s.hw g ∧ SameRegs (fun a => a = sevAddr pg) s.hw g))) ∧
   (∀ (h : Hw) (p : Page) (x : SameClk) (v : Nat) (f : Fld), f ∈ rowsAt p.kind f.off →
      let old := bits (reg h (pageBase p.kind p.inst + f.off)).toNat f.hi f.lo
      bits (writeFields h p x f.off v) f.hi f.lo =
        (if condOk h p f && !rsvHit f.rsv (bits v f.hi f.lo)
         then accWrite f.acc (locked h p || x.lock) old (bits v f.hi f.lo) (bits x.set.toNat f.hi f.lo) (bits x.clr.toNat f.hi f.lo)
         else old))

/-- REGISTER_WRITE, the software read, and every row that is a write of software's (R21, R28, R30, R31, R396): a write narrower than 32 bits or not aligned changes no register but the count of
bad accesses and raises `BAD_ACCESS`, and so does a read that is not naturally aligned, which returns data; an aligned 64-bit write is the
write of the lower register, then that of the higher. While the host port carries no transaction no write arrives, be it a row of its own or
not, and a quarter that does not answer takes none; during an FLR a read returns all ones. -/
def Obligations.AccessWidths : Prop :=
  ∀ (s : State) (a : BitVec 26) (size : Nat) (v : BitVec 64) (same : SameClk),
    let bad := fun (g : Hw) => getF g gateId_BAD_ACCESS_COUNT 0 = (getF s.hw gateId_BAD_ACCESS_COUNT 0 + 1) % 2 ^ 32 ∧
      Raised s.hw g ⟨.gateId, 0⟩ 0 ∧
      SameRegs (fun x => x = fAddr gateId_BAD_ACCESS_COUNT 0 ∨ x = rawAddr ⟨.gateId, 0⟩ ∨ eventSide x = true) s.hw g
    (hostAway s.hw = false → ¬ (size = 4 ∧ a.toNat % 4 = 0) → ¬ (size = 8 ∧ a.toNat % 8 = 0) →
      Answers (.registerWrite a size v same) s (fun g => bad g ∧ OnlyEvents s.hw g)) ∧
    (hostAway s.hw = false → a.toNat % 8 = 0 → ∀ m, exec (.registerWrite a 4 v same) s = .next m → hostAway m.hw = false →
      exec (.registerWrite a 8 v same) s =
        exec (.registerWrite (a + 4) 4 (v >>> 32) { same with set := same.set >>> 32, clr := same.clr >>> 32 }) m) ∧
    (hostAway s.hw = true → exec (.registerWrite a size v same) s = .next s) ∧
    (hostAway s.hw = false → ¬ ((size = 1 ∨ size = 2 ∨ size = 4 ∨ size = 8) ∧ a.toNat % size = 0) →
      Answers (.entrySnapshotRead a size) s (fun g => bad g ∧ (∃ d, g.outbox = .regData d :: s.hw.outbox) ∧
        OnlyEvents s.hw { g with outbox := s.hw.outbox })) ∧
    (s.hw.gate.linkDown = false → s.hw.gate.off = false → s.hw.gate.flr = true →
      Becomes (.entrySnapshotRead a size) s { s.hw with outbox := .regData 0xFFFFFFFF :: s.hw.outbox }) ∧
    (∀ i qo, softwareOp i = some qo → hostAway s.hw = true → exec i s = .next s) ∧
    (∀ i q, softwareOp i = some (some q) → quarterGone s.hw q = true → exec i s = .next s)

/-- ENTRY_SNAPSHOT_READ and ENTRY_WORD_WRITE (R50, R236): the lowest word's read returns it and holds the entry, so that the other words
read as they were then; an access to another entry of the window ends that; written words are held, and the highest word's write installs
them together. While a reeve is enabled a ledger write is discarded and raises `LEDGER_WRITE`. -/
def Obligations.EntriesWhole : Prop :=
  ∀ (s : State) (w : Window) (ix : Nat), w.wf ix = true → hostAway s.hw = false → winGone s.hw w = false →
    Answers (.entrySnapshotRead (winAddr w ix) 4) s (fun g =>
      g.outbox = .regData (BitVec.ofNat 32 (bits (winEntry s.hw w ix) 31 0)) :: s.hw.outbox ∧
      (∀ k, k < winWords w → readWindow g w ix k = bits (winEntry s.hw w ix) (32 * k + 31) (32 * k)) ∧
      winEntry g w ix = winEntry s.hw w ix ∧ g = { s.hw with windows := g.windows, outbox := g.outbox }) ∧
    (∀ ix' k, w.wf ix' = true → ix' ≠ ix → k < winWords w →
      Answers (.entrySnapshotRead (winAddr w ix' + BitVec.ofNat 26 (4 * k)) 4) s (fun g =>
        (winX g (winKey w)).snapIx ≠ some ix ∧ (winX g (winKey w)).heldIx ≠ some ix ∧
        g = { s.hw with windows := g.windows, outbox := g.outbox })) ∧
    (∀ word v, word + 1 < winWords w → ledgerShut s.hw w = none → Answers (.entryWordWrite w ix word v) s (fun g =>
      winEntry g w ix = winEntry s.hw w ix ∧ (winX g (winKey w)).heldIx = some ix ∧ (word, v.toNat) ∈ (winX g (winKey w)).held ∧
      g = { s.hw with windows := g.windows })) ∧
    (∀ q v lo, w = .route q → (winX s.hw (winKey w)).heldIx = some ix → (winX s.hw (winKey w)).held = [(0, lo)] → lo < 2 ^ 32 →
      Answers (.entryWordWrite w ix 1 v) s (fun g =>
        (routeOf g q.val ix).toNat = lo + v.toNat * 2 ^ 32 ∧ (winX g (winKey w)).heldIx = none ∧
        (∀ j, j ≠ ix → j < 32768 → routeOf g q.val j = routeOf s.hw q.val j) ∧
        g = { s.hw with windows := g.windows, routes := g.routes })) ∧
    (∀ q word v, w = .ledger q → word < 4 → flag s.hw reeve0_CTRL_ENABLE q.val = true →
      Answers (.entryWordWrite w ix word v) s (fun g => Raised s.hw g ⟨.reeve0, q.val⟩ 11 ∧ g.ledger = s.hw.ledger ∧ OnlyEvents s.hw g))

/-- QUARTER_PATH_FLIT (R19, R20, R28, R47): a slot whose flit arrives whole, or that carries none, changes the path alone; a flit whose CRC
fails is counted and asked for again with all that followed it; where it was the eighth replay of one flit the quarter fails, and its
pages then answer nothing (the count of eight is the model's reading, log entry 68). Class 3 waits no more than 15 slots for one that
carries no replay. -/
def Obligations.QuarterPathChecked : Prop :=
  ∀ (s : State) (q : Quarter) (into : Bool) (come : List Nat), quarterGone s.hw q.val = false →
    let x := pathCome (pathOf s.hw q.val into) come
    let r := pathSend x
    let spent := r.2.unacked.any (fun y => r.1.map (·.1) == some y.1 && decide (8 ≤ y.2.2))
    let counted := fun (g : Hw) => getF g (paths_RETRY q.val) 0 = (getF s.hw (paths_RETRY q.val) 0 + 1) % 2 ^ 32
    (∀ crcOk, crcOk = true ∨ r.1 = none → Answers (.quarterPathFlit q into come crcOk) s (fun g =>
      pathOf g q.val into = pathTake r.2 r.1 true ∧ pathOf g q.val (!into) = pathOf s.hw q.val (!into) ∧
      g = { s.hw with quarters := g.quarters, outbox := g.outbox })) ∧
    (r.1 ≠ none → spent = false → Answers (.quarterPathFlit q into come false) s (fun g =>
      counted g ∧ Raised s.hw g ⟨.paths, 0⟩ 0 ∧ (pathOf g q.val into).toReplay = r.2.unacked.map (·.1) ∧
      quarterGone g q.val = false ∧ OnlyEvents s.hw { g with quarters := s.hw.quarters, outbox := s.hw.outbox })) ∧
    (r.1 ≠ none → spent = true → Answers (.quarterPathFlit q into come false) s (fun g =>
      counted g ∧ rawBit g ⟨.paths, 0⟩ 1 = true ∧ quarterGone g q.val = true)) ∧
    (x.toReplay = [] → 0 < x.waiting.getD 2 0 → 15 ≤ x.hostWait → r.1 = some (x.txSeq, 2))
/-! Crofts and streams -/

/-- The clk passes (R136, R158): it reaches the clk at which a command acts, and memory reads as before. Where nothing is due in it, every
queue and every register is as it was but for `CROFT.IDLE_CLK` of the idle crofts and `VECTOR.BUSY_CLK` of the busy vector units, which count
it. In the clk after a close edge the next anomaly window opens (R267), and in the clk after a delivery has landed its signal is added
(R231). On an empty queue a step is one module clk: that is the model's choice (log entry 2), no rule of the spec. -/
def Obligations.TimePasses : Prop :=
   (∀ (s : State) (t : Nat), (now s t).clk = max s.hw.clk t ∧ SameMem s.hw (now s t)) ∧
   (∀ (s : State) (t : Nat), Quiet s.hw → OnlyRegs { s.hw with clk := (now s t).clk } (now s t) ∧
      SameRegs (fun a => ∃ c, c < 64 ∧ (a = fAddr croft_IDLE_CLK c ∨ a = fAddr vector_BUSY_CLK c)) s.hw (now s t) ∧
      (∀ c, c < 64 → croftIdle s.hw c = true →
        getF (now s t) croft_IDLE_CLK c = (getF s.hw croft_IDLE_CLK c + (max s.hw.clk t - s.hw.clk)) % 2 ^ 32) ∧
      (∀ c, c < 64 → flag s.hw vector_STATUS_BUSY c = true →
        getF (now s t) vector_BUSY_CLK c = (getF s.hw vector_BUSY_CLK c + (max s.hw.clk t - s.hw.clk)) % 2 ^ 32)) ∧
   (∀ (s : State) (t k : Nat), s.hw.clk < t → s.hw.gate.watchDue = [] → s.hw.bell.closeClk = some k →
      (∀ q, q < 4 → (quarterX s.hw q).landed = []) → (now s t).bell.closeClk = none ∧ flag (now s t) bellMaster_STATUS_DEVICE_A 0 = false ∧
      (∀ q, q < 4 → flag (now s t) bellRcv_STATUS_ANOM q = false ∧ getF (now s t) bellRcv_ABANDON_SRC q = 0)) ∧
   (∀ (s : State) (t q c i : Nat), s.hw.clk < t → s.hw.gate.watchDue = [] → q < 4 → c < 64 → i < 64 →
      (quarterX s.hw q).landed = [(c, i)] → (∀ p, p < 4 → p ≠ q → (quarterX s.hw p).landed = []) → sigVal s.hw c i < 65535 →
      sigVal (now s t) c i = sigVal s.hw c i + 1 ∧ (quarterX (now s t) q).landed = []) ∧
   (∀ h : Hw, ∃ g, step ⟨[], h⟩ = .next ⟨[], g⟩ ∧ g.clk = h.clk + 1 ∧ SameMem h g ∧
      (Quiet h → (∀ x, x ∈ h.crofts → x.2.tally = []) → g = { h with clk := g.clk, regs := g.regs } ∧
        SameRegs (fun a => ∃ c, c < 64 ∧ (a = fAddr croft_IDLE_CLK c ∨ a = fAddr vector_BUSY_CLK c)) h g))

/-- What comes before the effect of a stream instruction, for each of them (R146, R147, R159, R161, R165): a stream that is not `RUNNING` takes
none; a word outside the program region faults with cause 0x02 and a reserved opcode or encoding with cause 0x01, before the guard is
tested; a word whose guard does not hold only advances; a word that another listed opcode names is not this instruction. -/
def Obligations.IssueRules : Prop :=
  ∀ (i : Instr) (s : State) (c : Croft) (st : Strm) (w : BitVec 128) (t op : Nat) (ok : BitVec 128 → Bool),
    streamOp i = some (c, st, w, t, op, ok) →
    let n := sIx c st
    let h := nowIssue s c st t
    let other := wb w 7 0 ≠ op ∧ opcodes.contains (wb w 7 0) = true
    let faults := fun (k : Nat) (g : Hw) => strmState g n = 7 ∧ getF g stream_FAULT_INFO n = k ∧ getF g stream_FAULT_PC n = getF h stream_PC n ∧
      getF g stream_PC n = getF h stream_PC n ∧ rawBit g ⟨.stream, n⟩ 2 = true ∧ Abandoned g (c.val / 16) ∧ SameMem s.hw g
    (strmState s.hw n ≠ 2 ∨ other → exec i s = .next s) ∧
    (strmState s.hw n = 2 → ¬ other → regionLen h c.val < getF h stream_PC n + 16 → Answers i s (faults 2)) ∧
    (strmState s.hw n = 2 → ¬ other → getF h stream_PC n + 16 ≤ regionLen h c.val →
      (wb w 7 0 ≠ op ∨ guardOk w = false ∨ ok w = false) → Answers i s (faults 1)) ∧
    (strmState s.hw n = 2 → getF h stream_PC n + 16 ≤ regionLen h c.val → wb w 7 0 = op → guardOk w = true → ok w = true →
      guardHolds h c.val w = false → Answers i s (fun g =>
        Retired c st h g ∧ g = { h with regs := g.regs, streams := g.streams } ∧
        SameRegs (fun a => a = fAddr stream_PC n ∨ a = fAddr stream_RETIRED n) h g))

/-- A stream's first fault is the one recorded, and a stream cannot fault a second time until it leaves `FAULTED` (R147). -/
def Obligations.FirstFaultRecorded : Prop :=
  (∀ (h : Hw) (i cause pc : Nat), i < 192 → cause < 256 → pc < 2 ^ 20 →
    (strmState h i ≠ 7 → strmState (runE (streamFault i cause pc) h) i = 7 ∧
      getF (runE (streamFault i cause pc) h) stream_FAULT_INFO i = cause ∧ getF (runE (streamFault i cause pc) h) stream_FAULT_PC i = pc) ∧
    (strmState h i = 7 → runE (streamFault i cause pc) h = h)) ∧
  (∀ (i : Instr) (s : State) (c : Croft) (st : Strm) (w : BitVec 128) (t op : Nat) (ok : BitVec 128 → Bool),
    streamOp i = some (c, st, w, t, op, ok) → strmState s.hw (sIx c st) = 7 → exec i s = .next s)

/-- JUMP, LOOP, NOP and HALT (R166 to R168): where the program counter goes, how long the issue slot is taken, and that nothing else
changes. -/
def Obligations.FlowInstructions : Prop :=
  ∀ (s : State) (c : Croft) (st : Strm) (w : BitVec 128) (t : Nat),
    let h := nowIssue s c st t
    let n := sIx c st
    let fr := fun (g : Hw) => g = { h with regs := g.regs, streams := g.streams } ∧ (∀ j, j ≠ n → streamX g j = streamX h j) ∧
      SameRegs (fun a => a = fAddr stream_PC n ∨ a = fAddr stream_RETIRED n) h g ∧
      getF g stream_RETIRED n = (getF h stream_RETIRED n + 1) % 2 ^ 32
    (Issues s c st w t 0x01 okJump → Answers (.jump c st w t) s (fun g =>
      getF g stream_PC n = wb w 35 16 ∧ (streamX g n).issueFree = h.clk + 2 ∧ fr g)) ∧
    (Issues s c st w t 0x05 okNop → Answers (.nop c st w t) s (fun g =>
      Retired c st h g ∧ (streamX g n).issueFree = h.clk + wb w 31 16 + 1 ∧ fr g)) ∧
    (Issues s c st w t 0x02 okLoop → sigVal h c.val (wb w 21 16) = 0 → Answers (.loop c st w t) s (fun g =>
      Retired c st h g ∧ (streamX g n).issueFree = h.clk + 1 ∧ fr g)) ∧
    (Issues s c st w t 0x02 okLoop → 1 ≤ sigVal h c.val (wb w 21 16) → Answers (.loop c st w t) s (fun g =>
      getF g stream_PC n = wb w 51 32 ∧ sigVal g c.val (wb w 21 16) = sigVal h c.val (wb w 21 16) - 1 ∧
      (∀ d i, d < 64 → i < 64 → (d, i) ≠ (c.val, wb w 21 16) → sigVal g d i = sigVal h d i) ∧
      g = { h with regs := g.regs, streams := g.streams, sigs := g.sigs, sigNow := g.sigNow } ∧
      SameRegs (fun a => a = fAddr stream_PC n ∨ a = fAddr stream_RETIRED n) h g)) ∧
    (Issues s c st w t 0x03 okNone → (∀ f, f < 4 → fieldWork h c.val f = false) → Answers (.halt c st w t) s (fun g =>
      strmState g n = 6 ∧ flag g stream_STATUS_LATE n = false ∧ Retired c st h g ∧ heldMask g n = 0 ∧
      (∀ f, f < 4 → bit (heldMask h n) f = true → getF g field_STATUS_OWNER (4 * c.val + f) = 0) ∧
      g = { h with regs := g.regs, streams := g.streams }))

/-- SIGNAL, SIGNAL_SET, WAIT and WAIT_SATISFIED (R132, R133, R162, R170): counters add, are set, and are subtracted from when a wait is
satisfied; a wait that is not satisfied puts the stream into `WAIT_SIGNAL`. A write of SIGNAL_SET comes before the additions and waits of its
clk, so that what these have done stands on top of the written value, and of two streams' writes the later stream's stands. -/
def Obligations.SignalInstructions : Prop :=
  ∀ (s : State) (c : Croft) (st : Strm) (w : BitVec 128) (t : Nat),
    let h := nowIssue s c st t
    let n := sIx c st
    let sg := wb w 21 16
    let k := 64 * c.val + sg
    let later := (sigNow h).sets.any (fun y => y.1 == k && decide (strmIx st < y.2))
    let u := wb w 47 32 + noted (sigNow h).adds k - noted (sigNow h).subs k
    let fr := fun (g : Hw) => g = { h with regs := g.regs, streams := g.streams, sigs := g.sigs, sigNow := g.sigNow } ∧
      (∀ d i, d < 64 → i < 64 → (d, i) ≠ (c.val, sg) → sigVal g d i = sigVal h d i) ∧ Retired c st h g
    let only := fun (g : Hw) => SameRegs (fun a => a = fAddr stream_PC n ∨ a = fAddr stream_RETIRED n) h g
    (Issues s c st w t 0x10 okSignal → sigVal h c.val sg + wb w 47 32 ≤ 65535 → Answers (.signal c st w t) s (fun g =>
      sigVal g c.val sg = sigVal h c.val sg + wb w 47 32 ∧ fr g ∧ only g)) ∧
    (Issues s c st w t 0x11 okSignal → later = false → u ≤ 65535 → Answers (.signalSet c st w t) s (fun g =>
      sigVal g c.val sg = u ∧ fr g ∧ only g)) ∧
    (Issues s c st w t 0x11 okSignal → later = true → Answers (.signalSet c st w t) s (fun g =>
      sigVal g c.val sg = sigVal h c.val sg ∧ fr g ∧ only g)) ∧
    (Issues s c st w t 0x12 okSignal → wb w 47 32 ≤ sigVal h c.val sg → Answers (.wait c st w t) s (fun g =>
      sigVal g c.val sg = sigVal h c.val sg - wb w 47 32 ∧ strmState g n = 2 ∧ fr g ∧ only g)) ∧
    (Issues s c st w t 0x12 okSignal → sigVal h c.val sg < wb w 47 32 → Answers (.wait c st w t) s (fun g =>
      sigVal g c.val sg = sigVal h c.val sg ∧ strmState g n = 3 ∧ getF g stream_STATUS_WAIT_SIG n = sg ∧
      (streamX g n).waitN = wb w 47 32 ∧ fr g)) ∧
    (waitReady (now s t) c.val (strmIx st) = true →
      (∀ k, k < strmIx st → waitReady (now s t) c.val k = true →
        getF (now s t) stream_STATUS_WAIT_SIG (3 * c.val + k) ≠ getF (now s t) stream_STATUS_WAIT_SIG n) →
      Answers (.waitSatisfied c st t) s (fun g =>
        let e := getF (now s t) stream_STATUS_WAIT_SIG n
        sigVal g c.val e = sigVal (now s t) c.val e - (streamX (now s t) n).waitN ∧ strmState g n = 2 ∧
        (∀ d i, d < 64 → i < 64 → (d, i) ≠ (c.val, e) → sigVal g d i = sigVal (now s t) d i) ∧
        g = { now s t with regs := g.regs, sigs := g.sigs, sigNow := g.sigNow }))

/-- An addition that would take a counter above 65,535 leaves it there and raises `SIGNAL_OVERFLOW`; from a stream it faults the stream,
from a unit it raises an abandon of the step (R134), and so does one made in the clk of a SIGNAL_SET on top of the written value (R170). -/
def Obligations.SignalOverflow : Prop :=
  (∀ (s : State) (c : Croft) (st : Strm) (w : BitVec 128) (t : Nat), Issues s c st w t 0x10 okSignal →
    65535 < sigVal (nowIssue s c st t) c.val (wb w 21 16) + wb w 47 32 → Answers (.signal c st w t) s (fun g =>
      sigVal g c.val (wb w 21 16) = 65535 ∧ rawBit g ⟨.croft, c.val⟩ 1 = true ∧ strmState g (sIx c st) = 7)) ∧
  (∀ (h : Hw) (c i n : Nat), c < 64 → i < 64 → 65535 < sigVal h c i + n →
    sigVal (runE (addSig c i n) h) c i = 65535 ∧ rawBit (runE (addSig c i n) h) ⟨.croft, c⟩ 1 = true ∧
    Abandoned (runE (addSig c i n) h) (c / 16)) ∧
  (∀ (s : State) (c : Croft) (st : Strm) (w : BitVec 128) (t : Nat), Issues s c st w t 0x11 okSignal →
    let x := sigNow (nowIssue s c st t)
    let k := 64 * c.val + wb w 21 16
    x.sets.any (fun y => y.1 == k && decide (strmIx st < y.2)) = false → 65535 < wb w 47 32 + noted x.adds k - noted x.subs k →
    Answers (.signalSet c st w t) s (fun g => sigVal g c.val (wb w 21 16) = 65535 ∧ rawBit g ⟨.croft, c.val⟩ 1 = true ∧
      Abandoned g (c.val / 16)))

/-- CLAIM, CLAIM_GRANT and RELEASE (R130, R131): a claim takes all of its fields or none; one that cannot be granted waits; a release of
held fields on which nothing is in progress frees them, and one of a field not held faults with cause 0x04. -/
def Obligations.ClaimInstructions : Prop :=
  ∀ (s : State) (c : Croft) (st : Strm) (w : BitVec 128) (t : Nat),
    let h := nowIssue s c st t
    let n := sIx c st
    let m := wb w 19 16
    (Issues s c st w t 0x13 okFields → claimFree h c.val (strmIx st) m = true → claimAhead h c.val (strmIx st) m h.clk = false →
      Answers (.claim c st w t) s (fun g => heldMask g n = heldMask h n ||| m ∧ strmState g n = 2 ∧ Retired c st h g ∧
        (∀ f, f < 4 → bit m f = true → getF g field_STATUS_OWNER (4 * c.val + f) = strmIx st + 1) ∧
        g = { h with regs := g.regs, streams := g.streams })) ∧
    (Issues s c st w t 0x13 okFields → (claimFree h c.val (strmIx st) m && !claimAhead h c.val (strmIx st) m h.clk) = false →
      Answers (.claim c st w t) s (fun g => heldMask g n = heldMask h n ∧ strmState g n = 4 ∧ getF g stream_STATUS_CLAIM_WAIT n = m ∧
        (streamX g n).claimSince = h.clk ∧ Retired c st h g ∧ g = { h with regs := g.regs, streams := g.streams })) ∧
    (strmState (now s t) n = 4 →
      let mw := getF (now s t) stream_STATUS_CLAIM_WAIT n
      claimFree (now s t) c.val (strmIx st) mw = true →
      claimAhead (now s t) c.val (strmIx st) mw (streamX (now s t) n).claimSince = false →
      Answers (.claimGrant c st t) s (fun g => heldMask g n = heldMask (now s t) n ||| mw ∧
        strmState g n = 2 ∧ getF g stream_STATUS_CLAIM_WAIT n = 0 ∧ OnlyRegs (now s t) g)) ∧
    (Issues s c st w t 0x14 okFields → heldMask h n &&& m = m → (∀ f, f < 4 → bit m f = true → fieldWork h c.val f = false) →
      Answers (.release c st w t) s (fun g => heldMask g n = heldMask h n - m ∧ Retired c st h g ∧ strmState g n = 2 ∧
        (∀ f, f < 4 → bit m f = true → getF g field_STATUS_OWNER (4 * c.val + f) = 0) ∧
        g = { h with regs := g.regs, streams := g.streams })) ∧
    (Issues s c st w t 0x14 okFields → heldMask h n &&& m ≠ m → Answers (.release c st w t) s (fun g =>
      heldMask g n = heldMask h n ∧ strmState g n = 7 ∧ getF g stream_FAULT_INFO n = 4 ∧ rawBit g ⟨.stream, n⟩ 2 = true))

/-- GANG, MASK, WIDE_RUN, WIDE_DRAIN, SEQ_SELECT and SEQ_ADVANCE (R150, R171, R173, R187): what each stages, and that no other parameter,
slot or register changes. A `POS` that would pass 0xFFFF_FFFF faults with cause 0x06 and leaves the slot. -/
def Obligations.StagingInstructions : Prop :=
  ∀ (s : State) (c : Croft) (st : Strm) (w : BitVec 128) (t : Nat),
    let h := nowIssue s c st t
    let n := sIx c st
    let x := streamX h n
    let fr := fun (g : Hw) => Retired c st h g ∧ g = { h with regs := g.regs, streams := g.streams } ∧
      (∀ j, j ≠ n → streamX g j = streamX h j) ∧ SameRegs (fun a => a = fAddr stream_PC n ∨ a = fAddr stream_RETIRED n) h g
    (Issues s c st w t 0x24 okGang → Answers (.gang c st w t) s (fun g => fr g ∧
      streamX g n = { x with fmtA := wb w 19 16, fmtW := wb w 23 20, issueFree := h.clk + 1 })) ∧
    (Issues s c st w t 0x23 okMask → Answers (.mask c st w t) s (fun g => fr g ∧
      streamX g n = { x with plotRows := wb w 31 16, plotCols := wb w 47 32, edgeRows := wb w 63 48, edgeCols := wb w 79 64,
                             issueFree := h.clk + 1 })) ∧
    (Issues s c st w t 0x25 okWideRun → Answers (.wideRun c st w t) s (fun g => fr g ∧
      streamX g n = { x with wideEn := w.getLsbD 16, wideTable := wb w 47 24, wideStore := wb w 71 48, issueFree := h.clk + 1 })) ∧
    (Issues s c st w t 0x26 okWideDrain → Answers (.wideDrain c st w t) s (fun g => fr g ∧ (streamX g n).wdStore = wb w 123 100 ∧
      (streamX g n).wdCols.length = wb w 19 16 ∧
      (∀ k, k < wb w 19 16 → (streamX g n).wdCols[k]? = some (wb w (29 + 10 * k) (20 + 10 * k))))) ∧
    (Issues s c st w t 0x70 okSeqSelect → Answers (.seqSelect c st w t) s (fun g => getF g stream_SLOT n = wb w 20 16 ∧
      Retired c st h g ∧ g = { h with regs := g.regs, streams := g.streams })) ∧
    (Issues s c st w t 0x71 okSeqAdvance →
      let k := getF h stream_SLOT n
      let o := slotOf h c.val k
      (o.pos + wb w 31 16 ≤ 0xFFFFFFFF → Answers (.seqAdvance c st w t) s (fun g =>
        (slotOf g c.val k).pos = o.pos + wb w 31 16 ∧ (slotOf g c.val k).base = o.base ∧ (slotOf g c.val k).len = o.len ∧
        (slotOf g c.val k).mb = (if w.getLsbD 58 then (o.mb + 1) % 65536 else o.mb) ∧
        (o.len ≠ 0 → (slotOf g c.val k).cur = (o.cur + wb w 57 32) % o.len) ∧
        (∀ j, j < 32 → j ≠ k → slotOf g c.val j = slotOf h c.val j) ∧ Retired c st h g ∧
        g = { h with regs := g.regs, streams := g.streams, slots := g.slots })) ∧
      (0xFFFFFFFF < o.pos + wb w 31 16 → Answers (.seqAdvance c st w t) s (fun g =>
        g.slots = h.slots ∧ strmState g n = 7 ∧ getF g stream_FAULT_INFO n = 6)))

/-- WAIT_BELL, LATE_ABANDON and ABANDON_REACH (R136, R139, R141, R143): a stream on time waits at the bell; one that is late within the slack
passes at once and its lateness is recorded, unless it comes in the clk of the edge; one that is later raises the abandon, once; an abandon that reaches a croft parks its
running streams. -/
def Obligations.BellWaits : Prop :=
  ∀ (s : State) (c : Croft) (st : Strm) (w : BitVec 128) (t : Nat),
    let h := nowIssue s c st t
    let n := sIx c st
    (Issues s c st w t 0x04 okWaitBell → flag h stream_STATUS_LATE n = false → Answers (.waitBell c st w t) s (fun g =>
      strmState g n = 5 ∧ Retired c st h g ∧ g = { h with regs := g.regs, streams := g.streams })) ∧
    (Issues s c st w t 0x04 okWaitBell → flag h stream_STATUS_LATE n = true → h.clk - (streamX h n).edgeClk ≤ (streamX h n).edgeSlack →
      flag h bellRcv_STATUS_HELD (c.val / 16) = false → (croftX h c.val).stepPend = false → Answers (.waitBell c st w t) s (fun g =>
        strmState g n = 2 ∧ Retired c st h g ∧ flag g stream_STATUS_LATE n = false ∧
        getF g stream_SEGMENT n = (getF h stream_SEGMENT n + 1) % 2 ^ 32 ∧
        ((streamX h n).edgeClk < h.clk → getF g stream_LATE_COUNT n = (getF h stream_LATE_COUNT n + 1) % 2 ^ 32 ∧ Raised h g ⟨.stream, n⟩ 0) ∧
        (h.clk ≤ (streamX h n).edgeClk → getF g stream_LATE_COUNT n = getF h stream_LATE_COUNT n ∧
          rawBit g ⟨.stream, n⟩ 0 = rawBit h ⟨.stream, n⟩ 0))) ∧
    (Issues s c st w t 0x04 okWaitBell → flag h stream_STATUS_LATE n = true → (streamX h n).edgeSlack < h.clk - (streamX h n).edgeClk →
      (streamX h n).abandonRaised = false → Answers (.waitBell c st w t) s (fun g =>
        strmState g n = 5 ∧ rawBit g ⟨.stream, n⟩ 1 = true ∧ Abandoned g (c.val / 16) ∧ (streamX g n).abandonRaised = true)) ∧
    (let h := now s t
     flag h stream_STATUS_LATE n = true → 2 ≤ strmState h n → strmState h n ≤ 4 →
      (streamX h n).edgeClk + (streamX h n).edgeSlack < h.clk →
      ((streamX h n).abandonRaised = false → Answers (.lateAbandon c st t) s (fun g =>
        strmState g n = strmState h n ∧ rawBit g ⟨.stream, n⟩ 1 = true ∧ Abandoned g (c.val / 16) ∧
        (streamX g n).abandonRaised = true ∧ getF g stream_ABANDON_COUNT n = (getF h stream_ABANDON_COUNT n + 1) % 2 ^ 32)) ∧
      ((streamX h n).abandonRaised = true → Becomes (.lateAbandon c st t) s h)) ∧
    (let h := now s t
     h.bell.reach.contains c.val = true → Answers (.abandonReach c t) s (fun g =>
      (∀ k, k < 3 → strmState g (3 * c.val + k) =
        (if 2 ≤ strmState h (3 * c.val + k) ∧ strmState h (3 * c.val + k) ≤ 6 then 8 else strmState h (3 * c.val + k))) ∧
      g.bell.reach = h.bell.reach.filter (· != c.val) ∧ (∀ p, p ∈ (croftX g c.val).lane → p.granted.isSome = true ∧ p.done = true) ∧
      (∀ v, v ∈ (croftX g c.val).vec → v.written = true) ∧ (croftX g c.val).tally = [] ∧
      (croftX g c.val).abandoned = ((croftX h c.val).abandoned || croftRunning g c.val) ∧ SameMem s.hw g))
/-- CROFT_RUN_WRITE, STREAMS_STOPPED and ICACHE_FILL (R123, R124, R127, R156): `RUN` written 1 makes every stream `READY` at its entry;
written 0 it begins a stop, which takes effect, and `RUN` with it, when no stream runs; a line that is missing or fails its parity is filled
and counted, one that hits is not. -/
def Obligations.CroftRuns : Prop :=
  ∀ (s : State) (c : Croft),
    let h := s.hw
    (hostAway h = false → quarterGone h (c.val / 16) = false →
      (flag h croft_CTRL_RUN c.val = false → getF h croft_PROG_REGION_BASE c.val + getF h croft_PROG_REGION_SIZE c.val ≤ 192 →
      getF h croft_PROG_REGION_SIZE c.val ≠ 0 → Answers (.croftRunWrite c true) s (fun g =>
        flag g croft_CTRL_RUN c.val = true ∧ croftRunning g c.val = true ∧
        (∀ st : Strm, strmState g (sIx c st) = 1 ∧ getF g stream_PC (sIx c st) = 16 * getF h stream_ENTRY (sIx c st) ∧
          getF g stream_SEGMENT (sIx c st) = 0 ∧ getF g stream_SLOT (sIx c st) = 0 ∧ (streamX g (sIx c st)).fmtA = 0 ∧
          (streamX g (sIx c st)).plotRows = 0xFFFF) ∧
        g = { h with regs := g.regs, streams := g.streams, crofts := g.crofts })) ∧
      (flag h croft_CTRL_RUN c.val = true → (∃ st : Strm, strmState h (sIx c st) ≠ 0) → Answers (.croftRunWrite c false) s (fun g =>
        flag g croft_CTRL_RUN c.val = true ∧ flag g croft_STATUS_STOPPING c.val = true ∧ croftRunning g c.val = true ∧
        (∀ st : Strm, strmState g (sIx c st) = strmState h (sIx c st)) ∧ OnlyRegs h g ∧
        SameRegs (fun a => a = fAddr croft_STATUS_STOPPING c.val) h g)) ∧
      (flag h croft_CTRL_RUN c.val = true → (∀ st : Strm, strmState h (sIx c st) = 0) → Answers (.croftRunWrite c false) s (fun g =>
        flag g croft_CTRL_RUN c.val = false ∧ OnlyRegs h g ∧ SameRegs (fun a => a = fAddr croft_CTRL_RUN c.val) h g))) ∧
    (flag h croft_STATUS_STOPPING c.val = true → (∀ st : Strm, 5 ≤ strmState h (sIx c st) ∧ strmState h (sIx c st) ≤ 8) →
      Answers (.streamsStopped c) s (fun g => (∀ st : Strm, strmState g (sIx c st) = 0 ∧ flag g stream_STATUS_LATE (sIx c st) = false) ∧
        flag g croft_STATUS_STOPPING c.val = false ∧ flag g croft_CTRL_RUN c.val = false ∧ croftRunning g c.val = false ∧ OnlyRegs h g)) ∧
    (∀ (st : Strm) (parity : Bool) (errs : List MemErr),
      let line := getF h stream_PC (sIx c st) / 64
      let hit := (streamX h (sIx c st)).icache.contains line
      let h1 := afterRead h 0 (c.val / 16) c.val [(protLo h c.val + 64 * line, 64)] errs
      (hit = true → parity = false → exec (.icacheFill c st parity errs) s = .next s) ∧
      (hit = false ∨ parity = true → Answers (.icacheFill c st parity errs) s (fun g =>
        getF g stream_ICACHE_MISS (sIx c st) = (getF h1 stream_ICACHE_MISS (sIx c st) + 1) % 2 ^ 32 ∧
        (streamX g (sIx c st)).icache.contains line = true ∧ (hit = true → Raised h1 g ⟨.croft, c.val⟩ 2) ∧
        OnlyEvents h1 { g with streams := h1.streams } ∧
        (hit = false → g = { h1 with regs := g.regs, streams := g.streams }))))

/-- RUN, LOAD and DRAIN (R163, R171, R174, R175): each enters the lane queue or is staged on the fields it names with the parameters staged
at that clk; one whose queue is full does not issue yet; one that names a field the stream does not hold faults with cause 0x03. What a
drain stages is read from its descriptor as it stands after the read's findings. -/
def Obligations.PassesQueue : Prop :=
  ∀ (s : State) (c : Croft) (st : Strm) (w : BitVec 128) (t : Nat) (errs : List MemErr),
    let h := nowIssue s c st t
    let n := sIx c st
    let m := wb w 19 16
    let fx := fun (f : Nat) => fieldX h (4 * c.val + f)
    let hd := if w.getLsbD 26 then h else afterRead h 0 (c.val / 16) c.val [(wb w 87 64, 64)] errs
    (Issues s c st w t 0x20 okRun → heldMask h n &&& m = m →
      ((croftX h c.val).lane.length < 2 → Answers (.run c st w t) s (fun g =>
        let p := passOf h c.val (strmIx st) w ((croftX h c.val).runSeq + 1)
        Retired c st h g ∧ (croftX g c.val).lane = (croftX h c.val).lane ++ [p] ∧
        (∀ f, f < 4 → bit m f = true → (fieldX g (4 * c.val + f)).run = (croftX h c.val).runSeq + 1 ∧
          (fieldX g (4 * c.val + f)).runStream = strmIx st ∧ (fieldX g (4 * c.val + f)).swapped = false ∧
          (fieldX g (4 * c.val + f)).masks = passMasks p) ∧
        g = { h with regs := g.regs, streams := g.streams, crofts := g.crofts, fields := g.fields })) ∧
      (2 ≤ (croftX h c.val).lane.length → Becomes (.run c st w t) s h)) ∧
    (Issues s c st w t 0x22 okLoad → heldMask h n &&& m = m → Answers (.load c st w t) s (fun g =>
      Retired c st h g ∧ g = { h with regs := g.regs, streams := g.streams, fields := g.fields } ∧
      (∀ f, f < 4 → bit m f = true →
        (∀ r, boundRun (fx f) (strmIx st) = some r →
          (fieldX g (4 * c.val + f)).load = some { loadReqOf w with run := r }) ∧
        (boundRun (fx f) (strmIx st) = none → (fx f).drain.isSome = true → (fieldX g (4 * c.val + f)).load = some (loadReqOf w)) ∧
        (boundRun (fx f) (strmIx st) = none → (fx f).drain = none → wb w 21 20 ≠ 3 →
          (fieldX g (4 * c.val + f)).load = some { loadReqOf w with alone := true }) ∧
        (boundRun (fx f) (strmIx st) = none → (fx f).drain = none → wb w 21 20 = 3 →
          (fieldX g (4 * c.val + f)).load = none ∧ (fieldX g (4 * c.val + f)).kept = true)))) ∧
    (Issues s c st w t 0x21 okDrain → heldMask h n &&& m = m →
      ((∀ f, f < 4 → bit m f = true → (fx f).drain = none) → Answers (.drain c st w t errs) s (fun g =>
        Retired c st hd g ∧ SameMem hd g ∧
        (∀ f, f < 4 → bit m f = true → (fieldX g (4 * c.val + f)).drain =
          some (drainReqOf hd c.val (strmIx st) w ((croftX hd c.val).drainSeq + 1) f)) ∧
        (∃ d : DrainSet, (croftX g c.val).drains = (croftX hd c.val).drains ++ [d] ∧ d.id = (croftX hd c.val).drainSeq + 1 ∧
          d.sig = wb w 47 42 ∧ d.sen = w.getLsbD 48))) ∧
      ((∃ f, f < 4 ∧ bit m f = true ∧ (fx f).drain.isSome = true) → Becomes (.drain c st w t errs) s h)) ∧
    (heldMask h n &&& m ≠ m →
      (Issues s c st w t 0x20 okRun → Answers (.run c st w t) s (fun g => strmState g n = 7 ∧ getF g stream_FAULT_INFO n = 3)) ∧
      (Issues s c st w t 0x22 okLoad → Answers (.load c st w t) s (fun g => strmState g n = 7 ∧ getF g stream_FAULT_INFO n = 3)) ∧
      (Issues s c st w t 0x21 okDrain → Answers (.drain c st w t errs) s (fun g => strmState g n = 7 ∧ getF g stream_FAULT_INFO n = 3)))

/-- STANDALONE_LOAD (R102, R175): a load that no swap uses gives every accumulator its initial value: zero, or the value its source
holds.
LANE_LINE_READ (R202): an item of the lane store that the window admits is read once, as the barn holds it then. -/
def Obligations.LoadsAndLines : Prop :=
   (∀ (s : State) (c : Croft) (f : FieldIx) (t : Nat) (l : LoadReq) (errs : List MemErr),
      let h := now s t
      let fi := 4 * c.val + f.val
      (fieldX h fi).load = some l → l.alone = true → (fieldX h fi).swap = none → (l.run ≠ 0 → inLane h c.val l.run = false) →
      Answers (.standaloneLoad c f t errs) s (fun g =>
        (fieldX g fi).load = none ∧ (fieldX g fi).loaded = true ∧ (fieldX g fi).kept = (l.src == 3) ∧
        (fieldX g fi).loadedClk = h.clk + (if l.src = 3 then 0 else 257) ∧
        (l.src = 0 → ∀ k, k < 65536 → accOf g fi k = 0) ∧
        (l.src = 3 → ∀ k, k < 65536 → accOf g fi k = accOf h fi k) ∧
        (Recovers errs → SameMem h g ∧ ∀ i vs, i < 256 → loadRow h c.val f.val l i = some vs →
          ∀ j, j < 256 → some (accOf g fi (256 * i + j)) = vs[j]?))) ∧
   (∀ (s : State) (c : Croft) (img line : Nat) (p : Pass) (errs : List MemErr),
      ((croftX s.hw c.val).lane.drop (img / 16)).head? = some p →
      let held := preGet (croftX s.hw c.val) p.id (img % 16) line
      let h1 := afterRead s.hw 0 (c.val / 16) c.val (itemSpans s.hw c.val p (img % 16) line) errs
      (laneWanted s.hw c.val p (img % 16) line = true → held = none → Answers (.laneLineRead c img line errs) s (fun g =>
        preGet (croftX g c.val) p.id (img % 16) line = some (laneItem h1 c.val p (img % 16) line) ∧ g = { h1 with crofts := g.crofts })) ∧
      (laneWanted s.hw c.val p (img % 16) line = false ∨ held.isSome = true → exec (.laneLineRead c img line errs) s = .next s))

/-- PASS_READY, DYKE_GRANT, PASS_END and DYKE_RELEASE (R104, R174 to R176, R455, R456): a pass whose fields are ready, those that nothing
has loaded loaded with zeros, enters the dyke's order with its demand, or is rejected for its formats or a range and counts as completed; the first of the order is granted within the budget and the stagger once the due releases are applied; a pass that has issued its last k-step leaves
the lane and adds its signal; its plots are released later. -/
def Obligations.PassesRun : Prop :=
  ∀ (s : State) (c : Croft) (q : Quarter) (t : Nat),
    let h := now s t
    (∀ p rest, (croftX h c.val).lane = p :: rest → p.ready = none → (∀ f, f < 4 → bit p.fields f = true → memberReady h c.val f p = true) →
      watchHolds h c.val = false → passFormats p = true → laneRange h c.val p = false → Answers (.passReady c t) s (fun g =>
        (croftX g c.val).lane.head? = some { p with ready := some h.clk, demand := passDemand p } ∧
        (quarterX g (c.val / 16)).order = (quarterX h (c.val / 16)).order ++ [(c.val, h.clk)] ∧
        (∀ f k, f < 4 → bit p.fields f = true → (fieldX h (4 * c.val + f)).loaded = false → k < 65536 →
          accOf g (4 * c.val + f) k = 0) ∧
        flag g dyke_STATUS_WAITING (c.val / 16) = true ∧ SameMem h g)) ∧
    (∀ p rest, (croftX h c.val).lane = p :: rest → p.ready = none → (∀ f, f < 4 → bit p.fields f = true → memberReady h c.val f p = true) →
      watchHolds h c.val = false → (passFormats p = false ∨ laneRange h c.val p = true) → Answers (.passReady c t) s (fun g =>
        (croftX g c.val).lane = (croftX h c.val).lane.filter (fun y => y.id != p.id) ∧ SameMem h g ∧ SignalAdded h g c.val p.sig p.sen ∧
        (∀ f, f < 4 → bit p.fields f = true → (fieldX g (4 * c.val + f)).loaded = false) ∧
        (passFormats p = false → ∀ f, f < 4 → bit p.fields f = true → rawBit g ⟨.field, 4 * c.val + f⟩ 0 = true) ∧
        (passFormats p = true → rawBit g ⟨.barn, c.val⟩ 1 = true))) ∧
    (∀ d since p rest, dykeFirst (quarterX h q.val).order = some (d, since) → d < 64 → (croftX h d).lane = p :: rest →
      getF h dyke_ACTIVE q.val - dueDemand h q.val + p.demand ≤ getF h dyke_BUDGET q.val →
      (∀ g0, (quarterX h q.val).lastGrant = some g0 → g0 + getF h dyke_STAGGER q.val ≤ h.clk) → Answers (.dykeGrant q t) s (fun g =>
        (croftX g d).lane.head? = some { p with granted := some h.clk } ∧ (quarterX g q.val).lastGrant = some h.clk ∧
        (quarterX g q.val).order = (quarterX h q.val).order.filter (fun x => x.1 != d) ∧
        getF g dyke_ACTIVE q.val = getF h dyke_ACTIVE q.val - dueDemand h q.val + p.demand ∧
        (quarterX g q.val).releases = (quarterX h q.val).releases.filter (fun r => !decide (r.2.2 ≤ h.clk)) ∧ flag g barn_STATUS_LANE_ACTIVE d = true ∧
        (∀ f, f < 4 → bit p.fields f = true → flag g field_STATUS_BUSY (4 * d + f) = true ∧
          flag g field_ACC_DATA_HI_VALID (4 * d + f) = false ∧ getF g field_PASS_COUNT (4 * d + f) = (getF h field_PASS_COUNT (4 * d + f) + 1) % 2 ^ 32) ∧ SameMem h g)) ∧
    (∀ p rest, (croftX h c.val).lane = p :: rest → p.done = true → Answers (.passEnd c t) s (fun g =>
        (croftX g c.val).lane = (croftX h c.val).lane.filter (fun y => y.id != p.id) ∧ (croftX g c.val).laneFree = h.clk ∧
        flag g barn_STATUS_LANE_ACTIVE c.val = false ∧ SignalAdded h g c.val p.sig p.sen ∧
        (quarterX g (c.val / 16)).releases = (quarterX h (c.val / 16)).releases ++ [(c.val, p.demand, h.clk + 31)] ∧ SameMem h g)) ∧
    (∀ r, (quarterX h (c.val / 16)).releases.find? (fun r => r.1 == c.val) = some r → r.2.2 ≤ h.clk → Answers (.dykeRelease c t) s (fun g =>
        (quarterX g (c.val / 16)).releases = (quarterX h (c.val / 16)).releases.erase r ∧
        getF g dyke_ACTIVE (c.val / 16) = getF h dyke_ACTIVE (c.val / 16) - r.2.1 ∧
        g = { h with regs := g.regs, quarters := g.quarters }))

/-- KSTEP (R93 to R100, R109): between the start and the end of a pass a narrow k-step that meets no fault adds one product to the run
register of every enabled cell of every member field and moves the pass on by one; the last k-step of a run without wide steps also folds
every run register into its accumulator with one rounding; a wide step that is not its run's last moves the wide run on by one and is
counted. The first k-step of a run acts on what the run's start leaves. -/
def Obligations.KStepsAdd : Prop :=
  ∀ (s : State) (c : Croft) (t : Nat) (reads : List MemErr) (p0 p : Pass) (rest0 rest : List Pass),
    let h0 := now s t
    (croftX h0 c.val).lane = p0 :: rest0 → p0.granted.isSome = true → p0.done = false →
    let h := if p0.wideOn = false ∧ p0.k % 32 = 0 then runE (beginRun c.val p0 reads) h0 else h0
    (croftX h c.val).lane = p :: rest →
    (p.wideOn = false → p.k % 32 ≠ 31 → Answers (.kstep c [] t reads) s (fun g =>
      (croftX g c.val).lane.head? = some { p with k := p.k + 1, issued := p.issued + (if ganged p then 4 else 1) } ∧ SameMem h g ∧
      (∀ f, f < 4 → bit p.fields f = true → (fieldX g (4 * c.val + f)).runs =
        (fieldX h (4 * c.val + f)).runs.map (fun kr => (kr.1, takeProduct kr.2
          (presented p.fmtA ((stepCodes h c.val p 0 p.k).getD (kr.1 / 256) 0) (p.hdrs.getD (kr.1 / 256) 0))
          (presented p.fmtW ((stepCodes h c.val p (1 + f) p.k).getD (kr.1 % 256) 0) (p.hdrs.getD (256 * (1 + f) + kr.1 % 256) 0)) 0))))) ∧
    (p.wideOn = false → p.k % 32 = 31 → widePositions h c.val p (p.k / 32) = [] →
      (∀ f, f < 4 → ((fieldX h (4 * c.val + f)).runs.map (·.1)).Nodup ∧ ∀ kr, kr ∈ (fieldX h (4 * c.val + f)).runs → kr.1 < 65536) →
      Answers (.kstep c [] t reads) s (fun g =>
      (∃ p', (croftX g c.val).lane.head? = some p' ∧ p'.k = p.k + 1 ∧ p'.done = decide (32 * p.kruns ≤ p.k + 1)) ∧
      (∀ f k r, f < 4 → bit p.fields f = true → (k, r) ∈ (fieldX g (4 * c.val + f)).runs →
        accOf g (4 * c.val + f) k = foldAcc (accOf h (4 * c.val + f) k) r) ∧ SameMem h g)) ∧
    (p.wideOn = true → 2 ≤ p.wideLeft.length → Answers (.kstep c [] t reads) s (fun g =>
      (croftX g c.val).lane.head? =
        some { p with wideIx := p.wideIx + 1, wideLeft := p.wideLeft.drop 1, issued := p.issued + 4 } ∧ SameMem h g ∧
      (∀ f, f < 4 → bit p.fields f = true →
        getF g field_WIDE_STEPS (4 * c.val + f) = (getF h field_WIDE_STEPS (4 * c.val + f) + 1) % 2 ^ 32)))

/-- DRAIN_ROW (R103, R105, R108, R112, R175): a swap begins by taking the staged drain; each row that is not the last moves it on by one,
puts what stages 1 to 4 make of a row that its pass's masks write into the drain buffer, and reloads the row; the last ends it.
DRAIN_ROW_WRITE (R112, R160, R207, R208, R296): the oldest drained row leaves the buffer; one that goes to the barn writes its codes and
headers at its row of its field's columns, and the extracted columns inside the barn to their store, and no other byte changes. One that
goes to the pound waits until the pound has taken all of it and, for the mill, while its link takes no chunks. -/
def Obligations.DrainRows : Prop :=
   (∀ (s : State) (c : Croft) (f : FieldIx) (t : Nat) (errs : List CellErr) (reads : List MemErr),
      let h := now s t
      let fi := 4 * c.val + f.val
      (∀ sw, (fieldX h fi).swap = some sw → (fieldX h fi).buf.length < 16 → Answers (.drainRow c f errs t reads) s (fun g =>
        (sw.row < 255 → (fieldX g fi).swap = some { sw with row := sw.row + 1 }) ∧
        (255 ≤ sw.row → (fieldX g fi).swap = none ∧ (fieldX g fi).loaded = true ∧ flag g field_STATUS_DRAINING fi = false) ∧
        (rowWritten sw.d.masks sw.row = true → (drainSet h c.val sw.d.id).reject = false → sw.d.descBad = false →
          ∃ r : DrainedRow, (fieldX g fi).buf = (fieldX h fi).buf ++ [r] ∧ r.row = sw.row ∧ r.d = sw.d ∧ r.chunks = 0 ∧
            (errs = [] → r.codes = (rowStages f.val sw.d.fmtOut sw.d ((drainSet h c.val sw.d.id).scale.getD (127, 0, false)).1
              ((drainSet h c.val sw.d.id).scale.getD (127, 0, false)).2.1 ((drainSet h c.val sw.d.id).scale.getD (127, 0, false)).2.2
              (rowNums h [] f.val fi sw.row sw.d.masks)).blocks.flatMap (·.codes))) ∧
        ((rowWritten sw.d.masks sw.row = false ∨ (drainSet h c.val sw.d.id).reject = true ∨ sw.d.descBad = true) →
          (fieldX g fi).buf = (fieldX h fi).buf) ∧
        (Recovers reads → SameMem h g ∧ ∀ vs, loadRow h c.val f.val sw.l sw.row = some vs → vs.length = 256 → sw.row < 256 →
          ∀ j, j < 256 → some (accOf g fi (256 * sw.row + j)) = vs[j]?))) ∧
      (∀ d, (fieldX h fi).swap = none → (fieldX h fi).drain = some d → (inLane h c.val d.run = false) → (fieldX h fi).buf.length < 16 →
        (∀ l, (fieldX h fi).load = some l → l.alone = false) → Answers (.drainRow c f errs t reads) s (fun g =>
          (fieldX g fi).drain = none ∧ (fieldX g fi).load = none ∧
          (fieldX g fi).swap = some { d := d, l := (fieldX h fi).load.getD {}, row := 1 } ∧
          flag g field_STATUS_DRAINING fi = true ∧ getF g field_PASS_FMT_FMT_OUT fi = d.fmtOut % 16 ∧ (Recovers reads → SameMem h g))) ∧
      (∀ sw, (fieldX h fi).swap = some sw → 16 ≤ (fieldX h fi).buf.length → Becomes (.drainRow c f errs t reads) s h)) ∧
   (∀ (s : State) (c : Croft) (f : FieldIx) (t : Nat) (reads : List MemErr) (r : DrainedRow) (rest : List DrainedRow),
      let h := now s t
      let fi := 4 * c.val + f.val
      let n := 32 * fmtWidth r.d.fmtOut
      let a := r.d.daddr + r.row * r.d.dstride + f.val * n
      let ha := r.d.haddr + r.row * r.d.hstride + 16 * f.val
      let hn := if hasHeader r.d.fmtOut then 2 * r.hdrs.length else 0
      let o := r.d.wdStore
      let inBarn := fun (x n b : Nat) => c.val * 0xC00000 + x ≤ b ∧ b < c.val * 0xC00000 + x + n
      (fieldX h fi).buf = r :: rest →
      (r.d.dest = false → Recovers reads → touchesProt h c.val a n = false →
        (hasHeader r.d.fmtOut = true → touchesProt h c.val ha hn = false) →
        (r.outl = [] ∨ 0xC00000 < o + 8192 → Answers (.drainRowWrite c f t reads) s (fun g =>
          (fieldX g fi).buf = rest ∧ (hasHeader r.d.fmtOut = false → barnRd g c.val a n = payloadBytes r.d.fmtOut r.codes) ∧
          (hasHeader r.d.fmtOut = true → barnRd g c.val ha hn = r.hdrs.flatMap (leBytes 2)) ∧
          (∀ sp b, ¬ (sp = .barn ∧ (inBarn a n b ∨ inBarn ha hn b)) → rd8 g sp b = rd8 h sp b))) ∧
        (o + 8192 ≤ 0xC00000 → touchesProt h c.val o 8192 = false → r.row < 256 → (∀ e, e ∈ r.outl → e.1 < 8) → (r.outl.map (·.1)).Nodup →
          Answers (.drainRowWrite c f t reads) s (fun g =>
          (fieldX g fi).buf = rest ∧ (∀ e, e ∈ r.outl → barnRd g c.val (o + 512 * e.1 + 2 * r.row) 2 = leBytes 2 e.2.1 ∧
            barnRd g c.val (o + 4096 + 512 * e.1 + 2 * r.row) 2 = leBytes 2 e.2.2) ∧
          (∀ sp b, ¬ (sp = .barn ∧ (inBarn a n b ∨ inBarn ha hn b ∨ inBarn o 8192 b)) → rd8 g sp b = rd8 h sp b)))) ∧
      (r.nan = true → r.d.dest = false → Answers (.drainRowWrite c f t reads) s (fun g =>
        getF g field_NAN_ROWS fi = (getF h field_NAN_ROWS fi + 1) % 2 ^ 32 ∧ rawBit g ⟨.field, fi⟩ 5 = true)) ∧
      (r.d.dest = true → r.chunks < rowChunks r ∨ rowStalled h c.val r = true → Becomes (.drainRowWrite c f t reads) s h) ∧
      (r.d.dest = true → rowChunks r ≤ r.chunks → rowStalled h c.val r = false →
        Answers (.drainRowWrite c f t reads) s (fun g => (fieldX g fi).buf = rest)))

/-- INJ_RESIDUE, INJ_RUN_PARITY, INJ_ACC_PARITY and ACC_DATA_READ (R21, R118, R119, R121, R396): an injection is armed in the cell selected
then, and shown; a read of `ACC_DATA_LO` of an idle field returns and holds the selected accumulator, of a busy field an arbitrary value
that is not marked valid, and of a quarter that does not answer 0; during an FLR it returns all ones. -/
def Obligations.FieldWindow : Prop :=
  ∀ (s : State) (c : Croft) (f : FieldIx),
    let h := s.hw
    let fi := 4 * c.val + f.val
    let cell := 256 * getF h field_ACC_SEL_ROW fi + getF h field_ACC_SEL_COL fi
    let x := fieldX h fi
    let armed := fun (g : Hw) (k : Nat × Nat × Nat) => flag g field_STATUS_INJ_ARMED fi = true ∧ fieldX g fi = { x with injCells := k } ∧
      (∀ i, i ≠ fi → fieldX g i = fieldX h i) ∧ g = { h with regs := g.regs, fields := g.fields } ∧
      SameRegs (fun a => a = fAddr field_CTRL_INJ_RESIDUE fi ∨ a = fAddr field_STATUS_INJ_ARMED fi) h g
    (hostAway h = false → quarterGone h (c.val / 16) = false →
      Answers (.injResidue c f) s (fun g => flag g field_CTRL_INJ_RESIDUE fi = true ∧ armed g (cell, x.injCells.2.1, x.injCells.2.2)) ∧
      Answers (.injRunParity c f) s (fun g => flag g field_CTRL_INJ_RUN_PARITY fi = true ∧ armed g (x.injCells.1, cell, x.injCells.2.2)) ∧
      Answers (.injAccParity c f) s (fun g =>
        flag g field_CTRL_INJ_ACC_PARITY fi = true ∧ armed g (x.injCells.1, x.injCells.2.1, cell)) ∧
      (flag h field_STATUS_BUSY fi = false → Answers (.accDataRead c f) s (fun g =>
        let v := (accOf h fi cell).toNat
        g.outbox = .regData (BitVec.ofNat 32 v) :: h.outbox ∧ getF g field_ACC_DATA_LO fi = v % 2 ^ 32 ∧
        getF g field_ACC_DATA_HI_ACC fi = v / 2 ^ 32 ∧ flag g field_ACC_DATA_HI_VALID fi = true ∧
        g = { h with regs := g.regs, outbox := g.outbox })) ∧
      (flag h field_STATUS_BUSY fi = true → Answers (.accDataRead c f) s (fun g =>
        g.outbox = .regData (Config.freeWord h.free) :: h.outbox ∧ flag g field_ACC_DATA_HI_VALID fi = false ∧
        g = { h with regs := g.regs, outbox := g.outbox, free := h.free + 1 }))) ∧
    (hostAway h = false → quarterGone h (c.val / 16) = true →
      Becomes (.accDataRead c f) s { h with outbox := .regData 0 :: h.outbox }) ∧
    (h.gate.linkDown = false → h.gate.off = false → h.gate.flr = true →
      Becomes (.accDataRead c f) s { h with outbox := .regData 0xFFFFFFFF :: h.outbox })
/-! Shared units of a croft -/

/-- MOVE, STASH, UNSTASH, CHECK, VOP, SEND, RECV and REDUCE (R128, R163, R177, R179, R184): each enters its unit's queue with its operands,
and the stream goes on; with the queue full it is not taken, and only time passes. -/
def Obligations.UnitsQueue : Prop :=
  ∀ (s : State) (c : Croft) (st : Strm) (w : BitVec 128) (t : Nat),
    let h := nowIssue s c st t
    let n := sIx c st
    let x := croftX h c.val
    let fr := fun (g : Hw) => Retired c st h g ∧ g = { h with regs := g.regs, streams := g.streams, crofts := g.crofts }
    let mv := fun (i : Instr) (op : Nat) => Issues s c st w t op okMove →
      (x.sluice.length < 16 → Answers i s (fun g => fr g ∧ getF g sluice_STATUS_QDEPTH c.val = x.sluice.length + 1 ∧
        (croftX g c.val).sluice = x.sluice ++ [
          ({ op := op, stream := strmIx st, slot := getF h stream_SLOT n, desc := wb w 47 24, count := wb w 23 16, sig := wb w 53 48, sen := w.getLsbD 54 } : SluiceInstr)])) ∧
      (16 ≤ x.sluice.length → Becomes i s h)
    let lk := fun (i : Instr) (k : Nat) => Issues s c st w t (0x60 + k) (okLink k) →
      (x.pound.length < 8 → Answers i s (fun g => fr g ∧ ∃ r : PoundReq, (croftX g c.val).pound = x.pound ++ [r] ∧ r.op = k ∧
        r.dev = wb w 32 16 ∧ r.quarter = wb w 34 33 ∧ r.croft = wb w 38 35 ∧ r.laddr = wb w 87 64 ∧ r.len = 64 * (wb w 103 88 + 1) ∧
        r.raddr = (if w.getLsbD 39 then 4 * wb w 63 40 else wb w 63 40) ∧ r.data = [])) ∧
      (8 ≤ x.pound.length → Becomes i s h)
    mv (.move c st w t) 0x30 ∧ mv (.stash c st w t) 0x31 ∧ mv (.unstash c st w t) 0x32 ∧ mv (.check c st w t) 0x33 ∧
    lk (.send c st w t) 0 ∧ lk (.recv c st w t) 1 ∧ lk (.reduce c st w t) 2 ∧
    (Issues s c st w t 0x40 okVop →
      (x.vec.length < 4 → Answers (.vop c st w t) s (fun g => fr g ∧ ∃ v : VecInstr, (croftX g c.val).vec = x.vec ++ [v] ∧ v.fn = wb w 23 16 ∧
        v.fmtA = wb w 27 24 ∧ v.fmtD = wb w 31 28 ∧ v.count = wb w 47 32 ∧ v.daddr = wb w 71 48 ∧ v.aaddr = wb w 95 72 ∧
        v.baddr = wb w 119 96 ∧ v.sig = wb w 125 120 ∧ v.sen = w.getLsbD 126 ∧ v.written = false)) ∧
      (4 ≤ x.vec.length → Becomes (.vop c st w t) s h))

/-- TALLY_OPEN, TALLY_CLOSE, TALLY_DELIVERY_LAND and SLOT_KEY_READ (R163, R183, R226, R231, R257): the tally works off its queue of four in
order; a group gets a free slot once; closing it delivers its counts, to the sheet that closed where it comes in the clk of the verdict
edge, and frees the slot; a delivery lands in the sheet it belongs to, and its signal is left for the clk after; the key is read with a
snapshot of its slot.
Counts are summed, peaks kept (R227 to R229): adding a contribution to a slot adds every count up to the cap of its field and takes the
larger `AMAX`; a peak list holds each channel once, largest first. -/
def Obligations.TalliesCount : Prop :=
   (∀ (s : State) (c : Croft) (st : Strm) (w : BitVec 128) (t : Nat) (q : Quarter),
      let h := nowIssue s c st t
      let gid := wb w 29 16
      let ts := (croftX h c.val).tally
      let opens := Issues s c st w t 0x50 okTallyOpen
      let closes := Issues s c st w t 0x51 okTallyClose
      let opening : TallyInstr := { close := false, group := gid }
      let closing : TallyInstr := { close := true, group := gid, sig := wb w 35 30, sen := w.getLsbD 36 }
      let queues := fun (i : Instr) (x : TallyInstr) => Answers i s (fun g => Retired c st h g ∧ (croftX g c.val).tally = ts ++ [x] ∧
        g = { h with regs := g.regs, streams := g.streams, crofts := g.crofts })
      let works := fun (i : Instr) => Answers i s (fun g => Retired c st h g ∧ (croftX g c.val).tally = [] ∧ SameMem h g)
      (opens → 4 ≤ ts.length ∨ noWindow h c.val gid = true → ∀ b, Becomes (.tallyOpen c st w t b) s h) ∧
      (opens → ts.length < 4 → noWindow h c.val gid = false → queues (.tallyOpen c st w t true) opening ∧ works (.tallyOpen c st w t)) ∧
      (closes → 4 ≤ ts.length → ∀ b, Becomes (.tallyClose c st w t b) s h) ∧
      (closes → ts.length < 4 → queues (.tallyClose c st w t true) closing ∧ works (.tallyClose c st w t)) ∧
      (opens → ts = [] → (openSlot h c.val gid).isSome = true → Answers (.tallyOpen c st w t) s (fun g =>
        Retired c st h g ∧ g.tslots = h.tslots)) ∧
      (∀ i, opens → ts = [] → openSlot h c.val gid = none → freeSlot h c.val = some i →
        Answers (.tallyOpen c st w t) s (fun g => Retired c st h g ∧ tslotOf g c.val i = { isOpen := true, c := { gid := gid } } ∧
          (∀ j, j < 64 → j ≠ i → tslotOf g c.val j = tslotOf h c.val j) ∧
          getF g tally_STATUS_OPEN c.val = (getF h tally_STATUS_OPEN c.val + 1) % 128 ∧
          g = { h with regs := g.regs, streams := g.streams, tslots := g.tslots, crofts := g.crofts })) ∧
      (closes → ts = [] → openSlot h c.val gid = none → Answers (.tallyClose c st w t) s (fun g =>
        Retired c st h g ∧ g.tslots = h.tslots ∧ SignalAdded h g c.val (wb w 35 30) (w.getLsbD 36))) ∧
      (∀ i, closes → ts = [] → openSlot h c.val gid = some i → Answers (.tallyClose c st w t) s (fun g =>
        Retired c st h g ∧ tslotOf g c.val i = {} ∧
        (quarterX g (c.val / 16)).deliveries = (quarterX h (c.val / 16)).deliveries ++ [
          ({ croft := c.val, closing := inVerdictClk h, c := (tslotOf h c.val i).c, peaks := (tslotOf h c.val i).peaks, sig := wb w 35 30, sen := w.getLsbD 36 } : Delivery)] ∧
        getF g tally_DELIVERIES c.val = (getF h tally_DELIVERIES c.val + 1) % 2 ^ 32)) ∧
      (∀ d ds, let h := now s t
        (quarterX h q.val).deliveries = d :: ds → Answers (.tallyDeliveryLand q t) s (fun g =>
        (quarterX g q.val).deliveries = ds ∧
        (quarterX g q.val).landed = (quarterX h q.val).landed ++ (if d.sen then [(d.croft, d.sig)] else []) ∧ SameMem h g ∧
        (d.closing = false → (quarterX g q.val).sheet = (sheetAdd (quarterX h q.val).sheet d).1 ∧
          (quarterX g q.val).closed = (quarterX h q.val).closed) ∧
        (d.closing = true → (quarterX g q.val).sheet = (quarterX h q.val).sheet))) ∧
      (hostAway s.hw = false → quarterGone s.hw (c.val / 16) = false → Answers (.slotKeyRead c) s (fun g =>
        let x := tslotOf s.hw c.val (getF s.hw tally_SLOT_SEL c.val)
        g.outbox = .regData (BitVec.ofNat 32 (x.c.gid + b2n x.isOpen * 2 ^ 31)) :: s.hw.outbox ∧
        (croftX g c.val).slotSnap = some (getF s.hw tally_SLOT_SEL c.val, slotWords x) ∧
        g = { s.hw with crofts := g.crofts, outbox := g.outbox })) ∧
      (hostAway s.hw = false → quarterGone s.hw (c.val / 16) = true →
        Becomes (.slotKeyRead c) s { s.hw with outbox := .regData 0 :: s.hw.outbox }) ∧
      (s.hw.gate.linkDown = false → s.hw.gate.off = false → s.hw.gate.flr = true →
        Becomes (.slotKeyRead c) s { s.hw with outbox := .regData 0xFFFFFFFF :: s.hw.outbox })) ∧
   ((∀ a b : Counts, a.total + b.total < 2 ^ 48 → a.sat + b.sat < 2 ^ 40 → a.zero + b.zero < 2 ^ 40 → a.nonz + b.nonz < 2 ^ 48 →
      a.ovfb + b.ovfb < 2 ^ 32 → a.amax < 2 ^ 31 → b.amax < 2 ^ 31 →
      addCounts a b = (
        { gid := a.gid, total := a.total + b.total, sat := a.sat + b.sat, zero := a.zero + b.zero, nonz := a.nonz + b.nonz,
          ovfb := a.ovfb + b.ovfb, amax := max a.amax b.amax }, false)) ∧
    (∀ a b : Counts, 2 ^ 40 ≤ a.sat + b.sat → (addCounts a b).1.sat = 2 ^ 40 - 1 ∧ (addCounts a b).2 = true) ∧
    (∀ l p, (l.map (·.chan)).Nodup → l.Pairwise (fun x y => peakBefore x y = true) →
      ((addPeak l p).map (·.chan)).Nodup ∧ (addPeak l p).Pairwise (fun x y => peakBefore x y = true) ∧
      (p.mag ≠ 0 → ∃ x ∈ addPeak l p, x.chan = p.chan ∧ p.mag ≤ x.mag) ∧ (∀ x ∈ l, ∃ y ∈ addPeak l p, y.chan = x.chan ∧ x.mag ≤ y.mag)))

/-- DESC_COPY, DESC_FILL, DESC_LANE, DESC_SEAL, DESC_VERIFY, DESC_STASH and DESC_UNSTASH (R178, R195, R198, R222, R224): the next descriptor
of the oldest instruction is begun in order, by the command of its move type, as the barn holds it after the read's findings. A valid one is
performed and counted, and the slots it writes into are noted; an invalid one is captured with its cause, raises `DESC_INVALID`, and moves
nothing. DESC_COMPLETE (R177, R221) ends an instruction whose descriptors have all been begun, and counts what it waited. Which cause is
captured where several hold is the model's choice (log entry 23). -/
def Obligations.DescriptorsInOrder : Prop :=
  (∀ (s : State) (i : Instr) (c : Croft) (errs : List MemErr) (t typ : Nat) (si : SluiceInstr) (rest : List SluiceInstr),
    descOf i = some (c, errs, t, typ) →
    let h0 := now s t
    let a := si.desc + 64 * si.next
    let mine := (readDesc h0 c.val a).typ = typ ∨ 6 < (readDesc h0 c.val a).typ
    let h := afterRead h0 0 (c.val / 16) c.val [(a, 64)] errs
    let d := readDesc h c.val a
    let pg := si.page.getD (slotOf h0 c.val si.slot)
    (croftX h0 c.val).sluice = si :: rest → si.next ≤ si.count →
    (a + 64 ≤ 0xC00000 → mine → descCause h c.val si.op d pg = 0 → Answers i s (fun g =>
      (croftX g c.val).sluice =
        { si with next := si.next + 1, page := some pg, wrote := si.wrote ++ writtenKeys h (c.val / 16) c.val d pg } :: rest ∧
      getF g sluice_DESC_COUNT c.val = (getF h sluice_DESC_COUNT c.val + 1) % 2 ^ 32)) ∧
    (a + 64 ≤ 0xC00000 → mine → descCause h c.val si.op d pg ≠ 0 → Answers i s (fun g =>
      (croftX g c.val).sluice = { si with next := si.next + 1, page := some pg } :: rest ∧ Raised h g ⟨.sluice, c.val⟩ 0 ∧
      (flag h sluice_INVALID_INFO_VALID c.val = false → getF g sluice_INVALID_INFO_DESC c.val = a ∧
        getF g sluice_INVALID_INFO_CAUSE c.val = descCause h c.val si.op d pg ∧ flag g sluice_INVALID_INFO_VALID c.val = true) ∧
      g.csum = h.csum ∧ SameMem h g)) ∧
    (0xC00000 < a + 64 → Answers i s (fun g =>
      (croftX g c.val).sluice = { si with next := si.next + 1, page := some pg } :: rest ∧ Raised h0 g ⟨.sluice, c.val⟩ 0 ∧
      g.csum = h0.csum ∧ SameMem h0 g)) ∧
    (a + 64 ≤ 0xC00000 → ¬ mine → Becomes i s h0)) ∧
  (∀ (s : State) (c : Croft) (t wait : Nat) (si : SluiceInstr) (rest : List SluiceInstr), (croftX (now s t) c.val).sluice = si :: rest →
    si.count < si.next → Answers (.descComplete c t wait) s (fun g =>
      (croftX g c.val).sluice = rest ∧ SignalAdded (now s t) g c.val si.sig si.sen ∧
      getF g sluice_WAIT_CLK c.val = (getF (now s t) sluice_WAIT_CLK c.val + wait) % 2 ^ 32 ∧ SameMem (now s t) g))

/-- DESC_COPY, DESC_FILL and DESC_UNSTASH (R199, R209, R213): which bytes each writes, and that no other byte of any memory changes.
Stated where the bytes that are read hold what was written to them: no finding lasts, no line is poisoned, and a verified source matches
its checksums. -/
def Obligations.MovesWriteBytes : Prop :=
  ∀ (s : State) (c : Croft) (errs : List MemErr) (t : Nat) (si : SluiceInstr) (rest : List SluiceInstr),
    let h := now s t
    let q := c.val / 16
    let a := si.desc + 64 * si.next
    let d := readDesc h c.val a
    let pg := si.page.getD (slotOf h c.val si.slot)
    let dst := fun r => spAddr d.ds q c.val (d.daddr + r * d.dstride)
    let apart := fun (g : Hw) => ∀ sp b, (∀ r, r ≤ d.rows → ¬ (sp = spMem d.ds ∧ dst r ≤ b ∧ b < dst r + d.rowLen)) → rd8 g sp b = rd8 h sp b
    (croftX h c.val).sluice = si :: rest → si.next ≤ si.count → a + 64 ≤ 0xC00000 → descCause h c.val si.op d pg = 0 →
    (∀ r, r ≤ d.rows → d.ds = 0 → touchesProt h c.val (d.daddr + r * d.dstride) d.rowLen = false) → h.gate.poison = [] → Recovers errs →
    (d.typ = 0 → (d.vsrc = true → ∀ tile, tile ∈ spanTiles (rowSpans d.saddr d.sstride d.rows d.rowLen) → tileMatches h d.ss q c.val tile = true) →
      Answers (.descCopy c errs t) s (fun g => apart g ∧
      (d.rowLen ≤ d.dstride ∨ d.rows = 0 → ∀ r k, r ≤ d.rows → k < d.rowLen →
        rd8 g (spMem d.ds) (dst r + k) = rd8 h (spMem d.ss) (spAddr d.ss q c.val (d.saddr + r * d.sstride + k))))) ∧
    (d.typ = 1 → Answers (.descFill c errs t) s (fun g => apart g ∧
      (∀ r k, r ≤ d.rows → k < d.rowLen → rd8 g (spMem d.ds) (dst r + k) = BitVec.ofNat 8 (d.pattern / 256 ^ (k % 8))))) ∧
    (d.typ = 6 → (∀ u, u < unitCount d → (unitOf h q (stashPage pg d u)).isSome = true) → Answers (.descUnstash c errs t) s (fun g =>
      apart g ∧ (d.rowLen ≤ d.dstride ∨ d.rows = 0 → ∀ r k u, r ≤ d.rows → k < d.rowLen →
        unitOf h q (stashPage pg d ((r * d.rowLen + k) / 4032)) = some u →
        some (rd8 g (spMem d.ds) (dst r + k)) = u[(r * d.rowLen + k) % 4032]?)))

/-- DESC_SEAL, DESC_VERIFY, DESC_STASH and DESC_LANE (R199, R204, R209, R216, R217, R219), where no finding lasts and no line is poisoned: a
sealed tile's slot holds the CRC-32C of its contents; a verification changes no memory, and raises `CSUM_FAULT` and an abandon exactly
where some tile does not match its slot; a stash writes one slot per page, the CRC-32C of the unit; a lane move counts its lines.
CSUM_DATA_WRITE and HBM_CSUM_DATA_WRITE (R218, R225, R362, R367): the selected slot takes the value and reads as it; no memory and no
register changes but for what the read half of an HBM slot's write finds. -/
def Obligations.ChecksumsKept : Prop :=
   (∀ (s : State) (c : Croft) (errs : List MemErr) (t : Nat) (si : SluiceInstr) (rest : List SluiceInstr),
      let h := now s t
      let q := c.val / 16
      let a := si.desc + 64 * si.next
      let d := readDesc h c.val a
      let pg := si.page.getD (slotOf h c.val si.slot)
      let src := (List.range (d.rows + 1)).flatMap (fun r => rdBytes h (spMem d.ss) (spAddr d.ss q c.val (d.saddr + r * d.sstride)) d.rowLen)
      let tiles := spanTiles (rowSpans d.saddr d.sstride d.rows d.rowLen)
      (croftX h c.val).sluice = si :: rest → si.next ≤ si.count → a + 64 ≤ 0xC00000 → descCause h c.val si.op d pg = 0 → h.gate.poison = [] → Recovers errs →
      (d.typ = 3 → Answers (.descSeal c errs t) s (fun g => SameMem h g ∧
        (∀ tile, tile ∈ spanTiles (rowSpans d.daddr d.dstride d.rows d.rowLen) →
          csumGet g (csumKey d.ds q c.val tile) = tileCrc h d.ds q c.val tile))) ∧
      (d.typ = 4 → (∀ tile, tile ∈ tiles → tileMatches h d.ss q c.val tile = true) → Answers (.descVerify c errs t) s (fun g =>
        SameMem h g ∧ g.csum = h.csum ∧ g.bell = h.bell ∧
        getF g sluice_CSUM_FAULT_COUNT c.val = getF h sluice_CSUM_FAULT_COUNT c.val ∧
        rawBit g ⟨.sluice, c.val⟩ 3 = rawBit h ⟨.sluice, c.val⟩ 3)) ∧
      (d.typ = 4 → (∃ tile, tile ∈ tiles ∧ tileMatches h d.ss q c.val tile = false) → Answers (.descVerify c errs t) s (fun g =>
        SameMem h g ∧ g.csum = h.csum ∧ rawBit g ⟨.sluice, c.val⟩ 3 = true ∧ Abandoned g q)) ∧
      (d.typ = 5 → (d.vsrc = true → ∀ tile, tile ∈ tiles → tileMatches h d.ss q c.val tile = true) → Answers (.descStash c errs t) s (fun g =>
        getF g sluice_STASH_IN c.val = (getF h sluice_STASH_IN c.val + unitCount d) % 2 ^ 32 ∧
        (∀ u, u < unitCount d →
          let part := (src.drop (4032 * u)).take 4032
          csumGet g (csumKeyHbm q (stashPage pg d u)) = BitVec.ofNat 32 (crc32c (part ++ List.replicate (4032 - part.length) 0))))) ∧
      (d.typ = 2 → Answers (.descLane c errs t) s (fun g =>
        getF g sluice_LINES_MOVED c.val =
          (getF h sluice_LINES_MOVED c.val + (d.kruns + 1) * (32 * ((32 * fmtWidth d.fmt + 63) / 64) + 8)) % 2 ^ 32))) ∧
   (∀ (s : State) (c : Croft) (k : Stack) (v : Word) (errs : List MemErr), hostAway s.hw = false →
      (quarterGone s.hw (c.val / 16) = false → Answers (.csumDataWrite c v) s (fun g =>
        csumGet g (csumSelKey s.hw c.val) = v ∧ (∀ j, j ≠ csumSelKey s.hw c.val → csumGet g j = csumGet s.hw j) ∧
        g = { s.hw with csum := g.csum })) ∧
      (quarterGone s.hw (k.val / 3) = false → Answers (.hbmCsumDataWrite k v errs) s (fun g =>
        let tile := getF s.hw hbm1_CSUM_SEL k.val
        let h1 := runE (eccWrite 2 (k.val / 3) (16 * (k.val / 3)) (hbmD + 4 * tile) 4 errs) s.hw
        let key := csumKeyHbm (k.val / 3) tile
        csumGet g key = v ∧ (∀ j, j ≠ key → csumGet g j = csumGet h1 j) ∧ g = { h1 with csum := g.csum })))

/-- The stash codec loses nothing (R210 to R213): every unit, coded with the codec on or off and padded to a page, decodes to itself. -/
def Obligations.StashRoundTrip : Prop :=
  ∀ (codec : Bool) (u : List Byte), u.length = 4032 →
    let code := encodeUnit codec u
    code.length ≤ 4096 ∧ decodePage (code ++ List.replicate (4096 - code.length) 0) = some u

/-- VOP_ADD, VOP_SUB, VOP_MUL, VOP_MIN, VOP_MAX, VOP_ABS, VOP_NEG, VOP_CMP_LT, VOP_CMP_LE, VOP_CMP_EQ, VOP_SEL, VOP_COPY, VOP_FMA, VOP_CVT,
VOP_CVT_JIT, VOP_CVT_HDR, VOP_RED_SUM, VOP_RED_MAX, VOP_EXP2, VOP_LOG2, VOP_RECIP, VOP_RSQRT, VOP_SINPI, VOP_COSPI, VOP_TANH and VOP_SIGMOID (R151,
R154, R160, R164, R180): the operation at the front of the queue writes its results to d, and the headers that a block conversion sets to
b, and no other byte, and occupies the unit for its clks; one with a format it does not accept raises `FMT_INVALID` and leaves, and one that would run past the barn leaves.
VOP_COMPLETE adds the signal of one that has executed, once its clks have passed (R181). -/
def Obligations.VectorOperations : Prop :=
  ∀ (s : State) (i : Instr) (c : Croft) (pathBad : Bool) (t : Nat) (reads : List MemErr) (fn : Nat) (v : VecInstr) (rest : List VecInstr),
    let h := now s t
    let o := vecResult h c.val v
    let n := elemBytes v.fmtD (dCount v)
    let d := c.val * 0xC00000 + v.daddr
    let b := c.val * 0xC00000 + v.baddr
    (croftX h c.val).vec = v :: rest →
    (vopOf i = some (c, pathBad, t, reads, fn) → v.fn = fn → v.written = false →
      (fnFormats fn v.fmtA v.fmtD = true → pastBarn v = false → Answers i s (fun g =>
        (croftX g c.val).vec = { v with written := true, freeAt := h.clk + vecClks v } :: rest ∧ flag g vector_STATUS_BUSY c.val = true ∧
        (Recovers reads →
          (touchesProt h c.val v.daddr n = false →
            (∀ x, x ∈ o.hdrs → v.daddr + n ≤ v.baddr + 2 * x.1 ∨ v.baddr + 2 * x.1 + 2 ≤ v.daddr) →
            barnRd g c.val v.daddr n = leBytes n (packCodes (fmtWidth v.fmtD) o.codes)) ∧
          (∀ x, x ∈ o.hdrs → touchesProt h c.val (v.baddr + 2 * x.1) 2 = false → barnRd g c.val (v.baddr + 2 * x.1) 2 = leBytes 2 x.2) ∧
          (∀ sp y, ¬ (sp = .barn ∧ d ≤ y ∧ y < d + n) → (∀ x, x ∈ o.hdrs → ¬ (sp = .barn ∧ b + 2 * x.1 ≤ y ∧ y < b + 2 * x.1 + 2)) →
            rd8 g sp y = rd8 h sp y)))) ∧
      (fnFormats fn v.fmtA v.fmtD = false → Answers i s (fun g =>
        (croftX g c.val).vec = rest ∧ rawBit g ⟨.vector, c.val⟩ 0 = true ∧ SignalAdded h g c.val v.sig v.sen ∧ SameMem h g)) ∧
      (fnFormats fn v.fmtA v.fmtD = true → pastBarn v = true → Answers i s (fun g =>
        (croftX g c.val).vec = rest ∧ SignalAdded h g c.val v.sig v.sen ∧ SameMem h g))) ∧
    (v.written = true → v.freeAt ≤ h.clk → Answers (.vopComplete c t) s (fun g =>
      (croftX g c.val).vec = rest ∧ getF g vector_OP_COUNT c.val = (getF h vector_OP_COUNT c.val + 1) % 2 ^ 32 ∧
      SignalAdded h g c.val v.sig v.sen ∧ SameMem h g)) ∧
    (v.written = false ∨ h.clk < v.freeAt → Becomes (.vopComplete c t) s h)

/-- The result of each elementwise function (R152, R154, R180): the function of the operands taken exactly, rounded once into the format of d;
`sum_tree` pads a row to a power of two and adds neighbours; the maximum of a row is one of its values; and the special functions at the
values for which R154 states a result. -/
def Obligations.VectorResults : Prop :=
   (∀ (h : Hw) (c k : Nat) (v : VecInstr), k ≤ v.count →
      let x := fun (f a : Nat) => decodeFp f ((unpackCodes (fmtWidth f) (v.count + 1) (barnNat h c a (elemBytes f (v.count + 1)))).getD k 0)
      let a := x v.fmtA v.aaddr
      let b := x v.fmtA v.baddr
      let d := x v.fmtD v.daddr
      let gives := fun (r : Machine.Num) => (vecResult h c v).codes[k]? = some (roundCode r v.fmtD true).1
      (v.fn = 0x00 → gives (numAdd a b)) ∧ (v.fn = 0x01 → gives (numSub a b)) ∧ (v.fn = 0x02 → gives (numMul a b)) ∧
      (v.fn = 0x03 → gives (vMin a b)) ∧ (v.fn = 0x04 → gives (vMax a b)) ∧ (v.fn = 0x05 → gives (absNum a)) ∧
      (v.fn = 0x06 → gives (negate a)) ∧ (v.fn = 0x07 → gives (if numLt a b then numOne else numZero)) ∧
      (v.fn = 0x08 → gives (if numLt a b || numEq a b then numOne else numZero)) ∧
      (v.fn = 0x09 → gives (if numEq a b then numOne else numZero)) ∧ (v.fn = 0x0A → gives (if isZero d then b else a)) ∧
      (v.fn = 0x0B → gives a) ∧ (v.fn = 0x10 → gives (numAdd (numMul a b) d)) ∧ (v.fn = 0x18 → gives a) ∧
      (0x30 ≤ v.fn → v.fn ≤ 0x37 → gives (special v.fn a))) ∧
   ((∀ (f : Nat) (x y z w : Machine.Num), sumTree f [x] = x ∧ sumTree f [x, y] = (rneLong (numAdd x y) f true).1 ∧
      sumTree f [x, y, z] = (rneLong (numAdd (rneLong (numAdd x y) f true).1 (rneLong (numAdd z numZero) f true).1) f true).1 ∧
      sumTree f [x, y, z, w] = (rneLong (numAdd (rneLong (numAdd x y) f true).1 (rneLong (numAdd z w) f true).1) f true).1) ∧
    (∀ (xs : List Machine.Num), xs ≠ [] → xs.all (fun x => !isNan x) = true → maxRow xs ∈ xs ∧ ∀ x ∈ xs, numLt (maxRow xs) x = false) ∧
    (∀ fn, 0x30 ≤ fn → fn ≤ 0x37 → special fn .nan = .nan) ∧
    special 0x30 (.inf false) = .inf false ∧ special 0x30 (.inf true) = numZero ∧ (∀ m : Nat, 128 ≤ m → special 0x30 (.fin false m 0) = .inf false) ∧
    (∀ s e, special 0x31 (.fin s 0 e) = .inf true) ∧ (∀ m e, m ≠ 0 → special 0x31 (.fin true m e) = .nan) ∧ special 0x31 (.inf false) = .inf false ∧
    (∀ s e, special 0x32 (.fin s 0 e) = .inf s) ∧ (∀ s, special 0x32 (.inf s) = .fin s 0 0) ∧
    (∀ s e, special 0x33 (.fin s 0 e) = .inf false) ∧ (∀ m e, m ≠ 0 → special 0x33 (.fin true m e) = .nan) ∧
    (∀ s, special 0x34 (.inf s) = .nan ∧ special 0x35 (.inf s) = .nan) ∧
    special 0x36 (.inf false) = numOne ∧ special 0x36 (.inf true) = negate numOne ∧
    (∀ m : Nat, 8 ≤ m → special 0x36 (.fin false m 0) = numOne ∧ special 0x36 (.fin true m 0) = negate numOne) ∧
    special 0x37 (.inf false) = numOne ∧ special 0x37 (.inf true) = numZero ∧
    (∀ m : Nat, 16 ≤ m → special 0x37 (.fin false m 0) = numOne ∧ special 0x37 (.fin true m 0) = numZero))

/-! The pound and its messages -/

/-- PUT, GET_REQUEST, GET_RESPONSE and GET_TIMEOUT (R132, R185, R339, R340, R347): a delivered PUT, and a response that answers an open GET, write
their payload where the header says and nowhere else, count, and add the signal; a GET is answered with the bytes it names, as they stand
after the read's findings; one whose time has run out is closed, counted, and signals. A message whose check fails, one with a reserved
value and one that does not fit its space is discarded and writes nothing. -/
def Obligations.MessagesDelivered : Prop :=
  ∀ (s : State) (src : MsgSrc) (m : Msg) (t : Nat) (reads : List MemErr) (sh : Sheet),
    let h := now s t
    let q := takerOf src m
    let c := dstCroft q m
    let u := m.dunit.toNat
    let n := m.payload.length
    let lands := fun (g : Hw) => (Recovers reads → Wrote h g (spMem u) (spAddr u q c m.daddr.toNat) m.payload) ∧
      getF g pound_MSG_RX q = (getF h pound_MSG_RX q + 1) % 2 ^ 32 ∧ SignalAdded h g c m.rsig.toNat m.rsen ∧ g.csum = h.csum ∧
      (reads = [] → m.rsen = false ∨ sigVal h c m.rsig.toNat < 65535 → SameRegs (fun a => a = fAddr pound_MSG_RX q) h g)
    (Arrives h src m → beyond m n = false → (u = 0 → touchesProt h c m.daddr.toNat n = false) →
      (m.typ = 1 → Answers (.put src m t reads) s (fun g => lands g ∧ ∀ j, (quarterX g j) = quarterX h j)) ∧
      (∀ og, m.typ = 2 → m.sub = 1 → (quarterX h q).gets.find? (answers q m) = some og → Answers (.getResponse src m t reads) s (fun g =>
        lands g ∧ (quarterX g q).gets = (quarterX h q).gets.erase og)) ∧
      (m.typ = 2 → m.sub = 1 → (quarterX h q).gets.find? (answers q m) = none → Answers (.getResponse src m t reads) s (fun g =>
        getF g pound_DISCARDS q = (getF h pound_DISCARDS q + 1) % 2 ^ 32 ∧ SameMem h g ∧ SameRegs (fun a => a = fAddr pound_DISCARDS q) h g))) ∧
    (Arrives h src m → m.typ = 2 → m.sub = 0 → beyond m (64 * (m.len.toNat + 1)) = false → h.bell.left = false → catchingUp h = false →
      let k := 64 * (m.len.toNat + 1)
      let h1 := afterRead h u q c [(m.daddr.toNat, k)] reads
      let ans := fillSource h q (getAnswer q m (rdBytes h1 (spMem u) (spAddr u q c m.daddr.toNat) k))
      sendable h q ans = true → Answers (.getRequest src m t reads) s (fun g =>
        Sent h g ans ∧ ans.payload = rdBytes h1 (spMem u) (spAddr u q c m.daddr.toNat) k ∧
        ans.daddr.toNat = m.saddr.toNat ∧ ans.rsig = m.lsig ∧ ans.rsen = m.lsen ∧ ans.dq = m.sq ∧ ans.ddev = m.sdev ∧
        getF g pound_MSG_RX q = (getF h pound_MSG_RX q + 1) % 2 ^ 32 ∧ getF g pound_MSG_TX q = (getF h pound_MSG_TX q + 1) % 2 ^ 32 ∧
        SameMem h1 g)) ∧
    (Arrives h src m → m.typ = 1 → beyond m n = true → Answers (.put src m t reads) s (fun g => Discarded h g q 9 m.vc.toNat ∧ SameMem h g)) ∧
    (∀ p, src = .port p → portUp h p.val = true → (portX h p.val).peerDead = false → quarterGone h (p.val / 8) = false →
      let gone := fun (i : Instr) => Answers i s (fun g => Discarded h g q 0 m.vc.toNat ∧ SameMem h g)
      (m.crcOk = false → ∀ i, i ∈ [Instr.put src m t reads, .getRequest src m t reads, .getResponse src m t reads, .reducePut src m t reads,
        .partialSheet src m sh t, .finalSheet src m sh t, .echoRequest src m t, .echoReply src m t] → gone i) ∧
      (m.crcOk = true → msgReserved m = true →
        (m.typ = 1 ∨ strayMsg m = true → gone (.put src m t reads)) ∧ (m.typ = 2 → m.sub ≠ 1 → gone (.getRequest src m t reads)) ∧
        (m.typ = 2 → m.sub = 1 → gone (.getResponse src m t reads)) ∧ (m.typ = 3 → m.sub = 1 → gone (.partialSheet src m sh t)) ∧
        (m.typ = 3 → m.sub = 2 → gone (.finalSheet src m sh t)) ∧ (m.typ = 3 → m.sub ≠ 1 → m.sub ≠ 2 → gone (.reducePut src m t reads)) ∧
        (m.typ = 7 → m.sub = 2 → gone (.echoReply src m t)) ∧ (m.typ = 7 → m.sub ≠ 0 → m.sub ≠ 2 → gone (.echoRequest src m t)))) ∧
    (∀ (k : Quarter) (og : OpenGet), og.croft < 64 →
      (quarterX h k.val).gets.find? (fun g => decide (g.since + getF h pound_GET_TIMEOUT k.val * clkUs ≤ h.clk)) = some og →
      Answers (.getTimeout k t) s (fun g =>
        (quarterX g k.val).gets = (quarterX h k.val).gets.erase og ∧ Discarded h g k.val 3 0 ∧
        SignalAdded h g og.croft og.m.lsig.toNat og.m.lsen ∧ SameMem h g))

/-- CTRL_DEVICE_FAILED, ECHO_REQUEST and ECHO_REPLY (R346): after a report that the peer's device has failed nothing more is delivered from
the port; an echo request is answered with its payload; a reply shows a round trip, which is a free value, because the spec names nothing
that sends an echo request. -/
def Obligations.ControlMessages : Prop :=
  ∀ (s : State) (p : Port) (src : MsgSrc) (m : Msg) (t : Nat) (reads : List MemErr),
    let h := now s t
    let q := takerOf src m
    (portUp s.hw p.val = true → (portX s.hw p.val).peerDead = false → Answers (.ctrlDeviceFailed p) s (fun g =>
      (portX g p.val).peerDead = true ∧ Raised s.hw g ⟨.port0, p.val⟩ 7 ∧ (∀ j, j ≠ p.val → portX g j = portX s.hw j) ∧
      g = { s.hw with regs := g.regs, gateQ := g.gateQ, gate := { s.hw.gate with evMsgs := g.gate.evMsgs }, ports := g.ports })) ∧
    ((portX h p.val).peerDead = true → src = .port p → m.crcOk = true →
      (m.typ = 1 → Becomes (.put src m t reads) s h) ∧ (m.typ = 2 → m.sub = 0 → Becomes (.getRequest src m t reads) s h) ∧
      (m.typ = 2 → m.sub = 1 → Becomes (.getResponse src m t reads) s h) ∧ (m.typ = 3 → m.sub = 0 → Becomes (.reducePut src m t reads) s h)) ∧
    (Reaches h src m → m.typ = 7 → m.sub = 1 → catchingUp h = false →
      let r := fillSource h q { typ := 7, sub := 2, ddev := m.sdev, dq := m.sq, dcroft := m.scroft, len := m.len, pbytes := m.pbytes,
                                payload := m.payload }
      sendable h q r = true → Answers (.echoRequest src m t) s (fun g => Sent h g r ∧ r.payload = m.payload ∧ SameMem h g)) ∧
    (Reaches h src m → m.typ = 7 → m.sub = 2 → src = .port p → Answers (.echoReply src m t) s (fun g =>
      getF g port0_ECHO_RTT p.val = (Config.freeWord h.free).toNat ∧ g.free = h.free + 1 ∧ SameMem h g ∧
      SameRegs (fun a => a = fAddr port0_ECHO_RTT p.val) h g))

/-- POUND_CHUNK_GRANT, REDUCE_PUT and REDUCE_RELEASE (R163, R184, R185, R279, R348, R349): a granted chunk is read from the barn, as it stands after the read's findings, and the last one of
a send leaves as a message and signals; a granted RECV becomes an open GET. A REDUCE_PUT whose turn it is is combined with the bytes of its
window and nowhere else; one that is early is held, and combined in its turn. Which bytes the staging area holds is free. -/
def Obligations.PoundWork : Prop :=
  (∀ (s : State) (q : Quarter) (t c age : Nat) (reads : List (Croft × MemErr)) (r : PoundReq) (rest : List PoundReq),
    let h := now s t
    let a := r.laddr + r.data.length
    let h1 := afterRead h 0 q.val c [(a, min 256 (r.len - r.data.length))] (ofCroft reads c)
    quarterGone h q.val = false → offers h q.val = [(age, c, 4)] → (croftX h c).pound = r :: rest →
    (r.laddr + r.len ≤ 0xC00000 → r.op ≠ 1 → r.data.length + 256 < r.len → Answers (.poundChunkGrant q t reads) s (fun g =>
      (croftX g c).pound = { r with data := r.data ++ barnRd h1 c a 256, since := h.clk + 1 } :: rest ∧
      SameMem h1 g ∧ g = { h1 with crofts := g.crofts })) ∧
    (r.laddr + r.len ≤ 0xC00000 → r.op ≠ 1 → r.data.length ≤ r.len → r.len ≤ r.data.length + 256 → h.bell.left = false →
      catchingUp h = false →
      let m := fillSource h q.val { reqMsg c r with payload := r.data ++ barnRd h1 c a (r.len - r.data.length) }
      sendable h q.val m = true → Answers (.poundChunkGrant q t reads) s (fun g =>
        (croftX g c).pound = rest ∧ Sent h g m ∧ getF g pound_MSG_TX q.val = (getF h pound_MSG_TX q.val + 1) % 2 ^ 32 ∧
        SignalAdded h g c r.lsig r.lsen ∧ SameMem h1 g)) ∧
    (r.laddr + r.len ≤ 0xC00000 → r.op = 1 → h.bell.left = false → catchingUp h = false →
      sendable h q.val (fillSource h q.val (reqMsg c r)) = true → Answers (.poundChunkGrant q t reads) s (fun g =>
        (croftX g c).pound = rest ∧ Sent h g (fillSource h q.val (reqMsg c r)) ∧
        (quarterX g q.val).gets = (quarterX h q.val).gets ++ [({ croft := c, since := h.clk, m := fillSource h q.val (reqMsg c r) } : OpenGet)] ∧
        SameMem h g)) ∧
    (0xC00000 < r.laddr + r.len → Answers (.poundChunkGrant q t reads) s (fun g => (croftX g c).pound = rest ∧
      SignalAdded h g c r.lsig r.lsen ∧ g.outbox = h.outbox ∧ SameMem h g))) ∧
  (∀ (s : State) (q : Quarter) (t c age f : Nat) (reads : List (Croft × MemErr)) (r : DrainedRow) (rest : List DrainedRow), quarterGone (now s t) q.val = false →
    offers (now s t) q.val = [(age, c, f)] → f < 4 → (fieldX (now s t) (4 * c + f)).buf = r :: rest →
    Answers (.poundChunkGrant q t reads) s (fun g => (fieldX g (4 * c + f)).buf = { r with chunks := r.chunks + 1 } :: rest ∧
      g = { now s t with crofts := g.crofts, fields := g.fields })) ∧
  (∀ (s : State) (src : MsgSrc) (m : Msg) (t i r : Nat) (reads : List MemErr) (e : List Nat),
    let q := takerOf src m
    let h0 := now s t
    let h := runE (windowReads q m reads) h0
    let c := dstCroft q m
    let u := m.dunit.toNat
    let n := m.payload.length
    let d := roundDone h q i
    let d' := d.set r (d.getD r 0 + n)
    let mine := (quarterX h q).staged.filter (fun x => x.win == i && x.rank == r)
    let ended := (List.range (rwNsrc e)).all (fun k => decide (rwLen e ≤ d'.getD k 0))
    let h1 := afterRead h u q c [(m.daddr.toNat, n)] reads
    let old := rdBytes h1 (spMem u) (spAddr u q c m.daddr.toNat) n
    Arrives h0 src m → m.typ = 3 → m.sub = 0 → beyond m n = false → findWindow h q m = some (i, e) → rankOf e m = some r →
    m.rfmt.toNat = rwFmt e → m.rop.toNat = b2n (bit (e.getD 0 0) 10) →
    (d.getD r 0 + (mine.map (fun x => x.m.payload.length)).sum) % rwLen e + n ≤ rwLen e →
    (u = 0 → touchesProt h c m.daddr.toNat n = false) → d.length = 8 →
    (turnOf d (rwLen e) r = true → mine = [] → Answers (.reducePut src m t reads) s (fun g =>
      Wrote h1 g (spMem u) (spAddr u q c m.daddr.toNat) (combineBytes m.rfmt.toNat m.rop.toNat old m.payload) ∧
      getF g pound_MSG_RX q = (getF h pound_MSG_RX q + 1) % 2 ^ 32 ∧
      roundDone g q i = (if ended then List.replicate 8 0 else d') ∧ (∀ j, j ≠ i → roundDone g q j = roundDone h q j) ∧
      (ended = false → SignalAdded h g c m.rsig.toNat m.rsen) ∧
      (ended = true → m.rsen = false →
        SignalAdded h g (16 * q + bits (e.getD 0 0) 5 2) (bits (e.getD 0 0) 20 15) (bit (e.getD 0 0) 21)))) ∧
    ((turnOf d (rwLen e) r && mine.isEmpty) = false → stageUsed (quarterX h q) + (n + 63) / 64 ≤ getF h pound_STAGE_LEN q →
      Answers (.reducePut src m t reads) s (fun g =>
        (quarterX g q).staged = (quarterX h q).staged ++ [({ win := i, rank := r, entry := e, m := m } : Staged)] ∧ roundDone g q i = d ∧
        (∀ sp x, ¬ (sp = .commons ∧ q * 0x4000000 + getF h pound_STAGE_BASE q * 64 ≤ x ∧
          x < q * 0x4000000 + getF h pound_STAGE_BASE q * 64 + getF h pound_STAGE_LEN q * 64) → rd8 g sp x = rd8 h sp x)))) ∧
  (∀ (s : State) (q : Quarter) (t : Nat) (reads : List MemErr) (x : Staged),
    let h := now s t
    let c := dstCroft q.val x.m
    let u := x.m.dunit.toNat
    let n := x.m.payload.length
    let h1 := afterRead h u q.val c [(x.m.daddr.toNat, n)] reads
    let old := rdBytes h1 (spMem u) (spAddr u q.val c x.m.daddr.toNat) n
    (quarterX h q.val).staged.find? (fun y => turnOf (roundDone h q.val y.win) (rwLen y.entry) y.rank) = some x → u ≤ 1 →
    (u = 0 → touchesProt h c x.m.daddr.toNat n = false) → Answers (.reduceRelease q t reads) s (fun g =>
      (quarterX g q.val).staged = (quarterX h q.val).staged.erase x ∧
      Wrote h1 g (spMem u) (spAddr u q.val c x.m.daddr.toNat) (combineBytes x.m.rfmt.toNat x.m.rop.toNat old x.m.payload) ∧
      getF g pound_MSG_RX q.val = (getF h pound_MSG_RX q.val + 1) % 2 ^ 32))

/-! The causeway ports -/

/-- PORT_ENABLE_WRITE, PORT_RETRAIN, SIGNAL_DETECTED, LINK_DOWN and TRAIN_TIMEOUT (R325, R329, R334, R354): which state each leads to. The third
failed attempt in a row fails the port; an attempt that fails inside `RETRAIN` starts again from `EQ`, and what the port held is lost, with an
abandon for what was scheduled; a port held by a mismatch does not time out. -/
def Obligations.PortStates : Prop :=
  ∀ (s : State) (p : Port),
    let h := s.hw
    let i := p.val
    let x := portX h i
    (hostAway h = false → quarterGone h (i / 8) = false → Answers (.portEnableWrite p true) s (fun g =>
      flag g port0_CTRL_ENABLE i = true ∧ OnlyRegs h g ∧ SameRegs (fun a => a = fAddr port0_CTRL_ENABLE i) h g)) ∧
    (hostAway h = false → quarterGone h (i / 8) = false → Answers (.portEnableWrite p false) s (fun g =>
      flag g port0_CTRL_ENABLE i = false ∧ portState g i = (if portState h i = stFailed then stFailed else stDark) ∧
      (portState h i ≠ stDark → portState h i ≠ stFailed → (portX g i).replay = [] ∧ (portX g i).txSeq = 0 ∧ (portX g i).rxSeq = 0 ∧
        (x.replay ≠ [] → rawBit g ⟨.port0, i⟩ 3 = true) ∧ (x.replay.any (fun r => decide (r.f.vc.toNat ≤ 1)) = true → Abandoned g (i / 8))) ∧
      (portX g i).failRow = 0 ∧ SameMem h g)) ∧
    (portState h i = stDark → flag h port0_CTRL_ENABLE i = true → quarterGone h (i / 8) = false → Answers (.signalDetected p) s (fun g =>
      portState g i = stEq ∧ OnlyRegs h g ∧ SameRegs (fun a => a = fAddr port0_STATUS_STATE i) h g)) ∧
    (flag h port0_CTRL_ENABLE i = false → Becomes (.signalDetected p) s h) ∧
    (∀ j, j ∈ [Instr.portRetrain p, .linkDown p] →
      (portUp h i = true → (j = .portRetrain p → hostAway h = false ∧ quarterGone h (i / 8) = false) → Answers j s (fun g => portState g i = stRetrain ∧ (portX g i).phase = stAlign ∧
        rawBit g ⟨.port0, i⟩ 1 = true ∧ rawBit g ⟨.port0, i⟩ 2 = true ∧ (portX g i).replay = x.replay ∧ SameMem h g)) ∧
      (portUp h i = false → Becomes j s h)) ∧
    (x.held = true → Becomes (.trainTimeout p) s h) ∧
    (x.held = false → stEq ≤ portState h i → portState h i ≤ stMeasure → Answers (.trainTimeout p) s (fun g =>
      getF g port0_TRAIN_FAIL i = (getF h port0_TRAIN_FAIL i + 1) % 2 ^ 32 ∧ (portX g i).failRow = x.failRow + 1 ∧
      (2 ≤ x.failRow → portState g i = stFailed ∧ rawBit g ⟨.port0, i⟩ 3 = true) ∧ (x.failRow < 2 → portState g i = stEq))) ∧
    (x.held = false → portState h i = stRetrain → Answers (.trainTimeout p) s (fun g =>
      getF g port0_TRAIN_FAIL i = (getF h port0_TRAIN_FAIL i + 1) % 2 ^ 32 ∧ portState g i = stEq ∧ (portX g i).replay = [] ∧
      (x.replay ≠ [] → rawBit g ⟨.port0, i⟩ 3 = true) ∧
      (x.replay.any (fun r => decide (r.f.vc.toNat ≤ 1)) = true → Abandoned g (i / 8)) ∧ (portX g i).asmOn = x.asmOn))

/-- EQ_DONE, ALIGN_DONE, IDENT, MEASURE_REQUEST and MEASURE_RESPONSE (R326, R327, R328, R336): how a port trains. All eight lanes, or where
`ALLOW_X4` is set the lower or the upper four, carry the link; each side names itself and checks its partner; the delay is the mean of 64 rounds, each of which the port asks for. -/
def Obligations.LinkTraining : Prop :=
  ∀ (s : State) (p : Port),
    let h := s.hw
    let i := p.val
    let x := portX h i
    let others := fun (g : Hw) => ∀ j, j ≠ i → portX g j = portX h j
    let named := fun (g : Hw) => trainPhase g i = stIdent ∧ SentControl h g i 0x10 (deviceId h (i / 8)) i (getF h port0_EPOCH_TX i)
    (∀ l : BitVec 8, portState h i = stEq →
      (l = 0xFF → Answers (.eqDone p l) s (fun g => portState g i = stAlign ∧ flag g port0_STATUS_X4 i = false ∧
        getF g port0_LANES_ACTIVE i = 255 ∧ getF g port0_LANES_FAILED i = 0 ∧ OnlyRegs h g)) ∧
      (l ≠ 0xFF → flag h port0_CTRL_ALLOW_X4 i = true → (l &&& 0x0F = 0x0F ∨ l &&& 0xF0 = 0xF0) → Answers (.eqDone p l) s (fun g =>
        portState g i = stAlign ∧ flag g port0_STATUS_X4 i = true ∧ flag g port0_STATUS_UPPER i = decide (l &&& 0x0F ≠ 0x0F) ∧
        getF g port0_LANES_ACTIVE i = (if l &&& 0x0F = 0x0F then 0x0F else 0xF0) ∧ Raised h g ⟨.port0, i⟩ 6 ∧ OnlyEvents h g)) ∧
      (l ≠ 0xFF → (flag h port0_CTRL_ALLOW_X4 i = false ∨ (l &&& 0x0F ≠ 0x0F ∧ l &&& 0xF0 ≠ 0xF0)) → Answers (.eqDone p l) s (fun g =>
        getF g port0_TRAIN_FAIL i = (getF h port0_TRAIN_FAIL i + 1) % 2 ^ 32 ∧ getF g port0_LANES_FAILED i = 255 - l.toNat ∧
        portState g i = (if 2 ≤ x.failRow then stFailed else stEq)))) ∧
    (trainPhase h i = stAlign →
      Answers (.alignDone p none) s (fun g => named g ∧ portState g i = (if portState h i = stRetrain then stRetrain else stIdent)) ∧
      (∀ u, flag h port0_STATUS_X4 i = true → flag h port0_STATUS_UPPER i = u → Answers (.alignDone p (some u)) s named) ∧
      (∀ u, flag h port0_STATUS_X4 i = true → flag h port0_STATUS_UPPER i ≠ u → Answers (.alignDone p (some u)) s (fun g =>
        getF g port0_TRAIN_FAIL i = (getF h port0_TRAIN_FAIL i + 1) % 2 ^ 32)) ∧
      (∀ u, flag h port0_STATUS_X4 i = false → flag h port0_CTRL_ALLOW_X4 i = true → Answers (.alignDone p (some u)) s (fun g =>
        named g ∧ flag g port0_STATUS_X4 i = true ∧ flag g port0_STATUS_UPPER i = u))) ∧
    (∀ id : Ident, trainPhase h i = stIdent →
      (peerWrong h i id = false → Answers (.ident p id) s (fun g => trainPhase g i = stMeasure ∧
        getF g port0_PEER_ID_DEVICE i = id.device.toNat ∧ getF g port0_PEER_ID_PORT i = id.port.toNat ∧
        flag g port0_PEER_ID_VALID i = true ∧ getF g port0_PEER_EPOCH i = id.epoch.toNat ∧
        (∀ k, k < 4 → (portX g i).credits.getD k 0 = id.credits.getD k 0) ∧ (portX g i).rxUsed = [0, 0, 0, 0] ∧
        SentControl h g i 0x11 0 0 0 ∧ OnlyRegs { h with ports := g.ports, outbox := g.outbox } g)) ∧
      (peerWrong h i id = true → Answers (.ident p id) s (fun g => portState g i = portState h i ∧ (portX g i).held = true ∧
        flag g port0_PEER_ID_VALID i = false ∧ Raised h g ⟨.port0, i⟩ 4))) ∧
    (∀ t2 t3 : Nat, trainPhase h i = stMeasure ∨ portUp h i = true →
      Answers (.measureRequest p t2 t3) s (fun g => SentControl h g i 0x12 (t3 - t2) 0 0 ∧ SamePort x (portX g i) ∧ others g ∧
        g = { h with ports := g.ports, outbox := g.outbox })) ∧
    (∀ t1 t4 diff : Nat, trainPhase h i = stMeasure →
      (x.rounds < 63 → Answers (.measureResponse p t1 t4 diff) s (fun g =>
        SamePort { x with rounds := x.rounds + 1, sum := x.sum + (((t4 : Int) - t1) - diff) } (portX g i) ∧ SentControl h g i 0x11 0 0 0 ∧
        others g ∧ g = { h with ports := g.ports, outbox := g.outbox })) ∧
      (63 ≤ x.rounds → Answers (.measureResponse p t1 t4 diff) s (fun g =>
        let d := wrapInt ((x.sum + (((t4 : Int) - t1) - diff) + 64) / 128) 24
        portState g i = stUp ∧ getF g port0_DELAY i = d ∧ getF g port0_DELAY_PREV i = getF h port0_DELAY i ∧
        getF g port0_TRAIN_COUNT i = (getF h port0_TRAIN_COUNT i + 1) % 2 ^ 32 ∧ rawBit g ⟨.port0, i⟩ 0 = true ∧
        (x.everUp = true → (getF h port0_DELAY i + 16 < d ∨ d + 16 < getF h port0_DELAY i) → rawBit g ⟨.port0, i⟩ 5 = true) ∧
        (portX g i).toReplay = x.replay.map (·.f.seq.toNat) ∧ (portX g i).failRow = 0)))

/-- FLIT_SLOT, ACK, NAK, CREDIT, REPLAY_TIMEOUT and CREDIT_STALL (R262, R322, R332, R334 to R337): what a flit slot carries, and how the replay
buffer, the credits and the bits that wait for a codeword move. A bell token's `ACC` covers the time that it waited. -/
def Obligations.FlitsSent : Prop :=
  ∀ (s : State) (p : Port),
    let i := p.val
    let others := fun (h g : Hw) => ∀ j, j ≠ i → portX g j = portX h j
    (∀ t, let h := now s t
      let x := portX h i
      portUp h i = true →
      (x.toReplay = [] → pickVc x = none → Answers (.flitSlot p t) s (fun g => others h g ∧
        (∃ f : Flit, f.kind = 1 ∧ f.payload = [] ∧ SentFlit h.outbox g i f) ∧ (portX g i).txSeq = x.txSeq ∧
        (let n := x.fecLen + (if x.fecSlot = 0 then 2 * 2048 else 2048); (portX g i).fecLen = if n < 5140 then n else n - 5140) ∧
        (portX g i).replay = x.replay ∧ (portX g i).credits = x.credits ∧ g = { h with ports := g.ports, outbox := g.outbox })) ∧
      (∀ vc q fs, x.toReplay = [] → pickVc x = some vc → chanQ x vc = q :: fs → x.credits.length = 4 →
        Answers (.flitSlot p t) s (fun g => others h g ∧ chanQ (portX g i) vc = fs ∧ (∀ v, v < 4 → v ≠ vc → chanQ (portX g i) v = chanQ x v) ∧
          (∃ f' : Flit, f'.kind = 0 ∧ f'.seq = BitVec.ofNat 12 x.txSeq ∧ f'.vc = BitVec.ofNat 2 vc ∧
            f'.payload = (reformToken q.f (h.clk - q.since)).payload ∧ f'.som = q.f.som ∧
            f'.eom = q.f.eom ∧ f'.ackv = x.rxAny ∧ f'.ackseq = BitVec.ofNat 12 (x.rxSeq + 4095) ∧ SentFlit h.outbox g i f') ∧
          (portX g i).txSeq = (x.txSeq + 1) % 4096 ∧ (portX g i).replay.map (·.f.seq) = x.replay.map (·.f.seq) ++ [BitVec.ofNat 12 x.txSeq] ∧
          (portX g i).credits.getD vc 0 = x.credits.getD vc 0 - 1 ∧ (∀ v, v ≠ vc → (portX g i).credits.getD v 0 = x.credits.getD v 0) ∧
          getF g port1_FLITS_TX i = (getF h port1_FLITS_TX i + 1) % 2 ^ 32)) ∧
      (∀ sq rest r, x.toReplay = sq :: rest → x.replay.find? (fun y => y.f.seq.toNat == sq) = some r → Answers (.flitSlot p t) s (fun g =>
        (∃ f : Flit, f.replay = true ∧ f.seq = r.f.seq ∧ f.payload = (reformToken r.f (h.clk - r.sent)).payload ∧
          SentFlit h.outbox g i f) ∧ getF g port1_REPLAYS i = (getF h port1_REPLAYS i + 1) % 2 ^ 32 ∧
        (r.n < 7 → portUp g i = true ∧ (portX g i).toReplay = rest ∧ others h g) ∧ (7 ≤ r.n → portState g i = stRetrain)))) ∧
    (∀ (f : Flit) (wait : Nat), ((f.som && f.payload.headD 0 == 0x04) = false → reformToken f wait = f) ∧
      (f.som = true → f.payload.headD 0 = 0x04 → 56 ≤ f.payload.length → let g := reformToken f wait
        (g.payload.drop 56).take 4 = leBytes 4 (ofLe ((f.payload.drop 56).take 4) + 16 * wait) ∧ g.payload.take 56 = f.payload.take 56 ∧
        g = { f with payload := g.payload })) ∧
    (portUp s.hw i = true →
      let h := s.hw
      let x := portX h i
      (∀ sq : BitVec 12, Answers (.ack p sq) s (fun g => others h g ∧ (portX g i).replay =
        (if x.replay.any (fun r => r.f.seq == sq) then (x.replay.dropWhile (fun r => r.f.seq != sq)).drop 1 else x.replay) ∧
        OnlyRegs { h with ports := g.ports } g ∧
        SameRegs (fun a => a = fAddr port1_STATUS_UNACKED i ∨ a = fAddr port1_REPLAY_PEAK i ∨ ∃ k, k < 4 ∧ a = fAddr (port1_CREDIT k) i) h g)) ∧
      (∀ sq : BitVec 12, Answers (.nak p sq) s (fun g => others h g ∧ portX g i =
        { x with toReplay := (x.replay.dropWhile (fun r => r.f.seq != sq)).map (·.f.seq.toNat) } ∧ g = { h with ports := g.ports })) ∧
      Answers (.replayTimeout p) s (fun g => others h g ∧ portX g i = { x with toReplay := x.replay.map (·.f.seq.toNat) } ∧
        g = { h with ports := g.ports }) ∧
      (∀ c0 c1 c2 c3 : BitVec 16, x.credits.length = 4 → Answers (.credit p c0 c1 c2 c3) s (fun g => others h g ∧
        (portX g i).credits = [x.credits.getD 0 0 + c0.toNat, x.credits.getD 1 0 + c1.toNat, x.credits.getD 2 0 + c2.toNat,
          x.credits.getD 3 0 + c3.toNat] ∧ OnlyRegs { h with ports := g.ports } g)) ∧
      (∀ vc : Fin 4, chanQ x vc.val ≠ [] → x.credits.getD vc.val 0 = 0 → Answers (.creditStall p vc) s (fun g =>
        Raised h g ⟨.port1, i⟩ 2 ∧ OnlyEvents h g)) ∧
      (∀ vc : Fin 4, chanQ x vc.val = [] → Becomes (.creditStall p vc) s h))

/-- FLIT_RECEIVE and FEC_GROUP_END (R323, R330 to R336, R347): a flit in sequence is accepted; one that fails its check, or runs ahead, is not,
and a NAK asks for the expected number; one beyond the credit that the port has given takes it to `RETRAIN`; a first flit where a message was
incomplete discards that message. -/
def Obligations.FlitsReceived : Prop :=
  ∀ (s : State) (p : Port) (fl : Flit) (crcOk fecOk : Bool) (corrected uncorr : Nat),
    let h := s.hw
    let i := p.val
    let x := portX h i
    let bad := !crcOk || !fecOk || decide (0 < uncorr) || flitReserved fl
    let ahead := (fl.seq.toNat + 4096 - x.rxSeq) % 4096
    let used := x.rxUsed.getD fl.vc.toNat 0 + x.toReturn.getD fl.vc.toNat 0
    let asked := fun (g : Hw) => (portX g i).rxSeq = x.rxSeq ∧ (portX g i).rxUsed = x.rxUsed ∧ SentControl h g i 0x02 x.rxSeq 0 0
    (portUp h i = true →
      (bad = true → Answers (.flitReceive p fl crcOk fecOk corrected uncorr) s (fun g =>
        getF g port1_CRC_ERR i = (getF h port1_CRC_ERR i + 1) % 2 ^ 32 ∧ rawBit g ⟨.port1, i⟩ 0 = true ∧ asked g ∧
        getF g port1_FEC_CORR i = (getF h port1_FEC_CORR i + corrected) % 2 ^ 32 ∧
        getF g port1_FEC_UNCORR i = (getF h port1_FEC_UNCORR i + uncorr) % 2 ^ 32)) ∧
      (bad = false → fl.kind = 0 → x.rxSeq < 4096 → fl.seq.toNat = x.rxSeq → x.rxUsed.length = 4 →
        used < rxSize fl.vc.toNat → Answers (.flitReceive p fl crcOk fecOk corrected uncorr) s (fun g =>
          (portX g i).rxSeq = (x.rxSeq + 1) % 4096 ∧ (portX g i).rxAny = true ∧
          (portX g i).rxUsed.getD fl.vc.toNat 0 = x.rxUsed.getD fl.vc.toNat 0 + 1 ∧
          (∀ v, v ≠ fl.vc.toNat → (portX g i).rxUsed.getD v 0 = x.rxUsed.getD v 0) ∧
          getF g port1_FLITS_RX i = (getF h port1_FLITS_RX i + 1) % 2 ^ 32 ∧ portUp g i = true ∧ g.outbox = h.outbox ∧
          (fl.som = true → x.asmOn.getD fl.vc.toNat false = true → Discarded h g (i / 8) 0 fl.vc.toNat) ∧
          (x.asmOn.length = 4 → (portX g i).asmOn.getD fl.vc.toNat false = !fl.eom))) ∧
      (bad = false → fl.kind = 0 → 0 < ahead → ahead < 2048 → Answers (.flitReceive p fl crcOk fecOk corrected uncorr) s asked) ∧
      (bad = false → fl.kind = 0 → 2048 ≤ ahead → Answers (.flitReceive p fl crcOk fecOk corrected uncorr) s (fun g =>
        (portX g i).rxSeq = x.rxSeq ∧ (portX g i).rxUsed = x.rxUsed ∧ g.outbox = h.outbox)) ∧
      (bad = false → fl.kind = 0 → ahead = 0 → rxSize fl.vc.toNat ≤ used →
        Answers (.flitReceive p fl crcOk fecOk corrected uncorr) s (fun g => rawBit g ⟨.port1, i⟩ 3 = true ∧ portState g i = stRetrain)) ∧
      (bad = false → fl.ackv = true → (portX h i).replay.any (fun r => r.f.seq == fl.ackseq) = true →
        Answers (.flitReceive p fl crcOk fecOk corrected uncorr) s (fun g =>
          (portX g i).replay = (x.replay.dropWhile (fun r => r.f.seq != fl.ackseq)).drop 1)) ∧
      (bad = false → fl.kind = 1 → fl.ackv = false → fl.crcnt = 0 → Answers (.flitReceive p fl crcOk fecOk corrected uncorr) s (fun g =>
        portX g i = { x with fecSyms := x.fecSyms + corrected } ∧ OnlyRegs { h with ports := g.ports } g ∧
        SameRegs (fun a => a = fAddr port1_FEC_CORR i) h g))) ∧
    (getF h port1_FEC_LIMIT i < x.fecSyms → Answers (.fecGroupEnd p) s (fun g => (portX g i).fecSyms = 0 ∧ Raised h g ⟨.port1, i⟩ 1)) ∧
    (x.fecSyms ≤ getF h port1_FEC_LIMIT i → Answers (.fecGroupEnd p) s (fun g =>
      portX g i = { x with fecSyms := 0 } ∧ g = { h with ports := g.ports }))

/-! The bell -/

/-- BELL_START, HOLD_NOW, RESUME, TOKEN_SEND, BELL_TOKEN and TOKEN_FORWARD (R29, R258 to R263, R265, R276, R277): the tokens of the master, with
their numbers, values, flags and edges; a resume arms the token of the following clk; the token that a receiver accepts, its edge and margin,
and how it passes it on. Catch-up (R442), in which tokens come from the log, is left out of the master's clauses. -/
def Obligations.BellTokens : Prop :=
  ∀ (s : State) (t : Nat),
    let h := now s t
    let v := verdictIdx h
    let n := getF h bellMaster_STEP_PATTERN_STEP_BELLS 0
    let lead := getF h bellMaster_LEAD 0
    let tells := fun (g : Hw) (bell : BitVec 64) (i edge : Nat) (x : StepVals) (anom : Bool) => ∃ k : Token,
      g.bell.lastTok = some k ∧ g.bell.pendTok = h.bell.pendTok ++ [{ tok := k, edge := edge, index := i }] ∧ g.bell.index = i ∧
      k.bell = bell ∧ k.step = BitVec.ofNat 48 x.step ∧ k.attempt = BitVec.ofNat 16 x.attempt ∧ k.batch = BitVec.ofNat 64 x.batch ∧
      k.period.toNat = getF h bellMaster_PERIOD 0 ∧ k.slack.toNat = getF h bellMaster_SLACK 0 ∧ k.lead.toNat = lead ∧ k.acc = 0 ∧
      k.rsv = false ∧ tokFlag k fStep = decide (i = 0) ∧ tokFlag k fClose = decide (i + 1 = v) ∧ tokFlag k fVerdict = decide (i = v) ∧
      tokFlag k fCommit = decide (i ≠ v) ∧ tokFlag k fAbandon = (decide (i ≠ 0) && anom) ∧ tokFlag k 7 = false ∧
      tokFlag k fSecure = (decide (i = 0) && decide (getF h bellMaster_SECURE_N 0 ≠ 0) &&
        decide (x.step % getF h bellMaster_SECURE_N 0 = 0)) ∧
      g.bell.nextEdge = (if tokFlag k fHold then none else some (edge + intervalClk k)) ∧
      (h.bell.holdNext = true → tokFlag k fHold = true) ∧ (h.bell.holdStep = true → i = 0 → tokFlag k fHold = true) ∧
      (∀ c, c ∈ childPorts h → portUp h c = true → .token c k ∈ g.outbox) ∧ SameMem h g
    (hostAway s.hw = false → isMaster h = true → flag h bellMaster_STATUS_RUNNING 0 = false → h.bell.left = false → catchingUp h = false →
      Answers (.bellStart t) s (fun g =>
      tells g (BitVec.ofNat 64 (getPair h bellMaster_BELL_LO bellMaster_BELL_HI 0)) 0 (h.clk + lead) (regVals h) false ∧
      flag g bellMaster_STATUS_RUNNING 0 = true)) ∧
    (isMaster h = false → (hostAway s.hw = false → Becomes (.bellStart t) s h ∧ Becomes (.resume t) s h) ∧ Becomes (.tokenSend t) s h) ∧
    (h.bell.left = true → hostAway s.hw = false → Becomes (.bellStart t) s h ∧ Becomes (.resume t) s h) ∧
    (hostAway s.hw = false → isMaster s.hw = true → flag s.hw bellMaster_STATUS_RUNNING 0 = true → s.hw.bell.heldSent = false →
      flag s.hw bellMaster_STATUS_HELD 0 = false → Becomes .holdNow s { s.hw with bell := { s.hw.bell with holdStep := true } }) ∧
    (hostAway s.hw = false → isMaster h = true → flag h bellMaster_STATUS_HELD 0 = true → h.bell.heldSent = true → h.bell.left = false →
      Answers (.resume t) s (fun g => g.bell = { h.bell with heldSent := false, resumed := true, nextEdge := some (h.clk + 1 + lead) } ∧
        flag g bellMaster_STATUS_HELD 0 = false ∧ OnlyRegs { h with bell := g.bell } g ∧
        SameRegs (fun a => a = fAddr bellMaster_STATUS_HELD 0) h g)) ∧
    (∀ (e : Nat) (k : Token), isMaster h = true → h.bell.nextEdge = some e → h.bell.lastTok = some k →
      (h.clk + lead < e → Becomes (.tokenSend t) s h) ∧
      (e ≤ h.clk + lead → h.bell.resumed = true →
        let bell := BitVec.ofNat 64 (getPair h bellMaster_BELL_LO bellMaster_BELL_HI 0 + 1)
        let ends := fun (g : Hw) => g.bell.resumed = false
        (h.bell.index = 0 → Answers (.tokenSend t) s (fun g => tells g bell 0 e (regVals h) false ∧ ends g)) ∧
        (h.bell.index ≠ 0 → n ≤ h.bell.index + 1 → Answers (.tokenSend t) s (fun g =>
          tells g bell 0 e (nextVals h.bell.verdictAbandon (regVals h)) false ∧ ends g)) ∧
        (h.bell.index ≠ 0 → h.bell.index + 1 < n → Answers (.tokenSend t) s (fun g =>
          tells g bell (h.bell.index + 1) e (regVals h)
            (h.bell.anomCur || (decide (h.bell.index + 1 = v) && h.bell.closeAck.isNone)) ∧ ends g))) ∧
      (e ≤ h.clk + lead → h.bell.resumed = false → catchingUp h = false →
        (n ≤ h.bell.index + 1 → Answers (.tokenSend t) s (fun g =>
          tells g (k.bell + 1) 0 e (nextVals h.bell.verdictAbandon (tokVals k)) false)) ∧
        (h.bell.index + 1 < n → Answers (.tokenSend t) s (fun g =>
          tells g (k.bell + 1) (h.bell.index + 1) e (tokVals k)
            (h.bell.anomCur || (decide (h.bell.index + 1 = v) && h.bell.closeAck.isNone)))))) ∧
    (∀ (p : Port) (tok : Token), portUp h p.val = true → (portX h p.val).peerDead = false → h.bell.left = false →
      (tokenBad h p.val tok = true → Answers (.bellToken p tok t) s (fun g => g.bell = h.bell ∧ Raised h g ⟨.bellMaster, 0⟩ 7 ∧ SameMem h g)) ∧
      (tokenBad h p.val tok = false →
        let t' := tokenT tok.lead.toNat (accHere h p.val tok)
        let after := match h.bell.pendTok.getLast? with
          | some l => l.edge + 1
          | none => 0
        Answers (.bellToken p tok t) s (fun g =>
          g.bell = { h.bell with
            lastTok := some tok
            pendTok := h.bell.pendTok ++ [{ tok := tok, edge := max (h.clk + max 1200 t'.toNat) after }]
            forwards := h.bell.forwards ++
              (childPorts h).map (fun c => (c, { tok with acc := BitVec.ofNat 32 (accHere h p.val tok) }, h.clk)) } ∧
          getF g bellMaster_TOKEN_MARGIN 0 = wrapInt (t' - 1200) 32 ∧ (t' < 1200 → rawBit g ⟨.bellMaster, 0⟩ 0 = true) ∧
          (1200 ≤ t' → SameRegs (fun a => a = fAddr bellMaster_TOKEN_MARGIN 0) h g) ∧ SameMem h g))) ∧
    (∀ (p : Port) f, h.bell.forwards.find? (fun f => f.1 == p.val) = some f → portUp h p.val = true → Answers (.tokenForward p t) s (fun g =>
      g.bell = { h.bell with forwards := h.bell.forwards.erase f } ∧
      .token p.val { f.2.1 with acc := f.2.1.acc + BitVec.ofNat 32 (16 * (h.clk - f.2.2)) } ∈ g.outbox ∧ SameMem h g))

/-- BELL_EDGE (R127, R135 to R138, R141, R258, R263, R267, R276, R281 to R283), outside catch-up and on a device that has not failed and has its
steward: it happens in the token's clk and in no earlier one; the pages show the token; every quarter that answers counts it; a stream at the
bell begins its next segment, a step begins all streams of a croft together, a stream that has not come is late, and an abandon parks it; the
acknowledgement carries the abandon flag, whose window ends in the clk after a close edge. -/
def Obligations.BellEdges : Prop :=
  (∀ (s : State) (t : Nat), s.hw.bell.closeClk.isSome = true → s.hw.clk < t → s.hw.gate.watchDue = [] →
    (∀ q, q < 4 → (quarterX s.hw q).landed = []) →
    let g := now s t
    g.bell.closeClk = none ∧ flag g bellMaster_STATUS_DEVICE_A 0 = false ∧
      ∀ q, q < 4 → flag g bellRcv_STATUS_ANOM q = false ∧ getF g bellRcv_ABANDON_SRC q = 0) ∧
  ∀ (s : State) (t : Nat) (p : PendTok) (rest : List PendTok), s.hw.bell.pendTok = p :: rest →
    (t < p.edge → Becomes (.bellEdge t) s s.hw) ∧
    (p.edge ≤ t → catchingUp s.hw = false → s.hw.gate.failed = false → s.hw.gate.stewWait = 0 →
      let h := now s p.edge
      let k := p.tok
      let hold := tokFlag k fHold
      let step := tokFlag k fStep
      let abandon := tokFlag k fAbandon
      let close := tokFlag k fClose
      Answers (.bellEdge t) s (fun g =>
        g.bell.pendTok = rest ∧ g.bell.lastEdge = some h.clk ∧ g.bell.edgeBell = k.bell.toNat ∧ g.bell.slack = slackClk k ∧
        g.bell.closeClk = (if close then some h.clk else none) ∧
        getPair g bellMaster_BELL_LO bellMaster_BELL_HI 0 = k.bell.toNat ∧ getPair g bellMaster_STEP_LO bellMaster_STEP_HI 0 = k.step.toNat ∧
        getF g bellMaster_ATTEMPT 0 = k.attempt.toNat ∧ getPair g bellMaster_BATCH_LO bellMaster_BATCH_HI 0 = k.batch.toNat ∧
        getF g bellMaster_PERIOD 0 = k.period.toNat ∧ getF g bellMaster_SLACK 0 = k.slack.toNat ∧ getF g bellMaster_FLAGS 0 = k.flags.toNat ∧
        flag g bellMaster_STATUS_HELD 0 = hold ∧ flag g bellMaster_STATUS_RUNNING 0 = true ∧
        (h.bell.closeClk = none → flag h bellMaster_STATUS_DEVICE_A 0 = true → flag g bellMaster_STATUS_DEVICE_A 0 = true) ∧
        (∃ r, r ∈ g.bell.acks ∧ r.bell = k.bell.toNat ∧ r.edge = some h.clk ∧ r.isClose = close ∧
          (h.bell.closeClk = none → flag h bellMaster_STATUS_DEVICE_A 0 = true → r.anom = true)) ∧
        (∀ q, q < 4 → quarterGone h q = false → getF g bellRcv_EDGE_COUNT q = (getF h bellRcv_EDGE_COUNT q + 1) % 2 ^ 32 ∧
          flag g bellRcv_STATUS_HELD q = hold ∧ (abandon = true → rawBit g ⟨.bellRcv, q⟩ 1 = true) ∧
          (hold = true → rawBit g ⟨.bellRcv, q⟩ 2 = true) ∧
          getF g bellRcv_STEP_EDGES q = (getF h bellRcv_STEP_EDGES q + b2n (step && !hold)) % 2 ^ 32) ∧
        (∀ c i, c ∈ liveCrofts h → i < 3 →
          let n := 3 * c + i
          (abandon = true → step = false → 2 ≤ strmState h n → strmState h n ≤ 6 → strmState g n = 8) ∧
          (abandon = false → step = false → hold = false → strmState h n = 5 → (streamX h n).passed = false →
            strmState g n = 2 ∧ getF g stream_SEGMENT n = (getF h stream_SEGMENT n + 1) % 2 ^ 32) ∧
          (abandon = false → step = false → hold = true → strmState h n = 5 → (streamX h n).passed = false → strmState g n = 5) ∧
          (abandon = false → step = false → 2 ≤ strmState h n → strmState h n ≤ 4 → flag g stream_STATUS_LATE n = true) ∧
          (abandon = false → step = true → hold = false → h.gate.quarNew = [] →
            (∀ j, j < 3 → strmState h (3 * c + j) = 1 ∨ strmState h (3 * c + j) = 8 ∨
              (strmState h (3 * c + j) = 5 ∧ (streamX h (3 * c + j)).passed = false)) → strmState g n = 2))))

/-- ACK_SEND, BELL_ACK, ACK_MISSING and BELL_LOST (R265, R268, R269, R276): an acknowledgement counts once and is passed up when every child's
has come and its own edge has passed, or when the wait has run out; a bell without an edge for two periods takes the device out of scheduled traffic. -/
def Obligations.BellAcks : Prop :=
  ∀ (s : State) (t : Nat),
    let h := now s t
    (∀ r, h.bell.acks.find? (fun r => (match r.edge with | some e => decide (e < h.clk) | none => false) && !r.sent && allChildren h r) = some r → catchingUp h = false →
      (isMaster h = false → flag h bellMaster_UP_PORT_VALID 0 = true → portUp h (getF h bellMaster_UP_PORT_PORT 0) = true →
        Answers (.ackSend t) s (fun g =>
          .ack (getF h bellMaster_UP_PORT_PORT 0) ⟨BitVec.ofNat 64 r.bell, BitVec.ofNat 18 r.count, r.anom, r.hold || holdWanted h⟩ ∈ g.outbox ∧
          (∃ r', r' ∈ g.bell.acks ∧ r'.bell = r.bell ∧ r'.sent = true) ∧ SameMem h g)) ∧
      (isMaster h = true → Answers (.ackSend t) s (fun g =>
        (∃ r', r' ∈ g.bell.acks ∧ r'.bell = r.bell ∧ r'.sent = true) ∧
        (r.count < getF h bellMaster_TREE_SIZE 0 → rawBit g ⟨.bellMaster, 0⟩ 2 = true ∧ g.bell.holdNext = true) ∧
        (r.hold = true → h.bell.heldSent = false → g.bell.holdStep = true) ∧ g.outbox = h.outbox ∧ SameMem h g))) ∧
    (∀ (p : Port) (a : Ack), portUp h p.val = true → (portX h p.val).peerDead = false → h.bell.left = false → p.val ∈ childPorts h →
      let n := a.bell.toNat
      (h.bell.acks.any (fun r => r.bell == n) = false → Answers (.bellAck p a t) s (fun g =>
        g.bell = { h.bell with acks := h.bell.acks ++
          [{ bell := n, children := [p.val], count := 1 + a.count.toNat, anom := a.anom, hold := a.holdReq }] } ∧
        g = { h with bell := g.bell, ports := g.ports })) ∧
      (∀ r, r ∈ h.bell.acks → r.bell = n → h.bell.acks.all (fun x => x.bell != n || (!x.sent && !x.children.contains p.val)) = true →
        Answers (.bellAck p a t) s (fun g =>
          { r with children := p.val :: r.children, count := r.count + a.count.toNat, anom := r.anom || a.anom, hold := r.hold || a.holdReq } ∈
            g.bell.acks ∧ g = { h with bell := g.bell, ports := g.ports })) ∧
      (h.bell.acks.any (fun r => r.bell == n && (r.sent || r.children.contains p.val)) = true → Answers (.bellAck p a t) s (fun g =>
        g = { h with ports := g.ports }))) ∧
    (∀ r, h.bell.acks.find? (fun r => !r.sent && !allChildren h r &&
        (match r.edge with | some e => decide (e < h.clk) && decide (e + getF h bellMaster_ACK_WAIT 0 ≤ h.clk) | none => false)) = some r →
      Answers (.ackMissing t) s (fun g => rawBit g ⟨.bellMaster, 0⟩ 1 = true ∧
        (∃ r', r' ∈ g.bell.acks ∧ r'.bell = r.bell ∧ r'.sent = true) ∧ SameMem h g)) ∧
    (∀ e, h.bell.lastEdge = some e → flag h bellMaster_STATUS_RUNNING 0 = true → flag h bellMaster_STATUS_HELD 0 = false →
      bit (getF h bellMaster_FLAGS 0) fHold = false → h.bell.left = false →
      (e + 24 * getF h bellMaster_PERIOD 0 < h.clk → Answers (.bellLost t) s (fun g => rawBit g ⟨.bellMaster, 0⟩ 8 = true ∧
        g.bell.left = true ∧ g.bell.pendTok = [] ∧ g.bell.acks = [] ∧ flag g bellMaster_STATUS_RUNNING 0 = false ∧ g.gate.failed = true ∧
        SameMem h g)) ∧
      (h.clk ≤ e + 24 * getF h bellMaster_PERIOD 0 → Becomes (.bellLost t) s h))

/-! The reeve -/

/-- SHEET_SEND, PARTIAL_SHEET, FINAL_SHEET, REEVE_ENABLE_WRITE and SHEET_DATA_READ (R232, R236, R240 to R242, R245, R256): a reduced sheet goes as a
message to the parent, at the root it becomes the final sheet, 256 clk after the verdict edge at the earliest; the partial sheets that come from
the children merge in their order, and the final sheet comes from the parent; a disabled reeve holds no sheet and no decision. -/
def Obligations.SheetsReduced : Prop :=
  (∀ (s : State) (q : Quarter) (t : Nat),
    let h := now s t
    let i := q.val
    let x := quarterX h i
    let ready := fun (acc : Sheet) => x.accSheet = some acc ∧ x.deliveries.any (·.closing) = false ∧ x.sentUp = false ∧
      getF h reeve0_PLAN_CTRL i ≤ x.nextChild ∧ quarterGone h i = false
    (∀ c cs acc, x.closed = c :: cs → ready acc → h.bell.left = false → c.2 + 256 ≤ h.clk →
      (flag h reeve0_PLAN_PARENT_VALID i = false → Answers (.sheetSend q t) s (fun g =>
        (quarterX g i).closed = cs ∧ (∃ f, (quarterX g i).finals = x.finals ++ [f] ∧ (quarterX g i).lastFinal = f ∧
          f.peaks.length ≤ 1024 ∧ ∀ e, inPlan h i e = true → recOf f e = recOf acc e) ∧ SameMem h g)) ∧
      (flag h reeve0_PLAN_PARENT_VALID i = true → catchingUp h = false →
        let dev := getF h reeve0_PLAN_PARENT_DEVICE i
        let dq := getF h reeve0_PLAN_PARENT_QUARTER i
        let m := fillSource h i (withPayload { typ := 3, sub := 1, ddev := BitVec.ofNat 17 dev, dq := BitVec.ofNat 2 dq, dunit := 2 }
          (Config.sheetBytes acc))
        sendable h i m = true →
        Answers (.sheetSend q t) s (fun g => (quarterX g i).sentUp = true ∧ .sheet i dev dq false acc ∈ g.outbox ∧ Left g m ∧
          (quarterX g i).closed = x.closed ∧ (quarterX g i).finals = x.finals ∧ SameMem h g))) ∧
    (∀ c cs acc, x.closed = c :: cs → ready acc → (h.clk < c.2 + 256 ∨ h.bell.left = true) → Answers (.sheetSend q t) s (fun g =>
      quarterX g i = x ∧ g.outbox = h.outbox ∧ SameMem h g))) ∧
  (∀ (s : State) (src : MsgSrc) (m : Msg) (sh : Sheet) (t : Nat),
    let h := now s t
    let i := takerOf src m
    let x := quarterX h i
    let counted := fun (g : Hw) => getF g pound_MSG_RX i = (getF h pound_MSG_RX i + 1) % 2 ^ 32
    m.typ = 3 → Arrives h src m →
    (m.sub = 1 →
      ((flag h reeve0_CTRL_ENABLE i = false ∨ childOf h i m = none) → Answers (.partialSheet src m sh t) s (fun g => counted g ∧
        g = { h with regs := g.regs, ports := g.ports } ∧ SameRegs (fun a => a = fAddr pound_MSG_RX i) h g)) ∧
      (∀ k, flag h reeve0_CTRL_ENABLE i = true → childOf h i m = some k →
        (x.closed = [] → Answers (.partialSheet src m sh t) s (fun g => (quarterX g i).partials = x.partials ++ [(k, sh)] ∧ counted g ∧
          g = { h with regs := g.regs, quarters := g.quarters, ports := g.ports })) ∧
        (∀ c cs acc, x.closed = c :: cs → x.deliveries.any (·.closing) = false → x.accSheet = some acc → x.nextChild = k →
          x.partials = [] → Answers (.partialSheet src m sh t) s (fun g =>
            (quarterX g i).accSheet = some (mergeSheets acc sh).1 ∧ (quarterX g i).nextChild = k + 1 ∧ (quarterX g i).partials = [] ∧
            ((mergeSheets acc sh).2.1 ≠ none → rawBit g ⟨.reeve0, i⟩ 10 = true ∧ Abandoned g i) ∧ counted g ∧ SameMem h g)))) ∧
    (m.sub = 2 →
      let parent := flag h reeve0_PLAN_PARENT_VALID i && getF h reeve0_PLAN_PARENT_DEVICE i == m.sdev.toNat &&
        getF h reeve0_PLAN_PARENT_QUARTER i == m.sq.toNat
      ((flag h reeve0_CTRL_ENABLE i && parent && x.sentUp) = false → Answers (.finalSheet src m sh t) s (fun g => counted g ∧
        g = { h with regs := g.regs, ports := g.ports } ∧ SameRegs (fun a => a = fAddr pound_MSG_RX i) h g)) ∧
      ((flag h reeve0_CTRL_ENABLE i && parent && x.sentUp) = true → Answers (.finalSheet src m sh t) s (fun g =>
        (quarterX g i).sentUp = false ∧ (quarterX g i).closed = x.closed.drop 1 ∧
        (∃ f, (quarterX g i).finals = x.finals ++ [f] ∧ f.peaks.length ≤ 1024 ∧ ∀ e, inPlan h i e = true → recOf f e = recOf sh e) ∧
        counted g ∧ SameMem h g)))) ∧
  ∀ (s : State) (q : Quarter), let i := q.val
    hostAway s.hw = false → quarterGone s.hw i = false →
    Answers (.reeveEnableWrite q true) s (fun g =>
      flag g reeve0_CTRL_ENABLE i = true ∧ OnlyRegs s.hw g ∧ SameRegs (fun a => a = fAddr reeve0_CTRL_ENABLE i) s.hw g) ∧
    (s.hw.wf = true → Answers (.reeveEnableWrite q false) s (fun g =>
      flag g reeve0_CTRL_ENABLE i = false ∧ (quarterX g i).closed = [] ∧ (quarterX g i).finals = [] ∧ (quarterX g i).due = 0 ∧ (quarterX g i).late = 0 ∧
      (∀ e, e < 16384 → shadowOf g i e = none ∧ ledgerOf g i e =
        (if (shadowOf s.hw i e).isSome then setPend (ledgerOf s.hw i e) false else ledgerOf s.hw i e)) ∧
      (∀ k e, k ≠ i → e < 16384 → shadowOf g k e = shadowOf s.hw k e ∧ ledgerOf g k e = ledgerOf s.hw k e) ∧ SameMem s.hw g)) ∧
    (let y := quarterX s.hw i
      let n := getF s.hw reeve3_SHEET_SEL i
      let m := getF s.hw reeve3_PEAK_SEL i
      Answers (.sheetDataRead q false) s (fun g => g.outbox = .regData (BitVec.ofNat 32 (recOf y.lastFinal n).gid) :: s.hw.outbox ∧
        quarterX g i = { y with sheetSnap := some (n, recordWords (recOf y.lastFinal n)) } ∧
        g = { s.hw with quarters := g.quarters, outbox := g.outbox }) ∧
      Answers (.sheetDataRead q true) s (fun g => quarterX g i = { y with peakSnap := some (m, peakWords y.lastFinal m) } ∧
        g = { s.hw with quarters := g.quarters, outbox := g.outbox }))

/-- DECISION_PASS_DONE (R233, R235, R243, R244, R251): the decision of every touched entry goes to the shadow bank, and its active entry shows it pending;
no other entry changes. Where the banks are exchanged every decision becomes the active entry. A decision leaves the format alone, and keeps the exponent in range; the widenings of a step keep to the budget. -/
def Obligations.DecisionsMade : Prop :=
  (∀ (s : State) (q : Quarter) (t : Nat) (sh : Sheet) (rest : List Sheet),
    let h := now s t
    let i := q.val
    let x := quarterX h i
    x.finals = sh :: rest → x.decided = none → (sh.recs.map (·.1)).Nodup → (∀ r, r ∈ sh.recs → r.1 < 16384) →
    Answers (.decisionPassDone q t) s (fun g =>
      (quarterX g i).finals = rest ∧ (quarterX g i).decided = some h.clk ∧ (quarterX g i).passes = x.passes + 1 ∧
      getF g reeve0_SHEET_COUNT i = (getF h reeve0_SHEET_COUNT i + 1) % 2 ^ 32 ∧
      (∀ d, d ∈ decidePass h i sh → ledgerOf g i d.1 = setPend (ledgerOf h i d.1) true ∧
        (d.2.1.queued = false → shadowOf g i d.1 = some (packLedger d.2.1)) ∧ (shadowOf g i d.1).isSome = true ∧
        ∀ ev, ev ∈ d.2.2 → rawBit g ⟨.reeve0, i⟩ ev = true) ∧
      (∀ k e, e < 16384 → (k ≠ i ∨ ∀ d, d ∈ decidePass h i sh → d.1 ≠ e) →
        ledgerOf g k e = ledgerOf h k e ∧ shadowOf g k e = shadowOf h k e) ∧ SameMem h g)) ∧
  (∀ (h : Hw) (q : Nat), h.wf = true →
    let g := runE (exchangeBanks q) h
    (∀ e, e < 16384 → ledgerOf g q e = (shadowOf h q e).getD (ledgerOf h q e) ∧ shadowOf g q e = none) ∧
    (∀ k e, k ≠ q → e < 16384 → ledgerOf g k e = ledgerOf h k e ∧ shadowOf g k e = shadowOf h k e) ∧
    (q < 4 → flag g reeve0_STATUS_BANK q = !flag h reeve0_STATUS_BANK q)) ∧
  (∀ (p : Policy) (e : LedgerE) (c : Counts),
    let d := (decideEntry p e c).1
    d.fmt = e.fmt ∧ d.zp = e.zp ∧ d.gid = e.gid ∧ d.pol = e.pol ∧ d.ovf = decide (0 < c.ovfb) ∧ (p.scale = 0 → d.eoff = e.eoff) ∧
    (-127 ≤ e.eoff → e.eoff ≤ 127 → -127 ≤ d.eoff ∧ d.eoff ≤ 127) ∧
    (0 < c.total → d.satf = min (c.sat * 65536 / c.total) 0xFFFF ∧ d.zerof = min (c.zero * 4096 / c.total) 0xFFF) ∧
    (1 ∈ (decideEntry p e c).2 ↔ 0 < c.ovfb)) ∧
  (∀ (h : Hw) (q budget used : Nat) (stopped : Bool) (rs : List (Nat × LedgerE)),
    let r := grantGo h q budget rs used stopped
    used ≤ r.2 ∧ r.2 ≤ max budget used ∧ r.1.map (·.1) = rs.map (·.1) ∧
    (stopped = true → r.2 = used ∧ ∀ x, x ∈ r.1 → x.2.2 = [5]))

/-! The mill -/

/-- MILL_ENABLE_WRITE, MILL_LINK_DEGRADED, CHUNK, CHUNK_CONSUME and PHASE1_DONE (R285, R295 to R297, R299 to R302, R312, R319, R374): which chunks
the mill takes, on the link of their layer, and what becomes of the others: one beyond a limit is turned away, and stalls its link; the new moments of an adaptive layer, in the bank that is not in force, and no other byte;
the end of phase 1. -/
def Obligations.MillIntake : Prop :=
  ∀ (s : State) (t : Nat),
    let h := now s t
    let stops := fun (g : Hw) (e : Nat) => rawBit g ⟨.mill, 0⟩ e = true ∧ g.bell.reach = List.range 64 ∧ SameMem h g
    (hostAway s.hw = false → flag s.hw mill_CTRL_ENABLE 0 = false → Answers (.millEnableWrite true) s (fun g =>
      flag g mill_CTRL_ENABLE 0 = true ∧ g.mill = { s.hw.mill with region := readRegion s.hw } ∧
      flag g mill_GRAN_STATUS_BUDDY_VALID 0 = (copyHeld s.hw (readRegion s.hw) && !s.hw.mill.lost) ∧ OnlyRegs { s.hw with mill := g.mill } g)) ∧
    (flag s.hw mill_CTRL_ENABLE 0 = true → Becomes (.millEnableWrite true) s s.hw) ∧
    (hostAway s.hw = false → Answers (.millEnableWrite false) s (fun g => flag g mill_CTRL_ENABLE 0 = false ∧ g.mill.held = [] ∧
      g.mill.stalled = [] ∧
      (∀ l, l ∈ openLayers s.hw → lyState (mLayer g l) = 0 ∧ (mlayerXOf g l).opened = false) ∧
      (∀ l, l ∉ openLayers s.hw → mLayer g l = mLayer s.hw l ∧ mlayerXOf g l = mlayerXOf s.hw l) ∧ SameMem s.hw g)) ∧
    (∀ (k : Fin 2) (up full : Bool), Answers (.millLinkDegraded k up full) s (fun g =>
      let fails := !up && !flag s.hw (if k.val = 0 then mill_STATUS_LINK1_UP else mill_STATUS_LINK0_UP) 0
      flag g (if k.val = 0 then mill_STATUS_LINK0_UP else mill_STATUS_LINK1_UP) 0 = up ∧
      flag g (if k.val = 0 then mill_STATUS_LINK1_UP else mill_STATUS_LINK0_UP) 0 =
        flag s.hw (if k.val = 0 then mill_STATUS_LINK1_UP else mill_STATUS_LINK0_UP) 0 ∧
      ((up && full) = false → Raised s.hw g ⟨.mill, 0⟩ 9) ∧ SameMem s.hw g ∧
      g.gate.failed = (s.hw.gate.failed || fails) ∧ g.mill.lost = (s.hw.mill.lost || fails) ∧
      (fails = true → flag g mill_GRAN_STATUS_BUDDY_VALID 0 = false))) ∧
    (∀ (tag : BitVec 64) (data : List (BitVec 16)),
      let l := bits tag.toNat 12 0
      let unit := bits tag.toNat 47 16
      let sub := bits tag.toNat 63 48
      let x := mlayerXOf h l
      let e := mLayer h l
      let gr := mGroup h (lyGroup e)
      let d := data.map (·.toNat)
      let n := fun (y : MillLayerX) => chunkLen y.layer (grRule y.group == 3) unit sub
      let takes := fun (k : Nat) => flag h mill_CTRL_ENABLE 0 = true ∧ h.mill.lost = false ∧ millLink h l = some k ∧ linkWaits h k = false ∧
        millStalls h l = false
      let open' := fun (k : Nat) => h.mill.stalled.filter (fun s => s.1 != k)
      (flag h mill_CTRL_ENABLE 0 = false → Answers (.chunk tag data t) s (fun g => g = { h with quarters := g.quarters })) ∧
      (flag h mill_CTRL_ENABLE 0 = true → (h.mill.lost = true ∨ millLink h l = none ∨ ∃ k, millLink h l = some k ∧ linkWaits h k = true) →
        Becomes (.chunk tag data t) s h) ∧
      (∀ k, flag h mill_CTRL_ENABLE 0 = true → h.mill.lost = false → millLink h l = some k → linkWaits h k = false → millStalls h l = true →
        Becomes (.chunk tag data t) s { h with mill := { h.mill with stalled := (k, l) :: open' k } }) ∧
      (∀ k, takes k → x.opened = false → x.pend = false →
        (layerBad h l = true → Answers (.chunk tag data t) s (fun g => stops g 10 ∧ g.mill.held = h.mill.held)) ∧
        (layerBad h l = false → grFrozen gr = true → Answers (.chunk tag data t) s (fun g =>
          getF g mill_FROZEN_HITS 0 = (getF h mill_FROZEN_HITS 0 + 1) % 2 ^ 32 ∧ g.mill.held = h.mill.held ∧
          (lyGroup e ∉ h.mill.frozenGroups → rawBit g ⟨.mill, 0⟩ 5 = true) ∧ SameMem h g)) ∧
        (layerBad h l = false → grFrozen gr = false → h.mill.closed = true → Answers (.chunk tag data t) s (fun g => stops g 2)) ∧
        (layerBad h l = false → grFrozen gr = false → h.mill.closed = false → grRule gr ≠ 3 → 0 < chunkLen e false unit sub →
          (d.take (chunkLen e false unit sub)).any isNanInf = false → Answers (.chunk tag data t) s (fun g =>
            mlayerXOf g l = { opened := true, layer := e, group := gr, got := [(unit, 0)], recv := 1 } ∧ lyState (mLayer g l) = 1 ∧
            g.mill = { h.mill with held := h.mill.held ++ [{ layer := l, unit := unit, sub := sub, data := d }], stalled := open' k } ∧
            (∀ j, j ≠ l → mlayerXOf g j = mlayerXOf h j ∧ mLayer g j = mLayer h j) ∧ SameMem h g))) ∧
      (∀ k, takes k → x.pend = true → x.opened = true → h.mill.closed = false → Answers (.chunk tag data t) s (fun g =>
        g.mill = { h.mill with
          held := h.mill.held ++ [{ layer := l, unit := unit, sub := sub, data := d, future := true }], stalled := open' k } ∧
        mlayerXOf g l = x ∧ mLayer g l = e ∧ SameMem h g)) ∧
      (∀ k, takes k → x.opened = true → x.pend = false → h.mill.closed = false →
        (x.stopped = true → grRule x.group ≠ 3 → Answers (.chunk tag data t) s (fun g => g.mill.held = h.mill.held ∧
          mlayerXOf g l = (if (unit, 0) ∈ x.got then x
            else { x with got := (unit, 0) :: x.got, recv := x.recv + b2n (decide (unit < chunkCount x.layer)) }) ∧
          getF g mill_CHUNKS_IN 0 = (getF h mill_CHUNKS_IN 0 + 1) % 2 ^ 32 ∧ SameMem h g)) ∧
        (x.stopped = false → grRule x.group ≠ 3 → (unit, 0) ∈ x.got → Answers (.chunk tag data t) s (fun g => stops g 4)) ∧
        (x.stopped = false → grRule x.group ≠ 3 → (unit, 0) ∉ x.got → 0 < n x →
          ((d.take (n x)).any isNanInf = true → Answers (.chunk tag data t) s (fun g =>
            stops g 0 ∧ (mlayerXOf g l).stopped = true ∧ lyState (mLayer g l) = 0 ∧ (∀ c, c ∈ g.mill.held → c.layer ≠ l))) ∧
          ((d.take (n x)).any isNanInf = false → Answers (.chunk tag data t) s (fun g =>
            g.mill.held = h.mill.held ++ [{ layer := l, unit := unit, sub := sub, data := d }] ∧
            mlayerXOf g l = { x with got := (unit, 0) :: x.got, recv := x.recv + 1 } ∧ SameMem h g))))) ∧
    (∀ l, let h := s.hw
      let x := mlayerXOf h l
      millOn h = true → x.stopped = false → x.pend = false → x.opened = true → grRule x.group ≠ 1 →
      (nextChunk h l = none → Becomes (.chunkConsume l) s h) ∧
      (∀ c, nextChunk h l = some c →
        let e := x.layer
        let emb := grRule x.group == 3
        let n := chunkLen e emb c.unit c.sub
        let b := if emb then c.unit * lyCols e + 128 * c.sub else 128 * c.unit
        let a0 := momBase e (lyMbank e) + 8 * b
        let a1 := momBase e (1 - lyMbank e) + 8 * b
        (a0 + 8 * n ≤ a1 ∨ a1 + 8 * n ≤ a0) → Answers (.chunkConsume l) s (fun g =>
          g.mill = { h.mill with held := h.mill.held.erase c } ∧ getF g mill_CHUNKS_IN 0 = (getF h mill_CHUNKS_IN 0 + 1) % 2 ^ 32 ∧
          (emb = false → (mlayerXOf g l).next = x.next + 1) ∧
          (∀ k, k < n →
            let y := gradOf x.group (c.data.getD k 0)
            let b1 := gf x.group 3
            let b2 := gf x.group 4
            rdNat g .slow (a1 + 8 * k) 4 =
              toS32 (fAdd (fMul b1 (slow32 h (a0 + 8 * k))) (fMul (fSub numOne b1) y)) % 2 ^ 32 ∧
            rdNat g .slow (a1 + 8 * k + 4) 4 =
              toS32 (fAdd (fMul b2 (slow32 h (a0 + 8 * k + 4))) (fMul (fSub numOne b2) (fMul y y))) % 2 ^ 32) ∧
          (∀ sp a, ¬ (sp = .slow ∧ a1 ≤ a ∧ a < a1 + 8 * n) → rd8 g sp a = rd8 h sp a)))) ∧
    (∀ l,
      (millOn h = true → phase1Ready h l = true → Answers (.phase1Done l t) s (fun g => lyState (mLayer g l) = 2 ∧
        ((waitingLayers h = [] ∨ h.mill.closed = true) → mlayerXOf g l = mlayerXOf h l ∧
          (∀ j, j ≠ l → mLayer g j = mLayer h j) ∧ (grRule (mlayerXOf h l).group ≠ 1 → SameMem h g)))) ∧
      ((millOn h = false ∨ phase1Ready h l = false) → Becomes (.phase1Done l t) s h))

/-- PHASE2_LAYER and PHASE2_DONE (R303 to R306, R308, R429, R521): the next layer's phase 2 waits for its copy to the buddy and for its ledger entry;
a working format that does not exist ends it; otherwise every master of an adaptive layer takes the rounded difference, one that is not
finite stays, and nothing else in the slow tier changes, whatever its writes to HBM find there. -/
def Obligations.MillUpdates : Prop :=
  ∀ (s : State) (t l : Nat) (reads : List (Quarter × MemErr)),
    let h := now s t
    let x := mlayerXOf h l
    let e := x.layer
    let waits := match h.mill.sec with
      | some c => c.unacked.contains l
      | none => false
    (∀ rest, h.mill.p2 = l :: rest → h.mill.p2run = none → millOn h = true →
      (waits = true → Becomes (.phase2Layer t reads) s h) ∧
      (lyWfmt e = 0 → millLedger h l = none → Becomes (.phase2Layer t reads) s h) ∧
      (∀ led, waits = false → lyWfmt e = 0 → millLedger h l = some led →
        (isShort (workFormat e led).1 || (workFormat e led).1 == fmtW16) = false → Answers (.phase2Layer t reads) s (fun g =>
          g.mill.p2 = rest ∧ g.mill.p2run = none ∧ (mlayerXOf g l).done = true ∧ (mlayerXOf g l).noFlip = true ∧ lyState (mLayer g l) = 3 ∧
          rawBit g ⟨.mill, 0⟩ 10 = true ∧ g.bell.holdReq = true ∧ SameMem h g)) ∧
      (∀ led, waits = false → (if lyWfmt e = 0 then millLedger h l else some (0, false)) = some led →
        (lyWfmt e = 0 → (isShort (workFormat e led).1 || (workFormat e led).1 == fmtW16) = true) → Answers (.phase2Layer t reads) s (fun g =>
          g.mill.p2 = rest ∧ g.mill.p2run = some l ∧
          (let m := lw e 5 28 0 * 4096
           let b1 := momBase e (1 - lyMbank e)
           grRule x.group = 0 → (m + 5 * lyN e ≤ b1 ∨ b1 + 8 * lyN e ≤ m) →
            (∀ i, i < lyN e →
              let w := masterOf h e i
              let u := dirOf (slow32 h (b1 + 8 * i)) (slow32 h (b1 + 8 * i + 4)) (biasCorr (gf x.group 3) (lyT e + 1))
                (biasCorr (gf x.group 4) (lyT e + 1)) (gf x.group 5)
              let delta := fMul (schedOf x.group x.step) (fAdd u (fMul (gf x.group 6) (rnd32 w)))
              let seed := getF h mill_SEED_LO 0 + getF h mill_SEED_HI 0 * 2 ^ 32
              rdNat g .slow (masterAddr e i) 5 =
                (if isFin delta then
                  encodeLong fmtM40 (srM40 (numSub w delta) (genRandom seed x.step x.attempt ((pidxOf e + i) % 2 ^ 48))).1 % 2 ^ 40
                 else rdNat h .slow (masterAddr e i) 5)) ∧
            (∀ a, ¬ (m ≤ a ∧ a < m + 5 * lyN e) → rd8 g .slow a = rd8 h .slow a)) ∧
          (∀ a, rd8 g .barn a = rd8 h .barn a ∧ rd8 g .commons a = rd8 h .commons a)))) ∧
    (h.mill.p2run = some l → h.mill.lost = false → Answers (.phase2Done t reads) s (fun g =>
      g.mill = { h.mill with p2run := none } ∧ mlayerXOf g l = { x with done := true } ∧ lyState (mLayer g l) = 3 ∧
      (quarterX g (lowQuarter e)).deliveries = (quarterX h (lowQuarter e)).deliveries ++
        (if lyWfmt e = 0 then [{ croft := 16 * lowQuarter e, closing := false, c := { x.cnt with ovfb := 0 }, peaks := [] }] else []) ∧
      (∀ a, rd8 g .slow a = rd8 h .slow a ∧ rd8 g .barn a = rd8 h .barn a ∧ rd8 g .commons a = rd8 h .commons a) ∧
      (Recovers (reads.map (·.2)) → SameMem h g)))

/-! The granary -/

/-- SECURE_LAYER_SEND, SECURE_BEGIN, SECURE_DATA, SECURE_LAYER_END, SECURE_ACK, SECURE_COMPLETE, SECURE_ACK_TIMEOUT and SEC_NOW (R428 to R433,
R446, R448): what a copy does on the device that sends it and on the one that holds it, to which its messages come through a port or the gate. A
device that lost its steward fails when its copy ends (R28). -/
def Obligations.CopiesSecured : Prop :=
  ∀ (s : State) (mi : MsgIn) (t : Nat) (reads : List (Quarter × MemErr)),
    let m := mi.msg
    (let h := s.hw;
      let last := Recovers (reads.map (·.2))
      (∀ c l ls dev, h.mill.sec = some c → c.begun = true → c.toSend = l :: ls → buddyDev h = some dev → millOn h = true →
        (layerSettled h c.step l = false → Becomes (.secureLayerSend reads) s h) ∧
        (layerSettled h c.step l = true → Answers (.secureLayerSend reads) s (fun g =>
          g.mill = { h.mill with sec := some { c with toSend := ls, page := c.page + layerPages h l } } ∧
          (∀ a, rd8 g .slow a = rd8 h .slow a ∧ rd8 g .barn a = rd8 h .barn a ∧ rd8 g .commons a = rd8 h .commons a) ∧
          (last → SameMem h g ∧ (MillSends h (millMsg h 6 2 dev (leBytes 4 l)) → Left g (millMsg h 6 2 dev (leBytes 4 l))))))) ∧
      (∀ c dev, h.mill.sec = some c → c.begun = false → c.toSend = [] → buddyDev h = some dev → millOn h = true →
        let first := millMsg h 6 0 dev (leBytes 8 c.bell ++ leBytes 6 c.step ++ leBytes 2 c.attempt ++ leBytes 8 c.batch ++
          leBytes 4 (getF h mill_EPOCH 0))
        Answers (.secureLayerSend reads) s (fun g => g.mill = { h.mill with sec := some { c with begun := true } } ∧
          flag g mill_GRAN_CTRL_SEC_NOW 0 = false ∧ SameMem h g ∧ (MillSends h first → Left g first))) ∧
      (millOn h = false → Becomes (.secureLayerSend reads) s h)) ∧
    (let h := now s t;
      (AtMill h mi 6 0 →
        (secureOk h m = true → regW h 5 ≠ 0 → Answers (.secureBegin mi t) s (fun g =>
          flag g mill_GRAN_STATUS_BUDDY_VALID 0 = false ∧ g.mill = { h.mill with rxHead := m.payload.take 28, rxEnds := [], rxPages := 1 } ∧
          Wrote h g .slow (buddyBase h + 4) (leBytes 4 1))) ∧
        (secureOk h m = false → Answers (.secureBegin mi t) s (OnlyCredit h))) ∧
      (AtMill h mi 6 1 →
        (secureOk h m = true → smallBit ≤ m.daddr.toNat →
          let o := 64 * (m.daddr.toNat - smallBit)
          (4096 ≤ o → o + m.payload.length ≤ 512 * 4096 → Answers (.secureData mi t) s (fun g => Wrote h g .slow o m.payload ∧ g.regs = h.regs)) ∧
          (o < 4096 ∨ 512 * 4096 < o + m.payload.length → Answers (.secureData mi t) s (OnlyCredit h))) ∧
        (secureOk h m = true → m.daddr.toNat < smallBit →
          let o := 64 * m.daddr.toNat
          (o + m.payload.length ≤ regW h 5 * 4096 → Answers (.secureData mi t) s (fun g => Wrote h g .slow (buddyBase h + o) m.payload ∧
            flag g mill_GRAN_STATUS_BUDDY_VALID 0 = false)) ∧
          (regW h 5 * 4096 < o + m.payload.length → Answers (.secureData mi t) s (OnlyCredit h))) ∧
        (secureOk h m = false → Answers (.secureData mi t) s (OnlyCredit h))) ∧
      (AtMill h mi 6 2 →
        let back := millMsg h 6 3 m.sdev.toNat (padTo 4 (m.payload.take 4))
        (secureOk h m = true → Answers (.secureLayerEnd mi t) s (fun g =>
          g.mill = { h.mill with rxEnds := h.mill.rxEnds ++ [ofLe (m.payload.take 4)] } ∧ SameMem h g ∧ (MillSends h back → Sent h g back))) ∧
        (secureOk h m = false → Answers (.secureLayerEnd mi t) s (OnlyCredit h))) ∧
      (AtMill h mi 6 4 →
        let b := copyHeader h 2 m.sdev.toNat
        (secureOk h m = true → regW h 5 ≠ 0 → Answers (.secureComplete mi t) s (fun g => flag g mill_GRAN_STATUS_BUDDY_VALID 0 = true ∧
          Wrote h g .slow (buddyBase h) (padTo 4096 (b ++ leBytes 4 (crc32c b))))) ∧
        (secureOk h m = false → Answers (.secureComplete mi t) s (OnlyCredit h))) ∧
      (AtMill h mi 6 3 →
        (h.mill.sec = none → Answers (.secureAck mi t) s (OnlyCredit h)) ∧
        (∀ c, h.mill.sec = some c → (secureOk h m = false ∨ c.begun = false ∨ ofLe (m.payload.take 4) ∈ c.toSend) →
          Answers (.secureAck mi t) s (OnlyCredit h)) ∧
        (∀ c, h.mill.sec = some c →
          let l := ofLe (m.payload.take 4)
          secureOk h m = true → c.begun = true → l ∉ c.toSend →
          (c.unacked.filter (· != l) ≠ [] → Answers (.secureAck mi t) s (fun g =>
            g = { h with ports := g.ports, mill := { h.mill with sec := some { c with unacked := c.unacked.filter (· != l) } } })) ∧
          (c.unacked.filter (· != l) = [] → Answers (.secureAck mi t) s (fun g => g.mill.sec = none ∧
            flag g mill_GRAN_STATUS_SECURING 0 = false ∧ flag g mill_GRAN_STATUS_COPY_VALID 0 = true ∧
            getPair g mill_SECURED_STEP_LO mill_SECURED_STEP_HI 0 = c.step % 2 ^ 48 ∧
            getPair g mill_SECURED_BELL_LO mill_SECURED_BELL_HI 0 = c.bell % 2 ^ 64 ∧ Recorded h g 16 ∧ SameMem h g ∧
            (h.gate.stewWait = 2 → g.gate.failed = true) ∧
            (MillSends h (millMsg h 6 4 m.sdev.toNat []) → Left g (millMsg h 6 4 m.sdev.toNat []))))))) ∧
    (let h := s.hw;
      (∀ c, h.mill.sec = some c → c.begun = true → Answers .secureAckTimeout s (fun g => g.mill = { h.mill with sec := none } ∧
        flag g mill_GRAN_STATUS_SECURING 0 = false ∧ flag g mill_GRAN_STATUS_COPY_VALID 0 = false ∧ Recorded h g 17 ∧ SameMem h g ∧
        (h.gate.stewWait = 2 → g.gate.failed = true))) ∧
      (h.mill.sec = none → Becomes .secureAckTimeout s h) ∧
      (hostAway h = false → Answers .secNow s (fun g => flag g mill_GRAN_CTRL_SEC_NOW 0 = true ∧ OnlyRegs h g ∧
        SameRegs (fun a => a = fAddr mill_GRAN_CTRL_SEC_NOW 0) h g)))

/-- FILL_GO, FILL_REQUEST, FILL_DATA, FILL_END, FILL_REFUSE, FILL_TIMEOUT, NO_SPARE, REPLAY_APPEND and CATCHUP_DELIVERY (R435, R436, R440, R442,
R444, R446, R447): the fill of a spare, what a holder answers, and what is kept for and played in the catch-up. -/
def Obligations.SparesFilled : Prop :=
  ∀ (s : State) (mi : MsgIn) (t : Nat),
    let m := mi.msg
    let fails := fun (h g : Hw) => flag g mill_GRAN_STATUS_FILLING 0 = false ∧ flag g mill_GRAN_STATUS_FILL_FAIL 0 = true ∧ Recorded h g 20 ∧
      SameMem h g ∧ g.mill = h.mill
    (let h := s.hw;
      let asks := millMsg h 5 0 (getF h mill_FILL_SRC_DEVICE 0)
        (leBytes 4 (fillKind h) ++ leBytes 4 (deviceId h (millQ h)) ++ leBytes 4 (getF h mill_EPOCH 0))
      (hostAway h = false → jobHeld h = true → millOn h = true → flag h mill_GRAN_STATUS_FILLING 0 = false → fillKind h ≠ 3 →
        Answers .fillGo s (fun g => flag g mill_GRAN_STATUS_FILLING 0 = true ∧
          getPair g mill_FILL_BYTES_LO mill_FILL_BYTES_HI 0 = 0 ∧
          g.mill = { h.mill with fillCrc := 0xFFFFFFFF, fillBytes := 0, fillBuf := [] } ∧ SameMem h g ∧ (MillSends h asks → Sent h g asks))) ∧
      (jobHeld h = false ∨ millOn h = false ∨ flag h mill_GRAN_STATUS_FILLING 0 = true → Becomes .fillGo s h)) ∧
    (let h := now s t;
      AtMill h mi 5 0 → (h.mill.region = none → Answers (.fillRequest mi t) s (OnlyCredit h)) ∧ (h.mill.region.isSome = true →
      let kind := ofLe (m.payload.take 4)
      let id := ofLe ((m.payload.drop 4).take 4)
      let epoch := ofLe ((m.payload.drop 8).take 4)
      let dev := m.sdev.toNat
      let no := fun (n : Nat) => Answers (.fillRequest mi t) s (fun g => SameMem h g ∧ g.mill = h.mill ∧
        (MillSends h (millMsg h 5 3 dev (leBytes 4 n)) → Sent h g (millMsg h 5 3 dev (leBytes 4 n))))
      let serves := fun (bs : List Byte) =>
        let e := millMsg h 5 2 dev (leBytes 8 bs.length ++ leBytes 4 (crc32c bs))
        Answers (.fillRequest mi t) s (fun g => SameMem h g ∧ g.mill = h.mill ∧ (MillSends h e → Left g e))
      (kind = 0 → buddyDev h ≠ some id → no 2) ∧
      (kind = 0 → buddyDev h = some id → holdsCopy h id = false → no 1) ∧
      (kind = 0 → buddyDev h = some id → holdsCopy h id = true → epoch < rdNat h .slow (buddyBase h + 32) 4 → no 3) ∧
      (kind = 0 → buddyDev h = some id → holdsCopy h id = true → rdNat h .slow (buddyBase h + 32) 4 ≤ epoch →
        serves (rdBytes h .slow (buddyBase h) (4096 * rdNat h .slow (buddyBase h + 44) 4) ++ rdBytes h .slow 4096 (511 * 4096))) ∧
      (kind = 1 → serves ((h.mill.kept.filter (fun k => k.1 == id)).flatMap (fun k => padTo (up64 k.2.2.length) k.2.2))) ∧
      (kind = 2 → serves (padTo (up64 (h.mill.bellLog.flatMap tokenBytes).length) (h.mill.bellLog.flatMap tokenBytes))))) ∧
    (let h := now s t;
      (∀ reads, AtMill h mi 5 1 → (fillOk h m = false → Answers (.fillData mi t reads) s (OnlyCredit h)) ∧ (fillOk h m = true →
        let n := h.mill.fillBytes + m.payload.length
        let o := 64 * (m.daddr.toNat - smallBit)
        Answers (.fillData mi t reads) s (fun g => g.mill.fillBytes = n ∧
          getPair g mill_FILL_BYTES_LO mill_FILL_BYTES_HI 0 = n % 2 ^ 64 ∧
          (fillKind h = 0 → smallBit ≤ m.daddr.toNat → o + m.payload.length ≤ 512 * 4096 → Wrote h g .slow (replayBase h + o) m.payload) ∧
          (fillKind h = 0 → 64 * m.daddr.toNat + m.payload.length ≤ 4096 → Wrote h g .slow (replayBase h + 64 * m.daddr.toNat) m.payload) ∧
          (fillKind h ≠ 0 → g.mill.fillBuf = h.mill.fillBuf ++ [(m.daddr.toNat, m.payload)])))) ∧
      (AtMill h mi 5 2 → (fillOk h m = false → Answers (.fillEnd mi t) s (OnlyCredit h)) ∧ (fillOk h m = true →
        let good := ofLe (m.payload.take 8) = h.mill.fillBytes ∧ ofLe ((m.payload.drop 8).take 4) = h.mill.fillCrc ^^^ 0xFFFFFFFF
        (good → Answers (.fillEnd mi t) s (fun g => flag g mill_GRAN_STATUS_FILLING 0 = false ∧ flag g mill_GRAN_STATUS_FILL_DONE 0 = true ∧
          Recorded h g 19 ∧ SameMem h g)) ∧
        (¬ good → Answers (.fillEnd mi t) s (fails h)))) ∧
      (AtMill h mi 5 3 → (fillOk h m = false → Answers (.fillRefuse mi t) s (OnlyCredit h)) ∧
        (fillOk h m = true → Answers (.fillRefuse mi t) s (fails h)))) ∧
    (let h := s.hw;
      (flag h mill_GRAN_STATUS_FILLING 0 = true → Answers .fillTimeout s (fails h)) ∧
      (flag h mill_GRAN_STATUS_FILLING 0 = false → Becomes .fillTimeout s h) ∧
      (hostAway h = false → Answers .noSpare s (fun g => Recorded h g 23 ∧ OnlyEvents h g)) ∧
      (h.mill.lost = true → Becomes .replayAppend s h) ∧
      (∀ k ks, h.mill.lost = false → h.mill.toKeep = k :: ks →
        (replayBytes h + up64 k.2.2.length ≤ regW h 7 * 4096 → Answers .replayAppend s (fun g => g.mill.kept = h.mill.kept ++ [k] ∧
          g.mill.toKeep = ks ∧ ∀ sp a, ¬ (sp = .slow ∧ replayBase h + replayBytes h ≤ a ∧ a < replayBase h + regW h 7 * 4096) →
            rd8 g sp a = rd8 h sp a)) ∧
        (regW h 7 * 4096 < replayBytes h + up64 k.2.2.length → Answers .replayAppend s (fun g => g.mill = { h.mill with toKeep := ks } ∧
          flag g mill_GRAN_STATUS_REPLAY_FULL 0 = true ∧ Recorded h g 18 ∧ SameMem h g))) ∧
      (∀ k ks, h.mill.lost = false → h.mill.toKeep = [] → h.mill.toLog = k :: ks → replayBytes h + 40 ≤ regW h 7 * 4096 →
        Answers .replayAppend s (fun g => g.mill.bellLog = h.mill.bellLog ++ [k] ∧ g.mill.toLog = ks))) ∧
    (∀ c k reads sh, let h := now s t
      let p := parseMsg k.2
      let q := p.dq.toNat
      h.bell.lastEdge = some c → h.mill.cuMsgs.find? (fun k => k.1 == h.bell.edgeBell % 2 ^ 32) = some k → catchingUp h = true →
      (h.clk ≤ c + h.bell.slack → Becomes (.catchupDelivery t reads sh) s h) ∧
      (c + h.bell.slack < h.clk → p.typ = 3 → p.sub = 1 ∨ p.sub = 2 → Becomes (.catchupDelivery t reads sh) s
        (runE (if p.sub = 1 then deliverPartial sh q p else deliverFinal sh q p) { h with mill := { h.mill with cuMsgs := h.mill.cuMsgs.erase k } })) ∧
      (c + h.bell.slack < h.clk → p.typ = 1 → beyond p p.payload.length = false → p.dunit.toNat ≤ 1 →
        (p.dunit = 0 → touchesProt h (dstCroft q p) p.daddr.toNat p.payload.length = false) →
        let h' := afterPart h p.dunit.toNat q (dstCroft q p) p.daddr.toNat p.payload.length reads
        Answers (.catchupDelivery t reads sh) s (fun g =>
        g.mill.cuMsgs = h.mill.cuMsgs.erase k ∧
        Wrote h' g (spMem p.dunit.toNat) (spAddr p.dunit.toNat q (dstCroft q p) p.daddr.toNat) p.payload ∧
        SignalAdded h g (dstCroft q p) p.rsig.toNat p.rsen)))

/-! HBM, its scrub and the host's window -/

/-- ECC_WRITEBACK, SCRUB_READ, HBM_TEMP_READ, SLOW_SCRUB_PASS, HOST_MEM_READ, HOST_MEM_WRITE, HBM_TRAIN_FAIL and SELF_REFRESH_RETURN (R359, R361 to R363,
R365, R366, R368, R369, R371 to R373, R396): where each byte of HBM and of the slow tier lies, no two in one place; what each finding counts, raises, poisons
and leaves undefined; a host access beyond 4 D, which no address of the one HDM range is, faults. That a barn's or a commons' scrub raises
no abandon is the model's choice, log 65. -/
def Obligations.MemoryKept : Prop :=
  (∀ (s : State) (m : EccMem), Answers (.eccWriteback m) s (fun g =>
    g = { s.hw with gate := { s.hw.gate with writeBack := g.gate.writeBack } } ∧
    (∀ x, s.hw.gate.writeBack.find? (fun x => x.1 == m) = some x → g.gate.writeBack = s.hw.gate.writeBack.erase x))) ∧
  (∀ a, hbmChannel (hbmMap a).2.1 < 16 ∧ (∀ q, q < 4 → stackOf q a < 12) ∧ (a < 96 * 2415919104 → (hbmMap a).2.2 < 2415919104) ∧
    (slowMap a).1 < 24 ∧ (a < slowSize → (slowMap a).2 < 2 ^ 36) ∧
    (∀ b, hbmMap a = hbmMap b ∨ slowMap a = slowMap b → a = b)) ∧
  (∀ (s : State) (k : Stack) (line t : Nat) (e : EccCase),
    let h := now s t
    let i := k.val
    let q := i / 3
    let a := 64 * line
    (flag h hbm0_CTRL_SCRUB_EN i = false → Becomes (.scrubRead (.hbm k) line e t) s h) ∧
    (flag h hbm0_CTRL_SCRUB_EN i = true → stackOf q a = i → quarterGone h q = false → a < 96 * 2415919104 →
      Answers (.scrubRead (.hbm k) line e t) s (fun g => (isPoisoned h q a = true ∨ e ≠ .uncorrectable ∨ hbmD ≤ a → SameMem h g) ∧
        SameOutside h g .hbm (q * hbmD + a) 8 ∧
        (isPoisoned h q a = true → getF g hbm0_UE_COUNT i = (getF h hbm0_UE_COUNT i + 1) % 2 ^ 32 ∧ rawBit g ⟨.hbm0, i⟩ 3 = true ∧
          g.gate.poison = h.gate.poison) ∧
        (isPoisoned h q a = false → e = .clean ∨ e = .misread → g.gate.poison = h.gate.poison ∧
          SameRegs (fun x => x = fAddr hbm0_SCRUB_PASSES i) h g) ∧
        (isPoisoned h q a = false → e = .corrected → getF g hbm0_CE_COUNT i = (getF h hbm0_CE_COUNT i + 1) % 2 ^ 32 ∧
          rawBit g ⟨.hbm0, i⟩ 0 = true ∧ g.gate.poison = h.gate.poison) ∧
        (isPoisoned h q a = false → e = .retried → getF g hbm0_UE_RETRY_COUNT i = (getF h hbm0_UE_RETRY_COUNT i + 1) % 2 ^ 32 ∧
          rawBit g ⟨.hbm0, i⟩ 2 = true ∧ g.gate.poison = h.gate.poison) ∧
        (isPoisoned h q a = false → e = .uncorrectable → (stackPoison h i).length < 64 → isPoisoned g q a = true ∧
          getF g hbm0_UE_COUNT i = (getF h hbm0_UE_COUNT i + 1) % 2 ^ 32 ∧ rawBit g ⟨.hbm0, i⟩ 3 = true ∧ rawBit g ⟨.hbm0, i⟩ 4 = true ∧
          getF g hbm0_POISON_COUNT i = (stackPoison h i).length + 1) ∧
        (isPoisoned h q a = false → e = .uncorrectable → 64 ≤ (stackPoison h i).length → rawBit g ⟨.hbm0, i⟩ 5 = true ∧
          (quarterX g q).dead = true ∧ g.gate.failed = true)))) ∧
  (∀ (s : State) (c : Croft) (line t : Nat) (e : EccCase),
    let h := now s t
    let a := 64 * line
    let counts := fun (g : Hw) (f : Fld) (ev : Nat) => getF g f c.val = (getF h f c.val + 1) % 2 ^ 32 ∧ rawBit g ⟨.check, c.val⟩ ev = true
    (quarterGone h (c.val / 16) = true ∨ 0xC00000 ≤ a → Becomes (.scrubRead (.barn c) line e t) s h) ∧
    (quarterGone h (c.val / 16) = false → a < 0xC00000 →
      (e = .clean ∨ e = .misread → Becomes (.scrubRead (.barn c) line e t) s h) ∧
      (e = .corrected → Answers (.scrubRead (.barn c) line e t) s (fun g => counts g check_BARN_CE_COUNT 4 ∧ SameMem h g ∧
        g.gate.writeBack = h.gate.writeBack ++ [(.barn, c.val * 0xC00000 + a)])) ∧
      (e = .retried → Answers (.scrubRead (.barn c) line e t) s (fun g => counts g check_BARN_UE_RETRY_COUNT 5 ∧ SameMem h g)) ∧
      (e = .uncorrectable → Answers (.scrubRead (.barn c) line e t) s (fun g => counts g check_BARN_UE_COUNT 6 ∧
        SameOutside h g .barn (c.val * 0xC00000 + a) 8 ∧ g.bell = h.bell ∧
        (flag h check_BARN_ERR_ADDR_VALID c.val = false → flag g check_BARN_ERR_ADDR_VALID c.val = true ∧
          getF g check_BARN_ERR_ADDR_ADDR c.val = a / 8) ∧
        (g.gate.faultStep.find? (fun x => x.1 == c.val)).map (·.2) = some (stepAttempt h).1)))) ∧
  (∀ (s : State) (q : Quarter) (line t : Nat) (e : EccCase),
    let h := now s t
    let a := 64 * line
    let counts := fun (g : Hw) (f : Fld) (ev : Nat) => getF g f q.val = (getF h f q.val + 1) % 2 ^ 32 ∧ rawBit g ⟨.commons, q.val⟩ ev = true
    (quarterGone h q.val = true ∨ 0x4000000 ≤ a → Becomes (.scrubRead (.commons q) line e t) s h) ∧
    (quarterGone h q.val = false → a < 0x4000000 →
      (e = .clean ∨ e = .misread → Becomes (.scrubRead (.commons q) line e t) s h) ∧
      (e = .corrected → Answers (.scrubRead (.commons q) line e t) s (fun g => counts g commons_CE_COUNT 0 ∧ SameMem h g ∧
        g.gate.writeBack = h.gate.writeBack ++ [(.commons, q.val * 0x4000000 + a)])) ∧
      (e = .retried → Answers (.scrubRead (.commons q) line e t) s (fun g => counts g commons_UE_RETRY_COUNT 1 ∧ SameMem h g)) ∧
      (e = .uncorrectable → Answers (.scrubRead (.commons q) line e t) s (fun g => counts g commons_UE_COUNT 2 ∧
        SameOutside h g .commons (q.val * 0x4000000 + a) 8 ∧ (q.val, 0, 1, a) ∈ g.gate.dataNow)))) ∧
  (∀ (s : State) (k : Stack) (degC : Nat), degC < 256 → Answers (.hbmTempRead k degC) s (fun g =>
    getF g hbm0_TEMP k.val = degC ∧ flag g hbm0_STATUS_HOT k.val = decide (85 ≤ degC) ∧ (95 ≤ degC → Raised s.hw g ⟨.hbm0, k.val⟩ 6) ∧
    (degC < 95 → OnlyRegs s.hw g) ∧ OnlyEvents s.hw g)) ∧
  (∀ (s : State) (ch : Fin 24) (ce ue : Nat), Answers (.slowScrubPass ch ce ue) s (fun g =>
    (0 < ce → Recorded s.hw g 24) ∧ (0 < ue → Recorded s.hw g 25) ∧ g.gate.failed = (s.hw.gate.failed || decide (0 < ue)) ∧ g.mill.lost = (s.hw.mill.lost || decide (0 < ue)) ∧
    SameMem s.hw g)) ∧
  (∀ (s : State) (x t : Nat) (e : EccCase), x < 4 * hbmD →
    let h := now s t
    let q := x / hbmD
    let a := x % hbmD / 64 * 64
    (s.hw.gate.linkDown = true ∨ s.hw.gate.off = true → Becomes (.hostMemRead x e t) s s.hw) ∧
    (s.hw.gate.linkDown = false → s.hw.gate.off = false →
      (quarterInReset h q = false → quarterParked h q = false → Answers (.hostMemRead x e t) s (fun g =>
        (isPoisoned h q a = true ∨ e ≠ .uncorrectable → SameMem h g) ∧ SameOutside h g .hbm (q * hbmD + a) 8 ∧
        g.outbox = .hostData (rdBytes g .hbm (q * hbmD + a) 64) (isPoisoned h q a || e == .uncorrectable) :: h.outbox ∧
        (isPoisoned h q a = true → isPoisoned g q a = true) ∧
        (isPoisoned h q a = false → e = .uncorrectable → (stackPoison h (stackOf q a)).length < 64 → isPoisoned g q a = true) ∧
        flag g hbm0_STATUS_SELF_REFRESH (stackOf q a) = false)) ∧
      (quarterInReset h q = true ∨ quarterParked h q = true → Answers (.hostMemRead x e t) s (fun g =>
        g.outbox = .hostData (List.replicate 64 0xFF) true :: h.outbox ∧ Raised h g ⟨.paths, 0⟩ 2 ∧
        getF g (paths_DISCARD q) 0 = (getF h (paths_DISCARD q) 0 + 1) % 2 ^ 32 ∧ SameMem h g)))) ∧
  (∀ (s : State) (x : Nat) (data : List Byte) (poison : Bool) (errs : List MemErr), x < 4 * hbmD →
    let h := s.hw
    let q := x / hbmD
    let a := x % hbmD
    let bs := data.take (64 - a % 64)
    (h.gate.linkDown = true ∨ h.gate.off = true → Becomes (.hostMemWrite x data poison errs) s h) ∧
    (h.gate.linkDown = false → h.gate.off = false →
      (quarterInReset h q = false → quarterParked h q = false → Answers (.hostMemWrite x data poison errs) s (fun g =>
        Wrote (afterPart h 2 q (16 * q) a bs.length errs) g .hbm x bs ∧ flag g hbm0_STATUS_SELF_REFRESH (stackOf q a) = false ∧
        (data.length = 64 → a % 64 = 0 → (poison = true → (stackPoison h (stackOf q a)).length < 64) → isPoisoned g q a = poison))) ∧
      (quarterInReset h q = true ∨ quarterParked h q = true → Answers (.hostMemWrite x data poison errs) s (fun g =>
        Raised h g ⟨.paths, 0⟩ 2 ∧ SameMem h g)))) ∧
  (∀ (s : State) (x t : Nat) (e : EccCase) (data : List Byte) (poison : Bool) (errs : List MemErr), 4 * hbmD ≤ x →
    exec (.hostMemRead x e t) s = .fault .outsideHdm ∧ exec (.hostMemWrite x data poison errs) s = .fault .outsideHdm) ∧
  (∀ (s : State) (k : Stack), Answers (.hbmTrainFail k) s (fun g => flag g hbm0_STATUS_TRAINED k.val = false ∧
    Raised s.hw g ⟨.hbm0, k.val⟩ 7 ∧ (quarterX g (k.val / 3)).dead = true ∧ g.gate.failed = true ∧ SameMem s.hw g)) ∧
  (∀ (s : State) (k : Stack),
    (flag s.hw reset_STATUS_IN_FALLOW 0 = true → Answers (.selfRefreshReturn k) s (fun g =>
      flag g hbm0_STATUS_SELF_REFRESH k.val = true ∧ OnlyRegs s.hw g ∧ SameRegs (fun a => a = fAddr hbm0_STATUS_SELF_REFRESH k.val) s.hw g)) ∧
    (flag s.hw reset_STATUS_IN_FALLOW 0 = false → Becomes (.selfRefreshReturn k) s s.hw))

/-! The host -/

/-- RING_ENABLE, RING_DISABLE, ABORT, SQ_DOORBELL, CQ_DOORBELL, COMMAND_COMPLETE, IRQ_DELAY_EXPIRE, HOST_LINK_LOSS, HOST_LINK_UP, FLR and FLR_DONE (R381,
R382, R384, R387 to R389, R391, R392, R395, R396): the states of the rings, their doorbells and completions, the link and the host-function
reset. While the host is away nothing of this happens. What MSI-X is set to once the link is up or the reset is over comes from the command,
which is the model's choice, log 7. -/
def Obligations.RingsRun : Prop :=
  ∀ (s : State) (r : Ring),
    let h := s.hw
    let i := r.val
    let x := ringX h i
    let others := fun (g : Hw) => ∀ j, j ≠ i → ringX g j = ringX h j
    let stopped := fun (w : List Nat) => if cmdOp w = 3 then 4096 * x.moved else if cmdOp w = 7 then 0 else x.moved
    (hostAway h = true → ∀ v w, Becomes (.ringEnable r) s h ∧ Becomes (.ringDisable r) s h ∧ Becomes (.abort r) s h ∧
      Becomes (.sqDoorbell r v) s h ∧ Becomes (.cqDoorbell r v) s h ∧ Becomes (.commandComplete r w) s h) ∧
    (hostAway h = false →
      (flag h (hostRings_RING_CTRL_EN i) 0 = false → ringState h i = rgDisabled → Answers (.ringEnable r) s (fun g =>
        flag g (hostRings_RING_CTRL_EN i) 0 = true ∧ ringState g i = rgRunning ∧ bit (getF g hostRings_STATUS_RUNNING 0) i = true ∧
        OnlyRegs h g)) ∧
      (flag h (hostRings_RING_CTRL_EN i) 0 = true → (ringState h i ≠ rgRunning ∨ x.cmd = none) → Answers (.ringDisable r) s (fun g =>
        flag g (hostRings_RING_CTRL_EN i) 0 = false ∧ ringState g i = rgDisabled ∧ ringX g i = { irqPend := x.irqPend } ∧ sqHead g i = 0 ∧ others g ∧
        OnlyRegs { h with rings := g.rings } g)) ∧
      (∀ w, flag h (hostRings_RING_CTRL_EN i) 0 = true → ringState h i = rgRunning → x.cmd = some w → x.result = none → x.aborting = false →
        Answers (.ringDisable r) s (fun g => flag g (hostRings_RING_CTRL_EN i) 0 = false ∧ flag g (hostRings_RING_CTRL_ABORT i) 0 = true ∧
          ringX g i = { x with disabling := true, aborting := true, result := some (4, stopped w) } ∧
          others g)) ∧
      (ringState h i = rgRunning → x.aborting = false → x.cmd = none → Answers (.abort r) s (fun g =>
        Raised h g ⟨.hostRings, 0⟩ 4 ∧ flag g (hostRings_RING_CTRL_ABORT i) 0 = false ∧
        ringState g i = (if x.disabling then rgDisabled else rgStopped) ∧ others g)) ∧
      (∀ w, ringState h i = rgRunning → x.aborting = false → x.cmd = some w → x.result = none → Answers (.abort r) s (fun g =>
        ringX g i = { x with aborting := true, result := some (4, stopped w) } ∧
        flag g (hostRings_RING_CTRL_ABORT i) 0 = true ∧ ringState g i = rgRunning ∧ others g)) ∧
      (∀ v : Word, ringState h i = rgRunning → v.toNat < sqSize h i → Answers (.sqDoorbell r v) s (fun g =>
        ringX g i = { x with sqTail := v.toNat } ∧ others g ∧ g = { h with rings := g.rings })) ∧
      (∀ v : Word, ringState h i ≠ rgRunning ∨ sqSize h i ≤ v.toNat → Answers (.sqDoorbell r v) s (fun g =>
        Raised h g ⟨.hostRings, 0⟩ 3 ∧ OnlyEvents h g)) ∧
      (∀ v : Word, ringState h i = rgRunning → v.toNat < cqSize h i → Answers (.cqDoorbell r v) s (fun g =>
        ringX g i = { x with cqHead := v.toNat, cqUsed := x.cqUsed - (v.toNat + cqSize h i - x.cqHead) % cqSize h i } ∧ others g ∧
        g = { h with rings := g.rings })) ∧
      (∀ w st res, x.cmd = some w → x.result = some (st, res) →
        (cqSize h i ≤ x.cqUsed → x.cqWait = false → ∀ b, Answers (.commandComplete r b) s (fun g => Raised h g ⟨.hostRings, 0⟩ 0 ∧
          ringX g i = { x with cqWait := true } ∧ SameMem h g)) ∧
        (x.cqUsed < cqSize h i → x.aborting = false → Answers (.commandComplete r true) s (fun g =>
          Wrote h g .hostMem ((cqBase h i + 16 * x.cqTail) % 2 ^ 64) (cqEntry h i w st res) ∧ (ringX g i).cmd = none ∧
          (ringX g i).result = none ∧ (ringX g i).cqUsed = x.cqUsed + 1 ∧
          (ringX g i).cqTail = (if x.cqTail + 1 = cqSize h i then 0 else x.cqTail + 1) ∧
          (ringX g i).phase = (if x.cqTail + 1 = cqSize h i then !x.phase else x.phase) ∧
          getF g hostRings_CMD_COUNT 0 = (getF h hostRings_CMD_COUNT 0 + 1) % 2 ^ 32 ∧
          (st ≠ 0 → st ≠ 4 → rawBit g ⟨.hostRings, 0⟩ 1 = true) ∧ others g)) ∧
        (x.cqUsed < cqSize h i → Answers (.commandComplete r false) s (fun g => ringState g i = rgError ∧ (ringX g i).cmd = none ∧
          Raised h g ⟨.hostRings, 0⟩ 2 ∧ SameMem h g)))) ∧
    (x.irqPend ≠ 0 → getF h (hostRings_IRQ_CFG_IRQ_DELAY i) 0 ≠ 0 → Answers (.irqDelayExpire r) s (fun g => (ringX g i).irqPend = 0 ∧
      (let v := getF h (hostRings_RING_CFG_VEC i) 0
       (h.gate.msixOn = false → g.outbox = h.outbox ∧ g.msix = h.msix) ∧
       (h.gate.msixOn = true → msixHeld h v = false → g.outbox = .msix v :: h.outbox ∧ g.msix = h.msix) ∧
       (h.gate.msixOn = true → msixHeld h v = true → g.outbox = h.outbox ∧
         bit (smGet msixDflt g.msix (0x203000 + 4 * (v / 32))).toNat (v % 32) = true)) ∧ others g)) ∧
    (x.irqPend = 0 ∨ getF h (hostRings_IRQ_CFG_IRQ_DELAY i) 0 = 0 → Becomes (.irqDelayExpire r) s h) ∧
    (h.gate.linkDown = false → Answers .hostLinkLoss s (fun g => g.gate.linkDown = true ∧
      (flag h (hostRings_RING_CTRL_EN i) 0 = true → ringState g i = rgError ∧ rawBit g ⟨.hostRings, 0⟩ 2 = true ∧
        (∀ w, x.cmd = some w → x.result = none → ∃ v, (ringX g i).result = some (10, v) ∧
          (cmdOp w ∈ [1, 2, 4, 5] → v = cAddr w + x.moved))) ∧
      (flag h (hostRings_RING_CTRL_EN i) 0 = false → ringState g i = ringState h i ∧ ringX g i = x) ∧ SameMem h g)) ∧
    (∀ (w : Nat) (r32 f68 : Bool) (cfg : MsixCtl), h.gate.linkDown = true → h.gate.perst = false → h.gate.off = false → h.stew.bootFailed = false →
      (w = 8 ∨ w = 16 → Answers (.hostLinkUp w r32 f68 cfg) s (fun g => g.gate.linkDown = false ∧ g.gate.msixOn = cfg.enable ∧
        g.gate.msixMask = cfg.mask ∧ getF g hostRings_LINK_WIDTH 0 = w ∧
        flag g hostRings_LINK_RATE 0 = r32 ∧ flag g hostRings_LINK_FLIT256 0 = !(r32 && f68) ∧
        (w = 8 ∨ r32 = true → rawBit g ⟨.hostRings, 0⟩ 5 = true) ∧
        (h.gate.linkLost = true → getF g hostRings_RETRAIN_COUNT 0 = (getF h hostRings_RETRAIN_COUNT 0 + 1) % 2 ^ 32 ∧
          rawBit g ⟨.hostRings, 0⟩ 6 = true) ∧ SameMem h g)) ∧
      (w ≠ 8 → w ≠ 16 → Answers (.hostLinkUp w r32 f68 cfg) s (fun g => g.gate.linkDown = true ∧ SameMem h g))) ∧
    (hostAway h = false → h.gate.warmRuns = false → h.gate.moduleRuns = false → Answers .flr s (fun g => g.gate.flr = true ∧
      ringX g i = {} ∧ ringState g i = rgDisabled ∧ flag g (hostRings_RING_CTRL_EN i) 0 = false ∧ g.gate.msixOn = false ∧
      g.gate.msixMask = false ∧ FallowLeft h g ∧ SameMem h g ∧ g.barn = h.barn ∧ SameRegs (fun a => 0x200000 ≤ a ∧ a < 0x201000 ∨ a = fAddr reset_CTRL_FALLOW 0) h g)) ∧
    (∀ cfg, h.gate.flr = true → Answers (.flrDone cfg) s (fun g => g.gate.flr = false ∧ g.gate.msixOn = cfg.enable ∧
      g.gate.msixMask = cfg.mask ∧ Raised h g ⟨.hostRings, 0⟩ 7 ∧ SameMem h g)) ∧
    (∀ cfg, h.gate.flr = false → Becomes (.flrDone cfg) s h)

/-- HOST_NOP, COPY_IN, COPY_OUT, SEAL, SLOW_WRITE, SLOW_READ, CROFT_START, CROFT_STOP and BELL_WAIT (R125, R127, R217, R385, R386, R390, R393, R394): the command
at the SQ head begins when its ring's turn has come; a refused descriptor ends at once, with a result that the spec leaves open; a copy moves
its bytes from where the descriptor says to where it says, and no other byte; what the reads find may be anything that the ECC puts right, and
a copy out ends at the first line that it cannot deliver. An access to host memory that fails ends the command. -/
def Obligations.HostCommands : Prop :=
  ∀ (s : State) (r : Ring) (lines : Nat) (errs : List MemErr) (bad : Bool),
    let h := s.hw
    let i := r.val
    let x := ringX h i
    (hostAway h = false → x.cmd = none → nextRing h = some i →
      let w := readSq h i
      (cmdOp w = 0 → cmdStatus h w = 0 → Answers (.hostNop r) s (fun g =>
        ringX g i = { x with cmd := some w, moved := 0, result := some (0, 0), prot := none } ∧
        sqHead g i = (sqHead h i + 1) % sqSize h i % 65536 ∧ SameMem h g)) ∧
      (cmdStatus h w ≠ 0 → ∀ op c, op = cmdOp w ∨ 8 < cmdOp w → (op, c) ∈ [(0, Instr.hostNop r), (1, .copyIn r lines errs bad), (2, .copyOut r lines errs bad),
          (3, .seal r lines errs bad), (4, .slowWrite r lines errs bad), (5, .slowRead r lines errs bad), (6, .croftStart r), (7, .croftStop r),
          (8, .bellWait r)] → Answers c s (fun g => (∃ v, (ringX g i).result = some (cmdStatus h w, v) ∧
          (cmdStatus h w = 3 → cAddr w % 64 ≠ 0 → v = cAddr w / 64 * 64)) ∧ (ringX g i).cmd = some w ∧
        sqHead g i = (sqHead h i + 1) % sqSize h i % 65536 ∧ SameMem h g))) ∧
    (∀ w, hostAway h = false → x.cmd = some w → x.result = none →
      let n := stepBytes w x lines
      let sp := cSpace w
      let q := cQuarter w
      let c := cCroft w
      let a := cAddr w + x.moved
      let hostAt := (cHost w + x.moved) % 2 ^ 64
      let moves := fun (g : Hw) => (ringX g i).moved = x.moved + n ∧
        (x.prot = none → (ringX g i).result = if x.moved + n < cLen w then none else some (0, x.moved + n))
      (cmdOp w = 0 → Answers (.hostNop r) s (fun g => ringX g i = { x with result := some (0, 0) } ∧ g = { h with rings := g.rings })) ∧
      (bad = true → ∀ c, (cmdOp w, c) ∈ [(1, Instr.copyIn r lines errs bad), (4, .slowWrite r lines errs bad)] →
        Answers c s (fun g => ringX g i = { x with result := some (5, a) } ∧ g = { h with rings := g.rings })) ∧
      (cmdOp w = 1 → 0 < n → quarterAway h q = false → (sp = 0 → touchesProt h c a n = false) →
        (bit (w.getD 2 0) 46 = true → Recovers errs ∧ (sp = 2 → h.gate.poison = [])) →
        Answers (.copyIn r lines errs false) s (fun g =>
        Wrote h g (spMem sp) (spAddr sp q c a) ((List.range n).map (fun k => rd8 h .hostMem ((cHost w + x.moved + k) % 2 ^ 64))) ∧ moves g ∧
        (bit (w.getD 2 0) 46 = true → sp ≠ 0 → ∀ tile, tile ∈ spanTiles [(a, n)] →
          csumGet g (csumKey sp q c tile) = tileCrc g sp q c tile))) ∧
      (cmdOp w = 2 → 0 < n → quarterAway h q = false →
        let stop := readStop h sp q c a n (bit (w.getD 2 0) 47) errs
        (stop = none → Recovers errs → Answers (.copyOut r lines errs bad) s (fun g =>
          Wrote h g .hostMem hostAt (rdBytes h (spMem sp) (spAddr sp q c a) n) ∧ moves g)) ∧
        (∀ z, stop = some z → Answers (.copyOut r lines errs bad) s (fun g =>
          Wrote h g .hostMem hostAt (rdBytes h (spMem sp) (spAddr sp q c a) (z.1 - a)) ∧ (ringX g i).result = some (z.2.2, z.2.1)))) ∧
      (cmdOp w = 2 → 0 < n → quarterAway h q = true → Answers (.copyOut r lines errs bad) s (fun g => SameMem h g ∧
        (ringX g i).result = some (6, a))) ∧
      (cmdOp w = 3 → quarterAway h q = false → h.gate.poison = [] → Recovers errs →
        let ts := ((spanTiles [(cAddr w, cLen w)]).drop x.moved).take (lines / 64)
        ts ≠ [] → Answers (.seal r lines errs bad) s (fun g => SameMem h g ∧ (ringX g i).moved = x.moved + ts.length ∧
          (∀ tile, tile ∈ ts → csumGet g (csumKey sp q c tile) = tileCrc h sp q c tile))) ∧
      (cmdOp w = 4 → 0 < n → Answers (.slowWrite r lines errs false) s (fun g =>
        Wrote h g .slow a ((List.range n).map (fun k => rd8 h .hostMem ((cHost w + x.moved + k) % 2 ^ 64))) ∧ moves g)) ∧
      (cmdOp w = 5 → 0 < n → Answers (.slowRead r lines errs bad) s (fun g => Wrote h g .hostMem hostAt (rdBytes h .slow a n) ∧ moves g)) ∧
      (cmdOp w = 6 → Answers (.croftStart r) s (fun g => (ringX g i).result = some (0, 0) ∧ SameMem h g ∧
        (∀ k, k ∈ crofsOf h (w.getD 1 0) → flag h croft_CTRL_RUN k = false → getF h croft_PROG_REGION_SIZE k ≠ 0 →
          getF h croft_PROG_REGION_BASE k + getF h croft_PROG_REGION_SIZE k ≤ 192 →
          flag g croft_CTRL_RUN k = true ∧ ∀ j, j < 3 → strmState g (3 * k + j) = 1))) ∧
      (cmdOp w = 7 → x.moved = 0 → Answers (.croftStop r) s (fun g =>
        (∀ k, k ∈ crofsOf h (w.getD 1 0) → flag g croft_CTRL_RUN k = croftRunning h k ∧
          (croftRunning h k = true → flag g croft_STATUS_STOPPING k = true)) ∧ (∀ j, j < 192 → strmState g j = strmState h j) ∧
        ((crofsOf h (w.getD 1 0)).any (croftRunning g) = false → (ringX g i).result = some (0, 0)) ∧
        ((crofsOf h (w.getD 1 0)).any (croftRunning g) = true → (ringX g i).result = none) ∧ SameMem h g)) ∧
      (cmdOp w = 8 →
        (bellMet h (w.getD 1 0) = true → Answers (.bellWait r) s (fun g => ringX g i = { x with result := some (0, h.bell.edgeBell) } ∧
          g = { h with rings := g.rings })) ∧
        (bellMet h (w.getD 1 0) = false → Becomes (.bellWait r) s h)))

/-! The check unit and the watch -/

/-- CHECK_DIAGNOSIS, WATCH_SLOT, WATCH_COMPARE, INJ_TWIN, QUARANTINE and QUARANTINE_CLR (R396, R402 to R406, R409 to R412, R414 to R417, R419, R422): what a
diagnosis re-executes, marks, counts and abandons; which crofts a slot takes and holds, or that it is missed; what a disagreement and its vote
lead to; that a fault in a watch tile abandons nothing; and what quarantine sets. That the tile's faults are recorded with its comparison is
the model's choice, log 42. -/
def Obligations.WatchDecides : Prop :=
  (∀ (s : State) (c : Croft) (t : Nat),
    let h := now s t
    let i := c.val
    let x := croftX h i
    (x.diag = [] → Becomes (.checkDiagnosis c t) s h) ∧
    (∀ m rest, x.diag = m :: rest →
      let agrees := if m.kind = 1 then m.va * m.vw = m.p else parityBits m.value (if m.kind = 2 then 16 else 12) 3 = m.stored
      let shows := fun (g : Hw) (b : Bool) => (croftX g i).diag = rest ∧ flag g check_DIAG_INFO_VALID i = true ∧
        flag g check_DIAG_INFO_CHECKER i = b ∧ flag g check_DIAG_INFO_FORCED i = m.forced ∧ SameMem h g
      (agrees → m.field < 4 → m.row < 256 → m.col < 256 → m.kind < 4 → Answers (.checkDiagnosis c t) s (fun g => shows g true ∧
        rawBit g ⟨.check, i⟩ 0 = true ∧ g.bell = h.bell ∧ getF g check_CHECKER_FAULTS i = (getF h check_CHECKER_FAULTS i + 1) % 2 ^ 32 ∧
        (markedCell h i m.field m.row m.col m.kind = true ∨ (∃ n, n < 8 ∧ flag h (check_MARK_VALID n) i = false) →
          markedCell g i m.field m.row m.col m.kind = true ∧ quarantined g i = quarantined h i) ∧
        (markedCell h i m.field m.row m.col m.kind = false → (∀ n, n < 8 → flag h (check_MARK_VALID n) i = true) →
          rawBit g ⟨.check, i⟩ 3 = true ∧ quarantined g i = true ∧ (quarantined h i = false → rawBit g ⟨.check, i⟩ 7 = true)))) ∧
      (¬ agrees → Answers (.checkDiagnosis c t) s (fun g => shows g false ∧ rawBit g ⟨.check, i⟩ 1 = true ∧
        getF g check_RESULT_FAULTS i = (getF h check_RESULT_FAULTS i + 1) % 2 ^ 32 ∧
        getPair g check_LAST_FAULT_STEP_LO check_LAST_FAULT_STEP_HI i = (stepAttempt h).1 % 2 ^ 48 ∧
        (m.forced = false → m.watch = false → Abandoned g (i / 16)) ∧ (m.forced = true ∨ m.watch = true → g.bell = h.bell) ∧
        (h.gate.faultStep.find? (fun y => y.1 == i) = none → quarantined g i = quarantined h i) ∧
        (∀ y, h.gate.faultStep.find? (fun y => y.1 == i) = some y →
          ((stepAttempt h).1 - y.2 ≤ getF h watch_QUAR_WINDOW 0 → quarantined g i = true) ∧
          (getF h watch_QUAR_WINDOW 0 < (stepAttempt h).1 - y.2 → quarantined g i = quarantined h i)))))) ∧
  (∀ (s : State) (t : Nat),
    let h := now s t
    let e := h.gate
    let j := fun (n : Nat) => (watchJ h + n) % 2 ^ 48
    let free := e.slot = none ∧ e.slotNo < getF h watch_SLOTS 0 ∧ e.winStart + 2048 * e.slotNo ≤ h.clk ∧ flag h bellMaster_STATUS_HELD 0 = false
    let missed := fun (g : Hw) => g.gate.slot = none ∧ g.gate.slotNo = e.slotNo + 1 ∧ rawBit g ⟨.watch, 0⟩ 0 = true ∧
      getF g watch_MISSED 0 = (getF h watch_MISSED 0 + 1) % 2 ^ 32 ∧ g.gate.votes = e.votes ∧ g.gate.owed = e.owed ∧ SameMem h g
    let starts := fun (c : Nat) (o : Option Nat) (used : List Nat) (use : Nat) (g : Hw) =>
      g.gate.slot = some (c, o, use) ∧ g.gate.slotNo = e.slotNo + 1 ∧ getF g watch_STATUS_SUBJECT 0 = c ∧
      flag g watch_STATUS_SLOT_ACTIVE 0 = true ∧ g.gate.votes = e.votes ∧ SameMem h g ∧ g.gate.watchCrofts = used ∧
      g.gate.watchDue = [(h.clk + 256, 0), (h.clk + 1312, 1), (h.clk + 2047, 2)] ∧
      ∀ k, k ∈ used → k < 64 → ∀ f, f < 4 → flag g field_STATUS_BUSY (4 * k + f) = true ∧ (fieldX g (4 * k + f)).loaded = true ∧
        ∀ a, a < 65536 → accOf g (4 * k + f) a = 0
    (¬ free → Becomes (.watchSlot t) s h) ∧
    (∀ n c w ws, free → e.votes = [] → e.owed = [] → n < 64 → c = rotSubject (j n) → quarantined h c = false → rotOthers h c = w :: ws →
      (∀ k, k < n → quarantined h (rotSubject (j k)) = true ∨ rotOthers h (rotSubject (j k)) = []) →
      (croftTaken h c = true ∨ croftTaken h w = true → Answers (.watchSlot t) s (fun g => missed g ∧ watchJ g = j n)) ∧
      (croftTaken h c = false → croftTaken h w = false → Answers (.watchSlot t) s (fun g =>
        starts c (some w) [c, w] 0 g ∧ watchJ g = j n ∧ g.gate.owed = []))) ∧
    (free → e.votes = [] → e.owed = [] → (∀ c, c < 64 → quarantined h c = true) → Answers (.watchSlot t) s (fun g =>
      g.gate.slot = none ∧ g.gate.slotNo = e.slotNo + 1 ∧ watchJ g = j 64 ∧ rawBit g ⟨.watch, 0⟩ 6 = true ∧ SameMem h g)) ∧
    (∀ v vs, free → e.votes = v :: vs →
      (∀ c, v.third = some c → c < 64 → v.subject < 64 → quarantined h c = false →
        (croftTaken h c = true → Answers (.watchSlot t) s (fun g => missed g ∧ watchJ g = watchJ h)) ∧
        (croftTaken h c = false → Answers (.watchSlot t) s (fun g => starts v.subject (some c) [c] 1 g ∧ watchJ g = watchJ h ∧ g.gate.owed = e.owed))) ∧
      ((v.third = none ∨ ∃ c, v.third = some c ∧ quarantined h c = true) → Answers (.watchSlot t) s (fun g =>
        g.gate.slot = none ∧ g.gate.votes = vs ∧ rawBit g ⟨.watch, 0⟩ 4 = true ∧
        (v.injected = false → g.bell.holdReq = true ∧ flag g watch_STATUS_HOLD_REQ 0 = true) ∧
        (v.injected = true → g.bell = h.bell) ∧ (∀ k, k < 64 → quarantined g k = quarantined h k) ∧
        (flag h watch_VOTE_INFO_VALID 0 = false → getF g watch_VOTE_INFO_OUTCOME 0 = 4) ∧ SameMem h g))) ∧
    (∀ q qs c w ws, free → e.votes = [] → e.owed = q :: qs → owedSubject h q = some c → rotOthers h c = w :: ws →
      (croftTaken h c = true ∨ croftTaken h w = true → Answers (.watchSlot t) s (fun g => missed g ∧ watchJ g = watchJ h)) ∧
      (croftTaken h c = false → croftTaken h w = false → Answers (.watchSlot t) s (fun g =>
        starts c (some w) [c, w] 2 g ∧ g.gate.owed = qs ∧ getF g watch_STATUS_OWED 0 = qs.length % 8 ∧ watchJ g = watchJ h)))) ∧
  (∀ (s : State) (xs xt : List Word) (t : Nat) (errs : List WatchErr),
    let h := now s t
    let e := h.gate
    let inj := flag h watch_CTRL_INJ_TWIN 0
    let i := Instr.watchCompare xs xt t errs
    let counts := fun (g : Hw) (f : Fld) (k : Nat) => getF g f k = (getF h f k + 1) % 2 ^ 32
    let ends := fun (g : Hw) => g.gate.slot = none ∧ g.gate.watchCrofts = e.watchCrofts ∧ g.gate.watchDue = e.watchDue ∧ SameMem h g ∧
      (inCloseClk h = false → g.bell = h.bell)
    let turns := fun (use : Nat) (g : Hw) => (use = 2 → watchJ g = watchJ h) ∧ (use = 0 → watchJ g = (watchJ h + 1) % 2 ^ 48 ∧
      ((watchJ h + 1) % 64 = 0 → rawBit g ⟨.watch, 0⟩ 6 = true ∧ getF g watch_ROTATIONS 0 = (getF h watch_ROTATIONS 0 + 1) % 2 ^ 32))
    ((∀ c w use, e.slot ≠ some (c, some w, use)) → Becomes i s h) ∧
    (∀ c w use, e.slot = some (c, some w, use) → use = 0 ∨ use = 2 →
      let vote := fun (g : Hw) (ys : List Word) (b : Bool) =>
        VoteX.mk c w ((afterTwin c w).find? (fun k => !quarantined g k)) xs ys b (watchJ h)
      let struck := fun (k : Nat) (g : Hw) => counts g check_WATCH_SLOTS k ∧
        (errs.any (fun e => (if e.twin then w else c) == k && e.err.kind == .path) = true → counts g check_PATH_FAULTS k ∧
          rawBit g ⟨.check, k⟩ 2 = true)
      (c < 64 → w < 64 → c ≠ w → Answers i s (fun g => struck c g ∧ struck w g ∧ ends g ∧ turns use g)) ∧
      (use = 2 ∨ inj = false → xs = xt → Answers i s (fun g => g.gate.votes = e.votes ∧
        getF g watch_MISMATCHES 0 = getF h watch_MISMATCHES 0 ∧ turns use g ∧ ends g)) ∧
      (use = 2 ∨ inj = false → xs ≠ xt → Answers i s (fun g => g.gate.votes = e.votes ++ [vote g xt false] ∧
        getF g watch_MISMATCHES 0 = (getF h watch_MISMATCHES 0 + 1) % 2 ^ 32 ∧
        rawBit g ⟨.watch, 0⟩ 1 = true ∧ flag g watch_STATUS_VOTE_PENDING 0 = true ∧ turns use g ∧ ends g)) ∧
      (∀ y ys, use = 0 → inj = true → xt = y :: ys → xs = xt → Answers i s (fun g =>
        flag g watch_CTRL_INJ_TWIN 0 = false ∧ g.gate.votes = e.votes ++ [vote g (~~~y :: ys) true] ∧ rawBit g ⟨.watch, 0⟩ 1 = true ∧
        turns use g ∧ ends g))) ∧
    (∀ c w v vs, e.slot = some (c, some w, 1) → e.votes = v :: vs → v.subject < 64 → v.twin < 64 → (∀ k, k ∈ v.third → k < 64) →
      let lost := if xs = v.xs then [v.twin] else if xs = v.xt then [v.subject] else v.subject :: v.twin :: v.third.toList
      let sound := errs = [] ∧ ∀ f, f < 4 → flag h field_CTRL_INJ_RESIDUE (4 * w + f) = false ∧
        flag h field_CTRL_INJ_RUN_PARITY (4 * w + f) = false ∧ flag h field_CTRL_INJ_ACC_PARITY (4 * w + f) = false
      Answers i s (fun g => ends g ∧ g.gate.votes = vs ∧ watchJ g = watchJ h ∧ (w < 64 → counts g check_WATCH_SLOTS w) ∧
        (xs = v.xs ∨ xs = v.xt → rawBit g ⟨.watch, 0⟩ 2 = true) ∧ (xs ≠ v.xs → xs ≠ v.xt → rawBit g ⟨.watch, 0⟩ 3 = true) ∧
        (v.injected = false → ∀ k, k ∈ lost → quarantined g k = true ∧ rawBit g ⟨.check, k⟩ 8 = true) ∧
        (∀ k, k < 64 → k ∉ lost ∨ v.injected = true → k ≠ w ∨ sound → quarantined g k = quarantined h k)))) ∧
  (∀ s : State, hostAway s.hw = false → Answers .injTwin s (fun g => flag g watch_CTRL_INJ_TWIN 0 = true ∧ OnlyRegs s.hw g ∧
    SameRegs (fun a => a = fAddr watch_CTRL_INJ_TWIN 0) s.hw g)) ∧
  (∀ (s : State) (c : Croft), hostAway s.hw = false →
    let h := s.hw
    let i := c.val
    let fields := fun (g : Hw) (b : Bool) => quarantined g i = b ∧ quarSet g i = b ∧
      ∀ f, f < 4 → flag g field_STATUS_QUARANTINED (4 * i + f) = b
    (quarantined h i = false → Answers (.quarantine c) s (fun g => fields g true ∧ Raised h g ⟨.check, i⟩ 7 ∧
      g.gate.quarNew = h.gate.quarNew ++ [(i, h.clk)] ∧ (∀ k, k < 64 → k ≠ i → quarantined g k = quarantined h k) ∧ SameMem h g)) ∧
    (quarantined h i = true → Becomes (.quarantine c) s h) ∧
    (quarantined h i = true → croftRunning h i = false → Answers (.quarantineClr c) s (fun g => fields g false ∧
      i ∉ g.gate.quarIn ∧ (∀ x, x ∈ g.gate.quarNew → x.1 ≠ i) ∧ (∀ k, k < 64 → k ≠ i → quarantined g k = quarantined h k) ∧
      OnlyRegs { h with gate := g.gate } g)) ∧
    (quarantined h i = false ∨ croftRunning h i = true → Becomes (.quarantineClr c) s h))

/-! Power and resets -/

/-- POWER_ON, INPUT_LOSS, BROWNOUT, BROWNOUT_END, UNDERVOLT, OVERVOLT, OVERVOLT_RESET, POWER_HIGH, RAIL_SAMPLE, TEMP_SAMPLE, PLL_UNLOCK and QPOWER_SAMPLE
(R28, R450 to R453, R457, R460 to R462, R476, R497, R498, R506): what each finding shows, counts and raises, which of them reset the module, and
what a loss of the input leaves. -/
def Obligations.PowerEvents : Prop :=
  ∀ s : State,
    let h := s.hw
    let st := h.stew
    let off := h.gate.off
    let serves := st.alive = true ∧ off = false
    (off = false → ∀ l ok, Becomes (.powerOn l ok) s h) ∧
    (off = true → ∀ l ok,
      (h.stew.seq + 8 < 2 ^ 48 → st.erasing = none → Answers (.powerOn l ok) s (fun g => g.gate.off = false ∧ SameMem h g ∧
        ∀ n, n < 16384 → n / 64 ∈ l → bookSlot g n = 0 ∨ st.seq ≤ recSeq (bookSlot g n))) ∧
      (st.erasing = none → ok = true → st.bootFailed = false → (∀ ty, 1 ≤ ty → ty ≤ 3 → fwVerifies h ty (fwActive h ty) = true) →
        Answers (.powerOn [] ok) s (fun g => g.gate.off = false ∧ g.gate.linkDown = true ∧ g.gate.moduleRuns = true ∧ g.gate.booted = true ∧
          g.stew.alive = true ∧ g.stew.bootFailed = false ∧ g.stew.cycles = st.cycles + 1 ∧ g.stew.ticks = max st.committed (newestTicks h) ∧
          i3cAddress g = 0x40 + (Config.maddr (st.straps + 1)).toNat ∧ getF g reset_RESET_COUNT 0 = (getF h reset_RESET_COUNT 0 + 1) % 2 ^ 32 ∧ getF g reset_LAST_CAUSE 0 = 0 ∧
          BookRecorded { h with stew := { st with ticks := max st.committed (newestTicks h), cycles := st.cycles + 1 } } g 39 0 0)) ∧
      (st.erasing = none → Answers (.powerOn [] false) s (fun g => g.stew.bootFailed = true ∧
        BookRecorded { h with stew := { st with ticks := max st.committed (newestTicks h), cycles := st.cycles + 1 } } g 37 4 0))) ∧
    (off = true → Becomes .inputLoss s h) ∧
    (off = false → Answers .inputLoss s (fun g => DeviceCleared h g ∧ g.gate.off = true ∧ g.stew.alive = false ∧ g.stew.nonce = none ∧
      g.stew.window = false ∧ g.stew.forwarded = [] ∧ g.stew.ticks = st.committed ∧ g.stew.owner = st.owner ∧ g.stew.floors = st.floors ∧
      g.book = h.book ∧ g.stored = h.stored ∧
      (∀ a, rd8 g .hostMem a = rd8 h .hostMem a ∧ Undefined h g .slow 72 a ∧ (a < 4 * hbmD → Undefined h g .hbm (68 + a / hbmD) a)))) ∧
    (∀ mv : BitVec 16,
      (off = true ∨ flag h power_STATUS_BROWNOUT 0 = true → Becomes (.brownout mv) s h) ∧
      (off = false → flag h power_STATUS_BROWNOUT 0 = false → Answers (.brownout mv) s (fun g => flag g power_STATUS_BROWNOUT 0 = true ∧
        getF g power_VIN 0 = mv.toNat ∧ getF g power_BROWNOUT_COUNT 0 = (getF h power_BROWNOUT_COUNT 0 + 1) % 2 ^ 32 ∧
        (h.bell.lastEdge.isSome = true → flag g power_STATUS_TOUCHED 0 = true) ∧ Raised h g ⟨.power, 0⟩ 0 ∧ OnlyEvents h g)) ∧
      (off = true ∨ flag h power_STATUS_BROWNOUT 0 = false → Becomes (.brownoutEnd mv) s h) ∧
      (off = false → flag h power_STATUS_BROWNOUT 0 = true → Answers (.brownoutEnd mv) s (fun g => flag g power_STATUS_BROWNOUT 0 = false ∧
        getF g power_BROWNOUT_MIN 0 = mv.toNat ∧ Raised h g ⟨.power, 0⟩ 1 ∧ OnlyEvents h g)) ∧
      (serves → Answers (.undervolt mv) s (fun g => ModuleResets h g 3 ∧ BookRecorded h g 32 4 mv.toNat)) ∧
      (serves → Answers (.overvoltReset mv) s (fun g => ModuleResets h g 4 ∧ BookRecorded h g 33 4 mv.toNat)) ∧
      (¬ serves → Becomes (.undervolt mv) s h ∧ Becomes (.overvoltReset mv) s h) ∧
      (off = false → Answers (.overvolt mv) s (fun g => getF g power_VIN 0 = mv.toNat ∧ Raised h g ⟨.power, 0⟩ 2 ∧ OnlyEvents h g))) ∧
    (∀ w : BitVec 12, off = false → Answers (.powerHigh w) s (fun g => getF g power_PIN 0 = w.toNat ∧
      getF g power_PIN_PEAK 0 = max (getF h power_PIN_PEAK 0) w.toNat ∧ (3000 < w.toNat → Raised h g ⟨.power, 0⟩ 3) ∧
      (w.toNat ≤ 3000 → OnlyRegs h g) ∧ OnlyEvents h g)) ∧
    (∀ (r : Fin 64) (mv ma : BitVec 16),
      (railSetpoint r.val = none → ∀ tripped, Becomes (.railSample r mv ma tripped) s h) ∧
      (∀ sp, railSetpoint r.val = some sp → off = false →
        Answers (.railSample r mv ma false) s (fun g => g.gate.rails.find? (fun x => x.1 == r.val) = some (r.val, mv.toNat, ma.toNat) ∧
          (getF h power_RAIL_SEL 0 = r.val → getF g power_RAIL_DATA_MV 0 = mv.toNat ∧ getF g power_RAIL_DATA_A 0 = ma.toNat) ∧
          (100 * mv.toNat < 97 * sp ∨ 103 * sp < 100 * mv.toNat → Raised h g ⟨.power, 0⟩ 6) ∧
          (97 * sp ≤ 100 * mv.toNat → 100 * mv.toNat ≤ 103 * sp → OnlyRegs { h with gate := g.gate } g) ∧ SameMem h g) ∧
        (st.alive = true → Answers (.railSample r mv ma true) s (fun g => ModuleResets h g 5 ∧ BookRecorded h g 34 4 r.val)))) ∧
    (∀ (n : Fin 76) (deg : Int), off = false →
      let th := thresholds n.val
      (deg < th.2.2 → Answers (.tempSample n deg) s (fun g =>
        (∃ peak, g.gate.temps.find? (fun x => x.1 == n.val) = some (n.val, deg, peak) ∧ deg ≤ peak) ∧
        (n.val ∈ g.gate.warn ↔ th.1 ≤ deg ∨ n.val ∈ h.gate.warn ∧ th.1 - 5 < deg) ∧
        (n.val ∈ g.gate.crit ↔ th.2.1 ≤ deg ∨ n.val ∈ h.gate.crit ∧ th.2.1 - 5 < deg) ∧
        (∀ k, k ≠ n.val → (k ∈ g.gate.warn ↔ k ∈ h.gate.warn) ∧ (k ∈ g.gate.crit ↔ k ∈ h.gate.crit)) ∧
        flag g power_STATUS_THERM_WARN 0 = !g.gate.warn.isEmpty ∧ flag g power_STATUS_THERM_CRIT 0 = !g.gate.crit.isEmpty ∧
        (th.1 ≤ deg → n.val ∉ h.gate.warn → rawBit g ⟨.power, 0⟩ 4 = true ∧
          (flag h power_THERM_SENSOR_VALID 0 = false → getF g power_THERM_SENSOR_SENSOR 0 = n.val)) ∧
        (th.2.1 ≤ deg → n.val ∉ h.gate.crit → rawBit g ⟨.power, 0⟩ 5 = true ∧ g.bell.reach = List.range 64) ∧
        (deg < th.2.1 → g.bell = h.bell) ∧ SameMem h g)) ∧
      (th.2.2 ≤ deg → st.alive = true → Answers (.tempSample n deg) s (fun g => ModuleResets h g 6 ∧
        BookRecorded h g 35 4 (n.val + 256 * byteOf deg)))) ∧
    (∀ q : Quarter, (off = false → Answers (.pllUnlock (.quarterTree q)) s (fun g => (quarterX g q.val).dead = true ∧ g.gate.failed = true ∧
        Raised h g ⟨.power, 0⟩ 7 ∧ SameMem h g)) ∧
      Answers (.pllUnlock (.causewayRef q)) s (fun g => (∀ k, k < 8 → portState h (8 * q.val + k) ≠ stFailed →
        portState g (8 * q.val + k) = stDark) ∧ SameMem h g)) ∧
    (∀ x, x ∈ [(ClockLoss.gatePll, 0), (.millPll, 1), (.memoryPhy, 2), (.moduleRef, 3)] →
      (serves → Answers (.pllUnlock x.1) s (fun g => ModuleResets h g 7 ∧ BookRecorded h g 36 4 x.2)) ∧
      (¬ serves → Becomes (.pllUnlock x.1) s h)) ∧
    (∀ (q : Quarter) (w : BitVec 10),
      (quarterGone h q.val = false → Answers (.qpowerSample q w) s (fun g => getF g dyke_QPOWER q.val = w.toNat ∧
        getF g dyke_QPOWER_PEAK q.val = max (getF h dyke_QPOWER_PEAK q.val) w.toNat ∧ (480 < w.toNat → Raised h g ⟨.dyke, q.val⟩ 1) ∧
        OnlyEvents h g)) ∧
      (quarterGone h q.val = true → Becomes (.qpowerSample q w) s h))

/-- WARM, WARM_DONE, CXL_RESET, PERST_FALL, PERST_RISE, POWER_CYCLE, MODULE_RESET, MODULE_RESET_DONE, QUARTER_RESET, QUARTER_DONE, CROFT_RESET,
CROFT_DONE, PORT_RESET, PARK, PARKED, UNPARKED, FALLOW, FALLOW_ENTERED and FALLOW_LEFT (R119, R285, R317, R352, R395, R396, R454, R463 to R466, R489, R508):
what each reset clears and keeps, when a request is refused or ignored, and when the low-power states are entered and left. A quarantine
outlives a reset of its croft or quarter; a quarter that is reset under a running phase 2 fails the device. What MSI-X is set to once a reset
is over comes from the command, which is the model's choice, log 7. -/
def Obligations.ResetsDone : Prop :=
  ∀ s : State,
    let h := s.hw
    let e := h.gate
    let idle := e.warmRuns = false ∧ e.moduleRuns = false ∧ e.off = false
    let sampled := fun (g : Hw) => i3cAddress g = 0x40 + (Config.maddr (h.stew.straps + 1)).toNat
    let trained := fun (g : Hw) (q : Nat) => ∀ k, k < 3 → flag g hbm0_STATUS_TRAINED (3 * q + k) = true
    let links := fun (g : Hw) (cfg : MsixCtl) => g.gate.linkDown = false ∧ g.gate.msixOn = cfg.enable ∧ g.gate.msixMask = cfg.mask ∧
      flag g mill_STATUS_LINK0_UP 0 = true ∧ flag g mill_STATUS_LINK1_UP 0 = true ∧ (∀ q, q < 4 → trained g q)
    (hostAway h = false → ∀ key : BitVec 16,
      (key = 0x5A17 → idle → Answers (.warm key) s (fun g => WarmResets h g 9)) ∧
      (key = 0x5A17 → ¬ idle → Becomes (.warm key) s h) ∧
      (key ≠ 0x5A17 → e.warmRuns = true → Becomes (.warm key) s h) ∧
      (key ≠ 0x5A17 → e.warmRuns = false → Answers (.warm key) s (fun g => Raised h g ⟨.reset, 0⟩ 7 ∧ OnlyEvents h g))) ∧
    (idle → Answers .cxlReset s (fun g => WarmResets h g 8) ∧ Answers .perstFall s (fun g => WarmResets h g 10 ∧ g.gate.perst = true)) ∧
    (¬ idle → Becomes .cxlReset s h ∧ Becomes .perstFall s { h with gate := { e with perst := true } }) ∧
    Becomes .perstRise s { h with gate := { e with perst := false } } ∧
    (let done := e.warmRuns = true ∧ e.perst = false ∧ h.stew.bootFailed = false
     ∀ cfg, (done → Answers (.warmDone cfg) s (fun g => g.gate.warmRuns = false ∧ links g cfg ∧ Raised h g ⟨.reset, 0⟩ 0 ∧ SameMem h g)) ∧
       (¬ done → Becomes (.warmDone cfg) s h)) ∧
    (∀ tr, stewUp h tr = true → h.stew.erasing = none →
      Answers (.powerCycle tr) s (fun g => ModuleResets h g 2 ∧ g.outbox = .steward tr 0 [] :: h.outbox ∧ g.stew.cycles = h.stew.cycles + 1 ∧ sampled g) ∧
      Answers (.moduleReset tr) s (fun g => ModuleResets h g 1 ∧ g.outbox = .steward tr 0 [] :: h.outbox ∧ g.stew.cycles = h.stew.cycles ∧ sampled g)) ∧
    (let may := e.moduleRuns = true ∧ e.perst = false ∧ e.off = false ∧ h.stew.bootFailed = false
     ∀ cfg, (¬ may → Becomes (.moduleResetDone cfg) s h) ∧
     (may → e.booted = true ∨ (∀ ty, ty = 2 ∨ ty = 3 → fwVerifies h ty (fwActive h ty) = true) → Answers (.moduleResetDone cfg) s (fun g =>
       g.gate.moduleRuns = false ∧ g.gate.booted = false ∧ links g cfg ∧ SameMem h g ∧
       (e.booted = false → BookRecorded h g 39 0 (getF h reset_LAST_CAUSE 0))))) ∧
    (∀ q : Quarter,
      let i := q.val
      let away := quarterInReset h i = true ∨ quarterParked h i = true
      let cleared := fun (g : Hw) => QuarterCleared h g i ∧ KeptStores h g ∧ getF g dyke_BUDGET i = getF h dyke_BUDGET i ∧
        (∀ c, c / 16 = i → quarantined g c = quarSet h c) ∧
        ((∀ k, k ∈ e.watchCrofts → k / 16 ≠ i) → SameRegs (fun a => quarterBase i ≤ a ∧ a < quarterBase i + 0x400000 ∨ 0x1000 ≤ a ∧ a < 0x2000 ∨ 0x5000 ≤ a ∧ a < 0x6000 ∨
          0x101000 ≤ a ∧ a < 0x102000) h g) ∧
        (∀ k, k < 4 → k ≠ i → quarterX g k = quarterX h k)
      (away → Becomes (.quarterReset q) s h) ∧
      (hostAway h = false → ¬ away → Answers (.quarterReset q) s (fun g => cleared g ∧ (phase2In h i = true → g.gate.failed = true) ∧ FallowLeft h g ∧ quarterInReset g i = true ∧ bit (getF g reset_QUARTER_RESET 0) i = true)) ∧
      (quarterInReset h i = true → Answers (.quarterDone q) s (fun g => quarterInReset g i = false ∧ bit (getF g reset_QUARTER_RESET 0) i = false ∧
        trained g i ∧ Raised h g ⟨.reset, 0⟩ 1 ∧ (i ∈ e.parkNext → i ∈ g.gate.parking ∧ i ∉ g.gate.parkNext) ∧ SameMem h g)) ∧
      (quarterInReset h i = false → Becomes (.quarterDone q) s h) ∧
      (let on := bit (getF h reset_PARK 0) i
       (hostAway h = false → on = false → quarterInReset h i = true → Answers (.park q true) s (fun g => bit (getF g reset_PARK 0) i = true ∧
         g.gate = { e with parkNext := i :: e.parkNext } ∧ OnlyRegs { h with gate := g.gate } g)) ∧
       (hostAway h = false → on = false → quarterInReset h i = false → (∀ k j, k < 16 → j < 3 → strmState h (3 * (16 * i + k) + j) = 0) →
         Answers (.park q true) s (fun g => bit (getF g reset_PARK 0) i = true ∧ g.gate = { e with parking := i :: e.parking } ∧
           OnlyRegs { h with gate := g.gate } g)) ∧
       (hostAway h = false → on = false → quarterInReset h i = false → (∃ k j, k < 16 ∧ j < 3 ∧ strmState h (3 * (16 * i + k) + j) ≠ 0) →
         Answers (.park q true) s (fun g => bit (getF g reset_PARK 0) i = false ∧ Raised h g ⟨.reset, 0⟩ 7 ∧ OnlyEvents h g)) ∧
       (hostAway h = false → on = true → Answers (.park q false) s (fun g => bit (getF g reset_PARK 0) i = false ∧ i ∉ g.gate.parking ∧ i ∉ g.gate.parkNext ∧
         (quarterParked h i = true → i ∈ g.gate.unparking) ∧ OnlyRegs { h with gate := g.gate } g)) ∧
       ∀ v, v = on → Becomes (.park q v) s h) ∧
      (i ∈ e.parking → Answers (.parked q) s (fun g => cleared g ∧ quarterParked g i = true ∧ rawBit g ⟨.reset, 0⟩ 3 = true ∧ i ∉ g.gate.parking)) ∧
      (i ∉ e.parking → Becomes (.parked q) s h) ∧
      (i ∈ e.unparking → Answers (.unparked q) s (fun g => quarterParked g i = false ∧ trained g i ∧ Raised h g ⟨.reset, 0⟩ 4 ∧
        i ∉ g.gate.unparking ∧ SameMem h g)) ∧
      (i ∉ e.unparking → Becomes (.unparked q) s h)) ∧
    (∀ c : Croft,
      let i := c.val
      (quarterGone h (i / 16) = true → Becomes (.croftReset c) s h) ∧
      (hostAway h = false → quarterGone h (i / 16) = false → Answers (.croftReset c) s (fun g => CroftCleared h g i ∧ KeptStores h g ∧
        bit (getF g (croftBitF i) 0) (i % 32) = true ∧ FallowLeft h g ∧ flag g dyke_STATUS_WAITING (i / 16) = !(quarterX g (i / 16)).order.isEmpty ∧ quarantined g i = quarSet h i ∧
        (∀ a, a < 64 * 0xC00000 → rd8 g .barn a = rd8 h .barn a) ∧ (∀ a, a < 4 * 0x4000000 → rd8 g .commons a = rd8 h .commons a) ∧
        (∀ k, k < 64 → k ≠ i → croftX g k = croftX h k) ∧
        (i ∉ e.watchCrofts → SameRegs (fun a => croftBase i ≤ a ∧ a < croftBase i + 0x10000 ∨ a = fAddr (croftBitF i) 0 ∨ a = fAddr dyke_STATUS_WAITING (i / 16) ∨ a = fAddr reset_CTRL_FALLOW 0) h g))) ∧
      (bit (getF h (croftBitF i) 0) (i % 32) = true → Answers (.croftDone c) s (fun g => bit (getF g (croftBitF i) 0) (i % 32) = false ∧
        Raised h g ⟨.reset, 0⟩ 2 ∧ OnlyEvents h g)) ∧
      (bit (getF h (croftBitF i) 0) (i % 32) = false → Becomes (.croftDone c) s h)) ∧
    (∀ p : Port,
      (quarterGone h (p.val / 8) = true → Becomes (.portReset p) s h) ∧
      (hostAway h = false → quarterGone h (p.val / 8) = false →
        Answers (.portReset p) s (fun g => portX g p.val = {} ∧ portState g p.val = stDark ∧ FallowLeft h g ∧ SameMem h g) ∧
        ((portUp h p.val = true → ∀ vc, vc < 4 → chanQ (portX h p.val) vc = []) → Answers (.portReset p) s (fun g =>
          (∀ k, k ≠ p.val → portX g k = portX h k) ∧ g = { h with regs := g.regs, ports := g.ports, gate := g.gate } ∧ (flag h reset_CTRL_FALLOW 0 = false → g.gate = h.gate) ∧
          SameRegs (fun a => portBase p.val ≤ a ∧ a < portBase p.val + 0x2000 ∨ a = fAddr reset_CTRL_FALLOW 0) h g)))) ∧
    (let quiet := (∀ k, k < 192 → strmState h k = 0) ∧ flag h bellMaster_STATUS_RUNNING 0 = false ∧ flag h mill_CTRL_ENABLE 0 = false
     let on := flag h reset_CTRL_FALLOW 0
     (hostAway h = false → on = false → quiet → Answers (.fallow true) s (fun g => flag g reset_CTRL_FALLOW 0 = true ∧
       g.gate = { e with goingFallow := true, leavingFallow := false } ∧ OnlyRegs { h with gate := g.gate } g)) ∧
     (hostAway h = false → on = false → ¬ quiet → Answers (.fallow true) s (fun g => flag g reset_CTRL_FALLOW 0 = false ∧ Raised h g ⟨.reset, 0⟩ 7 ∧ OnlyEvents h g)) ∧
     (hostAway h = false → on = true → Answers (.fallow false) s (fun g => flag g reset_CTRL_FALLOW 0 = false ∧
       g.gate = { e with goingFallow := false, leavingFallow := flag h reset_STATUS_IN_FALLOW 0 } ∧ OnlyRegs { h with gate := g.gate } g)) ∧
     (∀ v, v = on → Becomes (.fallow v) s h) ∧
     (e.goingFallow = true → Answers .fallowEntered s (fun g => flag g reset_STATUS_IN_FALLOW 0 = true ∧ g.gate.goingFallow = false ∧
       (∀ k, k < 12 → quarterAway h (k / 3) = false → flag g hbm0_STATUS_SELF_REFRESH k = true) ∧ Raised h g ⟨.reset, 0⟩ 5 ∧ SameMem h g)) ∧
     (e.goingFallow = false → Becomes .fallowEntered s h) ∧
     (e.leavingFallow = true → Answers .fallowLeft s (fun g => flag g reset_STATUS_IN_FALLOW 0 = false ∧ g.gate.leavingFallow = false ∧
       (∀ k, k < 12 → quarterAway h (k / 3) = false → flag g hbm0_STATUS_SELF_REFRESH k = false) ∧ Raised h g ⟨.reset, 0⟩ 6 ∧ SameMem h g)) ∧
     (e.leavingFallow = false → Becomes .fallowLeft s h))

/-! The steward and the parish book -/

/-- RWS_COMMIT, GET_INFO, GET_NONCE, OPEN_PERSIST, ERASE_CONFIG, ERASE_BOOK, BOOK_ERASE_DONE, SET_OWNER, OWNER_FW_ACTIVATE, CLOSE_PERSIST,
PERSIST_WINDOW_EXPIRE, NONCE_EXPIRE, FW_WRITE, FW_STAGE, FW_ACTIVATE, HEARTBEAT, STEWARD_LOST and the SPDM requests (R10, R28, R480,
R482, R483 to R490, R501): an owner command acts only with the current nonce and the owner's signature, and spends the nonce either way; every command answers
with the status of its case; while an erase runs commands answer busy. A device that loses its steward goes on to the next step bell. -/
def Obligations.StewardServes : Prop :=
  ∀ (s : State) (tr : Transport) (b : Bytes),
    let h := s.hw
    let st := h.stew
    let up := stewUp h tr = true ∧ st.erasing = none
    let answers := fun (i : Instr) (code : Nat) (body : List Byte) => Answers i s (fun g => Responded h g tr code body ∧ g.stew = st ∧ SameMem h g)
    let ty := (b.getD 0 0).toNat
    let ab := 1 - fwActive h ty
    (∀ strap i, i ∈ [Instr.getInfo tr b, .getNonce tr b, .openPersist tr b, .eraseConfig tr b, .eraseBook tr b, .setOwner tr b strap,
        .ownerFwActivate tr b, .closePersist tr b, .fwWrite tr b, .fwStage tr b, .fwActivate tr b, .powerCycle tr, .moduleReset tr] →
      (stewUp h tr = false → Becomes i s h) ∧
      (∀ x, stewUp h tr = true → st.erasing = some x → (x ≠ .host ∨ tr ≠ .host → answers i 5 []) ∧ (x = .host → tr = .host → Becomes i s h))) ∧
    (∀ code strap i, (code, i) ∈ [(1, Instr.openPersist tr b), (2, .eraseConfig tr b), (3, .eraseBook tr b), (4, .setOwner tr b strap),
        (5, .ownerFwActivate tr b)] → up →
      (blobSized b = false → answers i 2 []) ∧
      (blobSized b = true → blobCode b = code → blobFresh h b = false ∨ st.owner ≠ [] ∧ blobSigned st.owner b = false → Answers i s (fun g =>
        Responded h g tr 3 [] ∧ g.stew = { st with nonce := none } ∧ rawBit g ⟨.mailbox, 0⟩ 2 = true ∧
        getF g mailbox_AUTH_FAILS 0 = (getF h mailbox_AUTH_FAILS 0 + 1) % 2 ^ 32 ∧ SameMem h g)) ∧
      (blobSized b = true → blobCode b = code → blobFresh h b = true → st.owner = [] → code ≠ 4 ∨ strap = false → Answers i s (fun g =>
        Responded h g tr 6 [] ∧ g.stew = { st with nonce := none } ∧ SameMem h g))) ∧
    (up →
      let p := blobPayload b
      let n := ofLe p
      let act := (h.stew.slots.getD (fwSlot ty ab) {}).verified
      (Authorised h b 1 → p.length = 2 → 1 ≤ n → n ≤ 600 → Answers (.openPersist tr b) s (fun g => Responded h g tr 0 [] ∧
        g.stew = { st with nonce := none, window := true, deadline := h.clk + n * clkSecond } ∧ flag g mailbox_STATUS_PERSIST_OPEN 0 = true ∧
        rawBit g ⟨.mailbox, 0⟩ 5 = true ∧ getF g mailbox_PERSIST_LEFT 0 = n)) ∧
      (Authorised h b 1 → p.length ≠ 2 ∨ n = 0 ∨ 600 < n → Answers (.openPersist tr b) s (fun g => Responded h g tr 2 [] ∧
        g.stew = { st with nonce := none })) ∧
      (Authorised h b 2 → p = [] → Answers (.eraseConfig tr b) s (fun g => Responded h g tr 0 [] ∧
        g.stew = { st with nonce := none, forwarded := [], gen := st.gen + 1 } ∧ (∀ a, a < 2 ^ 26 → storedReg g a = resetReg a))) ∧
      (Authorised h b 3 → p = [] → Answers (.eraseBook tr b) s (fun g => g.outbox = h.outbox ∧ (∀ k, k < 16384 → bookSlot g k = 0) ∧
        (∀ k, k < 5 → getF g (book_DROP k) 0 = 0) ∧ flag g book_STATUS_ERASING 0 = true ∧
        g.stew = { st with nonce := none, erasing := some tr, erased := h.book.length, drops := [0, 0, 0, 0, 0], wasFull := false })) ∧
      (Authorised h b 4 → p.length = 0 ∨ p.length = 64 → ∀ strap, Answers (.setOwner tr b strap) s (fun g => Responded h g tr 0 [] ∧
        g.stew = { st with nonce := none, owner := p, gen := st.gen + 1 } ∧ flag g mailbox_STATUS_OWNED 0 = !p.isEmpty)) ∧
      (blobSized b = true → blobCode b = 4 → blobFresh h b = true → st.owner = [] → p.length = 64 → blobSigned p b = true →
        Answers (.setOwner tr b true) s (fun g => Responded h g tr 0 [] ∧ g.stew = { st with nonce := none, owner := p, gen := st.gen + 1 } ∧
          flag g mailbox_STATUS_OWNED 0 = true)) ∧
      (Authorised h b 5 → p.length = 1 → 1 ≤ (p.getD 0 0).toNat → (p.getD 0 0).toNat ≤ 3 →
        let k := (p.getD 0 0).toNat
        let other := 1 - fwActive h k
        ((h.stew.slots.getD (fwSlot k other) {}).verified = true → Answers (.ownerFwActivate tr b) s (fun g => Responded h g tr 0 [] ∧
          g.stew = { st with nonce := none, active := st.active.set (k - 1) other, gen := st.gen + 1 })) ∧
        ((h.stew.slots.getD (fwSlot k other) {}).verified = false → Answers (.ownerFwActivate tr b) s (fun g => Responded h g tr 4 [] ∧
          g.stew = { st with nonce := none }))) ∧
      (b = [] → answers (.getInfo tr b) 0 (Config.identityInfo ++ [1, 2, 3].flatMap (fun k => ((fwRunning h k).drop 8).take 8) ++
        st.floors.flatMap (leBytes 4))) ∧
      (b = [] → Answers (.getNonce tr b) s (fun g => Responded h g tr 0 (nonceOf (st.nonceCtr + 1)) ∧
        g.stew = { st with nonceCtr := st.nonceCtr + 1, nonce := some (nonceOf (st.nonceCtr + 1)), gen := st.gen + 1 })) ∧
      (b = [] → Answers (.closePersist tr b) s (fun g => Responded h g tr 0 [] ∧ g.stew.window = false ∧ g.stew.forwarded = [] ∧
        (∀ a, storedReg g a = (st.forwarded.filter (fun x => x.1 == a)).foldl (fun v x => (v &&& ~~~x.2.1) ||| (x.2.2 &&& x.2.1)) (storedReg h a)))) ∧
      (b ≠ [] → answers (.getInfo tr b) 2 [] ∧ answers (.getNonce tr b) 2 [] ∧ answers (.closePersist tr b) 2 []) ∧
      (let off := ofLe ((b.drop 4).take 4)
       let data := b.drop 8
       let good := 8 ≤ b.length ∧ b.length ≤ 2048 ∧ 1 ≤ ty ∧ ty ≤ 3 ∧ off % 8 = 0 ∧ off + data.length ≤ fwSize ty
       (¬ good → answers (.fwWrite tr b) 2 []) ∧
       (good → st.slots.length = 6 → Answers (.fwWrite tr b) s (fun g => Responded h g tr 0 [] ∧
         (∀ k, k < data.length → fwByte g (fwSlot ty ab) (off + k) = data.getD k 0) ∧
         (∀ n k, n < 6 → ¬ (n = fwSlot ty ab ∧ off ≤ k ∧ k < off + data.length) → fwByte g n k = fwByte h n k) ∧
         (g.stew.slots.getD (fwSlot ty ab) {}).verified = false ∧ g.stew = { st with slots := g.stew.slots }))) ∧
      (badType b = true → answers (.fwStage tr b) 2 []) ∧
      (badType b = false → st.slots.length = 6 → Answers (.fwStage tr b) s (fun g =>
        Responded h g tr (if fwVerifies h ty ab then 0 else 4) [] ∧ (g.stew.slots.getD (fwSlot ty ab) {}).verified = fwVerifies h ty ab ∧
        (∀ n k, n < 6 → fwByte g n k = fwByte h n k) ∧ g.stew = { st with slots := g.stew.slots })) ∧
      (st.owner ≠ [] → answers (.fwActivate tr b) 6 []) ∧ (st.owner = [] → badType b = true → answers (.fwActivate tr b) 2 []) ∧
      (st.owner = [] → badType b = false → act = false → answers (.fwActivate tr b) 4 []) ∧
      (st.owner = [] → badType b = false → act = true → Answers (.fwActivate tr b) s (fun g => Responded h g tr 0 [] ∧
        g.stew = { st with active := st.active.set (ty - 1) ab, gen := st.gen + 1 }))) ∧
    (let serves := st.alive = true ∧ h.gate.off = false
     (∀ x rest, serves → st.forwarded = x :: rest → Answers .rwsCommit s (fun g => g.stew = { st with forwarded := rest, gen := st.gen + 1 } ∧
       storedReg g x.1 = ((storedReg h x.1 &&& ~~~x.2.1) ||| (x.2.2 &&& x.2.1)) ∧ (∀ a, a ≠ x.1 → storedReg g a = storedReg h a) ∧ g.regs = h.regs)) ∧
     (¬ serves ∨ st.forwarded = [] → Becomes .rwsCommit s h) ∧
     (∀ x, st.erasing = some x → serves → Answers .bookEraseDone s (fun g => Responded h g x 0 [] ∧ g.stew.erasing = none ∧
       BookRecorded h g 40 0 st.erased)) ∧
     (¬ serves ∨ st.erasing = none → Becomes .bookEraseDone s h) ∧
     (st.window = true → Answers .persistWindowExpire s (fun g => g.stew = { st with window := false, deadline := 0 } ∧
       flag g mailbox_STATUS_PERSIST_OPEN 0 = false ∧ getF g mailbox_PERSIST_LEFT 0 = 0 ∧ g.stored = h.stored)) ∧
     (st.window = false → Becomes .persistWindowExpire s h) ∧
     Becomes .nonceExpire s { h with stew := { st with nonce := none } } ∧
     (h.gate.off = false → Answers .heartbeat s (fun g => g.stew = { st with alive := true } ∧ flag g mailbox_STATUS_ALIVE 0 = true ∧
       flag g mailbox_STATUS_OWNED 0 = !st.owner.isEmpty ∧ OnlyRegs { h with stew := g.stew } g)) ∧
     (h.gate.off = true → Becomes .heartbeat s h) ∧
     (st.alive = true → Answers .stewardLost s (fun g => g.stew = { st with alive := false, erasing := none } ∧
       flag g mailbox_STATUS_ALIVE 0 = false ∧ rawBit g ⟨.mailbox, 0⟩ 3 = true ∧ g.gate.stewWait = 1 ∧ g.gate.failed = h.gate.failed ∧
       (∀ x, st.erasing = some x → g.outbox = .steward x 5 [] :: h.outbox) ∧ SameMem h g)) ∧
     (st.alive = false → Becomes .stewardLost s h)) ∧
    (∀ (slot idx code : BitVec 8) (off len : BitVec 16) (sign : Bool),
      let out := fun (i : Instr) (c : Nat) (body : List Byte) => Becomes i s { h with outbox := .steward tr c body :: h.outbox }
      let steps := fun (i : Instr) (n c : Nat) (body : List Byte) => Answers i s (fun g => spdmState g tr = n ∧
        (∀ x, x ≠ tr → spdmState g x = spdmState h x) ∧ g = { h with stew := g.stew, outbox := .steward tr c body :: h.outbox })
      let all := allMeasurements h
      (∀ need i, (need, i) ∈ [(0, Instr.getVersion tr), (1, .getCapabilities tr), (2, .negotiateAlgorithms tr), (3, .getDigests tr),
          (3, .getCertificate tr slot off len), (3, .challenge tr slot b), (3, .getMeasurements tr idx sign b), (0, .spdmUnsupported tr code)] →
        (stewUp h tr = false → Becomes i s h) ∧ (stewUp h tr = true → spdmState h tr < need → out i 0x7F [4])) ∧
      (stewUp h tr = true → out (.spdmUnsupported tr code) 0x7F [7] ∧ steps (.getVersion tr) 1 0x04 [1, 0x00, 0x12] ∧
        (1 ≤ spdmState h tr → steps (.getCapabilities tr) 2 0x61 [0x16, 0, 0, 0]) ∧
        (2 ≤ spdmState h tr → steps (.negotiateAlgorithms tr) 3 0x63 [1, 2, 0, 0, 0, 0x10, 0, 0, 0, 1, 0, 0, 0]) ∧
        (3 ≤ spdmState h tr → out (.getDigests tr) 0x01 (1 :: Config.sha256 Config.certChain) ∧
          (slot ≠ 0 → out (.getCertificate tr slot off len) 0x7F [1] ∧ out (.challenge tr slot b) 0x7F [1]) ∧
          out (.getCertificate tr 0 off len) 0x02 ((Config.certChain.drop off.toNat).take len.toNat) ∧
          (b.length = 32 → out (.challenge tr 0 b) 0x03 (Config.sha256 Config.certChain ++ Config.sha256 all ++
            Config.ecdsaSign (Config.spdmTranscript all b))) ∧
          (8 < idx.toNat → idx.toNat ≠ 255 → out (.getMeasurements tr idx sign b) 0x7F [1]) ∧
          out (.getMeasurements tr 0 false b) 0x60 [8] ∧ out (.getMeasurements tr 255 false b) 0x60 all ∧
          (1 ≤ idx.toNat → idx.toNat ≤ 8 → out (.getMeasurements tr idx false b) 0x60 (measurement h idx.toNat) ∧
            (b.length = 32 → out (.getMeasurements tr idx true b) 0x60 (measurement h idx.toNat ++
              Config.ecdsaSign (Config.spdmTranscript (measurement h idx.toNat) b)))))))

/-- RECORD_WRITE, HOURS_COMMIT, CURSOR_WRITE, WINDOW_READ, NEXT, PREV, OLDEST and NEWEST (R396, R493, R494, R498 to R500,
R502): where a record goes and when it is
dropped, what a read of the window returns, and where the cursor moves. A move is under way until the first clk that passes: its length is
the model's choice, log 50. -/
def Obligations.BookKept : Prop :=
  ∀ s : State,
    let h := s.hw
    let st := h.stew
    let takes := st.alive = true ∧ h.gate.off = false ∧ st.erasing = none
    (∀ (ticks : Nat) (r : QRec) (rest : List QRec), takes → h.gateQ = r :: rest →
      let entry := bookRecord st.seq (max st.ticks ticks) st.cycles r
      let written := fun (n : Nat) (g : Hw) => bookSlot g n = entry ∧ (∀ k, k ≠ n → bookSlot g k = bookSlot h k) ∧ g.stew.seq = st.seq + 1 ∧
        g.stew.ticks = max st.ticks ticks ∧ SameMem h g
      (h.book.length < 16384 → Answers (.recordWrite ticks) s (fun g => written (lowestEmpty h.book 0) g ∧
        (h.book.length + 1 < 16384 → g.gateQ = rest) ∧
        (h.wf = true → h.book.length = 16383 → st.wasFull = false → st.seq % 2 ^ 48 ≠ 0 → rawBit g ⟨.book, 0⟩ 0 = true ∧ flag g book_STATUS_FULL 0 = true))) ∧
      (∀ n v, h.book.length = 16384 → (h.book.map (·.1)).Nodup → (n, v) ∈ h.book → recSev v ≤ r.sev →
        (∀ x, x ∈ h.book → x ≠ (n, v) → recSev x.2 ≤ r.sev → recSeq v < recSeq x.2) → Answers (.recordWrite ticks) s (fun g => written n g)) ∧
      (h.book.length = 16384 → rest.length < 256 → r.sev < 5 → (∀ x, x ∈ h.book → r.sev < recSev x.2) → Answers (.recordWrite ticks) s (fun g =>
        g.book = h.book ∧ g.stew.seq = st.seq ∧ getF g (book_DROP r.sev) 0 = (getF h (book_DROP r.sev) 0 + 1) % 2 ^ 32 ∧
        rawBit g ⟨.book, 0⟩ 1 = true ∧ SameMem h g))) ∧
    (∀ ticks, ¬ takes ∨ h.gateQ = [] → Becomes (.recordWrite ticks) s h) ∧
    (∀ ticks, st.alive = true → h.gate.off = false → Becomes (.hoursCommit ticks) s
      { h with stew := { st with ticks := max st.ticks ticks, committed := max st.ticks ticks, drops := dropCounts h } }) ∧
    (∀ ticks, st.alive = false ∨ h.gate.off = true → Becomes (.hoursCommit ticks) s h) ∧
    (let cur := getF h book_CURSOR_SLOT 0
     let base := match h.gate.bookSeq with
       | some q => q
       | none => recSeq (bookSlot h cur)
     let usable := hostAway h = false ∧ flag h book_STATUS_BUSY 0 = false
     let at' := fun (n : Nat) (g : Hw) => getF g book_CURSOR_SLOT 0 = n ∧ flag g book_CURSOR_VALID 0 = decide (bookSlot h n ≠ 0) ∧
       flag g book_STATUS_END 0 = false ∧ g.gate = { h.gate with bookSnap := none, bookSeq := g.gate.bookSeq } ∧
       OnlyRegs { h with gate := g.gate } g
     let finds := fun (m q : Nat) (p : Nat → Prop) (before : Nat → Nat → Prop) => h.gate.bookMove = some (m, q) →
       ∀ t, h.clk < t →
         let g := now s t
         flag g book_STATUS_BUSY 0 = false ∧ g.gate.bookMove = none ∧ g.gate.bookSeq = h.gate.bookSeq ∧ g.book = h.book ∧
         (∀ n r, n < 16384 → (n, r) ∈ h.book → p (recSeq r) → (∀ x, x ∈ h.book → p (recSeq x.2) → x = (n, r) ∨ before (recSeq r) (recSeq x.2)) →
           getF g book_CURSOR_SLOT 0 = n ∧ flag g book_CURSOR_VALID 0 = decide (bookSlot h n ≠ 0) ∧ flag g book_STATUS_END 0 = false ∧
             g.gate.bookSnap = none) ∧
         ((∀ x, x ∈ h.book → ¬ p (recSeq x.2)) → flag g book_STATUS_END 0 = true ∧ getF g book_CURSOR_SLOT 0 = cur)
     (usable → ∀ slot : BitVec 14, Answers (.cursorWrite slot) s (fun g => at' slot.toNat g ∧ g.gate.bookSeq = none)) ∧
     (usable → ∀ x, x ∈ [(Instr.next, 1), (.prev, 2), (.oldest, 3), (.newest, 4)] → Answers x.1 s (fun g =>
       flag g book_STATUS_BUSY 0 = true ∧ getF g book_CURSOR_SLOT 0 = cur ∧ g.gate = { h.gate with bookMove := some (x.2, base) } ∧
       OnlyRegs { h with gate := g.gate } g ∧ SameRegs (fun a => a = fAddr book_STATUS_BUSY 0) h g)) ∧
     (∀ q, finds 1 q (fun k => q < k) (· < ·) ∧ finds 2 q (fun k => k < q) (· > ·) ∧ finds 3 q (fun _ => True) (· < ·) ∧
       finds 4 q (fun _ => True) (· > ·)) ∧
     (let words := (List.range 16).map (fun k => bookSlot h cur / 2 ^ (32 * k) % 2 ^ 32)
      let read := { h.gate with bookSnap := some (cur, words), bookSeq := some (recSeq (bookSlot h cur)) }
      hostAway h = false → Becomes .windowRead s
        { h with gate := read, outbox := .regData (BitVec.ofNat 32 (bookSlot h cur % 2 ^ 32)) :: h.outbox }) ∧
     (h.gate.linkDown = true ∨ h.gate.off = true → Becomes .windowRead s h) ∧
     (h.gate.linkDown = false → h.gate.off = false → h.gate.flr = true →
       Becomes .windowRead s { h with outbox := .regData 0xFFFFFFFF :: h.outbox }) ∧
     (¬ usable → ∀ slot, Becomes (.cursorWrite slot) s h ∧ Becomes .next s h ∧ Becomes .prev s h ∧ Becomes .oldest s h ∧ Becomes .newest s h))

end
end

