-- ==== Sys2Proof/Laws/Sparse.lean ====
section
/-! SUPPORT. Laws of sparse maps: a read after a write or a removal, and the canonical form. -/

namespace Sys2Proof.Machine

variable {α : Type} (d : Nat → α) (k j : Nat) (v : α) (m : List (Nat × α))

theorem smGet_smPut : smGet d (smPut k v m) j = if j = k then v else smGet d m j := by
  induction m with
  | nil => simp [smPut, smGet]
  | cons x m ih =>
    obtain ⟨k', v'⟩ := x
    simp only [smPut]
    split
    · simp [smGet]
    · split
      · subst_vars
        simp only [smGet]
        split <;> rfl
      · simp only [smGet, ih]
        by_cases hj : j = k'
        · subst hj
          rw [if_pos rfl, if_pos rfl, if_neg]
          omega
        · simp [hj]

theorem smGet_smDrop (p : Nat → Bool) : smGet d (smDrop p m) j = if p j then d j else smGet d m j := by
  induction m with
  | nil => simp [smDrop, smGet]
  | cons x m ih =>
    obtain ⟨k', v'⟩ := x
    simp only [smDrop, List.filter_cons] at ih ⊢
    by_cases hp : p k' <;> by_cases hj : j = k' <;> simp_all [smGet]

/-- A read after a write: of the written key the value, of any other what it was. -/
theorem smGet_smSet [DecidableEq α] : smGet d (smSet d k v m) j = if j = k then v else smGet d m j := by
  unfold smSet
  split
  · rename_i h
    rw [smGet_smDrop]
    by_cases hj : j = k <;> simp [hj, h]
  · exact smGet_smPut d k j v m

@[simp] theorem smGet_smSet_same [DecidableEq α] : smGet d (smSet d k v m) k = v := by simp [smGet_smSet]

theorem smGet_smSet_ne [DecidableEq α] (h : j ≠ k) : smGet d (smSet d k v m) j = smGet d m j := by simp [smGet_smSet, h]

/-- A read after a write of consecutive keys. -/
theorem smGet_smSetRange [DecidableEq α] (vs : List α) (a : Nat) (m : List (Nat × α)) :
    smGet d (smSetRange d a vs m) j = if h : a ≤ j ∧ j < a + vs.length then vs[j - a] else smGet d m j := by
  induction vs generalizing a m with
  | nil => simp [smSetRange] <;> omega
  | cons x xs ih =>
    rw [smSetRange, ih, smGet_smSet]
    by_cases h1 : j = a
    · subst h1
      rw [dif_neg (by omega), dif_pos (by simp)]
      simp
    · by_cases h2 : a + 1 ≤ j ∧ j < a + 1 + xs.length
      · have h3 : a ≤ j ∧ j < a + (x :: xs).length := by simp; omega
        rw [dif_pos h2, dif_pos h3]
        have : j - a = (j - (a + 1)) + 1 := by omega
        simp [this]
      · have h3 : ¬(a ≤ j ∧ j < a + (x :: xs).length) := by simp; omega
        rw [dif_neg h2, dif_neg h3, if_neg h1]

theorem smWfFrom_mono [DecidableEq α] {lo lo' : Nat} {m : List (Nat × α)} (h : lo ≤ lo') (hm : smWfFrom d lo' m = true) :
    smWfFrom d lo m = true := by
  cases m with
  | nil => rfl
  | cons x m => simp only [smWfFrom, Bool.and_eq_true, decide_eq_true_eq] at hm ⊢; exact ⟨⟨by omega, hm.1.2⟩, hm.2⟩

theorem smWfFrom_smPut [DecidableEq α] (hv : v ≠ d k) (lo : Nat) (hlo : lo ≤ k) (m : List (Nat × α))
    (hm : smWfFrom d lo m = true) : smWfFrom d lo (smPut k v m) = true := by
  induction m generalizing lo with
  | nil => simp [smPut, smWfFrom, hlo, hv]
  | cons x m ih =>
    obtain ⟨k', v'⟩ := x
    simp only [smWfFrom, Bool.and_eq_true, decide_eq_true_eq] at hm
    simp only [smPut]
    split
    · simp only [smWfFrom, Bool.and_eq_true, decide_eq_true_eq]
      exact ⟨⟨hlo, hv⟩, ⟨by omega, hm.1.2⟩, hm.2⟩
    · split
      · subst_vars
        simp only [smWfFrom, Bool.and_eq_true, decide_eq_true_eq]
        exact ⟨⟨hlo, hv⟩, hm.2⟩
      · simp only [smWfFrom, Bool.and_eq_true, decide_eq_true_eq]
        exact ⟨hm.1, ih (k' + 1) (by omega) hm.2⟩

/-- A removal keeps the canonical form, also for another default that agrees with the first on every key that stays. -/
theorem smWfFrom_smDrop [DecidableEq α] (d' : Nat → α) (p : Nat → Bool) (hd : ∀ k, p k = false → d' k = d k) (lo : Nat)
    (m : List (Nat × α)) (hm : smWfFrom d lo m = true) : smWfFrom d' lo (smDrop p m) = true := by
  induction m generalizing lo with
  | nil => rfl
  | cons x m ih =>
    obtain ⟨k', v'⟩ := x
    simp only [smWfFrom, Bool.and_eq_true, decide_eq_true_eq] at hm
    simp only [smDrop, List.filter_cons] at ih ⊢
    cases hp : p k' with
    | true => simp only [Bool.not_true, Bool.false_eq_true, if_false]; exact smWfFrom_mono d' (by omega) (ih (k' + 1) hm.2)
    | false =>
      simp only [Bool.not_false, if_true, smWfFrom, Bool.and_eq_true, decide_eq_true_eq]
      exact ⟨⟨hm.1.1, by rw [hd k' hp]; exact hm.1.2⟩, ih (k' + 1) hm.2⟩

theorem smWf_smDrop [DecidableEq α] (p : Nat → Bool) (hm : smWf d m = true) : smWf d (smDrop p m) = true :=
  smWfFrom_smDrop d d p (fun _ _ => rfl) 0 m hm

theorem smWf_smSet [DecidableEq α] (hm : smWf d m = true) : smWf d (smSet d k v m) = true := by
  unfold smSet
  split
  · exact smWf_smDrop d m _ hm
  · exact smWfFrom_smPut d k v ‹_› 0 (Nat.zero_le k) m hm

theorem smWf_smSetRange [DecidableEq α] (vs : List α) (a : Nat) (m : List (Nat × α)) (hm : smWf d m = true) :
    smWf d (smSetRange d a vs m) = true := by
  induction vs generalizing a m with
  | nil => exact hm
  | cons x xs ih => exact ih (a + 1) _ (smWf_smSet d a x m hm)

end Sys2Proof.Machine
end

