-- ==== Sys2Proof/Laws/State.lean ====
section
/-! SUPPORT. What each primitive update does to the field it names, and that it leaves every other field alone: `Upd.tag` names the
field, and an effect none of whose updates carries a field's tag leaves that field as it was. -/

set_option linter.unusedSimpArgs false

namespace Sys2Proof.Machine

/-- The fields of the device. -/
inductive Tag where
  | clk | free | gateQ | outbox | bell | mill | gate | stew | sigNow | regs | stored | msix | sigs | keepAdds | slots | streams | crofts
  | fields | csum | epochs | ledger | shadow | tslots | windows | routes | quarters | ports | rings | book | mgroups
  | mlayers | mlayerX | millSums | accs | hostMem | barn | commons | hbm | slow
deriving DecidableEq, Repr

def MapName.tag : MapName → Tag
  | .regs => .regs
  | .stored => .stored
  | .msix => .msix
  | .ledger => .ledger
  | .shadow => .shadow
  | .tslots => .tslots
  | .routes => .routes
  | .mgroups => .mgroups
  | .mlayers => .mlayers
  | .mlayerX => .mlayerX
  | .millSums => .millSums
  | .sigs => .sigs
  | .keepAdds => .keepAdds
  | .slots => .slots
  | .book => .book
  | .windows => .windows
  | .csum => .csum

def MemSp.tag : MemSp → Tag
  | .hostMem => .hostMem
  | .barn => .barn
  | .commons => .commons
  | .hbm => .hbm
  | .slow => .slow

/-- The fields an update may change. -/
def Upd.tags : Upd → List Tag
  | .clk _ => [.clk]
  | .free _ => [.free]
  | .gateQ _ => [.gateQ]
  | .outbox _ => [.outbox]
  | .bell _ => [.bell]
  | .mill _ => [.mill]
  | .gate _ => [.gate]
  | .stew _ => [.stew]
  | .sigNow _ => [.sigNow]
  | .regs _ _ => [.regs]
  | .stored _ _ => [.stored]
  | .msix _ _ => [.msix]
  | .sigs _ _ => [.sigs]
  | .keepAdds _ _ => [.keepAdds]
  | .slots _ _ => [.slots]
  | .streams _ _ => [.streams]
  | .crofts _ _ => [.crofts]
  | .fields _ _ => [.fields]
  | .csum _ _ => [.csum]
  | .ledger _ _ => [.ledger]
  | .shadow _ _ => [.shadow]
  | .tslots _ _ => [.tslots]
  | .windows _ _ => [.windows]
  | .routes _ _ => [.routes]
  | .quarters _ _ => [.quarters]
  | .ports _ _ => [.ports]
  | .rings _ _ => [.rings]
  | .book _ _ => [.book]
  | .mgroups _ _ => [.mgroups]
  | .mlayers _ _ => [.mlayers]
  | .mlayerX _ _ => [.mlayerX]
  | .millSums _ _ => [.millSums]
  | .accRow _ _ => [.accs]
  | .zeroAccs _ => [.accs]
  | .mem sp _ _ => [sp.tag]
  | .undef _ => [.epochs, .hostMem, .barn, .commons, .hbm, .slow, .accs, .csum]
  | .drop m _ _ => [m.tag]

section own
variable (h : Hw)

@[simp] theorem applyUpd_clk (v) : (applyUpd h (.clk v)).clk = v := (rfl)
@[simp] theorem applyUpd_free (v) : (applyUpd h (.free v)).free = v := (rfl)
@[simp] theorem applyUpd_gateQ (v) : (applyUpd h (.gateQ v)).gateQ = v := (rfl)
@[simp] theorem applyUpd_outbox (v) : (applyUpd h (.outbox v)).outbox = v := (rfl)
@[simp] theorem applyUpd_bell (v) : (applyUpd h (.bell v)).bell = v := (rfl)
@[simp] theorem applyUpd_mill (v) : (applyUpd h (.mill v)).mill = v := (rfl)
@[simp] theorem applyUpd_gate (v) : (applyUpd h (.gate v)).gate = v := (rfl)
@[simp] theorem applyUpd_stew (v) : (applyUpd h (.stew v)).stew = v := (rfl)
@[simp] theorem applyUpd_sigNow (v) : (applyUpd h (.sigNow v)).sigNow = v := (rfl)
@[simp] theorem applyUpd_regs (k v) :
    (applyUpd h (.regs k v)).regs = smSet resetReg k (keepReg k v) h.regs := (rfl)
@[simp] theorem applyUpd_stored (k v) : (applyUpd h (.stored k v)).stored = smSet resetReg k v h.stored := (rfl)
@[simp] theorem applyUpd_msix (k v) : (applyUpd h (.msix k v)).msix = smSet msixDflt k v h.msix := (rfl)
@[simp] theorem applyUpd_sigs (k v) : (applyUpd h (.sigs k v)).sigs = smSet (fun _ => 0) k v h.sigs := (rfl)
@[simp] theorem applyUpd_keepAdds (k v) : (applyUpd h (.keepAdds k v)).keepAdds = smSet (fun _ => 0) k v h.keepAdds := (rfl)
@[simp] theorem applyUpd_slots (k v) : (applyUpd h (.slots k v)).slots = smSet (fun _ => {}) k v h.slots := (rfl)
@[simp] theorem applyUpd_streams (k v) : (applyUpd h (.streams k v)).streams = smSet (fun _ => {}) k v h.streams := (rfl)
@[simp] theorem applyUpd_crofts (k v) : (applyUpd h (.crofts k v)).crofts = smSet (fun _ => {}) k v h.crofts := (rfl)
@[simp] theorem applyUpd_fields (k v) : (applyUpd h (.fields k v)).fields = smSet (fun _ => {}) k v h.fields := (rfl)
@[simp] theorem applyUpd_csum (k v) : (applyUpd h (.csum k v)).csum = smSet (fun _ => none) k v h.csum := (rfl)
@[simp] theorem applyUpd_ledger (k v) : (applyUpd h (.ledger k v)).ledger = smSet (fun _ => ledgerReset) k v h.ledger := (rfl)
@[simp] theorem applyUpd_shadow (k v) : (applyUpd h (.shadow k v)).shadow = smSet (fun _ => none) k v h.shadow := (rfl)
@[simp] theorem applyUpd_tslots (k v) : (applyUpd h (.tslots k v)).tslots = smSet (fun _ => {}) k v h.tslots := (rfl)
@[simp] theorem applyUpd_windows (k v) : (applyUpd h (.windows k v)).windows = smSet (fun _ => {}) k v h.windows := (rfl)
@[simp] theorem applyUpd_routes (k v) : (applyUpd h (.routes k v)).routes = smSet (fun _ => 0) k v h.routes := (rfl)
@[simp] theorem applyUpd_quarters (k v) : (applyUpd h (.quarters k v)).quarters = smSet (fun _ => {}) k v h.quarters := (rfl)
@[simp] theorem applyUpd_ports (k v) : (applyUpd h (.ports k v)).ports = smSet (fun _ => {}) k v h.ports := (rfl)
@[simp] theorem applyUpd_rings (k v) : (applyUpd h (.rings k v)).rings = smSet (fun _ => {}) k v h.rings := (rfl)
@[simp] theorem applyUpd_book (k v) : (applyUpd h (.book k v)).book = smSet (fun _ => 0) k v h.book := (rfl)
@[simp] theorem applyUpd_mgroups (k v) : (applyUpd h (.mgroups k v)).mgroups = smSet (fun _ => 0) k v h.mgroups := (rfl)
@[simp] theorem applyUpd_mlayers (k v) : (applyUpd h (.mlayers k v)).mlayers = smSet (fun _ => 0) k v h.mlayers := (rfl)
@[simp] theorem applyUpd_mlayerX (k v) : (applyUpd h (.mlayerX k v)).mlayerX = smSet (fun _ => {}) k v h.mlayerX := (rfl)
@[simp] theorem applyUpd_millSums (k v) : (applyUpd h (.millSums k v)).millSums = smSet (fun _ => 0) k v h.millSums := (rfl)
@[simp] theorem applyUpd_drop_regs (lo hi) : (applyUpd h (.drop .regs lo hi)).regs = smDrop (inRange lo hi) h.regs := (rfl)
@[simp] theorem applyUpd_drop_stored (lo hi) : (applyUpd h (.drop .stored lo hi)).stored = smDrop (inRange lo hi) h.stored := (rfl)
@[simp] theorem applyUpd_drop_msix (lo hi) : (applyUpd h (.drop .msix lo hi)).msix = smDrop (inRange lo hi) h.msix := (rfl)
@[simp] theorem applyUpd_drop_ledger (lo hi) : (applyUpd h (.drop .ledger lo hi)).ledger = smDrop (inRange lo hi) h.ledger := (rfl)
@[simp] theorem applyUpd_drop_shadow (lo hi) : (applyUpd h (.drop .shadow lo hi)).shadow = smDrop (inRange lo hi) h.shadow := (rfl)
@[simp] theorem applyUpd_drop_tslots (lo hi) : (applyUpd h (.drop .tslots lo hi)).tslots = smDrop (inRange lo hi) h.tslots := (rfl)
@[simp] theorem applyUpd_drop_routes (lo hi) : (applyUpd h (.drop .routes lo hi)).routes = smDrop (inRange lo hi) h.routes := (rfl)
@[simp] theorem applyUpd_drop_mgroups (lo hi) : (applyUpd h (.drop .mgroups lo hi)).mgroups = smDrop (inRange lo hi) h.mgroups := (rfl)
@[simp] theorem applyUpd_drop_mlayers (lo hi) : (applyUpd h (.drop .mlayers lo hi)).mlayers = smDrop (inRange lo hi) h.mlayers := (rfl)
@[simp] theorem applyUpd_drop_mlayerX (lo hi) : (applyUpd h (.drop .mlayerX lo hi)).mlayerX = smDrop (inRange lo hi) h.mlayerX := (rfl)
@[simp] theorem applyUpd_drop_millSums (lo hi) : (applyUpd h (.drop .millSums lo hi)).millSums = smDrop (inRange lo hi) h.millSums := (rfl)
@[simp] theorem applyUpd_drop_sigs (lo hi) : (applyUpd h (.drop .sigs lo hi)).sigs = smDrop (inRange lo hi) h.sigs := (rfl)
@[simp] theorem applyUpd_drop_keepAdds (lo hi) : (applyUpd h (.drop .keepAdds lo hi)).keepAdds = smDrop (inRange lo hi) h.keepAdds := (rfl)
@[simp] theorem applyUpd_drop_slots (lo hi) : (applyUpd h (.drop .slots lo hi)).slots = smDrop (inRange lo hi) h.slots := (rfl)
@[simp] theorem applyUpd_drop_book (lo hi) : (applyUpd h (.drop .book lo hi)).book = smDrop (inRange lo hi) h.book := (rfl)
@[simp] theorem applyUpd_drop_windows (lo hi) : (applyUpd h (.drop .windows lo hi)).windows = smDrop (inRange lo hi) h.windows := (rfl)
@[simp] theorem applyUpd_drop_csum (lo hi) : (applyUpd h (.drop .csum lo hi)).csum = smDrop (inRange lo hi) h.csum := (rfl)
@[simp] theorem applyUpd_accRow (k vs) : (applyUpd h (.accRow k vs)).accs = smSetRange (accDflt h.epochs) k vs h.accs := (rfl)

end own

/-! One lemma per field: an update without its tag keeps it. -/

theorem applyUpd_keeps_clk (h : Hw) (u : Upd) (hu : .clk ∉ u.tags) : (applyUpd h u).clk = h.clk := by
  cases u <;> first
    | rfl
    | (simp [Upd.tags] at hu; done)
    | (simp only [applyUpd, zeroAccs]; split <;> rfl)
    | (rename_i m _ _; cases m <;> first | rfl | (simp [Upd.tags, MapName.tag] at hu; done) | (simp [Upd.tags, MemSp.tag] at hu; done))

theorem applyUpd_keeps_free (h : Hw) (u : Upd) (hu : .free ∉ u.tags) : (applyUpd h u).free = h.free := by
  cases u <;> first
    | rfl
    | (simp [Upd.tags] at hu; done)
    | (simp only [applyUpd, zeroAccs]; split <;> rfl)
    | (rename_i m _ _; cases m <;> first | rfl | (simp [Upd.tags, MapName.tag] at hu; done) | (simp [Upd.tags, MemSp.tag] at hu; done))

theorem applyUpd_keeps_gateQ (h : Hw) (u : Upd) (hu : .gateQ ∉ u.tags) : (applyUpd h u).gateQ = h.gateQ := by
  cases u <;> first
    | rfl
    | (simp [Upd.tags] at hu; done)
    | (simp only [applyUpd, zeroAccs]; split <;> rfl)
    | (rename_i m _ _; cases m <;> first | rfl | (simp [Upd.tags, MapName.tag] at hu; done) | (simp [Upd.tags, MemSp.tag] at hu; done))

theorem applyUpd_keeps_outbox (h : Hw) (u : Upd) (hu : .outbox ∉ u.tags) : (applyUpd h u).outbox = h.outbox := by
  cases u <;> first
    | rfl
    | (simp [Upd.tags] at hu; done)
    | (simp only [applyUpd, zeroAccs]; split <;> rfl)
    | (rename_i m _ _; cases m <;> first | rfl | (simp [Upd.tags, MapName.tag] at hu; done) | (simp [Upd.tags, MemSp.tag] at hu; done))

theorem applyUpd_keeps_bell (h : Hw) (u : Upd) (hu : .bell ∉ u.tags) : (applyUpd h u).bell = h.bell := by
  cases u <;> first
    | rfl
    | (simp [Upd.tags] at hu; done)
    | (simp only [applyUpd, zeroAccs]; split <;> rfl)
    | (rename_i m _ _; cases m <;> first | rfl | (simp [Upd.tags, MapName.tag] at hu; done) | (simp [Upd.tags, MemSp.tag] at hu; done))

theorem applyUpd_keeps_mill (h : Hw) (u : Upd) (hu : .mill ∉ u.tags) : (applyUpd h u).mill = h.mill := by
  cases u <;> first
    | rfl
    | (simp [Upd.tags] at hu; done)
    | (simp only [applyUpd, zeroAccs]; split <;> rfl)
    | (rename_i m _ _; cases m <;> first | rfl | (simp [Upd.tags, MapName.tag] at hu; done) | (simp [Upd.tags, MemSp.tag] at hu; done))

theorem applyUpd_keeps_gate (h : Hw) (u : Upd) (hu : .gate ∉ u.tags) : (applyUpd h u).gate = h.gate := by
  cases u <;> first
    | rfl
    | (simp [Upd.tags] at hu; done)
    | (simp only [applyUpd, zeroAccs]; split <;> rfl)
    | (rename_i m _ _; cases m <;> first | rfl | (simp [Upd.tags, MapName.tag] at hu; done) | (simp [Upd.tags, MemSp.tag] at hu; done))

theorem applyUpd_keeps_stew (h : Hw) (u : Upd) (hu : .stew ∉ u.tags) : (applyUpd h u).stew = h.stew := by
  cases u <;> first
    | rfl
    | (simp [Upd.tags] at hu; done)
    | (simp only [applyUpd, zeroAccs]; split <;> rfl)
    | (rename_i m _ _; cases m <;> first | rfl | (simp [Upd.tags, MapName.tag] at hu; done) | (simp [Upd.tags, MemSp.tag] at hu; done))

theorem applyUpd_keeps_sigNow (h : Hw) (u : Upd) (hu : .sigNow ∉ u.tags) : (applyUpd h u).sigNow = h.sigNow := by
  cases u <;> first
    | rfl
    | (simp [Upd.tags] at hu; done)
    | (simp only [applyUpd, zeroAccs]; split <;> rfl)
    | (rename_i m _ _; cases m <;> first | rfl | (simp [Upd.tags, MapName.tag] at hu; done) | (simp [Upd.tags, MemSp.tag] at hu; done))

theorem applyUpd_keeps_regs (h : Hw) (u : Upd) (hu : .regs ∉ u.tags) : (applyUpd h u).regs = h.regs := by
  cases u <;> first
    | rfl
    | (simp [Upd.tags] at hu; done)
    | (simp only [applyUpd, zeroAccs]; split <;> rfl)
    | (rename_i m _ _; cases m <;> first | rfl | (simp [Upd.tags, MapName.tag] at hu; done) | (simp [Upd.tags, MemSp.tag] at hu; done))

theorem applyUpd_keeps_stored (h : Hw) (u : Upd) (hu : .stored ∉ u.tags) : (applyUpd h u).stored = h.stored := by
  cases u <;> first
    | rfl
    | (simp [Upd.tags] at hu; done)
    | (simp only [applyUpd, zeroAccs]; split <;> rfl)
    | (rename_i m _ _; cases m <;> first | rfl | (simp [Upd.tags, MapName.tag] at hu; done) | (simp [Upd.tags, MemSp.tag] at hu; done))

theorem applyUpd_keeps_msix (h : Hw) (u : Upd) (hu : .msix ∉ u.tags) : (applyUpd h u).msix = h.msix := by
  cases u <;> first
    | rfl
    | (simp [Upd.tags] at hu; done)
    | (simp only [applyUpd, zeroAccs]; split <;> rfl)
    | (rename_i m _ _; cases m <;> first | rfl | (simp [Upd.tags, MapName.tag] at hu; done) | (simp [Upd.tags, MemSp.tag] at hu; done))

theorem applyUpd_keeps_sigs (h : Hw) (u : Upd) (hu : .sigs ∉ u.tags) : (applyUpd h u).sigs = h.sigs := by
  cases u <;> first
    | rfl
    | (simp [Upd.tags] at hu; done)
    | (simp only [applyUpd, zeroAccs]; split <;> rfl)
    | (rename_i m _ _; cases m <;> first | rfl | (simp [Upd.tags, MapName.tag] at hu; done) | (simp [Upd.tags, MemSp.tag] at hu; done))

theorem applyUpd_keeps_keepAdds (h : Hw) (u : Upd) (hu : .keepAdds ∉ u.tags) : (applyUpd h u).keepAdds = h.keepAdds := by
  cases u <;> first
    | rfl
    | (simp [Upd.tags] at hu; done)
    | (simp only [applyUpd, zeroAccs]; split <;> rfl)
    | (rename_i m _ _; cases m <;> first | rfl | (simp [Upd.tags, MapName.tag] at hu; done) | (simp [Upd.tags, MemSp.tag] at hu; done))

theorem applyUpd_keeps_slots (h : Hw) (u : Upd) (hu : .slots ∉ u.tags) : (applyUpd h u).slots = h.slots := by
  cases u <;> first
    | rfl
    | (simp [Upd.tags] at hu; done)
    | (simp only [applyUpd, zeroAccs]; split <;> rfl)
    | (rename_i m _ _; cases m <;> first | rfl | (simp [Upd.tags, MapName.tag] at hu; done) | (simp [Upd.tags, MemSp.tag] at hu; done))

theorem applyUpd_keeps_streams (h : Hw) (u : Upd) (hu : .streams ∉ u.tags) : (applyUpd h u).streams = h.streams := by
  cases u <;> first
    | rfl
    | (simp [Upd.tags] at hu; done)
    | (simp only [applyUpd, zeroAccs]; split <;> rfl)
    | (rename_i m _ _; cases m <;> first | rfl | (simp [Upd.tags, MapName.tag] at hu; done) | (simp [Upd.tags, MemSp.tag] at hu; done))

theorem applyUpd_keeps_crofts (h : Hw) (u : Upd) (hu : .crofts ∉ u.tags) : (applyUpd h u).crofts = h.crofts := by
  cases u <;> first
    | rfl
    | (simp [Upd.tags] at hu; done)
    | (simp only [applyUpd, zeroAccs]; split <;> rfl)
    | (rename_i m _ _; cases m <;> first | rfl | (simp [Upd.tags, MapName.tag] at hu; done) | (simp [Upd.tags, MemSp.tag] at hu; done))

theorem applyUpd_keeps_fields (h : Hw) (u : Upd) (hu : .fields ∉ u.tags) : (applyUpd h u).fields = h.fields := by
  cases u <;> first
    | rfl
    | (simp [Upd.tags] at hu; done)
    | (simp only [applyUpd, zeroAccs]; split <;> rfl)
    | (rename_i m _ _; cases m <;> first | rfl | (simp [Upd.tags, MapName.tag] at hu; done) | (simp [Upd.tags, MemSp.tag] at hu; done))

theorem applyUpd_keeps_csum (h : Hw) (u : Upd) (hu : .csum ∉ u.tags) : (applyUpd h u).csum = h.csum := by
  cases u <;> first
    | rfl
    | (simp [Upd.tags] at hu; done)
    | (simp only [applyUpd, zeroAccs]; split <;> rfl)
    | (rename_i m _ _; cases m <;> first | rfl | (simp [Upd.tags, MapName.tag] at hu; done) | (simp [Upd.tags, MemSp.tag] at hu; done))

theorem applyUpd_keeps_epochs (h : Hw) (u : Upd) (hu : .epochs ∉ u.tags) : (applyUpd h u).epochs = h.epochs := by
  cases u <;> first
    | rfl
    | (simp [Upd.tags] at hu; done)
    | (simp only [applyUpd, zeroAccs]; split <;> rfl)
    | (rename_i m _ _; cases m <;> first | rfl | (simp [Upd.tags, MapName.tag] at hu; done) | (simp [Upd.tags, MemSp.tag] at hu; done))

theorem applyUpd_keeps_ledger (h : Hw) (u : Upd) (hu : .ledger ∉ u.tags) : (applyUpd h u).ledger = h.ledger := by
  cases u <;> first
    | rfl
    | (simp [Upd.tags] at hu; done)
    | (simp only [applyUpd, zeroAccs]; split <;> rfl)
    | (rename_i m _ _; cases m <;> first | rfl | (simp [Upd.tags, MapName.tag] at hu; done) | (simp [Upd.tags, MemSp.tag] at hu; done))

theorem applyUpd_keeps_shadow (h : Hw) (u : Upd) (hu : .shadow ∉ u.tags) : (applyUpd h u).shadow = h.shadow := by
  cases u <;> first
    | rfl
    | (simp [Upd.tags] at hu; done)
    | (simp only [applyUpd, zeroAccs]; split <;> rfl)
    | (rename_i m _ _; cases m <;> first | rfl | (simp [Upd.tags, MapName.tag] at hu; done) | (simp [Upd.tags, MemSp.tag] at hu; done))

theorem applyUpd_keeps_tslots (h : Hw) (u : Upd) (hu : .tslots ∉ u.tags) : (applyUpd h u).tslots = h.tslots := by
  cases u <;> first
    | rfl
    | (simp [Upd.tags] at hu; done)
    | (simp only [applyUpd, zeroAccs]; split <;> rfl)
    | (rename_i m _ _; cases m <;> first | rfl | (simp [Upd.tags, MapName.tag] at hu; done) | (simp [Upd.tags, MemSp.tag] at hu; done))

theorem applyUpd_keeps_windows (h : Hw) (u : Upd) (hu : .windows ∉ u.tags) : (applyUpd h u).windows = h.windows := by
  cases u <;> first
    | rfl
    | (simp [Upd.tags] at hu; done)
    | (simp only [applyUpd, zeroAccs]; split <;> rfl)
    | (rename_i m _ _; cases m <;> first | rfl | (simp [Upd.tags, MapName.tag] at hu; done) | (simp [Upd.tags, MemSp.tag] at hu; done))

theorem applyUpd_keeps_routes (h : Hw) (u : Upd) (hu : .routes ∉ u.tags) : (applyUpd h u).routes = h.routes := by
  cases u <;> first
    | rfl
    | (simp [Upd.tags] at hu; done)
    | (simp only [applyUpd, zeroAccs]; split <;> rfl)
    | (rename_i m _ _; cases m <;> first | rfl | (simp [Upd.tags, MapName.tag] at hu; done) | (simp [Upd.tags, MemSp.tag] at hu; done))

theorem applyUpd_keeps_quarters (h : Hw) (u : Upd) (hu : .quarters ∉ u.tags) : (applyUpd h u).quarters = h.quarters := by
  cases u <;> first
    | rfl
    | (simp [Upd.tags] at hu; done)
    | (simp only [applyUpd, zeroAccs]; split <;> rfl)
    | (rename_i m _ _; cases m <;> first | rfl | (simp [Upd.tags, MapName.tag] at hu; done) | (simp [Upd.tags, MemSp.tag] at hu; done))

theorem applyUpd_keeps_ports (h : Hw) (u : Upd) (hu : .ports ∉ u.tags) : (applyUpd h u).ports = h.ports := by
  cases u <;> first
    | rfl
    | (simp [Upd.tags] at hu; done)
    | (simp only [applyUpd, zeroAccs]; split <;> rfl)
    | (rename_i m _ _; cases m <;> first | rfl | (simp [Upd.tags, MapName.tag] at hu; done) | (simp [Upd.tags, MemSp.tag] at hu; done))

theorem applyUpd_keeps_rings (h : Hw) (u : Upd) (hu : .rings ∉ u.tags) : (applyUpd h u).rings = h.rings := by
  cases u <;> first
    | rfl
    | (simp [Upd.tags] at hu; done)
    | (simp only [applyUpd, zeroAccs]; split <;> rfl)
    | (rename_i m _ _; cases m <;> first | rfl | (simp [Upd.tags, MapName.tag] at hu; done) | (simp [Upd.tags, MemSp.tag] at hu; done))

theorem applyUpd_keeps_book (h : Hw) (u : Upd) (hu : .book ∉ u.tags) : (applyUpd h u).book = h.book := by
  cases u <;> first
    | rfl
    | (simp [Upd.tags] at hu; done)
    | (simp only [applyUpd, zeroAccs]; split <;> rfl)
    | (rename_i m _ _; cases m <;> first | rfl | (simp [Upd.tags, MapName.tag] at hu; done) | (simp [Upd.tags, MemSp.tag] at hu; done))

theorem applyUpd_keeps_mgroups (h : Hw) (u : Upd) (hu : .mgroups ∉ u.tags) : (applyUpd h u).mgroups = h.mgroups := by
  cases u <;> first
    | rfl
    | (simp [Upd.tags] at hu; done)
    | (simp only [applyUpd, zeroAccs]; split <;> rfl)
    | (rename_i m _ _; cases m <;> first | rfl | (simp [Upd.tags, MapName.tag] at hu; done) | (simp [Upd.tags, MemSp.tag] at hu; done))

theorem applyUpd_keeps_mlayers (h : Hw) (u : Upd) (hu : .mlayers ∉ u.tags) : (applyUpd h u).mlayers = h.mlayers := by
  cases u <;> first
    | rfl
    | (simp [Upd.tags] at hu; done)
    | (simp only [applyUpd, zeroAccs]; split <;> rfl)
    | (rename_i m _ _; cases m <;> first | rfl | (simp [Upd.tags, MapName.tag] at hu; done) | (simp [Upd.tags, MemSp.tag] at hu; done))

theorem applyUpd_keeps_mlayerX (h : Hw) (u : Upd) (hu : .mlayerX ∉ u.tags) : (applyUpd h u).mlayerX = h.mlayerX := by
  cases u <;> first
    | rfl
    | (simp [Upd.tags] at hu; done)
    | (simp only [applyUpd, zeroAccs]; split <;> rfl)
    | (rename_i m _ _; cases m <;> first | rfl | (simp [Upd.tags, MapName.tag] at hu; done) | (simp [Upd.tags, MemSp.tag] at hu; done))

theorem applyUpd_keeps_millSums (h : Hw) (u : Upd) (hu : .millSums ∉ u.tags) : (applyUpd h u).millSums = h.millSums := by
  cases u <;> first
    | rfl
    | (simp [Upd.tags] at hu; done)
    | (simp only [applyUpd, zeroAccs]; split <;> rfl)
    | (rename_i m _ _; cases m <;> first | rfl | (simp [Upd.tags, MapName.tag] at hu; done) | (simp [Upd.tags, MemSp.tag] at hu; done))

theorem applyUpd_keeps_accs (h : Hw) (u : Upd) (hu : .accs ∉ u.tags) : (applyUpd h u).accs = h.accs := by
  cases u <;> first
    | rfl
    | (simp [Upd.tags] at hu; done)
    | (simp only [applyUpd, zeroAccs]; split <;> rfl)
    | (rename_i m _ _; cases m <;> first | rfl | (simp [Upd.tags, MapName.tag] at hu; done) | (simp [Upd.tags, MemSp.tag] at hu; done))

theorem applyUpd_keeps_hostMem (h : Hw) (u : Upd) (hu : .hostMem ∉ u.tags) : (applyUpd h u).hostMem = h.hostMem := by
  cases u <;> first
    | rfl
    | (simp [Upd.tags] at hu; done)
    | (simp only [applyUpd, zeroAccs]; split <;> rfl)
    | (rename_i m _ _; cases m <;> first | rfl | (simp [Upd.tags, MapName.tag] at hu; done) | (simp [Upd.tags, MemSp.tag] at hu; done))

theorem applyUpd_keeps_barn (h : Hw) (u : Upd) (hu : .barn ∉ u.tags) : (applyUpd h u).barn = h.barn := by
  cases u <;> first
    | rfl
    | (simp [Upd.tags] at hu; done)
    | (simp only [applyUpd, zeroAccs]; split <;> rfl)
    | (rename_i m _ _; cases m <;> first | rfl | (simp [Upd.tags, MapName.tag] at hu; done) | (simp [Upd.tags, MemSp.tag] at hu; done))

theorem applyUpd_keeps_commons (h : Hw) (u : Upd) (hu : .commons ∉ u.tags) : (applyUpd h u).commons = h.commons := by
  cases u <;> first
    | rfl
    | (simp [Upd.tags] at hu; done)
    | (simp only [applyUpd, zeroAccs]; split <;> rfl)
    | (rename_i m _ _; cases m <;> first | rfl | (simp [Upd.tags, MapName.tag] at hu; done) | (simp [Upd.tags, MemSp.tag] at hu; done))

theorem applyUpd_keeps_hbm (h : Hw) (u : Upd) (hu : .hbm ∉ u.tags) : (applyUpd h u).hbm = h.hbm := by
  cases u <;> first
    | rfl
    | (simp [Upd.tags] at hu; done)
    | (simp only [applyUpd, zeroAccs]; split <;> rfl)
    | (rename_i m _ _; cases m <;> first | rfl | (simp [Upd.tags, MapName.tag] at hu; done) | (simp [Upd.tags, MemSp.tag] at hu; done))

theorem applyUpd_keeps_slow (h : Hw) (u : Upd) (hu : .slow ∉ u.tags) : (applyUpd h u).slow = h.slow := by
  cases u <;> first
    | rfl
    | (simp [Upd.tags] at hu; done)
    | (simp only [applyUpd, zeroAccs]; split <;> rfl)
    | (rename_i m _ _; cases m <;> first | rfl | (simp [Upd.tags, MapName.tag] at hu; done) | (simp [Upd.tags, MemSp.tag] at hu; done))

/-! The same for lists of updates. -/

theorem applyAll_keeps_clk (us : List Upd) (h : Hw) (hu : ∀ u ∈ us, .clk ∉ u.tags) : (applyAll us h).clk = h.clk := by
  induction us generalizing h with
  | nil => rfl
  | cons u us ih =>
    rw [applyAll, List.foldl_cons, ← applyAll, ih _ (fun v hv => hu v (List.mem_cons_of_mem u hv)),
      applyUpd_keeps_clk h u (hu u List.mem_cons_self)]

theorem applyAll_keeps_free (us : List Upd) (h : Hw) (hu : ∀ u ∈ us, .free ∉ u.tags) : (applyAll us h).free = h.free := by
  induction us generalizing h with
  | nil => rfl
  | cons u us ih =>
    rw [applyAll, List.foldl_cons, ← applyAll, ih _ (fun v hv => hu v (List.mem_cons_of_mem u hv)),
      applyUpd_keeps_free h u (hu u List.mem_cons_self)]

theorem applyAll_keeps_gateQ (us : List Upd) (h : Hw) (hu : ∀ u ∈ us, .gateQ ∉ u.tags) : (applyAll us h).gateQ = h.gateQ := by
  induction us generalizing h with
  | nil => rfl
  | cons u us ih =>
    rw [applyAll, List.foldl_cons, ← applyAll, ih _ (fun v hv => hu v (List.mem_cons_of_mem u hv)),
      applyUpd_keeps_gateQ h u (hu u List.mem_cons_self)]

theorem applyAll_keeps_outbox (us : List Upd) (h : Hw) (hu : ∀ u ∈ us, .outbox ∉ u.tags) : (applyAll us h).outbox = h.outbox := by
  induction us generalizing h with
  | nil => rfl
  | cons u us ih =>
    rw [applyAll, List.foldl_cons, ← applyAll, ih _ (fun v hv => hu v (List.mem_cons_of_mem u hv)),
      applyUpd_keeps_outbox h u (hu u List.mem_cons_self)]

theorem applyAll_keeps_bell (us : List Upd) (h : Hw) (hu : ∀ u ∈ us, .bell ∉ u.tags) : (applyAll us h).bell = h.bell := by
  induction us generalizing h with
  | nil => rfl
  | cons u us ih =>
    rw [applyAll, List.foldl_cons, ← applyAll, ih _ (fun v hv => hu v (List.mem_cons_of_mem u hv)),
      applyUpd_keeps_bell h u (hu u List.mem_cons_self)]

theorem applyAll_keeps_mill (us : List Upd) (h : Hw) (hu : ∀ u ∈ us, .mill ∉ u.tags) : (applyAll us h).mill = h.mill := by
  induction us generalizing h with
  | nil => rfl
  | cons u us ih =>
    rw [applyAll, List.foldl_cons, ← applyAll, ih _ (fun v hv => hu v (List.mem_cons_of_mem u hv)),
      applyUpd_keeps_mill h u (hu u List.mem_cons_self)]

theorem applyAll_keeps_gate (us : List Upd) (h : Hw) (hu : ∀ u ∈ us, .gate ∉ u.tags) : (applyAll us h).gate = h.gate := by
  induction us generalizing h with
  | nil => rfl
  | cons u us ih =>
    rw [applyAll, List.foldl_cons, ← applyAll, ih _ (fun v hv => hu v (List.mem_cons_of_mem u hv)),
      applyUpd_keeps_gate h u (hu u List.mem_cons_self)]

theorem applyAll_keeps_stew (us : List Upd) (h : Hw) (hu : ∀ u ∈ us, .stew ∉ u.tags) : (applyAll us h).stew = h.stew := by
  induction us generalizing h with
  | nil => rfl
  | cons u us ih =>
    rw [applyAll, List.foldl_cons, ← applyAll, ih _ (fun v hv => hu v (List.mem_cons_of_mem u hv)),
      applyUpd_keeps_stew h u (hu u List.mem_cons_self)]

theorem applyAll_keeps_sigNow (us : List Upd) (h : Hw) (hu : ∀ u ∈ us, .sigNow ∉ u.tags) : (applyAll us h).sigNow = h.sigNow := by
  induction us generalizing h with
  | nil => rfl
  | cons u us ih =>
    rw [applyAll, List.foldl_cons, ← applyAll, ih _ (fun v hv => hu v (List.mem_cons_of_mem u hv)),
      applyUpd_keeps_sigNow h u (hu u List.mem_cons_self)]

theorem applyAll_keeps_regs (us : List Upd) (h : Hw) (hu : ∀ u ∈ us, .regs ∉ u.tags) : (applyAll us h).regs = h.regs := by
  induction us generalizing h with
  | nil => rfl
  | cons u us ih =>
    rw [applyAll, List.foldl_cons, ← applyAll, ih _ (fun v hv => hu v (List.mem_cons_of_mem u hv)),
      applyUpd_keeps_regs h u (hu u List.mem_cons_self)]

theorem applyAll_keeps_stored (us : List Upd) (h : Hw) (hu : ∀ u ∈ us, .stored ∉ u.tags) : (applyAll us h).stored = h.stored := by
  induction us generalizing h with
  | nil => rfl
  | cons u us ih =>
    rw [applyAll, List.foldl_cons, ← applyAll, ih _ (fun v hv => hu v (List.mem_cons_of_mem u hv)),
      applyUpd_keeps_stored h u (hu u List.mem_cons_self)]

theorem applyAll_keeps_msix (us : List Upd) (h : Hw) (hu : ∀ u ∈ us, .msix ∉ u.tags) : (applyAll us h).msix = h.msix := by
  induction us generalizing h with
  | nil => rfl
  | cons u us ih =>
    rw [applyAll, List.foldl_cons, ← applyAll, ih _ (fun v hv => hu v (List.mem_cons_of_mem u hv)),
      applyUpd_keeps_msix h u (hu u List.mem_cons_self)]

theorem applyAll_keeps_sigs (us : List Upd) (h : Hw) (hu : ∀ u ∈ us, .sigs ∉ u.tags) : (applyAll us h).sigs = h.sigs := by
  induction us generalizing h with
  | nil => rfl
  | cons u us ih =>
    rw [applyAll, List.foldl_cons, ← applyAll, ih _ (fun v hv => hu v (List.mem_cons_of_mem u hv)),
      applyUpd_keeps_sigs h u (hu u List.mem_cons_self)]

theorem applyAll_keeps_keepAdds (us : List Upd) (h : Hw) (hu : ∀ u ∈ us, .keepAdds ∉ u.tags) : (applyAll us h).keepAdds = h.keepAdds := by
  induction us generalizing h with
  | nil => rfl
  | cons u us ih =>
    rw [applyAll, List.foldl_cons, ← applyAll, ih _ (fun v hv => hu v (List.mem_cons_of_mem u hv)),
      applyUpd_keeps_keepAdds h u (hu u List.mem_cons_self)]

theorem applyAll_keeps_slots (us : List Upd) (h : Hw) (hu : ∀ u ∈ us, .slots ∉ u.tags) : (applyAll us h).slots = h.slots := by
  induction us generalizing h with
  | nil => rfl
  | cons u us ih =>
    rw [applyAll, List.foldl_cons, ← applyAll, ih _ (fun v hv => hu v (List.mem_cons_of_mem u hv)),
      applyUpd_keeps_slots h u (hu u List.mem_cons_self)]

theorem applyAll_keeps_streams (us : List Upd) (h : Hw) (hu : ∀ u ∈ us, .streams ∉ u.tags) : (applyAll us h).streams = h.streams := by
  induction us generalizing h with
  | nil => rfl
  | cons u us ih =>
    rw [applyAll, List.foldl_cons, ← applyAll, ih _ (fun v hv => hu v (List.mem_cons_of_mem u hv)),
      applyUpd_keeps_streams h u (hu u List.mem_cons_self)]

theorem applyAll_keeps_crofts (us : List Upd) (h : Hw) (hu : ∀ u ∈ us, .crofts ∉ u.tags) : (applyAll us h).crofts = h.crofts := by
  induction us generalizing h with
  | nil => rfl
  | cons u us ih =>
    rw [applyAll, List.foldl_cons, ← applyAll, ih _ (fun v hv => hu v (List.mem_cons_of_mem u hv)),
      applyUpd_keeps_crofts h u (hu u List.mem_cons_self)]

theorem applyAll_keeps_fields (us : List Upd) (h : Hw) (hu : ∀ u ∈ us, .fields ∉ u.tags) : (applyAll us h).fields = h.fields := by
  induction us generalizing h with
  | nil => rfl
  | cons u us ih =>
    rw [applyAll, List.foldl_cons, ← applyAll, ih _ (fun v hv => hu v (List.mem_cons_of_mem u hv)),
      applyUpd_keeps_fields h u (hu u List.mem_cons_self)]

theorem applyAll_keeps_csum (us : List Upd) (h : Hw) (hu : ∀ u ∈ us, .csum ∉ u.tags) : (applyAll us h).csum = h.csum := by
  induction us generalizing h with
  | nil => rfl
  | cons u us ih =>
    rw [applyAll, List.foldl_cons, ← applyAll, ih _ (fun v hv => hu v (List.mem_cons_of_mem u hv)),
      applyUpd_keeps_csum h u (hu u List.mem_cons_self)]

theorem applyAll_keeps_epochs (us : List Upd) (h : Hw) (hu : ∀ u ∈ us, .epochs ∉ u.tags) : (applyAll us h).epochs = h.epochs := by
  induction us generalizing h with
  | nil => rfl
  | cons u us ih =>
    rw [applyAll, List.foldl_cons, ← applyAll, ih _ (fun v hv => hu v (List.mem_cons_of_mem u hv)),
      applyUpd_keeps_epochs h u (hu u List.mem_cons_self)]

theorem applyAll_keeps_ledger (us : List Upd) (h : Hw) (hu : ∀ u ∈ us, .ledger ∉ u.tags) : (applyAll us h).ledger = h.ledger := by
  induction us generalizing h with
  | nil => rfl
  | cons u us ih =>
    rw [applyAll, List.foldl_cons, ← applyAll, ih _ (fun v hv => hu v (List.mem_cons_of_mem u hv)),
      applyUpd_keeps_ledger h u (hu u List.mem_cons_self)]

theorem applyAll_keeps_shadow (us : List Upd) (h : Hw) (hu : ∀ u ∈ us, .shadow ∉ u.tags) : (applyAll us h).shadow = h.shadow := by
  induction us generalizing h with
  | nil => rfl
  | cons u us ih =>
    rw [applyAll, List.foldl_cons, ← applyAll, ih _ (fun v hv => hu v (List.mem_cons_of_mem u hv)),
      applyUpd_keeps_shadow h u (hu u List.mem_cons_self)]

theorem applyAll_keeps_tslots (us : List Upd) (h : Hw) (hu : ∀ u ∈ us, .tslots ∉ u.tags) : (applyAll us h).tslots = h.tslots := by
  induction us generalizing h with
  | nil => rfl
  | cons u us ih =>
    rw [applyAll, List.foldl_cons, ← applyAll, ih _ (fun v hv => hu v (List.mem_cons_of_mem u hv)),
      applyUpd_keeps_tslots h u (hu u List.mem_cons_self)]

theorem applyAll_keeps_windows (us : List Upd) (h : Hw) (hu : ∀ u ∈ us, .windows ∉ u.tags) : (applyAll us h).windows = h.windows := by
  induction us generalizing h with
  | nil => rfl
  | cons u us ih =>
    rw [applyAll, List.foldl_cons, ← applyAll, ih _ (fun v hv => hu v (List.mem_cons_of_mem u hv)),
      applyUpd_keeps_windows h u (hu u List.mem_cons_self)]

theorem applyAll_keeps_routes (us : List Upd) (h : Hw) (hu : ∀ u ∈ us, .routes ∉ u.tags) : (applyAll us h).routes = h.routes := by
  induction us generalizing h with
  | nil => rfl
  | cons u us ih =>
    rw [applyAll, List.foldl_cons, ← applyAll, ih _ (fun v hv => hu v (List.mem_cons_of_mem u hv)),
      applyUpd_keeps_routes h u (hu u List.mem_cons_self)]

theorem applyAll_keeps_quarters (us : List Upd) (h : Hw) (hu : ∀ u ∈ us, .quarters ∉ u.tags) : (applyAll us h).quarters = h.quarters := by
  induction us generalizing h with
  | nil => rfl
  | cons u us ih =>
    rw [applyAll, List.foldl_cons, ← applyAll, ih _ (fun v hv => hu v (List.mem_cons_of_mem u hv)),
      applyUpd_keeps_quarters h u (hu u List.mem_cons_self)]

theorem applyAll_keeps_ports (us : List Upd) (h : Hw) (hu : ∀ u ∈ us, .ports ∉ u.tags) : (applyAll us h).ports = h.ports := by
  induction us generalizing h with
  | nil => rfl
  | cons u us ih =>
    rw [applyAll, List.foldl_cons, ← applyAll, ih _ (fun v hv => hu v (List.mem_cons_of_mem u hv)),
      applyUpd_keeps_ports h u (hu u List.mem_cons_self)]

theorem applyAll_keeps_rings (us : List Upd) (h : Hw) (hu : ∀ u ∈ us, .rings ∉ u.tags) : (applyAll us h).rings = h.rings := by
  induction us generalizing h with
  | nil => rfl
  | cons u us ih =>
    rw [applyAll, List.foldl_cons, ← applyAll, ih _ (fun v hv => hu v (List.mem_cons_of_mem u hv)),
      applyUpd_keeps_rings h u (hu u List.mem_cons_self)]

theorem applyAll_keeps_book (us : List Upd) (h : Hw) (hu : ∀ u ∈ us, .book ∉ u.tags) : (applyAll us h).book = h.book := by
  induction us generalizing h with
  | nil => rfl
  | cons u us ih =>
    rw [applyAll, List.foldl_cons, ← applyAll, ih _ (fun v hv => hu v (List.mem_cons_of_mem u hv)),
      applyUpd_keeps_book h u (hu u List.mem_cons_self)]

theorem applyAll_keeps_mgroups (us : List Upd) (h : Hw) (hu : ∀ u ∈ us, .mgroups ∉ u.tags) : (applyAll us h).mgroups = h.mgroups := by
  induction us generalizing h with
  | nil => rfl
  | cons u us ih =>
    rw [applyAll, List.foldl_cons, ← applyAll, ih _ (fun v hv => hu v (List.mem_cons_of_mem u hv)),
      applyUpd_keeps_mgroups h u (hu u List.mem_cons_self)]

theorem applyAll_keeps_mlayers (us : List Upd) (h : Hw) (hu : ∀ u ∈ us, .mlayers ∉ u.tags) : (applyAll us h).mlayers = h.mlayers := by
  induction us generalizing h with
  | nil => rfl
  | cons u us ih =>
    rw [applyAll, List.foldl_cons, ← applyAll, ih _ (fun v hv => hu v (List.mem_cons_of_mem u hv)),
      applyUpd_keeps_mlayers h u (hu u List.mem_cons_self)]

theorem applyAll_keeps_mlayerX (us : List Upd) (h : Hw) (hu : ∀ u ∈ us, .mlayerX ∉ u.tags) : (applyAll us h).mlayerX = h.mlayerX := by
  induction us generalizing h with
  | nil => rfl
  | cons u us ih =>
    rw [applyAll, List.foldl_cons, ← applyAll, ih _ (fun v hv => hu v (List.mem_cons_of_mem u hv)),
      applyUpd_keeps_mlayerX h u (hu u List.mem_cons_self)]

theorem applyAll_keeps_millSums (us : List Upd) (h : Hw) (hu : ∀ u ∈ us, .millSums ∉ u.tags) : (applyAll us h).millSums = h.millSums := by
  induction us generalizing h with
  | nil => rfl
  | cons u us ih =>
    rw [applyAll, List.foldl_cons, ← applyAll, ih _ (fun v hv => hu v (List.mem_cons_of_mem u hv)),
      applyUpd_keeps_millSums h u (hu u List.mem_cons_self)]

theorem applyAll_keeps_accs (us : List Upd) (h : Hw) (hu : ∀ u ∈ us, .accs ∉ u.tags) : (applyAll us h).accs = h.accs := by
  induction us generalizing h with
  | nil => rfl
  | cons u us ih =>
    rw [applyAll, List.foldl_cons, ← applyAll, ih _ (fun v hv => hu v (List.mem_cons_of_mem u hv)),
      applyUpd_keeps_accs h u (hu u List.mem_cons_self)]

theorem applyAll_keeps_hostMem (us : List Upd) (h : Hw) (hu : ∀ u ∈ us, .hostMem ∉ u.tags) : (applyAll us h).hostMem = h.hostMem := by
  induction us generalizing h with
  | nil => rfl
  | cons u us ih =>
    rw [applyAll, List.foldl_cons, ← applyAll, ih _ (fun v hv => hu v (List.mem_cons_of_mem u hv)),
      applyUpd_keeps_hostMem h u (hu u List.mem_cons_self)]

theorem applyAll_keeps_barn (us : List Upd) (h : Hw) (hu : ∀ u ∈ us, .barn ∉ u.tags) : (applyAll us h).barn = h.barn := by
  induction us generalizing h with
  | nil => rfl
  | cons u us ih =>
    rw [applyAll, List.foldl_cons, ← applyAll, ih _ (fun v hv => hu v (List.mem_cons_of_mem u hv)),
      applyUpd_keeps_barn h u (hu u List.mem_cons_self)]

theorem applyAll_keeps_commons (us : List Upd) (h : Hw) (hu : ∀ u ∈ us, .commons ∉ u.tags) : (applyAll us h).commons = h.commons := by
  induction us generalizing h with
  | nil => rfl
  | cons u us ih =>
    rw [applyAll, List.foldl_cons, ← applyAll, ih _ (fun v hv => hu v (List.mem_cons_of_mem u hv)),
      applyUpd_keeps_commons h u (hu u List.mem_cons_self)]

theorem applyAll_keeps_hbm (us : List Upd) (h : Hw) (hu : ∀ u ∈ us, .hbm ∉ u.tags) : (applyAll us h).hbm = h.hbm := by
  induction us generalizing h with
  | nil => rfl
  | cons u us ih =>
    rw [applyAll, List.foldl_cons, ← applyAll, ih _ (fun v hv => hu v (List.mem_cons_of_mem u hv)),
      applyUpd_keeps_hbm h u (hu u List.mem_cons_self)]

theorem applyAll_keeps_slow (us : List Upd) (h : Hw) (hu : ∀ u ∈ us, .slow ∉ u.tags) : (applyAll us h).slow = h.slow := by
  induction us generalizing h with
  | nil => rfl
  | cons u us ih =>
    rw [applyAll, List.foldl_cons, ← applyAll, ih _ (fun v hv => hu v (List.mem_cons_of_mem u hv)),
      applyUpd_keeps_slow h u (hu u List.mem_cons_self)]

end Sys2Proof.Machine
end

