-- ==== Sys2Proof/Laws/Ops.lean ====
section
/-! SUPPORT. Laws of the shared operations: effects in order, registers and their fields, memory, and the canonical form that every
update keeps. -/

set_option linter.unusedSimpArgs false

namespace Sys2Proof.Machine

-- effects

theorem applyAll_append (us vs : List Upd) (h : Hw) : applyAll (us ++ vs) h = applyAll vs (applyAll us h) := by
  simp [applyAll, List.foldl_append]

@[simp] theorem applyAll_nil (h : Hw) : applyAll [] h = h := (rfl)

@[simp] theorem applyAll_cons (u : Upd) (us : List Upd) (h : Hw) : applyAll (u :: us) h = applyAll us (applyUpd h u) := (rfl)

@[simp] theorem runE_skip (h : Hw) : runE skip h = h := (rfl)

@[simp] theorem runE_andThen (a b : Eff) (h : Hw) : runE (andThen a b) h = runE b (runE a h) := by
  simp [runE, andThen, applyAll_append]

/-- Effects in order: the first, then the rest on what it left. -/
@[simp] theorem runE_chain_cons (e : Eff) (es : List Eff) (h : Hw) : runE (chain (e :: es)) h = runE (chain es) (runE e h) := by
  cases es with
  | nil => rfl
  | cons f fs => exact runE_andThen e (chain (f :: fs)) h

@[simp] theorem runE_chain_nil (h : Hw) : runE (chain []) h = h := (rfl)

@[simp] theorem runE_forE_nil {α : Type} (f : α → Eff) (h : Hw) : runE (forE [] f) h = h := (rfl)

@[simp] theorem runE_forE_cons {α : Type} (x : α) (xs : List α) (f : α → Eff) (h : Hw) :
    runE (forE (x :: xs) f) h = runE (forE xs f) (runE (f x) h) := runE_andThen (f x) (forE xs f) h

theorem runE_ifE (p : Hw → Bool) (a b : Eff) (h : Hw) : runE (ifE p a b) h = if p h then runE a h else runE b h := by
  simp only [runE, ifE]
  split <;> rfl

theorem runE_whenE (p : Hw → Bool) (a : Eff) (h : Hw) : runE (whenE p a) h = if p h then runE a h else h := by
  simp [whenE, runE_ifE]

theorem runE_whenB (p : Bool) (a : Eff) (h : Hw) : runE (whenB p a) h = if p then runE a h else h := by
  cases p <;> rfl

theorem runE_look {α : Type} (f : Hw → α) (k : α → Eff) (h : Hw) : runE (look f k) h = runE (k (f h)) h := (rfl)

/-- An effect given by a function of the state runs as the effect it gives for that state. -/
theorem runE_fun (f : Hw → Eff) (h : Hw) : runE (fun h => f h h) h = runE (f h) h := (rfl)

/-- A command with an effect answers a next state: the device the effect leaves, and the queue as it was. -/
theorem run_next (e : Eff) (s : State) : run e s = .next { s with hw := runE e s.hw } := (rfl)

-- what an effect leaves alone

/-- No update of the effect, from whatever state, carries a tag. -/
def Keeps (T : Tag) (e : Eff) : Prop := ∀ h, ∀ u ∈ e h, T ∉ u.tags

theorem keeps_skip (T : Tag) : Keeps T skip := by intro h u hu; cases hu

theorem keeps_andThen {T : Tag} {a b : Eff} (ha : Keeps T a) (hb : Keeps T b) : Keeps T (andThen a b) := by
  intro h u hu
  rcases List.mem_append.mp hu with hu | hu
  · exact ha h u hu
  · exact hb _ u hu

theorem keeps_chain {T : Tag} {es : List Eff} (hs : ∀ e ∈ es, Keeps T e) : Keeps T (chain es) := by
  induction es with
  | nil => exact keeps_skip T
  | cons e es ih =>
    cases es with
    | nil => exact hs e List.mem_cons_self
    | cons f fs => exact keeps_andThen (hs e List.mem_cons_self) (ih (fun x hx => hs x (List.mem_cons_of_mem e hx)))

theorem keeps_ifE {T : Tag} {p : Hw → Bool} {a b : Eff} (ha : Keeps T a) (hb : Keeps T b) : Keeps T (ifE p a b) := by
  intro h u hu
  simp only [ifE] at hu
  split at hu
  · exact ha h u hu
  · exact hb h u hu

theorem keeps_whenE {T : Tag} {p : Hw → Bool} {a : Eff} (ha : Keeps T a) : Keeps T (whenE p a) := keeps_ifE ha (keeps_skip T)

theorem keeps_whenB {T : Tag} {p : Bool} {a : Eff} (ha : Keeps T a) : Keeps T (whenB p a) := by
  cases p
  · exact keeps_skip T
  · exact ha

theorem keeps_fun {T : Tag} {f : Hw → Eff} (hf : ∀ h, Keeps T (f h)) : Keeps T (fun h => f h h) := fun h u hu => hf h h u hu

theorem keeps_look {α : Type} {T : Tag} {f : Hw → α} {k : α → Eff} (hk : ∀ x, Keeps T (k x)) : Keeps T (look f k) :=
  keeps_fun (f := fun h => k (f h)) (fun h => hk (f h))

theorem keeps_forE {α : Type} {T : Tag} {xs : List α} {f : α → Eff} (hf : ∀ x ∈ xs, Keeps T (f x)) : Keeps T (forE xs f) := by
  induction xs with
  | nil => exact keeps_skip T
  | cons x xs ih =>
    exact keeps_andThen (hf x List.mem_cons_self) (ih (fun y hy => hf y (List.mem_cons_of_mem x hy)))

-- registers

/-- A register after a write of one: the written one holds what it keeps of the value, every other what it held. -/
theorem reg_applyUpd_regs (h : Hw) (a b : Nat) (v : Word) :
    reg (applyUpd h (.regs a v)) b = if b = a then keepReg a v else reg h b := by
  simp [reg, smGet_smSet]

@[simp] theorem reg_setReg_same (h : Hw) (a : Nat) (v : Word) :
    reg (runE (setReg a v) h) a = keepReg a v := by
  simp [runE, setReg, reg_applyUpd_regs]

theorem reg_setReg_ne (h : Hw) (a b : Nat) (v : Word) (hab : b ≠ a) : reg (runE (setReg a v) h) b = reg h b := by
  simp [runE, setReg, reg_applyUpd_regs, hab]

/-- Setting a field is a write of its register. -/
theorem runE_setF (f : Fld) (i v : Nat) (h : Hw) :
    runE (setF f i v) h =
      runE (setReg (fAddr f i) (BitVec.ofNat 32 (putBits (reg h (fAddr f i)).toNat f.hi f.lo v))) h := (rfl)

theorem reg_setF_ne (f : Fld) (i v b : Nat) (h : Hw) (hb : b ≠ fAddr f i) : reg (runE (setF f i v) h) b = reg h b := by
  rw [runE_setF, reg_setReg_ne h _ b _ hb]

theorem keeps_setReg {T : Tag} (hT : T ≠ .regs) (a : Nat) (v : Word) : Keeps T (setReg a v) := by
  intro h u hu
  simp only [setReg, List.mem_singleton] at hu
  subst hu
  simpa [Upd.tags] using hT

theorem keeps_setF {T : Tag} (hT : T ≠ .regs) (f : Fld) (i v : Nat) : Keeps T (setF f i v) := by
  intro h u hu
  simp only [setF, List.mem_singleton] at hu
  subst hu
  simpa [Upd.tags] using hT

/-- An effect that writes no register leaves every register. -/
theorem reg_keeps {e : Eff} (he : Keeps .regs e) (h : Hw) (a : Nat) : reg (runE e h) a = reg h a := by
  unfold reg runE
  rw [applyAll_keeps_regs (e h) h (he h)]

-- memory

theorem memDflt_mem (h : Hw) (sp sp' : MemSp) (a : Nat) (bs : List Byte) :
    memDflt (memWrite h sp a bs) sp' = memDflt h sp' := by
  cases sp <;> cases sp' <;> rfl

theorem memCells_mem (h : Hw) (sp sp' : MemSp) (a : Nat) (bs : List Byte) :
    memCells (memWrite h sp a bs) sp' = if sp' = sp then smSetRange (memDflt h sp) a bs (memCells h sp) else memCells h sp' := by
  cases sp <;> cases sp' <;> rfl

/-- A byte after a write of consecutive bytes: the written byte inside them, what it was outside them and in every other memory. -/
theorem rd8_wrBytes (h : Hw) (sp sp' : MemSp) (a b : Nat) (bs : List Byte) :
    rd8 (runE (wrBytes sp a bs) h) sp' b =
      if hb : sp' = sp ∧ a ≤ b ∧ b < a + bs.length then bs[b - a] else rd8 h sp' b := by
  have hrun : runE (wrBytes sp a bs) h = memWrite h sp a bs := (rfl)
  rw [hrun, rd8, memDflt_mem, memCells_mem]
  by_cases hs : sp' = sp
  · subst hs
    rw [if_pos rfl, smGet_smSetRange]
    by_cases hb : a ≤ b ∧ b < a + bs.length
    · rw [dif_pos hb, dif_pos ⟨rfl, hb⟩]
    · rw [dif_neg hb, dif_neg (fun hc => hb hc.2), rd8]
  · rw [if_neg hs, dif_neg (fun hc => hs hc.1), rd8]

-- the canonical form

theorem testBit_keepReg (a : Nat) (v : Word) (j : Nat) : (keepReg a v).toNat.testBit j =
    if (implMask a).testBit j then (decide (j < 32) && v.toNat.testBit j) else (resetReg a).toNat.testBit j := by
  have hr : ∀ x : Word, x.toNat.testBit j = (decide (j < 32) && x.getLsbD j) := by
    intro x
    rw [BitVec.testBit_toNat]
    by_cases hj : j < 32
    · simp [hj]
    · simp [hj, BitVec.getLsbD_of_ge x j (by omega)]
  rw [hr, hr, hr]
  simp only [keepReg, BitVec.getLsbD_or, BitVec.getLsbD_and, BitVec.getLsbD_not, BitVec.getLsbD_ofNat]
  by_cases hj : j < 32 <;> cases hm : (implMask a).testBit j <;> simp [hj]

theorem memory_wf_mem (h : Hw) (sp : MemSp) (a : Nat) (bs : List Byte) (hw : Memory.wf h = true) :
    Memory.wf (memWrite h sp a bs) = true := by
  simp only [Memory.wf, Bool.and_eq_true] at hw ⊢
  obtain ⟨⟨⟨⟨h1, h2⟩, h3⟩, h4⟩, h5⟩ := hw
  cases sp <;>
    simp only [memWrite, memDflt, memCells] at * <;>
    refine ⟨⟨⟨⟨?_, ?_⟩, ?_⟩, ?_⟩, ?_⟩ <;>
    first | assumption | (apply smWf_smSetRange; assumption)

/-- A region whose contents become undefined: outside it every byte reads as before. -/
theorem byteDflt_undef (ep : List (Nat × Nat)) (region : Nat → Nat) (r n a : Nat) (ha : region a ≠ r) :
    byteDflt (smSet (fun _ => 0) r n ep) region a = byteDflt ep region a := by
  simp [byteDflt, smGet_smSet, ha]

theorem accDflt_undef (ep : List (Nat × Nat)) (r n k : Nat) (hk : regionAcc k ≠ r) :
    accDflt (smSet (fun _ => 0) r n ep) k = accDflt ep k := by
  simp [accDflt, smGet_smSet, hk]

theorem memory_wf_undef (h : Hw) (r : Nat) (hw : Memory.wf h = true) : Memory.wf (undefRegion h r) = true := by
  simp only [Memory.wf, Bool.and_eq_true] at hw ⊢
  obtain ⟨⟨⟨⟨h1, h2⟩, h3⟩, h4⟩, h5⟩ := hw
  simp only [undefRegion, memDflt, memCells] at *
  refine ⟨⟨⟨⟨?_, ?_⟩, ?_⟩, ?_⟩, ?_⟩ <;>
    (refine smWfFrom_smDrop _ _ _ (fun k hk => ?_) 0 _ ‹_›; exact byteDflt_undef _ _ _ _ _ (by simpa using hk))

theorem memory_wf_zeroAccs (h : Hw) (f : Nat) : Memory.wf (zeroAccs h f) = Memory.wf h := by
  unfold zeroAccs
  split <;> simp only [Memory.wf, memDflt]

/-- A tile-checksum slot takes a written value, and no other slot changes. -/
theorem csumGet_csumSet (k j : Nat) (v : Word) (h : Hw) : csumGet (runE (csumSet k v) h) j = if j = k then v else csumGet h j := by
  simp only [csumGet, runE, csumSet, applyAll_cons, applyAll_nil, applyUpd_csum, smGet_smSet]
  by_cases hj : j = k
  · simp [hj]
  · simp only [hj, if_false]
    rfl

theorem rd8_csumSet (k : Nat) (v : Word) (h : Hw) (sp : MemSp) (a : Nat) : rd8 (runE (csumSet k v) h) sp a = rd8 h sp a := by
  cases sp <;> rfl

/-- A span of bytes is read alike where every byte of its memory is. -/
theorem rdBytes_congr {g h : Hw} {sp : MemSp} (hb : ∀ a, rd8 g sp a = rd8 h sp a) (a n : Nat) : rdBytes g sp a n = rdBytes h sp a n := by
  induction n generalizing a with
  | zero => rfl
  | succ n ih => rw [rdBytes, rdBytes, hb, ih]

/-- A tile's contents do not depend on the slots. -/
theorem tileCrc_csumSet (k : Nat) (v : Word) (h : Hw) (sp q c t : Nat) : tileCrc (runE (csumSet k v) h) sp q c t = tileCrc h sp q c t := by
  unfold tileCrc
  rw [rdBytes_congr (rd8_csumSet k v h (spMem sp))]

/-- Every update keeps every memory in its canonical form. -/
theorem memory_wf_applyUpd (h : Hw) (u : Upd) (hw : Memory.wf h = true) : Memory.wf (applyUpd h u) = true := by
  cases u with
  | mem sp a bs => exact memory_wf_mem h sp a bs hw
  | undef r => exact memory_wf_undef h r hw
  | zeroAccs f => exact (memory_wf_zeroAccs h f).trans hw
  | drop m lo hi => cases m <;> exact hw
  | _ => exact hw

/-- The device right after reset lists no byte of any memory. -/
theorem memory_wf_reset : Memory.wf State.reset.hw = true := (rfl)

end Sys2Proof.Machine
end

