-- ==== Sys2Proof/Laws/Pages.lean ====
section
/-! SUPPORT. Laws of the address map and of register fields: a page lies where its base says, two fields of different registers do
not meet, and a field reads back what was set into it. -/

set_option linter.unusedSimpArgs false

namespace Sys2Proof.Machine

theorem quarterPageAt_page (q o o' : Nat) (h : o / 0x1000 = o' / 0x1000) : quarterPageAt q o = quarterPageAt q o' := by
  simp only [quarterPageAt, h]

/-- The page that holds an address depends on the address's 4 KiB alone. -/
theorem pageAt_page (a b : Nat) (h : a / 0x1000 = b / 0x1000) : pageAt a = pageAt b := by
  have e1 : (a < 0x7000) ↔ (b < 0x7000) := by omega
  have e2 : (0x01000000 ≤ a ∧ a < 0x02000000) ↔ (0x01000000 ≤ b ∧ b < 0x02000000) := by omega
  have e3 : (a - 0x01000000) / 0x400000 = (b - 0x01000000) / 0x400000 := by omega
  have e4 : quarterPageAt ((b - 0x01000000) / 0x400000) (a % 0x400000) = quarterPageAt ((b - 0x01000000) / 0x400000) (b % 0x400000) :=
    quarterPageAt_page _ _ _ (by omega)
  simp only [pageAt, e1, e2, e3, h, e4]

theorem pageAt_base (k : PageKind) (i : Nat) (hi : i < pageCount k) : pageAt (pageBase k i) = some ⟨k, i⟩ := by
  have all : (List.range (pageCount k)).all (fun i => pageAt (pageBase k i) == some ⟨k, i⟩) = true := by cases k <;> decide +kernel
  exact beq_iff_eq.mp (List.all_eq_true.mp all i (List.mem_range.mpr hi))

theorem pageBase_aligned (k : PageKind) (i : Nat) : pageBase k i % 0x1000 = 0 := by
  cases k <;> simp only [pageBase, quarterBase, croftBase, portBase, hbmBase] <;> omega

/-- Every page of the device is found at its base. -/
theorem pageAt_pageBase (k : PageKind) (i off : Nat) (hi : i < pageCount k) (ho : off < 0x1000) :
    pageAt (pageBase k i + off) = some ⟨k, i⟩ := by
  have := pageBase_aligned k i
  rw [pageAt_page (pageBase k i + off) (pageBase k i) (by omega)]
  exact pageAt_base k i hi

/-- Two registers at one address are one register of one page. -/
theorem pageBase_inj (k k' : PageKind) (i i' off off' : Nat) (hi : i < pageCount k) (hi' : i' < pageCount k')
    (ho : off < 0x1000) (ho' : off' < 0x1000) (h : pageBase k i + off = pageBase k' i' + off') : k = k' ∧ i = i' ∧ off = off' := by
  have h1 := pageAt_pageBase k i off hi ho
  rw [h, pageAt_pageBase k' i' off' hi' ho'] at h1
  simp only [Option.some.injEq, Page.mk.injEq] at h1
  obtain ⟨rfl, rfl⟩ := h1
  exact ⟨rfl, rfl, by omega⟩

/-- The bits a register of a page implements. -/
theorem implMask_page (k : PageKind) (i off : Nat) (hi : i < pageCount k) (ho : off < 0x1000) :
    implMask (pageBase k i + off) = implMaskAt k off := by
  have := pageBase_aligned k i
  simp only [implMask, pageAt_pageBase k i off hi ho]
  congr 1
  omega

-- fields

theorem testBit_putBits (w hi lo v j : Nat) (hl : lo ≤ hi) :
    (putBits w hi lo v).testBit j = if lo ≤ j ∧ j ≤ hi then v.testBit (j - lo) else w.testBit j := by
  have e1 : putBits w hi lo v = 2 ^ lo * (2 ^ (hi - lo + 1) * (w / 2 ^ (hi + 1)) + v % 2 ^ (hi - lo + 1)) + w % 2 ^ lo := by
    have : 2 ^ (hi + 1) = 2 ^ lo * 2 ^ (hi - lo + 1) := by rw [← Nat.pow_add]; congr 1; omega
    simp only [putBits]
    rw [Nat.mul_add, ← Nat.mul_assoc, ← this, Nat.mul_comm (2 ^ (hi + 1)), Nat.mul_comm (2 ^ lo)]
    omega
  rw [e1, Nat.testBit_two_pow_mul_add _ (Nat.mod_lt _ (Nat.two_pow_pos lo))]
  by_cases h1 : j < lo
  · rw [if_pos h1, if_neg (by omega), Nat.testBit_mod_two_pow]
    simp [h1]
  · rw [if_neg h1, Nat.testBit_two_pow_mul_add _ (Nat.mod_lt _ (Nat.two_pow_pos _))]
    by_cases h2 : j ≤ hi
    · rw [if_pos (by omega), if_pos (by omega), Nat.testBit_mod_two_pow]
      have : j - lo < hi - lo + 1 := by omega
      simp [this]
    · rw [if_neg (by omega), if_neg (by omega), Nat.testBit_div_two_pow]
      congr 1
      omega

theorem testBit_bits (x hi lo j : Nat) : (bits x hi lo).testBit j = (decide (j < hi - lo + 1) && x.testBit (lo + j)) := by
  simp [bits, Nat.testBit_mod_two_pow, Nat.testBit_shiftRight, Nat.add_comm]

theorem testBit_fldMask (f : Fld) (j : Nat) : (fldMask f).testBit j = (decide (f.lo ≤ j) && decide (j < f.lo + (f.hi - f.lo + 1))) := by
  simp only [fldMask, Nat.testBit_shiftLeft, Nat.testBit_two_pow_sub_one]
  by_cases h1 : f.lo ≤ j
  · simp only [h1, decide_true, Bool.true_and, decide_eq_decide]
    omega
  · simp [h1]

/-- The bits of a field exist: its page implements them and they lie in the 32 bits of the register. -/
def fldOk (f : Fld) : Bool :=
  decide (f.lo ≤ f.hi) && decide (f.hi < 32) && decide (f.off < 0x1000) && decide (fldMask f &&& implMaskAt f.page f.off = fldMask f)

theorem fldOk_bit {f : Fld} (hf : fldOk f = true) (j : Nat) (h1 : f.lo ≤ j) (h2 : j ≤ f.hi) :
    (implMaskAt f.page f.off).testBit j = true := by
  simp only [fldOk, Bool.and_eq_true, decide_eq_true_eq] at hf
  have h := congrArg (fun n => n.testBit j) hf.2
  simp only [Nat.testBit_and, testBit_fldMask] at h
  have h3 : j < f.lo + (f.hi - f.lo + 1) := by omega
  simpa [h1, h3] using h

theorem reg_setF_same (f : Fld) (i v : Nat) (h : Hw) (hi : i < pageCount f.page) (ho : f.off < 0x1000) (j : Nat) (hj : j < 32)
    (hm : (implMaskAt f.page f.off).testBit j = true) :
    (reg (runE (setF f i v) h) (fAddr f i)).toNat.testBit j = (putBits (reg h (fAddr f i)).toNat f.hi f.lo v).testBit j := by
  rw [runE_setF, reg_setReg_same, testBit_keepReg]
  have : implMask (fAddr f i) = implMaskAt f.page f.off := implMask_page f.page i f.off hi ho
  rw [this, hm, if_pos rfl, BitVec.toNat_ofNat, Nat.testBit_mod_two_pow]
  simp [hj]

/-- A field reads back what was set into it. -/
theorem getF_setF_same (f : Fld) (i v : Nat) (h : Hw) (hi : i < pageCount f.page) (hf : fldOk f = true) :
    getF (runE (setF f i v) h) f i = v % 2 ^ (f.hi - f.lo + 1) := by
  have hf' := hf
  simp only [fldOk, Bool.and_eq_true, decide_eq_true_eq] at hf'
  apply Nat.eq_of_testBit_eq
  intro j
  rw [getF, testBit_bits, Nat.testBit_mod_two_pow]
  by_cases hj : j < f.hi - f.lo + 1
  · rw [reg_setF_same f i v h hi hf'.1.2 (f.lo + j) (by omega) (fldOk_bit hf (f.lo + j) (by omega) (by omega)),
      testBit_putBits _ _ _ _ _ hf'.1.1.1, if_pos (by omega)]
    simp [hj, Nat.add_sub_cancel_left]
  · simp [hj]

/-- A field of another register keeps its value. -/
theorem getF_setF_ne (f g : Fld) (i j v : Nat) (h : Hw) (ha : fAddr g j ≠ fAddr f i) :
    getF (runE (setF f i v) h) g j = getF h g j := by
  rw [getF, reg_setF_ne f i v _ h ha, getF]

/-- Another field of the same register keeps its value. -/
theorem getF_setF_disj (f g : Fld) (i v : Nat) (h : Hw) (hp : g.page = f.page) (ho : g.off = f.off) (hi : i < pageCount f.page)
    (hf : fldOk f = true) (hg : fldOk g = true) (hd : g.hi < f.lo ∨ f.hi < g.lo) :
    getF (runE (setF f i v) h) g i = getF h g i := by
  have hf' := hf
  have hg' := hg
  simp only [fldOk, Bool.and_eq_true, decide_eq_true_eq] at hf' hg'
  have ha : fAddr g i = fAddr f i := by simp [fAddr, hp, ho]
  apply Nat.eq_of_testBit_eq
  intro j
  rw [getF, getF, testBit_bits, testBit_bits, ha]
  by_cases hj : j < g.hi - g.lo + 1
  · have hb := fldOk_bit hg (g.lo + j) (by omega) (by omega)
    rw [hp, ho] at hb
    rw [reg_setF_same f i v h hi hf'.1.2 (g.lo + j) (by omega) hb, testBit_putBits _ _ _ _ _ hf'.1.1.1, if_neg (by omega)]
  · simp [hj]

/-- Fields of different registers of the device lie at different addresses. -/
theorem fAddr_ne (f g : Fld) (i j : Nat) (hi : i < pageCount f.page) (hj : j < pageCount g.page) (hf : f.off < 0x1000)
    (hg : g.off < 0x1000) (hne : g.page ≠ f.page ∨ j ≠ i ∨ g.off ≠ f.off) : fAddr g j ≠ fAddr f i := by
  intro h
  obtain ⟨h1, h2, h3⟩ := pageBase_inj g.page f.page j i g.off f.off hj hi hg hf h
  rcases hne with hn | hn | hn
  · exact hn h1
  · exact hn h2
  · exact hn h3

end Sys2Proof.Machine
end

