-- ==== Sys2Proof/Laws/Flags.lean ====
section
/-! SUPPORT. What an event, an abandon, the passing of time and an addition to a signal change, and what they leave. -/

set_option linter.unusedSimpArgs false

namespace Sys2Proof.Machine

theorem keeps_modGate {T : Tag} (hT : T ≠ .gate) (f : GateX → GateX) : Keeps T (modGate f) := by
  intro h u hu
  simp only [modGate, List.mem_singleton] at hu
  subst hu
  simpa [Upd.tags] using hT

theorem keeps_modBell {T : Tag} (hT : T ≠ .bell) (f : BellX → BellX) : Keeps T (modBell f) := by
  intro h u hu
  simp only [modBell, List.mem_singleton] at hu
  subst hu
  simpa [Upd.tags] using hT

theorem keeps_modMill {T : Tag} (hT : T ≠ .mill) (f : MillX → MillX) : Keeps T (modMill f) := by
  intro h u hu
  simp only [modMill, List.mem_singleton] at hu
  subst hu
  simpa [Upd.tags] using hT

theorem keeps_incF {T : Tag} (hT : T ≠ .regs) (f : Fld) (i : Nat) : Keeps T (incF f i) :=
  keeps_fun (f := fun h => setF f i (getF h f i + 1)) (fun _ => keeps_setF hT f i _)

theorem keeps_setFlag {T : Tag} (hT : T ≠ .regs) (f : Fld) (i : Nat) (b : Bool) : Keeps T (setFlag f i b) := keeps_setF hT f i _

/-- Tags that an event may touch. -/
def Tag.event : Tag → Bool
  | .regs | .gate | .gateQ => true
  | _ => false

theorem Tag.not_event {T : Tag} (hT : T.event = false) : T ≠ .regs ∧ T ≠ .gate ∧ T ≠ .gateQ := by
  refine ⟨?_, ?_, ?_⟩ <;> (rintro rfl; exact absurd hT (by decide))

theorem keeps_markEvent {T : Tag} (hT : T.event = false) (p : Page) (e : Nat) : Keeps T (markEvent p e) := by
  obtain ⟨h1, h2, _⟩ := Tag.not_event hT
  unfold markEvent
  refine keeps_fun (fun h => keeps_chain ?_)
  intro x hx
  simp only [List.mem_cons, List.not_mem_nil, or_false] at hx
  rcases hx with rfl | rfl
  · exact keeps_setReg h1 _ _
  · exact keeps_whenB (keeps_modGate h2 _)

theorem keeps_dropEvent {T : Tag} (hT : T.event = false) (p : Page) (e : Nat) : Keeps T (dropEvent p e) := by
  obtain ⟨h1, _, _⟩ := Tag.not_event hT
  intro h u hu
  unfold dropEvent at hu
  split at hu
  · cases hu
  · refine keeps_chain ?_ h u hu
    intro x hx
    simp only [List.mem_cons, List.not_mem_nil, or_false] at hx
    rcases hx with rfl | rfl | rfl
    · exact keeps_markEvent hT p e
    · exact keeps_incF h1 _ _
    · exact keeps_incF h1 _ _

theorem keeps_queueRecord {T : Tag} (hT : T.event = false) (r : QRec) : Keeps T (queueRecord r) := by
  obtain ⟨h1, _, h3⟩ := Tag.not_event hT
  intro h u hu
  unfold queueRecord at hu
  split at hu
  · simp only [List.mem_singleton] at hu
    subst hu
    simpa [Upd.tags] using h3
  · refine keeps_chain ?_ h u hu
    intro x hx
    simp only [List.mem_cons, List.not_mem_nil, or_false] at hx
    rcases hx with rfl | rfl | rfl | rfl
    · exact keeps_incF h1 _ _
    · exact keeps_incF h1 _ _
    · exact keeps_dropEvent hT _ _
    · exact keeps_dropEvent hT _ _

/-- An event changes nothing but registers, the gate's message queue and the record queue. -/
theorem keeps_raiseForced {T : Tag} (hT : T.event = false) (p : Page) (e : Nat) (b : Bool) : Keeps T (raiseForced p e b) := by
  unfold raiseForced
  refine keeps_fun (fun h => keeps_chain ?_)
  intro x hx
  simp only [List.mem_cons, List.not_mem_nil, or_false] at hx
  rcases hx with rfl | rfl
  · exact keeps_markEvent hT p e
  · exact keeps_whenB (keeps_look (fun r => keeps_queueRecord hT r))

theorem keeps_raise {T : Tag} (hT : T.event = false) (k : PageKind) (i e : Nat) : Keeps T (raise k i e) := keeps_raiseForced hT _ _ _

theorem reg_markEvent (p : Page) (e : Nat) (h : Hw) (a : Nat) (ha : a ≠ rawAddr p) : reg (runE (markEvent p e) h) a = reg h a := by
  unfold markEvent
  rw [runE_fun (fun h => chain [setReg (rawAddr p) (reg h (rawAddr p) ||| BitVec.ofNat 32 (2 ^ e)), whenB _ _])]
  simp only [runE_chain_cons, runE_chain_nil]
  rw [reg_keeps (keeps_whenB (keeps_modGate (by decide) _)), reg_setReg_ne _ _ _ _ ha]

theorem reg_incF (f : Fld) (i : Nat) (h : Hw) (a : Nat) (ha : a ≠ fAddr f i) : reg (runE (incF f i) h) a = reg h a :=
  reg_setF_ne f i _ a h ha

theorem countDrop_addr (sev : Nat) (a : Nat) (hs : sev < 5) (ha : eventSide a = false) : a ≠ fAddr (book_DROP sev) 0 := by
  rintro rfl
  have h1 : fAddr (book_DROP sev) 0 = 0x101058 + 4 * sev := by simp only [fAddr, book_DROP, pageBase]; omega
  rw [h1] at ha
  simp only [eventSide, Bool.or_eq_false_iff, Bool.and_eq_false_iff, decide_eq_false_iff_not] at ha
  omega

theorem sevOf_lt (h : Hw) (p : Page) (e : Nat) : sevOf h p e < 5 := by
  unfold sevOf bits
  have h1 : 2 * e + 1 - 2 * e + 1 = 2 := by omega
  rw [h1]
  have := Nat.mod_lt ((reg h (sevAddr p)).toNat >>> (2 * e)) (show 0 < 2 ^ 2 by decide)
  omega

theorem runE_dropEvent (p : Page) (e : Nat) (h : Hw) : runE (dropEvent p e) h =
    if rawBit h p e then h
    else runE (chain [markEvent p e, countDrop (sevOf h p e), incF gateEvt_QUEUE_DROPS 0]) h := by
  simp only [runE, dropEvent]
  split <;> rfl

theorem runE_queueRecord (r : QRec) (h : Hw) : runE (queueRecord r) h =
    if h.gateQ.length < 256 then applyUpd h (.gateQ (h.gateQ ++ [r]))
    else runE (chain [countDrop r.sev, incF gateEvt_QUEUE_DROPS 0, dropEvent ⟨.gateEvt, 0⟩ 0, dropEvent bookPage 1]) h := by
  simp only [runE, queueRecord]
  split <;> rfl

theorem reg_dropEvent (p : Page) (e : Nat) (h : Hw) (a : Nat) (hp : rawAddr p = 0x1010 ∨ rawAddr p = 0x101010)
    (ha : eventSide a = false) : reg (runE (dropEvent p e) h) a = reg h a := by
  have hr : a ≠ rawAddr p := by
    rintro rfl
    rcases hp with hp | hp <;> rw [hp] at ha <;> exact absurd ha (by decide)
  have hq : a ≠ fAddr gateEvt_QUEUE_DROPS 0 := by
    rintro rfl
    exact absurd ha (by decide)
  rw [runE_dropEvent]
  split
  · rfl
  · simp only [runE_chain_cons, runE_chain_nil]
    rw [reg_incF _ _ _ _ hq, countDrop, reg_incF _ _ _ _ (countDrop_addr _ a (sevOf_lt h p e) ha), reg_markEvent _ _ _ _ hr]

theorem reg_gateQ (h : Hw) (v : List QRec) (a : Nat) : reg (applyUpd h (.gateQ v)) a = reg h a := (rfl)

theorem reg_queueRecord (r : QRec) (hs : r.sev < 5) (h : Hw) (a : Nat) (ha : eventSide a = false) :
    reg (runE (queueRecord r) h) a = reg h a := by
  have hq : a ≠ fAddr gateEvt_QUEUE_DROPS 0 := by
    rintro rfl
    exact absurd ha (by decide)
  rw [runE_queueRecord]
  by_cases hq' : h.gateQ.length < 256
  · rw [if_pos hq', reg_gateQ]
  · rw [if_neg hq']
    simp only [runE_chain_cons, runE_chain_nil]
    rw [reg_dropEvent _ _ _ _ (Or.inr (by decide)) ha, reg_dropEvent _ _ _ _ (Or.inl (by decide)) ha, reg_incF _ _ _ _ hq, countDrop,
      reg_incF _ _ _ _ (countDrop_addr _ a hs ha)]

theorem eventRecord_sev (h : Hw) (p : Page) (e : Nat) (b : Bool) : (eventRecord h p e b).sev = sevOf h p e := (rfl)

/-- A register after an event of a page: unchanged, but for the page's `EVENT_RAW` and where a dropped record is counted. -/
theorem reg_raiseForced (p : Page) (e : Nat) (b : Bool) (h : Hw) (a : Nat) (ha : a ≠ rawAddr p) (hs : eventSide a = false) :
    reg (runE (raiseForced p e b) h) a = reg h a := by
  unfold raiseForced
  rw [runE_fun (fun h => chain [markEvent p e, whenB (!rawBit h p e && !(p.kind == .mill && e == 5)) (look (fun h => eventRecord h p e b) queueRecord)])]
  simp only [runE_chain_cons, runE_chain_nil, runE_whenB, runE_look]
  by_cases hc : (!rawBit h p e && !(p.kind == .mill && e == 5)) = true
  · rw [if_pos hc, reg_queueRecord _ (by rw [eventRecord_sev]; exact sevOf_lt _ p e) _ _ hs, reg_markEvent _ _ _ _ ha]
  · rw [if_neg hc]
    exact reg_markEvent _ _ _ _ ha

theorem reg_raise (k : PageKind) (i e : Nat) (h : Hw) (a : Nat) (ha : a ≠ rawAddr ⟨k, i⟩) (hs : eventSide a = false) :
    reg (runE (raise k i e) h) a = reg h a := reg_raiseForced _ _ _ _ _ ha hs

/-- A field that no event writes keeps its value over an event. -/
theorem getF_raise (k : PageKind) (i e : Nat) (h : Hw) (f : Fld) (j : Nat) (ha : fAddr f j ≠ rawAddr ⟨k, i⟩)
    (hs : eventSide (fAddr f j) = false) : getF (runE (raise k i e) h) f j = getF h f j := by
  rw [getF, reg_raise _ _ _ _ _ ha hs, getF]

-- signals

theorem sigVal_setSig (c i v d j : Nat) (h : Hw) : sigVal (runE (setSig c i v) h) d j =
    if 64 * d + j = 64 * c + i then v else sigVal h d j := by
  simp [sigVal, runE, setSig, smGet_smSet]

theorem keeps_setSig {T : Tag} (hT : T ≠ .sigs) (c i v : Nat) : Keeps T (setSig c i v) := by
  intro h u hu
  simp only [setSig, List.mem_singleton] at hu
  subst hu
  simpa [Upd.tags] using hT

theorem keeps_noteSig {T : Tag} (hT : T ≠ .sigNow) (f : SigNow → SigNow) : Keeps T (noteSig f) := by
  intro h u hu
  simp only [noteSig, List.mem_singleton] at hu
  subst hu
  simpa [Upd.tags] using hT

theorem sigVal_keeps {e : Eff} (he : Keeps .sigs e) (h : Hw) (c i : Nat) : sigVal (runE e h) c i = sigVal h c i := by
  unfold sigVal runE
  rw [applyAll_keeps_sigs (e h) h (he h)]

-- abandons

/-- Tags that an abandon of the step may touch. -/
def Tag.abandon : Tag → Bool
  | .regs | .gate | .gateQ | .bell | .mill => true
  | _ => false

theorem Tag.event_of_abandon {T : Tag} (hT : T.abandon = false) : T.event = false := by
  cases T <;> first | rfl | exact absurd hT (by decide)

theorem Tag.not_abandon {T : Tag} (hT : T.abandon = false) : T ≠ .regs ∧ T ≠ .bell ∧ T ≠ .mill := by
  refine ⟨?_, ?_, ?_⟩ <;> (rintro rfl; exact absurd hT (by decide))

theorem keeps_setA {T : Tag} (hT : T.abandon = false) : Keeps T setA := by
  obtain ⟨h1, h2, h3⟩ := Tag.not_abandon hT
  unfold setA
  refine keeps_fun (fun h => keeps_chain ?_)
  intro x hx
  simp only [List.mem_cons, List.not_mem_nil, or_false] at hx
  rcases hx with rfl | rfl | rfl
  · exact keeps_setFlag h1 _ _ _
  · exact keeps_modBell h2 _
  · exact keeps_modMill h3 _

/-- An abandon changes nothing but registers, the bell, the mill's window and what an event changes. -/
theorem keeps_abandonQ {T : Tag} (hT : T.abandon = false) (p : Page) (q : Nat) : Keeps T (abandonQ p q) := by
  obtain ⟨h1, _, _⟩ := Tag.not_abandon hT
  unfold abandonQ
  refine keeps_chain ?_
  intro x hx
  simp only [List.mem_cons, List.not_mem_nil, or_false] at hx
  rcases hx with rfl | rfl | rfl | rfl
  · exact keeps_setA hT
  · exact keeps_whenE (keeps_setF h1 _ _ _)
  · exact keeps_setFlag h1 _ _ _
  · exact keeps_raise (Tag.event_of_abandon hT) _ _ _

/-- An addition to a signal changes nothing but signals, their record of the clk, and what an abandon changes. -/
theorem keeps_addSig {T : Tag} (hT : T.abandon = false) (h1 : T ≠ .sigs) (h2 : T ≠ .sigNow) (c i n : Nat) : Keeps T (addSig c i n) := by
  intro h u hu
  unfold addSig addSigOr at hu
  refine keeps_chain ?_ h u hu
  intro x hx
  simp only [List.mem_cons, List.not_mem_nil, or_false] at hx
  rcases hx with rfl | rfl
  · exact keeps_noteSig h2 _
  · split
    · exact keeps_setSig h1 _ _ _
    · refine keeps_chain ?_
      intro x hx
      simp only [List.mem_cons, List.not_mem_nil, or_false] at hx
      rcases hx with rfl | rfl | rfl
      · exact keeps_setSig h1 _ _ _
      · exact keeps_raise (Tag.event_of_abandon hT) _ _ _
      · exact keeps_abandonQ hT _ _

-- time

/-- Tags that the passing of time may touch. -/
def Tag.timed : Tag → Bool
  | .regs | .gate | .gateQ | .bell | .mill | .clk | .sigs | .sigNow | .quarters | .ledger | .shadow => true
  | _ => false

theorem Tag.not_timed {T : Tag} (hT : T.timed = false) : T.abandon = false ∧ T ≠ .regs ∧ T ≠ .gate ∧ T ≠ .bell ∧ T ≠ .clk ∧ T ≠ .sigs ∧
    T ≠ .sigNow ∧ T ≠ .quarters ∧ T ≠ .ledger ∧ T ≠ .shadow := by
  refine ⟨?_, ?_, ?_, ?_, ?_, ?_, ?_, ?_, ?_, ?_⟩
  · cases T <;> first | rfl | exact absurd hT (by decide)
  all_goals (rintro rfl; exact absurd hT (by decide))

theorem keeps_modQuarter {T : Tag} (hT : T ≠ .quarters) (q : Nat) (f : QuarterX → QuarterX) : Keeps T (modQuarter q f) := by
  intro h u hu
  simp only [modQuarter, List.mem_singleton] at hu
  subst hu
  simpa [Upd.tags] using hT

theorem keeps_setClk {T : Tag} (hT : T ≠ .clk) (f : Hw → Nat) : Keeps T (fun h => [.clk (f h)]) := by
  intro h u hu
  simp only [List.mem_singleton] at hu
  subst hu
  simpa [Upd.tags] using hT

theorem keeps_addF {T : Tag} (hT : T ≠ .regs) (f : Fld) (i n : Nat) : Keeps T (addF f i n) :=
  keeps_fun (f := fun h => setF f i (getF h f i + n)) (fun _ => keeps_setF hT f i _)

theorem keeps_showReeve {T : Tag} (hT : T ≠ .regs) (q : Nat) : Keeps T (showReeve q) := by
  unfold showReeve
  refine keeps_fun (fun h => keeps_chain ?_)
  intro x hx
  simp only [List.mem_cons, List.not_mem_nil, or_false] at hx
  rcases hx with rfl | rfl
  · exact keeps_setFlag hT _ _ _
  · exact keeps_setFlag hT _ _ _

theorem keeps_exchangeBanks {T : Tag} (h1 : T ≠ .regs) (h2 : T ≠ .quarters) (h3 : T ≠ .ledger) (h4 : T ≠ .shadow) (q : Nat) :
    Keeps T (exchangeBanks q) := by
  intro h u hu
  unfold exchangeBanks at hu
  refine keeps_chain ?_ h u hu
  intro x hx
  simp only [List.mem_cons, List.not_mem_nil, or_false] at hx
  rcases hx with rfl | rfl | rfl | rfl
  · refine keeps_forE (fun kv _ => keeps_chain ?_)
    intro x hx
    simp only [List.mem_cons, List.not_mem_nil, or_false] at hx
    rcases hx with rfl | rfl <;> (intro h u hu; simp only [setLedger, List.mem_singleton] at hu; subst hu; simp [Upd.tags, h3, h4])
  · exact keeps_setFlag h1 _ _ _
  · exact keeps_modQuarter h2 _ _
  · exact keeps_showReeve h1 _

theorem keeps_quarterNext {T : Tag} (hT : T.timed = false) (q : Nat) : Keeps T (quarterNext q) := by
  obtain ⟨ha, h1, _, _, _, h5, h6, h7, h8, h9⟩ := Tag.not_timed hT
  intro h u hu
  unfold quarterNext at hu
  refine keeps_chain ?_ h u hu
  intro x hx
  simp only [List.mem_cons, List.not_mem_nil, or_false] at hx
  rcases hx with rfl | rfl
  · refine keeps_whenB (keeps_chain ?_)
    intro x hx
    simp only [List.mem_cons, List.not_mem_nil, or_false] at hx
    rcases hx with rfl | rfl
    · exact keeps_modQuarter h7 _ _
    · exact keeps_forE (fun k _ => keeps_whenB (keeps_addSig ha h5 h6 _ _ _))
  · exact keeps_whenB (keeps_exchangeBanks h1 h7 h8 h9 q)

theorem keeps_openWindow {T : Tag} (h1 : T ≠ .regs) (h2 : T ≠ .bell) : Keeps T openWindow := by
  unfold openWindow
  refine keeps_chain ?_
  intro x hx
  simp only [List.mem_cons, List.not_mem_nil, or_false] at hx
  rcases hx with rfl | rfl | rfl
  · exact keeps_setFlag h1 _ _ _
  · refine keeps_forE (fun q _ => keeps_chain ?_)
    intro x hx
    simp only [List.mem_cons, List.not_mem_nil, or_false] at hx
    rcases hx with rfl | rfl
    · exact keeps_setFlag h1 _ _ _
    · exact keeps_setF h1 _ _ _
  · exact keeps_modBell h2 _

theorem keeps_setPair {T : Tag} (h1 : T ≠ .regs) (lo hi : Fld) (i v : Nat) : Keeps T (setPair lo hi i v) := by
  unfold setPair
  refine keeps_chain ?_
  intro x hx
  simp only [List.mem_cons, List.not_mem_nil, or_false] at hx
  rcases hx with rfl | rfl
  · exact keeps_setF h1 _ _ _
  · exact keeps_setF h1 _ _ _

theorem keeps_showBook {T : Tag} (h1 : T ≠ .regs) : Keeps T showBook := by
  intro h u hu
  unfold showBook at hu
  refine keeps_chain ?_ h u hu
  intro x hx
  simp only [List.mem_cons, List.not_mem_nil, or_false] at hx
  rcases hx with rfl | rfl | rfl | rfl | rfl | rfl | rfl
  · exact keeps_setF h1 _ _ _
  · exact keeps_setFlag h1 _ _ _
  · exact keeps_setF h1 _ _ _
  · exact keeps_setFlag h1 _ _ _
  · exact keeps_setPair h1 _ _ _ _
  · exact keeps_setFlag h1 _ _ _
  · exact keeps_setFlag h1 _ _ _

theorem keeps_setCursor {T : Tag} (h1 : T ≠ .regs) (h2 : T ≠ .gate) (n : Nat) : Keeps T (setCursor n) := by
  unfold setCursor
  refine keeps_chain ?_
  intro x hx
  simp only [List.mem_cons, List.not_mem_nil, or_false] at hx
  rcases hx with rfl | rfl | rfl | rfl
  · exact keeps_setF h1 _ _ _
  · exact keeps_modGate h2 _
  · exact keeps_showBook h1
  · exact keeps_setFlag h1 _ _ _

/-- A move of the book's cursor touches registers and the gate's own fields. -/
theorem keeps_endMove {T : Tag} (h1 : T ≠ .regs) (h2 : T ≠ .gate) : Keeps T endMove := by
  intro h u hu
  unfold endMove at hu
  split at hu
  · exact absurd hu List.not_mem_nil
  · refine keeps_chain ?_ h u hu
    intro x hx
    simp only [List.mem_cons, List.not_mem_nil, or_false] at hx
    rcases hx with rfl | rfl | rfl
    · exact keeps_modGate h2 _
    · exact keeps_setFlag h1 _ _ _
    · split
      · exact keeps_setCursor h1 h2 _
      · exact keeps_setFlag h1 _ _ _

theorem keeps_nextClk {T : Tag} (hT : T.timed = false) : Keeps T nextClk := by
  obtain ⟨_, h1, h2, h3, _⟩ := Tag.not_timed hT
  unfold nextClk
  refine keeps_chain ?_
  intro x hx
  simp only [List.mem_cons, List.not_mem_nil, or_false] at hx
  rcases hx with rfl | rfl | rfl
  · exact keeps_whenE (keeps_openWindow h1 h3)
  · exact keeps_forE (fun q _ => keeps_quarterNext hT q)
  · exact keeps_endMove h1 h2

theorem keeps_passClk {T : Tag} (hT : T.timed = false) (t : Nat) : Keeps T (passClk t) := by
  obtain ⟨_, h1, _, _, h4, _⟩ := Tag.not_timed hT
  intro h u hu
  unfold passClk at hu
  split at hu
  · refine keeps_chain ?_ h u hu
    intro x hx
    simp only [List.mem_cons, List.not_mem_nil, or_false] at hx
    rcases hx with rfl | rfl | rfl | rfl | rfl
    · exact keeps_forE (fun c _ => keeps_addF h1 _ _ _)
    · exact keeps_forE (fun c _ => keeps_addF h1 _ _ _)
    · exact keeps_setClk h4 (fun _ => h.clk + 1)
    · exact keeps_nextClk hT
    · exact keeps_setClk h4 (fun _ => t)
  · cases hu

theorem keeps_peakF {T : Tag} (hT : T ≠ .regs) (f : Fld) (i v : Nat) : Keeps T (peakF f i v) := by
  intro h u hu
  unfold peakF at hu
  split at hu
  · exact keeps_setF hT f i v h u hu
  · cases hu

theorem keeps_watchEvent {T : Tag} (h1 : T ≠ .regs) (h2 : T ≠ .gate) (k : Nat) : Keeps T (watchEvent k) := by
  unfold watchEvent
  refine keeps_fun (fun h => keeps_chain ?_)
  intro x hx
  simp only [List.mem_cons, List.not_mem_nil, or_false] at hx
  have plots : ∀ c b, Keeps T (tilePlots c b) := by
    intro c b
    unfold tilePlots
    refine keeps_fun (fun h => keeps_chain ?_)
    intro x hx
    simp only [List.mem_cons, List.not_mem_nil, or_false] at hx
    rcases hx with rfl | rfl
    · exact keeps_setF h1 _ _ _
    · exact keeps_whenB (keeps_peakF h1 _ _ _)
  rcases hx with rfl | rfl
  · refine keeps_forE (fun c _ => ?_)
    split
    · exact plots _ _
    · split
      · exact plots _ _
      · exact keeps_forE (fun f _ => keeps_setFlag h1 _ _ _)
  · refine keeps_whenB (keeps_chain ?_)
    intro x hx
    simp only [List.mem_cons, List.not_mem_nil, or_false] at hx
    rcases hx with rfl | rfl
    · exact keeps_modGate h2 _
    · exact keeps_setFlag h1 _ _ _

theorem runE_passClk (t : Nat) (h : Hw) : runE (passClk t) h =
    if h.clk < t then
      runE (chain [forE ((List.range 64).filter (croftIdle h)) (fun c => addF croft_IDLE_CLK c (t - h.clk)),
        forE ((List.range 64).filter (flag h vector_STATUS_BUSY)) (fun c => addF vector_BUSY_CLK c (t - h.clk)),
        fun _ => [.clk (h.clk + 1)], nextClk, fun _ => [.clk t]]) h
    else h := by
  simp only [runE, passClk]
  split <;> rfl

theorem clk_passClk (t : Nat) (h : Hw) : (runE (passClk t) h).clk = max h.clk t := by
  rw [runE_passClk]
  split
  · simp only [runE_chain_cons, runE_chain_nil]
    have : ∀ h', (runE (fun _ => [Upd.clk t]) h').clk = t := fun _ => rfl
    rw [this]
    omega
  · omega

theorem clk_keeps {e : Eff} (he : Keeps .clk e) (h : Hw) : (runE e h).clk = h.clk := applyAll_keeps_clk _ _ (he h)

theorem keeps_dueEvent {T : Tag} (hT : T.timed = false) (e : Nat × Nat) : Keeps T (dueEvent e) := by
  obtain ⟨_, h1, h2, _⟩ := Tag.not_timed hT
  unfold dueEvent
  refine keeps_chain ?_
  intro x hx
  simp only [List.mem_cons, List.not_mem_nil, or_false] at hx
  rcases hx with rfl | rfl | rfl
  · exact keeps_passClk hT _
  · exact keeps_modGate h2 _
  · exact keeps_watchEvent h1 h2 _

/-- The passing of time changes nothing but what is due in it: counters, the clk, a running watch slot, the opening of a window, and what
landed deliveries and late passes bring. -/
theorem keeps_advance {T : Tag} (hT : T.timed = false) (t : Nat) : Keeps T (advance t) := by
  intro h u hu
  unfold advance at hu
  exact keeps_andThen (keeps_forE (fun e _ => keeps_dueEvent hT e)) (keeps_passClk hT t) h u hu

/-- An effect at a clk is the effect on the device that time has brought there. -/
theorem runE_atClk (t : Nat) (e : Eff) (h : Hw) : runE (atClk t e) h = runE e (runE (advance t) h) := runE_andThen _ _ _

theorem clk_dueEvent (e : Nat × Nat) (h : Hw) : (runE (dueEvent e) h).clk = max h.clk e.1 := by
  unfold dueEvent
  simp only [runE_chain_cons, runE_chain_nil]
  rw [clk_keeps (keeps_watchEvent (by decide) (by decide) _), clk_keeps (keeps_modGate (by decide) _), clk_passClk]

theorem clk_dueEvents (t : Nat) (es : List (Nat × Nat)) (h : Hw) (hes : ∀ e ∈ es, e.1 ≤ t) (ht : h.clk ≤ t) :
    (runE (forE es dueEvent) h).clk ≤ t := by
  induction es generalizing h with
  | nil => exact ht
  | cons e es ih =>
    have he : e.1 ≤ t := hes e List.mem_cons_self
    rw [runE_forE_cons]
    refine ih _ (fun x hx => hes x (List.mem_cons_of_mem e hx)) ?_
    rw [clk_dueEvent]
    omega

theorem runE_advance (t : Nat) (h : Hw) : runE (advance t) h =
    runE (passClk t) (runE (forE (h.gate.watchDue.filter (fun e => decide (e.1 ≤ t))) dueEvent) h) := by
  have e : advance t h = andThen (forE (h.gate.watchDue.filter (fun e => decide (e.1 ≤ t))) dueEvent) (passClk t) h := rfl
  unfold runE
  rw [e]
  exact runE_andThen _ _ h

/-- The module clk reaches `t`. -/
theorem clk_advance (t : Nat) (h : Hw) (ht : h.clk ≤ t) : (runE (advance t) h).clk = t := by
  rw [runE_advance, clk_passClk]
  have := clk_dueEvents t (h.gate.watchDue.filter (fun e => decide (e.1 ≤ t))) h (by
    intro x hx
    simpa using (List.mem_filter.mp hx).2) ht
  omega

/-- Memory reads as before while time passes. -/
theorem rd8_advance (t : Nat) (h : Hw) (sp : MemSp) (a : Nat) : rd8 (runE (advance t) h) sp a = rd8 h sp a := by
  have k : ∀ T : Tag, T.timed = false → ∀ u ∈ advance t h, T ∉ u.tags := fun T hT => keeps_advance hT t h
  have e0 : (runE (advance t) h).epochs = h.epochs := applyAll_keeps_epochs _ _ (k .epochs (by decide))
  cases sp
  · simp only [rd8, memDflt, memCells, e0, show (runE (advance t) h).hostMem = h.hostMem from applyAll_keeps_hostMem _ _ (k .hostMem (by decide))]
  · simp only [rd8, memDflt, memCells, e0, show (runE (advance t) h).barn = h.barn from applyAll_keeps_barn _ _ (k .barn (by decide))]
  · simp only [rd8, memDflt, memCells, e0, show (runE (advance t) h).commons = h.commons from applyAll_keeps_commons _ _ (k .commons (by decide))]
  · simp only [rd8, memDflt, memCells, e0, show (runE (advance t) h).hbm = h.hbm from applyAll_keeps_hbm _ _ (k .hbm (by decide))]
  · simp only [rd8, memDflt, memCells, e0, show (runE (advance t) h).slow = h.slow from applyAll_keeps_slow _ _ (k .slow (by decide))]

-- quiet times

theorem reg_forE_addF (f : Fld) (n : Nat) (cs : List Nat) (a : Nat) (h : Hw) (ha : ∀ c ∈ cs, a ≠ fAddr f c) :
    reg (runE (forE cs (fun c => addF f c n)) h) a = reg h a := by
  induction cs generalizing h with
  | nil => rfl
  | cons c cs ih =>
    rw [runE_forE_cons, ih _ (fun x hx => ha x (List.mem_cons_of_mem c hx))]
    exact reg_setF_ne f c _ a h (ha c List.mem_cons_self)

theorem runE_nextClk_quiet (h : Hw) (hq : Quiet h) : runE nextClk h = h := by
  obtain ⟨_, hm, h2, h3⟩ := hq
  have em : runE endMove h = h := by
    have : endMove h = [] := by simp only [endMove, hm]
    simp only [runE, this, applyAll_nil]
  have one : ∀ q, q < 4 → runE (quarterNext q) h = h := by
    intro q hq
    obtain ⟨ha, hb⟩ := h3 q hq
    have : quarterNext q h = [] := by
      simp only [quarterNext, ha, hb]
      rfl
    simp only [runE, this, applyAll_nil]
  unfold nextClk
  simp only [runE_chain_cons, runE_chain_nil, runE_whenE, h2, Option.isSome_none, Bool.false_eq_true, if_false]
  rw [show List.range 4 = [0, 1, 2, 3] from rfl]
  simp only [runE_forE_cons, runE_forE_nil, one 0 (by omega), one 1 (by omega), one 2 (by omega), one 3 (by omega), em]

/-- Where nothing is due, time changes no register but the crofts' `IDLE_CLK` and the vector units' `BUSY_CLK`. -/
theorem reg_advance (t : Nat) (h : Hw) (hq : Quiet h) (a : Nat)
    (ha : ∀ c, c < 64 → a ≠ fAddr croft_IDLE_CLK c ∧ a ≠ fAddr vector_BUSY_CLK c) : reg (runE (advance t) h) a = reg h a := by
  have e : runE (advance t) h = runE (passClk t) h := by
    rw [runE_advance, hq.1]
    rfl
  rw [e, runE_passClk]
  split
  · simp only [runE_chain_cons, runE_chain_nil]
    have hc : ∀ n h', reg (runE (fun _ => [Upd.clk n]) h') a = reg h' a := fun _ _ => rfl
    have quiet : ∀ (cs : List Nat) (f : Fld) (n : Nat) (g : Hw), Quiet g → Quiet (runE (forE cs (fun c => addF f c n)) g) := by
      intro cs f n g hg
      have k : ∀ T : Tag, T ≠ .regs → ∀ u ∈ forE cs (fun c => addF f c n) g, T ∉ u.tags :=
        fun T hT => keeps_forE (fun c _ => keeps_addF hT f c n) g
      obtain ⟨g1, gm, g2, g3⟩ := hg
      unfold Quiet quarterX runE at *
      rw [applyAll_keeps_gate _ _ (k .gate (by decide)), applyAll_keeps_bell _ _ (k .bell (by decide)),
        applyAll_keeps_quarters _ _ (k .quarters (by decide))]
      exact ⟨g1, gm, g2, g3⟩
    have hq1 := quiet ((List.range 64).filter (croftIdle h)) croft_IDLE_CLK (t - h.clk) h hq
    have hq2 := quiet ((List.range 64).filter (flag h vector_STATUS_BUSY)) vector_BUSY_CLK (t - h.clk) _ hq1
    rw [hc, runE_nextClk_quiet _ (by exact hq2), hc, reg_forE_addF, reg_forE_addF]
    · exact fun c hx => (ha c (by simpa using (List.mem_filter.mp hx).1)).1
    · exact fun c hx => (ha c (by simpa using (List.mem_filter.mp hx).1)).2
  · rfl

end Sys2Proof.Machine
end

