-- ==== Sys2Proof/Laws/Streams.lean ====
section
/-! SUPPORT. Laws of instruction issue: where an instruction of a `RUNNING` stream acts, and what the parts every instruction shares
change. -/

set_option linter.unusedSimpArgs false

namespace Sys2Proof.Machine

theorem streamX_advance (t : Nat) (h : Hw) (i : Nat) : streamX (runE (advance t) h) i = streamX h i := by
  unfold streamX runE
  rw [applyAll_keeps_streams _ h (keeps_advance (by decide) t h)]

theorem sIx_lt (c : Croft) (st : Strm) : sIx c st < 192 := by
  have := c.isLt
  cases st <;> simp only [sIx, strmIx] <;> omega

/-- A field of a stream page keeps its value while time passes and nothing is due. -/
theorem getF_advance_stream (f : Fld) (i t : Nat) (h : Hw) (hq : Quiet h) (hf : f.page = .stream) (ho : f.off < 0x1000) (hi : i < 192) :
    getF (runE (advance t) h) f i = getF h f i := by
  rw [getF, reg_advance t h hq, getF]
  refine fun c hc => ⟨?_, ?_⟩
  · refine fAddr_ne croft_IDLE_CLK f c i (show c < 64 from hc) (by rw [hf]; exact hi) (by decide) ho (Or.inl ?_)
    rw [hf]
    decide
  · refine fAddr_ne vector_BUSY_CLK f c i (show c < 64 from hc) (by rw [hf]; exact hi) (by decide) ho (Or.inl ?_)
    rw [hf]
    decide

/-- An instruction that issues does what its body does, on the device at the clk of issue. -/
theorem runE_issue (c : Croft) (st : Strm) (w : BitVec 128) (t op : Nat) (ok : BitVec 128 → Bool) (body : Eff) (s : State)
    (hi : Issues s c st w t op ok) : runE (issue c st w t op ok body) s.hw = runE body (nowIssue s c st t) := by
  obtain ⟨h1, h2, h3, h4, h5, h6⟩ := hi
  have e1 : runE (issue c st w t op ok body) s.hw = runE (issueWord c.val (sIx c st) w op ok body) (nowIssue s c st t) := by
    have hn : ¬ (strmState s.hw (sIx c st) ≠ 2 ∨ (wb w 7 0 ≠ op ∧ opcodes.contains (wb w 7 0) = true)) := by simp [h1, h3]
    let k := issueAt s.hw (sIx c st) t
    have e0 : runE (issue c st w t op ok body) s.hw = runE (chain [whenB (decide (s.hw.clk < k)) (settleWaits c.val [0, 1, 2]), advance k,
        settleWaits c.val (List.range (strmIx st)), issueWord c.val (sIx c st) w op ok body]) s.hw := by
      unfold runE issue
      simp only [if_neg hn]
      rfl
    rw [e0]
    simp only [runE_chain_cons, runE_chain_nil, nowIssue]
    rfl
  rw [e1]
  generalize nowIssue s c st t = g at h2 h6 ⊢
  unfold runE issueWord
  simp only
  rw [if_neg (by omega), if_neg (by simp [h3, h4, h5]), if_pos h6]

end Sys2Proof.Machine
end

