-- ==== Sys2Proof/Machine/Contacts.lean ====
section
/-! DEFINITION. The module's connectors and what their contacts carry (R505 to R507, R510, R511). No command reads them: the wires' effects
come as the commands and operands of the units behind them. -/

namespace Sys2Proof.Machine

/-- The module's connectors (R505). -/
inductive Connector where
  | power | a | b | c
deriving DecidableEq, Repr

/-- Contacts of a connector (R505): two blades and two short pins; four rows of 40; 16 wafers of 48. -/
def Connector.contacts : Connector → Nat
  | .power => 4
  | .a => 160
  | .b => 768
  | .c => 768

/-- Contacts of the power connector, in the order in which they mate (R506). -/
inductive PowerPin where
  | rtn | p48 | pwrEnA | pwrEnB
deriving DecidableEq, Repr

/-- The input stage is enabled only while both short pins are joined (R506). -/
def inputEnabled (joined : List PowerPin) : Bool := joined.contains .pwrEnA && joined.contains .pwrEnB

/-- What a contact carries; of a pair, `neg` is the negative side (R507, R510). -/
inductive Signal where
  | ground | notConnected
  | hostTx (lane : Nat) (neg : Bool)
  | hostRx (lane : Nat) (neg : Bool)
  | hostClk (neg : Bool)
  | perst | prsnt | i3cScl | i3cSda | own
  | maddr (bit : Nat)
  | leakA | leakB
  | portTx (port lane : Nat) (neg : Bool)
  | portRx (port lane : Nat) (neg : Bool)
deriving DecidableEq, Repr

/-- The rows of connector A. -/
inductive RowA where
  | a | b | c | d
deriving DecidableEq, Repr

/-- The contact of connector A in a row and column 1 to 40 (R507). -/
def contactA (r : RowA) (col : Nat) : Signal :=
  let lane := (col - 1) / 2
  let neg := (col - 1) % 2 == 1
  match r with
  | .a =>
    if col ≤ 32 then .hostTx lane neg
    else match col with
      | 33 => .hostClk false
      | 34 => .hostClk true
      | 35 => .perst
      | 36 => .prsnt
      | 37 => .i3cScl
      | 38 => .i3cSda
      | 39 => .own
      | _ => .maddr 0
  | .c =>
    if col ≤ 32 then .hostRx lane neg
    else match col with
      | 33 => .maddr 1
      | 34 => .maddr 2
      | 35 => .leakA
      | 36 => .leakB
      | _ => .notConnected
  | _ => .ground

/-- Connector and wafer of port p (R510). -/
def portWafer (p : Nat) : Connector × Nat := (if p < 16 then .b else .c, p % 16)

/-- Contact n, 1 to 48, of the wafer of port p (R510). -/
def portContact (p n : Nat) : Signal :=
  let lane := (n - 1) / 6
  match (n - 1) % 6 with
  | 0 => .portTx p lane false
  | 1 => .portTx p lane true
  | 3 => .portRx p lane false
  | 4 => .portRx p lane true
  | _ => .ground

/-- The contact of the partner port that the integrator joins to a contact of port p, whose partner is port p' (R511). -/
def joined (p' : Nat) : Signal → Option Signal
  | .portTx _ l neg => some (.portRx p' l neg)
  | .portRx _ l neg => some (.portTx p' l neg)
  | _ => none

end Sys2Proof.Machine
end

