-- ==== Sys2Proof/Tests/Slice0.lean ====
section
/-! SUPPORT. Tests: worked examples of the spec, ill-formed commands that the well-formedness check refuses, and for every statement a
state and operands that meet its hypotheses, with the result there. Every theorem is about one command on a small state. -/

set_option Elab.async false

namespace Sys2Proof.Tests
open Sys2Proof Sys2Proof.Machine

/-- A device with some register fields set. -/
def put (l : List (Fld × Nat × Nat)) (h : Hw) : Hw := l.foldl (fun h x => runE (setF x.1 x.2.1 x.2.2) h) h

/-- The device after a command. -/
def after (i : Instr) (h : Hw) : Hw :=
  match exec i { hw := h } with
  | .next t => t.hw
  | _ => h

/-- A state with an empty queue. -/
def st (h : Hw) : State := { hw := h }

/-- An instruction word: an opcode and fields by lowest bit. -/
def word (op : Nat) (fs : List (Nat × Nat)) : BitVec 128 := BitVec.ofNat 128 (fs.foldl (fun a x => a + x.2 * 2 ^ x.1) op)

/-- Croft 63 runs, its stream U (number 191) is `RUNNING` at the last word of its one block of program. -/
def live : Hw := put [(croft_PROG_REGION_SIZE, 63, 1), (croft_CTRL_RUN, 63, 1), (stream_STATUS_STATE, 191, 2), (stream_PC, 191, 65520)] hwReset

/-- The word acts on croft 63's stream U, offered at clk `t`. -/
def acts (h : Hw) (w : BitVec 128) (op : Nat) (ok : BitVec 128 → Bool) (t : Nat := 0) : Bool :=
  let g := nowIssue (st h) 63 .U t
  strmState h 191 == 2 && decide (getF g stream_PC 191 + 16 ≤ regionLen g 63) && wb w 7 0 == op && guardOk w && ok w && guardHolds g 63 w

theorem acts_issues (h : Hw) (w : BitVec 128) (op t : Nat) (ok : BitVec 128 → Bool) (a : acts h w op ok t = true) :
    Issues (st h) 63 .U w t op ok := by
  simp only [acts, Bool.and_eq_true, beq_iff_eq, decide_eq_true_eq] at a
  obtain ⟨⟨⟨⟨⟨h1, h2⟩, h3⟩, h4⟩, h5⟩, h6⟩ := a
  exact ⟨h1, h2, h3, h4, h5, h6⟩

/-- Bytes of a number in a memory. -/
def mem (sp : MemSp) (a : Nat) (bs : List Byte) (h : Hw) : Hw := runE (wrBytes sp a bs) h

/-! Well-formedness -/

theorem test_wf_size : (Instr.registerWrite 0 3 0).wf = false ∧ (Instr.registerWrite 0 4 0).wf = true := by decide
theorem test_wf_page : (Instr.eventRawClear ⟨.croft, 64⟩ 0 0).wf = false ∧ (Instr.eventForce ⟨.hbm0, 12⟩ 0 0).wf = false ∧
    (Instr.lock ⟨.power, 1⟩ 1).wf = false ∧ (Instr.lock ⟨.croft, 63⟩ 1).wf = true := by decide
theorem test_wf_entry : (Instr.entrySnapshotRead 0 3).wf = false ∧ (Instr.entryWordWrite (.ledger 0) 16384 0 0).wf = false ∧
    (Instr.entryWordWrite (.route 3) 32768 0 0).wf = false ∧ (Instr.entryWordWrite .millGroup 4096 0 0).wf = false ∧ (Instr.entryWordWrite .millLayer 8191 16 0).wf = false ∧
    (Instr.entryWordWrite .millLayer 8191 15 0).wf = true := by decide
theorem test_wf_chunk : (Instr.chunk 0 [] 0).wf = false ∧ (Instr.chunk 0 (List.replicate 128 0) 0).wf = true := by decide +kernel
theorem test_wf_layer : (Instr.chunkConsume 8192).wf = false ∧ (Instr.phase1Done 8192 0).wf = false ∧
    (Instr.chunkConsume 8191).wf = true := by decide
theorem test_wf_hostMem : (Instr.hostMemWrite 0 [] false).wf = false ∧ (Instr.hostLinkUp 3 false false).wf = false ∧
    (Instr.hostLinkUp 16 false false).wf = true := by decide
theorem test_wf_nonce : (Instr.challenge .mctp 0 []).wf = false ∧ (Instr.challenge .mctp 0 (List.replicate 32 0)).wf = true := by decide +kernel
theorem test_wf_opcode : (Instr.jump 0 .F (word 0x02 []) 0).wf = false ∧ (Instr.jump 0 .F (word 0x01 [(20, 7)]) 0).wf = true := by decide

/-! Worked examples of the spec -/

theorem test_crc64 : crc64 [0x31, 0x32, 0x33, 0x34, 0x35, 0x36, 0x37, 0x38, 0x39] = 0x62EC59E3F1A4F00A := by decide +kernel
theorem test_crc32c : crc32c [0x31, 0x32, 0x33, 0x34, 0x35, 0x36, 0x37, 0x38, 0x39] = 0xE3069283 := by decide +kernel
theorem test_addresses : croftBase 37 = 0x01950000 ∧ pageBase .field (4 * 37 + 2) = 0x01956000 ∧
    pageId ⟨.field, 4 * 37 + 2⟩ = 0x00960022 ∧ portBase 19 = 0x01846000 := by decide +kernel
/-- 15.5, 5.0 and −0.3 as one F4 block with a just-in-time exponent. -/
theorem test_jit_block :
    let xs := [s32 0x41780000, s32 0x40A00000, s32 0xBE99999A]
    let cs := xs.map (fun x => cvtShort x 9 0x81 0 false)
    jitE8 xs 9 = 0x81 ∧ cs.map (·.code % 8) = [6, 2, 0] ∧ cs.map (·.zeroed) = [false, false, true] ∧ (shortBlock 9 0x81 0 cs).1 = 0x0281 := by decide +kernel
/-- 1 + 2^−33 rounded stochastically to M40. -/
theorem test_stochastic : (srM40 (.fin false (2 ^ 33 + 1) (-33)) 0x12345678).1 = .fin false (2 ^ 31 + 1) (-31) ∧
    (srM40 (.fin false (2 ^ 33 + 1) (-33)) 0x9ABCDEF0).1 = .fin false (2 ^ 31) (-31) := by decide +kernel
/-- Codes of table 3: 0, 1, 15, 2 and 14. -/
theorem test_code_table : [0, 1, 15, 2, 14].map (fun s => ((codeTable 3).find? (fun e => e.1 == s)).map (·.2)) =
    [some (1, 0b0), some (3, 0b100), some (3, 0b101), some (6, 0b110000), some (6, 0b111100)] := by decide +kernel
/-- The host address 0x6C_0000_1A40. -/
theorem test_host_address : 0x6C00001A40 / hbmD = 2 ∧ 0x6C00001A40 % hbmD = 0x30001A40 ∧ stackOf 2 0x30001A40 = 8 := by decide +kernel
theorem test_token : tokenT 12000 8644 = 11460 ∧ tokenT 12000 20652 = 10709 := by decide +kernel
theorem test_watch_roles : rotSubject 4102 = 33 ∧ rotOthers hwReset 33 = [49, 1, 17] ∧ watchPair 4102 = (11, 11) ∧ watchRotates 4102 = false := by
  decide +kernel
theorem test_watch_window : watchWin (put [(watch_CTRL_SHARE, 0, 3)] hwReset) 100000 = 18750 ∧ 18750 / 2048 = 9 := by decide +kernel

/-! Witnesses: the machine as a whole, registers -/

theorem test_witness_StepRunsFrontCommand : step ⟨[.noSpare, .cxlReset], hwReset⟩ = exec .noSpare ⟨[.cxlReset], hwReset⟩ := rfl

theorem test_witness_EveryCommandAnswers :
    isNext (exec (.hostMemRead (4 * hbmD - 1) .clean 0) (st hwReset)) = true ∧
    isNext (exec (.hostMemWrite (4 * hbmD - 1) (List.replicate 64 0) true) (st hwReset)) = true ∧
    isNext (exec (.hostMemRead (4 * hbmD) .clean 0) (st hwReset)) = false := by decide +kernel

theorem test_witness_CanonicalFormKept : live.wf = true ∧
    (∃ t, step ⟨[.signal 63 .U (word 0x10 [(16, 63), (32, 65535)]) 0], live⟩ = .next t ∧ t.hw.wf = true ∧ t.hw.sigs ≠ []) := by
  refine ⟨by decide +kernel, _, rfl, by decide +kernel, by decide +kernel⟩

/-- Quarter 3 has failed. -/
def gone3 : Hw := runE (modQuarter 3 (fun x => { x with dead := true })) hwReset

theorem test_witness_HeadersRead :
    hwReset.wf = true ∧ (⟨.field, 255⟩ : Page).wf = true ∧ pageGone hwReset ⟨.field, 255⟩ = false ∧
    readReg hwReset (pageBase .field 255) = BitVec.ofNat 32 (255 * 65536 + pageType .field) ∧
    pageGone gone3 ⟨.field, 255⟩ = true ∧ readPage gone3 ⟨.field, 255⟩ 0 = 0 := by decide +kernel

theorem test_witness_ResetLeaves : (⟨.stream, 191⟩ : Page).wf = true ∧ reg hwReset (rawAddr ⟨.stream, 191⟩) = 0 ∧
    readReg hwReset 0x1048 = 0x3F3E3D3C ∧ readReg hwReset 0x2040 = 0x000186A0 ∧ readReg hwReset 0x2044 = 0x32 ∧
    readReg hwReset 0x2048 = 0x00020004 ∧ readReg hwReset 0x505C = 1 ∧ readReg hwReset 0x5058 = 0 := by decide +kernel

theorem test_witness_EventBitsWritten :
    (⟨.stream, 191⟩ : Page).wf = true ∧ pageGone hwReset ⟨.stream, 191⟩ = false ∧ hwReset.gateQ.length + 32 ≤ 256 ∧
    rawBit (after (.eventForce ⟨.stream, 191⟩ 4 0) hwReset) ⟨.stream, 191⟩ 2 = true ∧
    (after (.eventForce ⟨.stream, 191⟩ 4 0) hwReset).gateQ.map (·.flags) = [1] ∧
    rawBit (after (.eventRawClear ⟨.stream, 191⟩ 4 0) (after (.eventForce ⟨.stream, 191⟩ 4 0) hwReset)) ⟨.stream, 191⟩ 2 = false ∧
    hostAway hwReset = false ∧ reeveShut hwReset ⟨.stream, 191⟩ = false ∧
    (let on := put [(reeve0_CTRL_ENABLE, 3, 1)] hwReset
     reeveShut on ⟨.reeve2, 3⟩ = true ∧ pageGone on ⟨.reeve2, 3⟩ = false ∧
     rawBit (after (.eventForce ⟨.reeve2, 3⟩ 1 0) on) ⟨.reeve0, 3⟩ 11 = true) ∧
    hostAway (after .hostLinkLoss hwReset) = true := by
  decide +kernel

/-- An error-severity message waits; its vector is masked, as reset leaves it, or not. -/
def msgs (masked : Bool) : Hw :=
  let h := runE (modGate (fun g => { g with evMsgs := [3] })) hwReset
  if masked then h else runE (fun _ => [.msix (0x202000 + 16 * sevVector h 3 + 12) 0]) h

theorem test_witness_EventMessageSent :
    (msgs true).gate.evMsgs = [3] ∧ (msgs true).gate.msixOn = true ∧
    bit (smGet msixDflt (msgs true).msix (0x202000 + 16 * sevVector (msgs true) 3 + 12)).toNat 0 = true ∧
    (smGet msixDflt (after .eventMessage (msgs true)).msix (0x203000 + 4 * (63 / 32))).getLsbD 31 = true ∧
    (msgs false).gate.msixOn = true ∧ ((bit (smGet msixDflt (msgs false).msix (0x202000 + 16 * sevVector (msgs false) 3 + 12)).toNat 0 ||
      (msgs false).gate.msixMask || (msgs false).gate.linkDown) = false) ∧
    (after .eventMessage (msgs false)).outbox = [.msix 63] ∧
    (after .eventMessage (runE (modGate (fun g => { g with msixOn := false })) (msgs false))).outbox = [] := by decide +kernel

theorem test_witness_LockHolds :
    (⟨.check, 63⟩ : Page).wf = true ∧ pageGone hwReset ⟨.check, 63⟩ = false ∧
    locked (after (.lock ⟨.check, 63⟩ 1) hwReset) ⟨.check, 63⟩ = true ∧
    hostAway (after (.lock ⟨.check, 63⟩ 1) hwReset) = false ∧
    locked (after (.lock ⟨.check, 63⟩ 0xFFFFFFFE) hwReset) ⟨.check, 63⟩ = false ∧ reeveShut hwReset ⟨.check, 63⟩ = false ∧
    (after (.registerWrite (BitVec.ofNat 26 (sevAddr ⟨.check, 63⟩)) 4 5 { lock := true }) hwReset).regs = hwReset.regs := by decide +kernel

theorem test_witness_RegistersWritten :
    (⟨.croft, 63⟩ : Page).wf = true ∧ pageGone hwReset ⟨.croft, 63⟩ = false ∧ hostAway hwReset = false ∧
    locked hwReset ⟨.croft, 63⟩ = false ∧ croft_PROG_REGION_BASE ∈ rowsAt .croft croft_PROG_REGION_BASE.off ∧
    (reg (after (.registerWrite (BitVec.ofNat 26 (enableAddr ⟨.croft, 63⟩)) 4 0xFFFFFFFF) hwReset) (enableAddr ⟨.croft, 63⟩)).toNat =
      2 ^ pageEvents .croft - 1 := by decide +kernel

theorem test_witness_AccessWidths :
    hostAway hwReset = false ∧ getF (after (.registerWrite 0x1048 2 5) hwReset) gateId_BAD_ACCESS_COUNT 0 = 1 ∧
    getF (after (.registerWrite 0x1044 8 5) hwReset) gateId_BAD_ACCESS_COUNT 0 = 1 ∧
    (∃ m, exec (.registerWrite 0x1048 4 0x05) (st hwReset) = .next m ∧ hostAway m.hw = false) ∧
    readReg (after (.registerWrite 0x1048 4 0x05060708) hwReset) 0x1048 = 0x05060708 ∧
    (let g := after (.entrySnapshotRead 0x1046 4) hwReset
     g.outbox.length = 1 ∧ getF g gateId_BAD_ACCESS_COUNT 0 = 1 ∧ rawBit g ⟨.gateId, 0⟩ 0 = true) ∧
    (let f := after .flr hwReset
     f.gate.linkDown = false ∧ f.gate.off = false ∧ f.gate.flr = true ∧ hostAway f = true ∧
     (after (.entrySnapshotRead 0x1048 4) f).outbox = [.regData 0xFFFFFFFF]) ∧
    (softwareOp (.ringEnable 7) = some none ∧ softwareOp (.croftRunWrite 63 true) = some (some 3) ∧ quarterGone gone3 3 = true) := by
  refine ⟨by decide +kernel, by decide +kernel, by decide +kernel, ⟨_, rfl, by decide +kernel⟩, by decide +kernel, by decide +kernel,
    by decide +kernel, by decide +kernel⟩

theorem test_witness_EntriesWhole :
    let w := Window.route 3
    let h1 := after (.entryWordWrite w 32767 0 7) hwReset
    w.wf 32767 = true ∧ hostAway hwReset = false ∧ winGone hwReset w = false ∧ ledgerShut hwReset w = none ∧
    (winX h1 (winKey w)).heldIx = some 32767 ∧ (winX h1 (winKey w)).held = [(0, 7)] ∧
    (routeOf (after (.entryWordWrite w 32767 1 9) h1) 3 32767).toNat = 7 + 9 * 2 ^ 32 ∧
    (winX (after (.entrySnapshotRead (winAddr w 0 + 4) 4) h1) (winKey w)).heldIx = none ∧
    flag (put [(reeve0_CTRL_ENABLE, 3, 1)] hwReset) reeve0_CTRL_ENABLE 3 = true ∧
    rawBit (after (.entryWordWrite (.ledger 3) 16383 3 9) (put [(reeve0_CTRL_ENABLE, 3, 1)] hwReset)) ⟨.reeve0, 3⟩ 11 = true ∧
    (after (.entrySnapshotRead (winAddr (.ledger 3) 16383) 4) hwReset).outbox = [.regData 0] := by decide +kernel

/-- Path of quarter 3 towards it: a flit of class 3 has waited 15 slots; one flit has been replayed seven times. -/
def path3 (x : PathX) : Hw := runE (modQuarter 3 (fun y => { y with pathIn := x })) hwReset

theorem test_witness_QuarterPathChecked : quarterGone hwReset 3 = false ∧
    (pathOf (after (.quarterPathFlit 3 true [1, 0, 1]) hwReset) 3 true).waiting = [0, 0, 1] ∧
    (let x : PathX := { waiting := [4, 4, 1], hostWait := 15, txSeq := 4095 }
     (pathSend x).1 = some (4095, 2) ∧ (pathOf (after (.quarterPathFlit 3 true [] false) (path3 x)) 3 true).toReplay = [4095] ∧
     getF (after (.quarterPathFlit 3 true [] false) (path3 x)) (paths_RETRY 3) 0 = 1) ∧
    (let x : PathX := { toReplay := [9], unacked := [(9, 0, 7)], txSeq := 10 }
     (pathSend x).1 = some (9, 0) ∧ quarterGone (after (.quarterPathFlit 3 true [] false) (path3 x)) 3 = true) := by decide +kernel

/-! Witnesses: crofts and streams -/

/-- A state of croft 63 and its stream U with its other registers as given. -/
def liveWith (l : List (Fld × Nat × Nat)) : Hw := put l live
def sig63 (l : List (Nat × Nat)) (h : Hw) : Hw := l.foldl (fun h x => runE (fun _ => [.sigs (64 * 63 + x.1) x.2]) h) h

theorem quiet_reset : Quiet hwReset := by
  refine ⟨by decide +kernel, by decide +kernel, by decide +kernel⟩

theorem test_witness_TimePasses :
    (let h := liveWith [(stream_STATUS_STATE, 189, 8), (stream_STATUS_STATE, 190, 6), (stream_STATUS_STATE, 191, 5), (vector_STATUS_BUSY, 62, 1)]
     croftIdle h 63 = true ∧ getF (now (st h) 9) croft_IDLE_CLK 63 = 9 ∧ getF (now (st h) 9) vector_BUSY_CLK 62 = 9 ∧
     h.gate.watchDue = [] ∧ h.bell.closeClk = none ∧ (∀ q, q < 4 → (quarterX h q).landed = [] ∧ (quarterX h q).decided = none) ∧
     (∀ x, x ∈ h.crofts → x.2.tally = []) ∧
     (match step ⟨[], h⟩ with | .next t => t.hw.clk == 1 && getF t.hw croft_IDLE_CLK 63 == 1 | _ => false) = true) ∧
    (let h := runE (chain [setFlag bellMaster_STATUS_DEVICE_A 0 true, setFlag bellRcv_STATUS_ANOM 3 true,
       modBell (fun b => { b with closeClk := some 0 })]) hwReset
     h.bell.closeClk = some 0 ∧ (now (st h) 1).bell.closeClk = none ∧ flag (now (st h) 1) bellMaster_STATUS_DEVICE_A 0 = false ∧
     flag (now (st h) 1) bellRcv_STATUS_ANOM 3 = false) ∧
    (let h := runE (modQuarter 3 (fun x => { x with landed := [(63, 63)] })) hwReset
     (quarterX h 3).landed = [(63, 63)] ∧ sigVal (now (st h) 5) 63 63 = 1) := by decide +kernel

theorem test_witness_IssueRules :
    let w := word 0x01 [(20, 4095)]
    let after := fun (h : Hw) (w : BitVec 128) => let g := after (.jump 63 .U w 0) h; (strmState g 191, getF g stream_FAULT_INFO 191, getF g stream_PC 191)
    strmState hwReset 191 ≠ 2 ∧
    (strmState (liveWith [(stream_PC, 191, 65536)]) 191 = 2 ∧ regionLen live 63 < 65536 + 16 ∧
      after (liveWith [(stream_PC, 191, 65536)]) w = (7, 2, 65536)) ∧
    (strmState live 191 = 2 ∧ getF live stream_PC 191 + 16 ≤ regionLen live 63 ∧
      wb (word 0x07 []) 7 0 ≠ 0x01 ∧ opcodes.contains 0x07 = false ∧ after live (word 0x07 []) = (7, 1, 65520) ∧
      opcodes.contains 0x05 = true ∧ after live (word 0x05 []) = (2, 0, 65520) ∧
      guardOk (word 0x01 [(14, 1)]) = false ∧ after live (word 0x01 [(14, 1)]) = (7, 1, 65520) ∧
      okJump (word 0x01 [(36, 1)]) = false ∧ after live (word 0x01 [(36, 1)]) = (7, 1, 65520) ∧
      wb (word 0x01 [(15, 1)]) 7 0 = 0x01 ∧ guardOk (word 0x01 [(15, 1)]) = true ∧ okJump (word 0x01 [(15, 1)]) = true ∧
      guardHolds live 63 (word 0x01 [(15, 1)]) = false ∧ after live (word 0x01 [(15, 1)]) = (2, 0, 65536)) := by
  decide +kernel

theorem test_witness_IssueRules_streamOp (w : BitVec 128) : streamOp (.jump 63 .U w 0) = some (63, .U, w, 0, 0x01, okJump) := rfl

theorem test_witness_FirstFaultRecorded :
    let g := runE (streamFault 191 255 1048575) live
    strmState live 191 ≠ 7 ∧ strmState g 191 = 7 ∧ getF g stream_FAULT_INFO 191 = 255 ∧ getF g stream_FAULT_PC 191 = 1048575 ∧
    (runE (streamFault 191 1 16) g).regs = g.regs ∧ (after (.nop 63 .U (word 0x05 []) 9) g).regs = g.regs := by decide +kernel

theorem test_witness_FlowInstructions :
    let j := word 0x01 [(20, 0xFFFF)]
    let n := word 0x05 [(16, 65535)]
    let l := word 0x02 [(16, 63), (36, 4094)]
    let one := sig63 [(63, 1)] live
    acts live j 0x01 okJump 3 = true ∧ getF (after (.jump 63 .U j 3) live) stream_PC 191 = 0xFFFF0 ∧ (streamX (after (.jump 63 .U j 3) live) 191).issueFree = 5 ∧
    acts live n 0x05 okNop 3 = true ∧ (streamX (after (.nop 63 .U n 3) live) 191).issueFree = 65539 ∧
    acts live l 0x02 okLoop 3 = true ∧ sigVal live 63 63 = 0 ∧ getF (after (.loop 63 .U l 3) live) stream_PC 191 = 65536 ∧
    acts one l 0x02 okLoop 3 = true ∧ 1 ≤ sigVal one 63 63 ∧ getF (after (.loop 63 .U l 3) one) stream_PC 191 = 65504 ∧
    sigVal (after (.loop 63 .U l 3) one) 63 63 = 0 ∧
    acts live (word 0x03 []) 0x03 okNone 3 = true ∧ (∀ f, f < 4 → fieldWork live 63 f = false) ∧
    strmState (after (.halt 63 .U (word 0x03 []) 3) live) 191 = 6 := by decide +kernel

theorem test_witness_SignalInstructions :
    let w := fun op => word op [(16, 63), (32, 65535)]
    let waits := sig63 [(63, 65535)] (runE (modStream 191 (fun x => { x with waitN := 65535 }))
      (liveWith [(stream_STATUS_STATE, 191, 3), (stream_STATUS_WAIT_SIG, 191, 63)]))
    acts live (w 0x10) 0x10 okSignal = true ∧ sigVal live 63 63 + 65535 ≤ 65535 ∧ sigVal (after (.signal 63 .U (w 0x10) 0) live) 63 63 = 65535 ∧
    acts live (w 0x11) 0x11 okSignal = true ∧ sigVal (after (.signalSet 63 .U (w 0x11) 0) live) 63 63 = 65535 ∧
    (let h := after (.signal 63 .F (word 0x10 [(16, 63), (32, 5)]) 0) (put [(stream_STATUS_STATE, 189, 2), (stream_PC, 189, 0)] live)
     sigVal h 63 63 = 5 ∧ acts h (word 0x11 [(16, 63), (32, 7)]) 0x11 okSignal = true ∧
     sigVal (after (.signalSet 63 .U (word 0x11 [(16, 63), (32, 7)]) 0) h) 63 63 = 12 ∧
     sigVal (after (.signalSet 63 .U (w 0x11) 0) h) 63 63 = 65535 ∧ rawBit (after (.signalSet 63 .U (w 0x11) 0) h) ⟨.croft, 63⟩ 1 = true) ∧
    (let h := after (.signalSet 63 .U (word 0x11 [(16, 63), (32, 7)]) 0) (put [(stream_STATUS_STATE, 189, 2), (stream_PC, 189, 0)] live)
     (sigNow h).sets.any (fun y => y.1 == 64 * 63 + 63 && decide (0 < y.2)) = true ∧
     sigVal (after (.signalSet 63 .F (word 0x11 [(16, 63), (32, 9)]) 0) h) 63 63 = 7) ∧
    acts live (w 0x12) 0x12 okSignal = true ∧ sigVal live 63 63 < 65535 ∧ strmState (after (.wait 63 .U (w 0x12) 0) live) 191 = 3 ∧
    acts (sig63 [(63, 65535)] live) (w 0x12) 0x12 okSignal = true ∧ 65535 ≤ sigVal (sig63 [(63, 65535)] live) 63 63 ∧
    sigVal (after (.wait 63 .U (w 0x12) 0) (sig63 [(63, 65535)] live)) 63 63 = 0 ∧
    waitReady (now (st waits) 0) 63 2 = true ∧ (∀ k, k < 2 → waitReady (now (st waits) 0) 63 k = true →
      getF (now (st waits) 0) stream_STATUS_WAIT_SIG (3 * 63 + k) ≠ getF (now (st waits) 0) stream_STATUS_WAIT_SIG 191) ∧
    sigVal (after (.waitSatisfied 63 .U 0) waits) 63 63 = 0 ∧ strmState (after (.waitSatisfied 63 .U 0) waits) 191 = 2 := by decide +kernel

theorem test_witness_SignalOverflow :
    let w := word 0x10 [(16, 63), (32, 65535)]
    let h := sig63 [(63, 1)] live
    acts h w 0x10 okSignal = true ∧ 65535 < sigVal h 63 63 + wb w 47 32 ∧
    sigVal (after (.signal 63 .U w 0) h) 63 63 = 65535 ∧ strmState (after (.signal 63 .U w 0) h) 191 = 7 ∧
    65535 < sigVal h 63 63 + 65535 ∧ (runE (addSig 63 63 65535) h).bell.reach.length = 64 := by decide +kernel

theorem test_witness_ClaimInstructions :
    let cl := word 0x13 [(16, 15)]
    let rl := word 0x14 [(16, 15)]
    let held := liveWith [(stream_STATUS_CLAIM_HELD, 191, 15)]
    let other := liveWith [(stream_STATUS_CLAIM_HELD, 189, 8)]
    let waits := liveWith [(stream_STATUS_STATE, 191, 4), (stream_STATUS_CLAIM_WAIT, 191, 15)]
    acts live cl 0x13 okFields = true ∧ claimFree live 63 2 15 = true ∧ claimAhead live 63 2 15 live.clk = false ∧
    heldMask (after (.claim 63 .U cl 0) live) 191 = 15 ∧
    acts other cl 0x13 okFields = true ∧ (claimFree other 63 2 15 && !claimAhead other 63 2 15 other.clk) = false ∧
    strmState (after (.claim 63 .U cl 0) other) 191 = 4 ∧
    strmState (now (st waits) 0) 191 = 4 ∧ claimFree (now (st waits) 0) 63 2 (getF (now (st waits) 0) stream_STATUS_CLAIM_WAIT 191) = true ∧
    claimAhead (now (st waits) 0) 63 2 (getF (now (st waits) 0) stream_STATUS_CLAIM_WAIT 191) 0 = false ∧
    heldMask (after (.claimGrant 63 .U 0) waits) 191 = 15 ∧
    acts held rl 0x14 okFields = true ∧ heldMask held 191 &&& 15 = 15 ∧ (∀ f, f < 4 → bit 15 f = true → fieldWork held 63 f = false) ∧
    heldMask (after (.release 63 .U rl 0) held) 191 = 0 ∧
    acts live rl 0x14 okFields = true ∧ heldMask live 191 &&& 15 ≠ 15 ∧ getF (after (.release 63 .U rl 0) live) stream_FAULT_INFO 191 = 4 := by
  decide +kernel

theorem test_witness_StagingInstructions :
    let wd := word 0x26 [(16, 8), (20, 1023), (90, 7), (100, 0xBFFFC0)]
    let sa := word 0x71 [(16, 65535), (58, 1), (32, 5)]
    let h := runE (fun _ => [.slots (32 * 63 + 31) { pos := 0xFFFF0000, len := 7, cur := 6, base := 1, mb := 65535 }]) (liveWith [(stream_SLOT, 191, 31)])
    let full := runE (fun _ => [.slots (32 * 63 + 31) { pos := 0xFFFF0001, len := 7 }]) (liveWith [(stream_SLOT, 191, 31)])
    acts live (word 0x24 [(16, 15), (20, 14)]) 0x24 okGang = true ∧ (streamX (after (.gang 63 .U (word 0x24 [(16, 15), (20, 14)]) 0) live) 191).fmtW = 14 ∧
    acts live (word 0x23 [(16, 65535), (32, 1), (64, 65535)]) 0x23 okMask = true ∧
    acts live (word 0x25 [(16, 1), (24, 0x40), (48, 0x80)]) 0x25 okWideRun = true ∧
    acts live wd 0x26 okWideDrain = true ∧ (streamX (after (.wideDrain 63 .U wd 0) live) 191).wdCols = [1023, 0, 0, 0, 0, 0, 0, 7] ∧
    acts live (word 0x70 [(16, 31)]) 0x70 okSeqSelect = true ∧ getF (after (.seqSelect 63 .U (word 0x70 [(16, 31)]) 0) live) stream_SLOT 191 = 31 ∧
    acts h sa 0x71 okSeqAdvance = true ∧ (slotOf h 63 31).pos + wb sa 31 16 ≤ 0xFFFFFFFF ∧
    slotOf (after (.seqAdvance 63 .U sa 0) h) 63 31 = { pos := 0xFFFFFFFF, len := 7, cur := 4, base := 1, mb := 0 } ∧
    acts full sa 0x71 okSeqAdvance = true ∧ 0xFFFFFFFF < (slotOf full 63 31).pos + wb sa 31 16 ∧
    getF (after (.seqAdvance 63 .U sa 0) full) stream_FAULT_INFO 191 = 6 := by decide +kernel

theorem test_witness_BellWaits :
    let w := word 0x04 []
    let late := liveWith [(stream_STATUS_LATE, 191, 1)]
    let ab := after (.signal 63 .U (word 0x10 [(16, 63), (32, 65535)]) 0) (sig63 [(63, 1)] live)
    acts live w 0x04 okWaitBell = true ∧ flag live stream_STATUS_LATE 191 = false ∧ strmState (after (.waitBell 63 .U w 0) live) 191 = 5 ∧
    acts late w 0x04 okWaitBell = true ∧ flag late stream_STATUS_LATE 191 = true ∧ (nowIssue (st late) 63 .U 0).clk - 0 ≤ 0 ∧
    flag late bellRcv_STATUS_HELD 3 = false ∧ getF (after (.waitBell 63 .U w 0) late) stream_LATE_COUNT 191 = 0 ∧
    getF (after (.waitBell 63 .U w 0) late) stream_SEGMENT 191 = 1 ∧
    (let slack := runE (modStream 191 (fun x => { x with edgeSlack := 4 })) late
     (nowIssue (st slack) 63 .U 4).clk - 0 ≤ (streamX slack 191).edgeSlack ∧ getF (after (.waitBell 63 .U w 4) slack) stream_LATE_COUNT 191 = 1 ∧
     rawBit (after (.waitBell 63 .U w 4) slack) ⟨.stream, 191⟩ 0 = true) ∧
    (streamX late 191).edgeSlack < (nowIssue (st late) 63 .U 1).clk - (streamX late 191).edgeClk ∧
    rawBit (after (.waitBell 63 .U w 1) late) ⟨.stream, 191⟩ 1 = true ∧
    (streamX (now (st late) 1) 191).edgeClk + (streamX (now (st late) 1) 191).edgeSlack < (now (st late) 1).clk ∧
    getF (after (.lateAbandon 63 .U 1) late) stream_ABANDON_COUNT 191 = 1 ∧
    (streamX (after (.lateAbandon 63 .U 1) late) 191).abandonRaised = true ∧
    ab.bell.reach.contains 63 = true ∧ strmState (after (.abandonReach 63 0) live) 191 = 2 ∧
    (let h := put [(stream_STATUS_STATE, 190, 6)] ab
     strmState (after (.abandonReach 63 0) h) 190 = 8 ∧ strmState (after (.abandonReach 63 0) h) 191 = 7) := by decide +kernel

/-! Witnesses: runs, passes and fields of croft 63 -/

/-- A pass of one run on field 3 of croft 63 with activation and weight format 4. -/
def pass63 : Pass :=
  { id := 1, stream := 2, fields := 8, kruns := 1, abase := 0, wbase := 0x4000, wstride := 0, sig := 63, sen := true, fmtA := 4, fmtW := 4,
    plotRows := 1, plotCols := 1, edgeRows := 0xFFFF, edgeCols := 0xFFFF, wideEn := false, wideTable := 0, wideStore := 0, asize := 0, wsize := 0,
    takenClk := 0 }
def lane63 (p : Pass) (h : Hw) : Hw := runE (modCroft 63 (fun x => { x with lane := [p], runSeq := 1 })) h
def field63 (f : FieldX → FieldX) (h : Hw) : Hw := runE (modField 255 f) h
def holds8 : Hw := liveWith [(stream_STATUS_CLAIM_HELD, 191, 8)]
def drain63 : DrainReq :=
  { id := 1, stream := 2, run := 0, takenClk := 0, fields := 8, fmtOut := 4, jit := false, rot := false, dest := false, outl := false,
    group := 0, target := 0x1000, cols := [], wdStore := 0, daddr := 0x2000, dstride := 0x400, haddr := 0x20000, hstride := 64 }

theorem test_witness_CroftRuns :
    let off := put [(croft_PROG_REGION_BASE, 63, 191), (croft_PROG_REGION_SIZE, 63, 1), (stream_ENTRY, 189, 65535)] hwReset
    let stop := put [(croft_STATUS_STOPPING, 63, 1), (stream_STATUS_STATE, 189, 5), (stream_STATUS_STATE, 190, 6),
      (stream_STATUS_STATE, 191, 8)] live
    flag off croft_CTRL_RUN 63 = false ∧ getF off croft_PROG_REGION_BASE 63 + getF off croft_PROG_REGION_SIZE 63 ≤ 192 ∧
    getF off croft_PROG_REGION_SIZE 63 ≠ 0 ∧ getF (after (.croftRunWrite 63 true) off) stream_PC 189 = 16 * 65535 ∧
    hostAway off = false ∧ quarterGone off 3 = false ∧ hostAway live = false ∧ quarterGone live 3 = false ∧
    (∀ k, k < 3 → strmState (put [(stream_STATUS_STATE, 191, 0)] live) (189 + k) = 0) ∧
    flag (after (.croftRunWrite 63 false) (put [(stream_STATUS_STATE, 191, 0)] live)) croft_CTRL_RUN 63 = false ∧
    flag live croft_CTRL_RUN 63 = true ∧ strmState live (sIx 63 .U) ≠ 0 ∧ flag (after (.croftRunWrite 63 false) live) croft_STATUS_STOPPING 63 = true ∧
    flag stop croft_STATUS_STOPPING 63 = true ∧ (∀ k, k < 3 → 5 ≤ strmState stop (189 + k) ∧ strmState stop (189 + k) ≤ 8) ∧
    croftRunning (after (.streamsStopped 63) stop) 63 = false ∧ getF (after (.icacheFill 63 .U false) live) stream_ICACHE_MISS 191 = 1 ∧
    ((streamX live 191).icache.contains 1023) = false ∧
    (let hit := after (.icacheFill 63 .U false) live
     ((streamX hit 191).icache.contains 1023) = true ∧ (after (.icacheFill 63 .U false) hit).regs = hit.regs ∧
     rawBit (after (.icacheFill 63 .U true [⟨0, 191 * 65536 + 65472, .uncorrectable⟩]) hit) ⟨.croft, 63⟩ 2 = true) := by
  decide +kernel

theorem test_witness_PassesQueue :
    let r := word 0x20 [(16, 8), (22, 63), (28, 1), (32, 524288), (64, 0x40), (88, 0x80)]
    let l := word 0x22 [(16, 8), (20, 2), (24, 0x40), (48, 1024)]
    let k := word 0x22 [(16, 8), (20, 3)]
    let d := word 0x21 [(16, 8), (20, 13), (42, 63), (48, 1), (64, 0x1000)]
    let bound := after (.run 63 .U r 0) holds8
    let staged := after (.drain 63 .U d 1) (put [(stream_PC, 191, 16)] bound)
    acts holds8 r 0x20 okRun = true ∧ heldMask holds8 191 &&& 8 = 8 ∧ (croftX holds8 63).lane.length < 2 ∧
    (croftX bound 63).lane = [passOf holds8 63 2 r 1] ∧
    acts holds8 l 0x22 okLoad = true ∧ boundRun (fieldX holds8 255) 2 = none ∧ (fieldX holds8 255).drain = none ∧ wb l 21 20 ≠ 3 ∧
    (fieldX (after (.load 63 .U l 0) holds8) 255).load = some { loadReqOf l with alone := true } ∧
    acts holds8 k 0x22 okLoad = true ∧ wb k 21 20 = 3 ∧ (fieldX (after (.load 63 .U k 0) holds8) 255).kept = true ∧
    boundRun (fieldX (nowIssue (st (put [(stream_PC, 191, 16)] bound)) 63 .U 1) 255) 2 = some 1 ∧
    (fieldX (after (.load 63 .U l 1) (put [(stream_PC, 191, 16)] bound)) 255).load = some { loadReqOf l with run := 1 } ∧
    acts holds8 d 0x21 okDrain = true ∧ (fieldX holds8 255).drain = none ∧
    (fieldX (after (.drain 63 .U d 0) holds8) 255).drain = some (drainReqOf holds8 63 2 d 1 3) ∧
    (croftX (lane63 pass63 holds8) 63).lane.length < 2 ∧ 2 ≤ [pass63, pass63].length ∧
    (fieldX (nowIssue (st (put [(stream_PC, 191, 32)] staged)) 63 .U 2) 255).drain.isSome = true ∧
    heldMask live 191 &&& 8 ≠ 8 ∧ acts live r 0x20 okRun = true ∧ acts live l 0x22 okLoad = true ∧ acts live d 0x21 okDrain = true ∧
    getF (after (.run 63 .U r 0) live) stream_FAULT_INFO 191 = 3 := by decide +kernel

theorem test_witness_LoadsAndLines :
    let l : LoadReq := { src := 2, addr := 0x40, rowStride := 1024, alone := true }
    let h := mem .barn (63 * 0xC00000 + 0x40 + 1024 * 255 + 4 * 255) [0, 0, 0x80, 0x3F] (field63 (fun x => { x with load := some l }) live)
    let p := { pass63 with k := 31 }
    (fieldX (now (st h) 0) 255).load = some l ∧ l.alone = true ∧ (fieldX (now (st h) 0) 255).swap = none ∧
    (l.run ≠ 0 → inLane (now (st h) 0) 63 l.run = false) ∧ (loadRow h 63 3 l 255).map (·.getD 255 0) = some (loadA36 numOne) ∧
    ((croftX (lane63 p live) 63).lane.drop (4 / 16)).head? = some p ∧
    laneWanted (lane63 p live) 63 p 4 46 = true ∧ preGet (croftX (lane63 p live) 63) 1 4 46 = none ∧
    laneWanted (lane63 p live) 63 p 4 47 = false ∧ laneWanted (lane63 p live) 63 p 3 31 = false ∧
    preGet (croftX (after (.laneLineRead 63 4 46) (lane63 p live)) 63) 1 4 46 = some 0 := by decide +kernel

theorem test_witness_PassesRun :
    let h := lane63 pass63 live
    let bad := lane63 { pass63 with fmtA := 0 } live
    let far := lane63 { pass63 with abase := 0xBFFFC0 } live
    let r := put [(dyke_BUDGET, 3, 256), (dyke_ACTIVE, 3, 255)] (runE (modQuarter 3 (fun x => { x with order := [(63, 0)], lastGrant := some 0 })) (lane63 { pass63 with demand := 1 } live))
    let d := lane63 { pass63 with done := true, demand := 1 } live
    let rel := put [(dyke_ACTIVE, 3, 1)] (runE (modQuarter 3 (fun x => { x with releases := [(63, 1, 31)] })) live)
    (croftX h 63).lane = [pass63] ∧ pass63.ready = none ∧ (∀ f, f < 4 → bit 8 f = true → memberReady h 63 f pass63 = true) ∧ watchHolds h 63 = false ∧
    passFormats pass63 = true ∧ laneRange h 63 pass63 = false ∧ passDemand pass63 = 1 ∧
    passFormats { pass63 with fmtA := 0 } = false ∧ rawBit (after (.passReady 63 0) bad) ⟨.field, 255⟩ 0 = true ∧
    laneRange far 63 { pass63 with abase := 0xBFFFC0 } = true ∧ rawBit (after (.passReady 63 0) far) ⟨.barn, 63⟩ 1 = true ∧
    dykeFirst (quarterX r 3).order = some (63, 0) ∧ getF r dyke_ACTIVE 3 + 1 ≤ getF r dyke_BUDGET 3 ∧
    0 + getF r dyke_STAGGER 3 ≤ (now (st r) (getF r dyke_STAGGER 3)).clk ∧
    getF (after (.dykeGrant 3 (getF r dyke_STAGGER 3)) r) dyke_ACTIVE 3 = 256 ∧
    (croftX d 63).lane = [{ pass63 with done := true, demand := 1 }] ∧ sigVal (after (.passEnd 63 0) d) 63 63 = 1 ∧
    (quarterX (after (.passEnd 63 0) d) 3).releases = [(63, 1, 31)] ∧
    (quarterX rel 3).releases.find? (fun r => r.1 == 63) = some (63, 1, 31) ∧ 31 ≤ (now (st rel) 31).clk ∧
    getF (after (.dykeRelease 63 31) rel) dyke_ACTIVE 3 = 0 := by decide +kernel

theorem test_witness_KStepsAdd :
    let p0 := { pass63 with granted := some 0 }
    let p1 := { pass63 with granted := some 0, k := 1, hdrs := List.replicate 1280 0x7F }
    let pw := { p1 with wideOn := true, wideLeft := [1, 2] }
    let p31 := { p1 with k := 31 }
    let h1 := field63 (fun x => { x with runs := [(0, {})] }) (lane63 p1 live)
    let h31 := field63 (fun x => { x with runs := [(0, { reg := 1 }), (65535, {})] }) (lane63 p31 live)
    (croftX (lane63 p0 live) 63).lane = [p0] ∧ (croftX (after (.kstep 63 [] 0) (lane63 p0 live)) 63).lane.map (·.k) = [1] ∧
    (croftX (lane63 pw live) 63).lane = [pw] ∧ pw.wideOn = true ∧ 2 ≤ pw.wideLeft.length ∧
    getF (after (.kstep 63 [] 0) (lane63 pw live)) field_WIDE_STEPS 255 = 1 ∧
    (croftX h1 63).lane = [p1] ∧ p1.granted.isSome = true ∧ p1.done = false ∧ p1.wideOn = false ∧ p1.k % 32 ≠ 0 ∧ p1.k % 32 ≠ 31 ∧
    (croftX (after (.kstep 63 [] 0) h1) 63).lane.map (·.k) = [2] ∧
    (croftX h31 63).lane = [p31] ∧ p31.k % 32 = 31 ∧ widePositions h31 63 p31 0 = [] ∧
    ((fieldX h31 255).runs.map (·.1)).Nodup ∧ (∀ kr ∈ (fieldX h31 255).runs, kr.1 < 65536) ∧
    (croftX (after (.kstep 63 [] 0) h31) 63).lane.map (·.done) = [true] ∧
    accOf (after (.kstep 63 [] 0) h31) 255 0 = foldAcc 0 { reg := 1 } := by decide +kernel

theorem test_witness_DrainRows :
    let d := { drain63 with masks := ⟨65535, 65535, 65535, 65535⟩ }
    let sw : Swap := { d := d, l := {}, row := 255 }
    let h := field63 (fun x => { x with swap := some sw }) live
    let hd := field63 (fun x => { x with drain := some d }) live
    let row : DrainedRow := { d := { d with fmtOut := 15 }, row := 255, codes := List.replicate 256 0x3F80, hdrs := [], ovf := [], nan := true, outl := [] }
    let full := field63 (fun x => { x with swap := some sw, buf := List.replicate 16 row }) live
    let w := field63 (fun x => { x with buf := [row] }) live
    let ws := field63 (fun x => { x with buf := [{ row with d := d, codes := List.replicate 256 0x81, hdrs := List.replicate 8 0x281 }] }) live
    let wo := field63 (fun x => { x with buf := [{ row with d := { d with wdStore := 0x100000 }, outl := [(7, 0x1234, 0x567F)] }] }) live
    let pd := field63 (fun x => { x with buf := [{ row with d := { d with dest := true, fmtOut := 15 }, chunks := 1 }] }) live
    let pr := field63 (fun x => { x with buf := [{ row with d := { d with dest := true, fmtOut := 15 }, chunks := 4 }] }) live
    (fieldX h 255).swap = some sw ∧ (fieldX h 255).buf.length < 16 ∧ rowWritten d.masks 255 = true ∧
    (drainSet h 63 1).reject = false ∧ (fieldX (after (.drainRow 63 3 [] 0) h) 255).swap = none ∧
    ((fieldX (after (.drainRow 63 3 [] 0) h) 255).buf.map (·.codes.length)) = [256] ∧
    (fieldX hd 255).swap = none ∧ (fieldX hd 255).drain = some d ∧ inLane hd 63 d.run = false ∧
    (fieldX (after (.drainRow 63 3 [] 0) hd) 255).swap = some { d := d, l := {}, row := 1 } ∧
    16 ≤ (fieldX full 255).buf.length ∧ (after (.drainRow 63 3 [] 0) full).fields = full.fields ∧
    (fieldX w 255).buf = [row] ∧ hasHeader 15 = false ∧ touchesProt w 63 (0x2000 + 255 * 0x400 + 3 * (32 * fmtWidth 15)) (32 * fmtWidth 15) = false ∧
    getF (after (.drainRowWrite 63 3 0) w) field_NAN_ROWS 255 = 1 ∧ hasHeader 4 = true ∧
    touchesProt ws 63 (0x20000 + 255 * 64 + 16 * 3) 16 = false ∧
    barnRd (after (.drainRowWrite 63 3 0) ws) 63 (0x20000 + 255 * 64 + 16 * 3) 2 = [0x81, 0x02] ∧
    touchesProt wo 63 0x100000 8192 = false ∧ barnRd (after (.drainRowWrite 63 3 0) wo) 63 (0x100000 + 4096 + 512 * 7 + 2 * 255) 2 = [0x7F, 0x56] ∧
    rowChunks { row with d := { d with dest := true, fmtOut := 15 }, chunks := 1 } = 4 ∧
    (after (.drainRowWrite 63 3 0) pd).fields = pd.fields ∧ (fieldX (after (.drainRowWrite 63 3 0) pr) 255).buf = [] := by decide +kernel

theorem test_witness_FieldWindow :
    let h := runE (fun _ => [.accRow (65536 * 255 + 65535) [0xFEDCBA987]]) (put [(field_ACC_SEL_ROW, 255, 255), (field_ACC_SEL_COL, 255, 255)] live)
    let busy := put [(field_STATUS_BUSY, 255, 1)] h
    let parked := put [(reset_STATUS_PARKED, 0, 8)] h
    let flr := runE (modGate (fun g => { g with flr := true })) h
    flag h field_STATUS_BUSY 255 = false ∧ (after (.accDataRead 63 3) h).outbox = [.regData 0xEDCBA987] ∧
    hostAway h = false ∧ quarterGone h 3 = false ∧ quarterGone parked 3 = true ∧
    (after (.accDataRead 63 3) parked).outbox = [.regData 0] ∧ flag (after (.injResidue 63 3) parked) field_STATUS_INJ_ARMED 255 = false ∧
    (after (.accDataRead 63 3) flr).outbox = [.regData 0xFFFFFFFF] ∧
    getF (after (.accDataRead 63 3) h) field_ACC_DATA_HI_ACC 255 = 0xF ∧ flag busy field_STATUS_BUSY 255 = true ∧
    (after (.accDataRead 63 3) busy).free = 1 ∧ flag (after (.injResidue 63 3) h) field_STATUS_INJ_ARMED 255 = true ∧
    (fieldX (after (.injRunParity 63 3) h) 255).injCells = (0, 65535, 0) := by decide +kernel

/-! Witnesses: the shared units of croft 63 -/

def croft63 (f : CroftX → CroftX) (h : Hw) : Hw := runE (modCroft 63 f) h
def sluice63 : SluiceInstr := { op := 0x30, stream := 2, slot := 31, desc := 0x40000, count := 0, sig := 63, sen := true }
def vec63 : VecInstr :=
  { stream := 2, fn := 0, fmtA := 13, fmtD := 13, count := 1, daddr := 0x40000, aaddr := 0x40040, baddr := 0x40080, sig := 63, sen := true }

/-- A descriptor stands at the start of the front instruction of the sluice. -/
def desc63 (op : Nat) (ws : List Nat) (h : Hw) : Hw :=
  mem .barn (63 * 0xC00000 + 0x40000) (ws.flatMap (leBytes 8)) (croft63 (fun x => { x with sluice := [{ sluice63 with op := op }] }) h)
def valid63 (h : Hw) (op typ : Nat) : Bool :=
  let d := readDesc h 63 0x40000
  d.typ == typ && descCause h 63 op d (slotOf h 63 31) == 0 && h.gate.poison.isEmpty

theorem test_witness_UnitsQueue :
    let mv := fun op => word op [(16, 255), (24, 0xBFFFC0), (48, 63), (54, 1)]
    let lk := fun op => word op [(16, 65535), (33, 3), (35, 15), (40, 0x40000), (64, 0xBFFFC0), (88, 0)]
    let vp := word 0x40 [(16, 0), (24, 13), (28, 13), (32, 31), (48, 0x40000), (72, 0x40040), (96, 0x40080), (120, 63), (126, 1)]
    let full := croft63 (fun x => { x with sluice := List.replicate 16 sluice63, vec := List.replicate 4 vec63 }) live
    acts live (mv 0x30) 0x30 okMove = true ∧ acts live (mv 0x31) 0x31 okMove = true ∧ acts live (mv 0x32) 0x32 okMove = true ∧
    acts live (mv 0x33) 0x33 okMove = true ∧ (croftX live 63).sluice.length < 16 ∧
    (croftX (after (.check 63 .U (mv 0x33) 0) live) 63).sluice.map (·.desc) = [0xBFFFC0] ∧
    acts live (lk 0x60) 0x60 (okLink 0) = true ∧ acts live (lk 0x61) 0x61 (okLink 1) = true ∧
    acts live (word 0x62 [(40, 0x40000), (64, 0), (118, 15), (122, 1)]) 0x62 (okLink 2) = true ∧ (croftX live 63).pound.length < 8 ∧
    (croftX (after (.send 63 .U (lk 0x60) 0) live) 63).pound.map (·.croft) = [15] ∧
    acts live vp 0x40 okVop = true ∧ (croftX live 63).vec.length < 4 ∧ (croftX (after (.vop 63 .U vp 0) live) 63).vec.map (·.sig) = [63] ∧
    16 ≤ (croftX full 63).sluice.length ∧ acts full (mv 0x30) 0x30 okMove = true ∧ (after (.move 63 .U (mv 0x30) 0) full).crofts = full.crofts ∧
    4 ≤ (croftX full 63).vec.length ∧ acts full vp 0x40 okVop = true ∧ (after (.vop 63 .U vp 0) full).crofts = full.crofts := by decide +kernel

theorem test_witness_TalliesCount :
    let o := word 0x50 [(16, 16383)]
    let c := word 0x51 [(16, 16383), (30, 63), (36, 1)]
    let opened := runE (setTslot 63 0 { isOpen := true, c := { gid := 16383, sat := 5 } }) live
    let full := (List.range 63).foldl (fun h i => runE (setTslot 63 i { isOpen := true, c := { gid := i } }) h) live
    let d : Delivery := { croft := 63, closing := false, c := { gid := 16383, sat := 5 }, peaks := [], sig := 63, sen := true }
    let queue := croft63 (fun x => { x with tally := List.replicate 4 { close := true, group := 1 } }) live
    let dl := runE (modQuarter 3 (fun x => { x with deliveries := [d] })) live
    acts opened o 0x50 okTallyOpen = true ∧ openSlot opened 63 16383 = some 0 ∧ (after (.tallyOpen 63 .U o 0) opened).tslots = opened.tslots ∧
    (croftX opened 63).tally = [] ∧ noWindow opened 63 16383 = false ∧ (croftX (after (.tallyOpen 63 .U o 0 true) opened) 63).tally = [{ close := false, group := 16383 }] ∧
    acts queue o 0x50 okTallyOpen = true ∧ acts queue c 0x51 okTallyClose = true ∧ 4 ≤ (croftX queue 63).tally.length ∧
    getF (after (.tallyOpen 63 .U o 0) queue) stream_RETIRED 191 = 0 ∧
    (croftX (after (.tallyClose 63 .U c 0 true) live) 63).tally = [{ close := true, group := 16383, sig := 63, sen := true }] ∧
    acts full o 0x50 okTallyOpen = true ∧ openSlot full 63 16383 = none ∧ freeSlot full 63 = some 63 ∧
    tslotOf (after (.tallyOpen 63 .U o 0) full) 63 63 = { isOpen := true, c := { gid := 16383 } } ∧
    acts live c 0x51 okTallyClose = true ∧ openSlot live 63 16383 = none ∧ sigVal (after (.tallyClose 63 .U c 0) live) 63 63 = 1 ∧
    acts opened c 0x51 okTallyClose = true ∧ (quarterX (after (.tallyClose 63 .U c 0) opened) 3).deliveries = [d] ∧
    (quarterX (now (st dl) 0) 3).deliveries = [d] ∧ (quarterX (after (.tallyDeliveryLand 3 0) dl) 3).landed = [(63, 63)] ∧
    sigVal (now (st (after (.tallyDeliveryLand 3 0) dl)) 1) 63 63 = 1 ∧ hostAway opened = false ∧ quarterGone opened 3 = false ∧
    quarterGone (put [(reset_STATUS_PARKED, 0, 8)] opened) 3 = true ∧ (after (.slotKeyRead 63) (put [(reset_STATUS_PARKED, 0, 8)] opened)).outbox = [.regData 0] ∧
    (after (.slotKeyRead 63) (runE (modGate (fun g => { g with flr := true })) opened)).outbox = [.regData 0xFFFFFFFF] ∧
    (after (.slotKeyRead 63) opened).outbox = [.regData 0x80003FFF] ∧
    (addCounts { sat := 2 ^ 40 - 1 } { sat := 1 }).1.sat = 2 ^ 40 - 1 ∧ (2 ^ 40 ≤ 2 ^ 40 - 1 + 1) ∧
    [(⟨1, 9⟩ : Peak), ⟨0, 5⟩].Pairwise (fun x y => peakBefore x y = true) ∧ addPeak [⟨1, 9⟩, ⟨0, 5⟩] ⟨0, 9⟩ = [⟨0, 9⟩, ⟨1, 9⟩] := by decide +kernel

theorem test_witness_DescriptorsInOrder :
    let good := desc63 0x30 [1 + 2 ^ 8 + 64 * 2 ^ 32, 0, 0, 0, 0, 0, 0, 0x0807060504030201] live
    let bad := desc63 0x30 [7, 0, 0, 0, 0, 0, 0, 0] live
    let other := desc63 0x30 [0, 0, 0, 0, 0, 0, 0, 0] live
    let outside := croft63 (fun x => { x with sluice := [{ sluice63 with desc := 0xBFFFC0, count := 1, next := 1 }] }) live
    let done := croft63 (fun x => { x with sluice := [{ sluice63 with next := 1 }] }) live
    valid63 good 0x30 1 = true ∧ getF (after (.descFill 63 [] 0) good) sluice_DESC_COUNT 63 = 1 ∧
    (croftX (after (.descFill 63 [] 0) good) 63).sluice.map (·.wrote) = [[csumKey 1 3 63 0]] ∧
    6 < (readDesc bad 63 0x40000).typ ∧ descCause bad 63 0x30 (readDesc bad 63 0x40000) (slotOf bad 63 31) ≠ 0 ∧
    getF (after (.descFill 63 [] 0) bad) sluice_INVALID_INFO_DESC 63 = 0x40000 ∧
    (readDesc other 63 0x40000).typ ≠ 1 ∧ (readDesc other 63 0x40000).typ ≤ 6 ∧ (after (.descFill 63 [] 0) other).crofts = other.crofts ∧
    0xC00000 < 0xBFFFC0 + 64 * 1 + 64 ∧ rawBit (after (.descSeal 63 [] 0) outside) ⟨.sluice, 63⟩ 0 = true ∧
    (0 : Nat) < 1 ∧ (croftX (after (.descComplete 63 0 7) done) 63).sluice = [] ∧ getF (after (.descComplete 63 0 7) done) sluice_WAIT_CLK 63 = 7 ∧ sigVal (after (.descComplete 63 0) done) 63 63 = 1 := by decide +kernel

theorem test_witness_MovesWriteBytes :
    let copy := mem .commons (3 * 0x4000000) [7, 8, 9] (desc63 0x30 [0 + 1 * 2 ^ 6 + 2 * 2 ^ 8 + 64 * 2 ^ 32, 0, 64, 64 + 64 * 2 ^ 32, 0, 0, 0, 0] live)
    let fill := desc63 0x30 [1 + 2 ^ 8 + 64 * 2 ^ 32, 0, 0x3FFFFC0, 0, 0, 0, 0, 0x0807060504030201] live
    valid63 copy 0x30 0 = true ∧ (readDesc copy 63 0x40000).vsrc = false ∧ (readDesc copy 63 0x40000).rowLen ≤ (readDesc copy 63 0x40000).dstride ∧
    rd8 (after (.descCopy 63 [⟨1, 0, .corrected⟩] 0) copy) .hbm (3 * hbmD + 66) = 9 ∧
    valid63 fill 0x30 1 = true ∧ rd8 (after (.descFill 63 [] 0) fill) .commons (4 * 0x4000000 - 1) = 8 ∧
    rd8 (after (.descFill 63 [] 0) fill) .commons (4 * 0x4000000 - 64) = 1 := by decide +kernel

/-- A page of the stash holds a unit of zeros, whose checksum is in its slot; the front instruction brings it to the barn. -/
def unstash63 : Hw := runE (csumSet (csumKeyHbm 3 5) (BitVec.ofNat 32 (crc32c (List.replicate 4032 0)))) (runE (fun _ => [.slots (32 * 63 + 31) { base := 5, len := 1 }])
  (mem .hbm (3 * hbmD + 4096 * 5) [1] (desc63 0x32 [6 + 2 * 2 ^ 6 + 64 * 2 ^ 32, 0, 0x50000, 64 * 2 ^ 32, 0, 0, 0, 0] live)))

theorem test_unstash_page : decodePage (rdBytes unstash63 .hbm (3 * hbmD + 4096 * 5) 4096) = some (List.replicate 4032 0) := by decide +kernel

theorem test_witness_MovesWriteBytes_unstash :
    valid63 unstash63 0x32 6 = true ∧ touchesProt unstash63 63 0x50000 64 = false ∧ unitCount (readDesc unstash63 63 0x40000) = 1 ∧
    stashPage (slotOf unstash63 63 31) (readDesc unstash63 63 0x40000) 0 = 5 ∧ (unitOf unstash63 3 5).isSome = true := by
  refine ⟨by decide +kernel, by decide +kernel, by decide +kernel, by decide +kernel, ?_⟩
  have hs : csumGet unstash63 (csumKeyHbm 3 5) = BitVec.ofNat 32 (crc32c (List.replicate 4032 0)) := by
    unfold unstash63
    rw [csumGet_csumSet, if_pos rfl]
  unfold unitOf
  rw [test_unstash_page, hs]
  simp only [if_true, Option.isSome_some]

theorem test_witness_ChecksumsKept :
    let sl := desc63 0x30 [3 + 2 ^ 5 + 2 ^ 8 + 64 * 2 ^ 32, 0, 0x3FFFFC0, 0, 0, 0, 0, 0] live
    let stash := runE (fun _ => [.slots (32 * 63 + 31) { base := 5, len := 1 }])
      (desc63 0x31 [5 + 2 ^ 9 + 64 * 2 ^ 32, 0x40000, 0, 64, 0, 0, 0, 0] live)
    let lane := desc63 0x30 [2 + 2 * 2 ^ 6 + 1 * 2 ^ 10 + 255 * 2 ^ 16, 0, 0x60000, 64, 0x100000, 64, 0, 0] live
    let sel := put [(barn_CSUM_SEL_SPACE, 63, 1), (barn_CSUM_SEL_TILE, 63, 16383), (hbm1_CSUM_SEL, 11, 7)] live
    valid63 sl 0x30 3 = true ∧ spanTiles (rowSpans 0x3FFFFC0 0 0 64) = [16383] ∧
    valid63 stash 0x31 5 = true ∧ (readDesc stash 63 0x40000).vsrc = false ∧ getF (after (.descStash 63 [] 0) stash) sluice_STASH_IN 63 = 1 ∧
    valid63 lane 0x30 2 = true ∧
    quarterGone sel 3 = false ∧ hostAway sel = false ∧ csumGet (after (.csumDataWrite 63 7) sel) (csumKeyCommons 3 16383) = 7 ∧
    csumGet (after (.hbmCsumDataWrite 11 9 [⟨2, hbmD + 28, .corrected⟩]) sel) (csumKeyHbm 3 7) = 9 := by decide +kernel

theorem test_witness_VectorOperations :
    let h := mem .barn (63 * 0xC00000 + 0x40040) [0x80, 0x3F, 0x00, 0x40] (mem .barn (63 * 0xC00000 + 0x40080) [0x80, 0x3F, 0x80, 0x3F]
      (croft63 (fun x => { x with vec := [vec63] }) live))
    let badFmt := croft63 (fun x => { x with vec := [{ vec63 with fmtA := 9 }] }) live
    let past := croft63 (fun x => { x with vec := [{ vec63 with aaddr := 0xBFFFC0, count := 32 }] }) live
    let done := croft63 (fun x => { x with vec := [{ vec63 with written := true, freeAt := 1 }] }) live
    vopOf (.vopAdd 63 false 0) = some (63, false, 0, [], 0) ∧ vec63.written = false ∧ fnFormats 0 13 13 = true ∧ pastBarn vec63 = false ∧
    touchesProt h 63 0x40000 (elemBytes 13 2) = false ∧ (vecResult h 63 vec63).hdrs = [] ∧ (vecResult h 63 vec63).codes = [0x4000, 0x4040] ∧
    barnRd (after (.vopAdd 63 false 0) h) 63 0x40000 4 = [0x00, 0x40, 0x40, 0x40] ∧
    fnFormats 0 9 13 = false ∧ (croftX (after (.vopAdd 63 false 0) badFmt) 63).vec = [] ∧ rawBit (after (.vopAdd 63 false 0) badFmt) ⟨.vector, 63⟩ 0 = true ∧
    pastBarn { vec63 with aaddr := 0xBFFFC0, count := 32 } = true ∧ (croftX (after (.vopAdd 63 false 0) past) 63).vec = [] ∧
    (croftX done 63).vec = [{ vec63 with written := true, freeAt := 1 }] ∧ getF (after (.vopComplete 63 1) done) vector_OP_COUNT 63 = 1 ∧
    getF (after (.vopComplete 63 0) done) vector_OP_COUNT 63 = 0 ∧ (croftX (after (.vopAdd 63 false 5) h) 63).vec.map (·.freeAt) = [6] := by decide +kernel

/-- The front instruction verifies the first tile of the commons, whose slot holds a given value. -/
def verify63 (v : Hw → Word) : Hw :=
  let h := desc63 0x33 [4 + 2 ^ 4 + 1 * 2 ^ 6 + 64 * 2 ^ 32, 0, 0, 0, 0, 0, 0, 0] live
  runE (csumSet (csumKey 1 3 63 0) (v h)) h

theorem test_witness_ChecksumsKept_verify :
    valid63 (verify63 (fun h => tileCrc h 1 3 63 0)) 0x33 4 = true ∧ tileMatches (verify63 (fun h => tileCrc h 1 3 63 0)) 1 3 63 0 = true ∧
    valid63 (verify63 (fun h => tileCrc h 1 3 63 0 + 1)) 0x33 4 = true ∧ tileMatches (verify63 (fun h => tileCrc h 1 3 63 0 + 1)) 1 3 63 0 = false := by
  refine ⟨by decide +kernel, ?_, by decide +kernel, ?_⟩ <;> unfold tileMatches verify63 <;> dsimp only <;> rw [tileCrc_csumSet, csumGet_csumSet, if_pos rfl]
  · exact beq_self_eq_true _
  · exact beq_eq_false_iff_ne.mpr (by generalize tileCrc _ 1 3 63 0 = x; bv_omega)

theorem test_witness_StashRoundTrip : (List.replicate 4032 (0 : Byte)).length = 4032 ∧
    (encodeUnit false (List.replicate 4032 0)).length = 4096 := by decide +kernel

theorem test_witness_VectorResults :
    let h := mem .barn (63 * 0xC00000 + 0x40040) [0x80, 0x3F, 0x00, 0x40] live
    (1 : Nat) ≤ vec63.count ∧ (vecResult h 63 { vec63 with fn := 0x0B }).codes[1]? = some 0x4000 ∧
    [numOne, numZero, negate numOne] ≠ [] ∧ [numOne, numZero].all (fun x => !isNan x) = true ∧ maxRow [numZero, numOne] = numOne ∧
    special 0x30 (.fin false 128 0) = .inf false ∧ special 0x36 (.fin true 8 0) = negate numOne ∧ special 0x37 (.fin true 16 0) = numZero := by
  decide +kernel

/-! Witnesses: the pound, messages and ports -/

/-- Port 31 is `UP`, as a port of quarter 3. -/
def up31 : Hw := put [(port0_STATUS_STATE, 31, 5), (port0_CTRL_ENABLE, 31, 1)] live
def port31 (f : PortX → PortX) (h : Hw) : Hw := runE (modPort 31 f) h
def quarter3 (f : QuarterX → QuarterX) (h : Hw) : Hw := runE (modQuarter 3 f) h
def gateSrc : MsgSrc := .gate 0
def put63 : Msg := { typ := 1, sub := 0, dq := 3, dcroft := 15, daddr := 0x40000, rsig := 63, rsen := true, payload := [1, 2, 3, 4] }
def get63 : Msg := { typ := 2, sub := 0, dq := 3, dcroft := 15, daddr := 0x40000, saddr := 0x50000, pbytes := 255, lsig := 62, lsen := true }
def resp63 : Msg := { typ := 2, sub := 1, sq := 3, dq := 3, dcroft := 15, daddr := 0x50000, rsig := 62, rsen := true, payload := List.replicate 64 9 }
def open63 : OpenGet := { croft := 63, since := 0, m := get63 }
def reaches (h : Hw) (src : MsgSrc) (m : Msg) : Bool :=
  m.crcOk && !msgReserved m && (match src with
    | .port p => portUp h p.val && !(portX h p.val).peerDead && !quarterGone h (p.val / 8) && decide (m.ddev.toNat = deviceId h (p.val / 8))
    | .gate sq => !quarterGone h sq.val)
def arrives (h : Hw) (src : MsgSrc) (m : Msg) : Bool := reaches h src m && !addressGone h m && decide (m.dq.toNat = takerOf src m)

theorem reaches_iff (h : Hw) (src : MsgSrc) (m : Msg) (r : reaches h src m = true) : Reaches h src m := by
  unfold reaches at r
  unfold Reaches
  cases src <;> simp_all
theorem arrives_iff (h : Hw) (src : MsgSrc) (m : Msg) (r : arrives h src m = true) : Arrives h src m := by
  unfold arrives at r
  simp only [Bool.and_eq_true, Bool.not_eq_true', decide_eq_true_eq] at r
  exact ⟨reaches_iff _ _ _ r.1.1, r.1.2, r.2⟩

theorem test_witness_MessagesDelivered :
    let gets := quarter3 (fun x => { x with gets := [open63] }) live
    arrives up31 (.port 31) put63 = true ∧ beyond put63 4 = false ∧ touchesProt up31 63 0x40000 4 = false ∧
    rd8 (after (.put (.port 31) put63 0) up31) .barn (63 * 0xC00000 + 0x40003) = 4 ∧ sigVal (after (.put (.port 31) put63 0) up31) 63 63 = 1 ∧
    arrives gets gateSrc resp63 = true ∧ beyond resp63 64 = false ∧ (quarterX gets 3).gets.find? (answers 3 resp63) = some open63 ∧
    (quarterX (after (.getResponse gateSrc resp63 0) gets) 3).gets = [] ∧ rd8 (after (.getResponse gateSrc resp63 0) gets) .barn (63 * 0xC00000 + 0x5003F) = 9 ∧
    arrives live gateSrc resp63 = true ∧ (quarterX live 3).gets.find? (answers 3 resp63) = none ∧
    getF (after (.getResponse gateSrc resp63 0) live) pound_DISCARDS 3 = 1 ∧
    arrives live gateSrc get63 = true ∧ beyond get63 64 = false ∧ live.bell.left = false ∧ catchingUp live = false ∧
    sendable live 3 (fillSource live 3 (getAnswer 3 get63 (rdBytes live .barn (63 * 0xC00000 + 0x40000) 64))) = true ∧
    (after (.getRequest gateSrc get63 0) live).outbox.length = 1 ∧
    arrives live gateSrc { put63 with daddr := 0xBFFFFD } = true ∧ beyond { put63 with daddr := 0xBFFFFD } 4 = true ∧
    rawBit (after (.put gateSrc { put63 with daddr := 0xBFFFFD } 0) live) ⟨.pound, 3⟩ 9 = true ∧
    portUp up31 31 = true ∧ (portX up31 31).peerDead = false ∧ quarterGone up31 3 = false ∧
    rawBit (after (.echoReply (.port 31) { put63 with crcOk := false } 0) up31) ⟨.pound, 3⟩ 0 = true ∧
    msgReserved { put63 with saddr := 1 } = true ∧ rawBit (after (.put (.port 31) { put63 with saddr := 1 } 0) up31) ⟨.pound, 3⟩ 0 = true ∧
    strayMsg { typ := 5, sub := 4 } = true ∧ msgReserved { typ := 5, sub := 4 } = true ∧
    getF (after (.put (.port 31) { typ := 5, sub := 4, vc := 2 } 0) up31) pound_DISCARDS 3 = 1 ∧
    (let one := after (.put (.port 31) put63 0 [⟨0, 0x40000, .corrected⟩]) up31
     rawBit one ⟨.check, 63⟩ 4 = true ∧ rd8 one .barn (63 * 0xC00000 + 0x40000) = 1) ∧
    (quarterX gets 3).gets.find? (fun g => decide (g.since + getF gets pound_GET_TIMEOUT 3 * clkUs ≤ (now (st gets) (getF gets pound_GET_TIMEOUT 3 * clkUs)).clk)) =
      some open63 ∧ sigVal (after (.getTimeout 3 (getF gets pound_GET_TIMEOUT 3 * clkUs)) gets) 63 62 = 1 := by decide +kernel

theorem test_witness_ControlMessages :
    let dead := port31 (fun x => { x with peerDead := true }) up31
    let req : Msg := { typ := 7, sub := 1, dq := 3, pbytes := 1, payload := [5] }
    let rep : Msg := { typ := 7, sub := 2, dq := 3, pbytes := 1, payload := [5] }
    portUp up31 31 = true ∧ (portX up31 31).peerDead = false ∧ (portX (after (.ctrlDeviceFailed 31) up31) 31).peerDead = true ∧
    (portX dead 31).peerDead = true ∧ (after (.put (.port 31) put63 0) dead).regs = dead.regs ∧
    reaches up31 (.port 31) req = true ∧ catchingUp up31 = false ∧
    sendable up31 3 (fillSource up31 3 { typ := 7, sub := 2, pbytes := 1, payload := [5] }) = true ∧
    (after (.echoRequest (.port 31) req 0) up31).outbox.length = 1 ∧
    reaches up31 (.port 31) rep = true ∧ (after (.echoReply (.port 31) rep 0) up31).free = 1 := by decide +kernel

def req63 : PoundReq :=
  { op := 0, stream := 2, dev := 0, quarter := 3, croft := 14, rspace := 0, raddr := 0x40000, laddr := 0xBFFE80, len := 384, rsig := 1, lsig := 63,
    lsen := true, rsen := true, rfmt := 0, rop := 0 }
/-- Reduce window 255 of quarter 3: two sources of its own crofts 0 and 1, 4 bytes of S32 sums at the start of the commons' second half. -/
def window255 : Hw := mem .commons (3 * 0x4000000 + 64 * 255) ([1 + 2 + 15 * 64 + 2 * 2 ^ 11 + 7 * 2 ^ 15 + 2 ^ 21, 0x2000000, 4, 0x80000000 + 3 * 2 ^ 17, 0x80000000 + 3 * 2 ^ 17 + 2 ^ 19].flatMap (leBytes 4))
  (put [(pound_STAGE_LEN, 3, 1)] live)
def part (rank : Nat) : Msg :=
  { typ := 3, sub := 0, dq := 3, dunit := 1, daddr := 0x2000000, sq := 3, scroft := BitVec.ofNat 4 rank, rfmt := 15, payload := [0, 0, 0x80, 0x3F] }

theorem test_witness_PoundWork :
    let one := croft63 (fun x => { x with pound := [req63] }) live
    let last := croft63 (fun x => { x with pound := [{ req63 with data := List.replicate 128 7 }] }) live
    let recv := croft63 (fun x => { x with pound := [{ req63 with op := 1, len := 64, raddr := 0x40000 }] }) live
    let past := croft63 (fun x => { x with pound := [{ req63 with laddr := 0xBFFFC0 }] }) live
    let row : DrainedRow := { d := { drain63 with dest := true, fmtOut := 15 }, row := 0, codes := List.replicate 256 0, hdrs := [], ovf := [], nan := false, outl := [] }
    let rows := field63 (fun x => { x with buf := [row] }) live
    offers one 3 = [(0, 63, 4)] ∧ req63.laddr + req63.len ≤ 0xC00000 ∧ req63.data.length + 256 < req63.len ∧
    ((croftX (after (.poundChunkGrant 3 0) one) 63).pound.map (·.data.length)) = [256] ∧
    offers last 3 = [(0, 63, 4)] ∧ 384 ≤ 128 + 256 ∧ sendable last 3 (fillSource last 3 { reqMsg 63 req63 with payload := List.replicate 128 7 ++ barnRd last 63 (0xBFFE80 + 128) 256 }) = true ∧
    (after (.poundChunkGrant 3 0) last).outbox.length = 1 ∧ sigVal (after (.poundChunkGrant 3 0) last) 63 63 = 1 ∧
    offers recv 3 = [(0, 63, 4)] ∧ sendable recv 3 (fillSource recv 3 (reqMsg 63 { req63 with op := 1, len := 64, raddr := 0x40000 })) = true ∧
    (quarterX (after (.poundChunkGrant 3 0) recv) 3).gets.length = 1 ∧
    0xC00000 < 0xBFFFC0 + 384 ∧ offers past 3 = [(0, 63, 4)] ∧ (croftX (after (.poundChunkGrant 3 0) past) 63).pound = [] ∧
    offers rows 3 = [(0, 63, 3)] ∧ ((fieldX (after (.poundChunkGrant 3 0) rows) 255).buf.map (·.chunks)) = [1] := by decide +kernel

theorem test_witness_PoundWork_reduce :
    let h := window255
    let e := (findWindow h 3 (part 0)).getD (0, [])
    let held := quarter3 (fun x => { x with staged := [{ win := 255, rank := 1, entry := e.2, m := part 1 }], rounds := [{ win := 255, done := [4, 0, 0, 0, 0, 0, 0, 0] }] }) h
    arrives h gateSrc (part 0) = true ∧ (findWindow h 3 (part 0)).map (·.1) = some 255 ∧ rankOf e.2 (part 0) = some 0 ∧ rankOf e.2 (part 1) = some 1 ∧
    rwFmt e.2 = 15 ∧ bit (e.2.getD 0 0) 10 = false ∧ rwLen e.2 = 4 ∧ rwNsrc e.2 = 2 ∧ (roundDone h 3 255).length = 8 ∧ turnOf (roundDone h 3 255) 4 0 = true ∧
    roundDone (after (.reducePut gateSrc (part 0) 0) h) 3 255 = [4, 0, 0, 0, 0, 0, 0, 0] ∧
    rdNat (after (.reducePut gateSrc (part 0) 0) h) .commons (3 * 0x4000000 + 0x2000000) 4 = 0x3F800000 ∧
    roundDone (after (.reducePut gateSrc (part 1) 0) (after (.reducePut gateSrc (part 0) 0) h)) 3 255 = List.replicate 8 0 ∧
    rdNat (after (.reducePut gateSrc (part 1) 0) (after (.reducePut gateSrc (part 0) 0) h)) .commons (3 * 0x4000000 + 0x2000000) 4 = 0x40000000 ∧
    sigVal (after (.reducePut gateSrc (part 1) 0) (after (.reducePut gateSrc (part 0) 0) h)) 48 7 = 1 ∧
    turnOf (roundDone h 3 255) 4 1 = false ∧ stageUsed (quarterX h 3) + 1 ≤ getF h pound_STAGE_LEN 3 ∧
    ((quarterX held 3).staged.find? (fun y => turnOf (roundDone held 3 y.win) (rwLen y.entry) y.rank)).isSome = true := by decide +kernel

def rep (n : Nat) (k : Nat) : RepFlit := { f := { seq := BitVec.ofNat 12 n, vlen := 4, payload := [1, 2, 3, 4] }, n := k }
def at31 (s : Nat) : Hw := put [(port0_STATUS_STATE, 31, s)] up31

theorem test_witness_PortStates :
    let used := port31 (fun x => { x with replay := [rep 4095 0], txSeq := 5 }) up31
    let twice := port31 (fun x => { x with failRow := 2 }) (at31 stEq)
    hostAway live = false ∧ quarterGone live 3 = false ∧ hostAway used = false ∧ quarterGone used 3 = false ∧ flag (after (.portEnableWrite 31 true) live) port0_CTRL_ENABLE 31 = true ∧
    portState used 31 ≠ stDark ∧ portState used 31 ≠ stFailed ∧ (portX used 31).replay ≠ [] ∧
    rawBit (after (.portEnableWrite 31 false) used) ⟨.port0, 31⟩ 3 = true ∧ (portX used 31).replay.any (fun r => decide (r.f.vc.toNat ≤ 1)) = true ∧
    (after (.portEnableWrite 31 false) used).bell.reach = List.range 64 ∧ (portX (after (.portEnableWrite 31 false) used) 31).txSeq = 0 ∧
    portState (at31 stDark) 31 = stDark ∧ flag (at31 stDark) port0_CTRL_ENABLE 31 = true ∧ portState (after (.signalDetected 31) (at31 stDark)) 31 = stEq ∧
    flag live port0_CTRL_ENABLE 31 = false ∧ (after (.signalDetected 31) live).regs = live.regs ∧
    portUp used 31 = true ∧ portState (after (.linkDown 31) used) 31 = stRetrain ∧ (portX (after (.portRetrain 31) used) 31).replay = [rep 4095 0] ∧
    portUp live 31 = false ∧ (after (.linkDown 31) live).regs = live.regs ∧
    (after (.trainTimeout 31) (port31 (fun x => { x with held := true }) (at31 stIdent))).regs = (at31 stIdent).regs ∧
    stEq ≤ portState twice 31 ∧ portState twice 31 ≤ stMeasure ∧ 2 ≤ (portX twice 31).failRow ∧ portState (after (.trainTimeout 31) twice) 31 = stFailed ∧
    portState (after (.trainTimeout 31) (at31 stMeasure)) 31 = stEq ∧
    portState (at31 stRetrain) 31 = stRetrain ∧ portState (after (.trainTimeout 31) (at31 stRetrain)) 31 = stEq := by decide +kernel

theorem test_witness_LinkTraining :
    let x4 := put [(port0_CTRL_ALLOW_X4, 31, 1)] (at31 stEq)
    let x8 := put [(port0_CTRL_ALLOW_X4, 31, 0)] (at31 stEq)
    let id : Ident := { device := 0x1FFFF, port := 31, epoch := 7, credits := [128, 64, 32, 32] }
    let strict := put [(port0_EPOCH_EXPECT, 31, 8)] (at31 stIdent)
    let last := port31 (fun x => { x with rounds := 63, sum := 63 * 2000, everUp := true }) (at31 stMeasure)
    portState x4 31 = stEq ∧ portState (after (.eqDone 31 0xFF) x4) 31 = stAlign ∧
    (0xF7 : BitVec 8) ≠ 0xFF ∧ flag x4 port0_CTRL_ALLOW_X4 31 = true ∧ (0xF7 : BitVec 8) &&& 0xF0 = 0xF0 ∧
    getF (after (.eqDone 31 0xF7) x4) port0_LANES_ACTIVE 31 = 0xF0 ∧
    flag x8 port0_CTRL_ALLOW_X4 31 = false ∧ getF (after (.eqDone 31 0xF7) x8) port0_TRAIN_FAIL 31 = 1 ∧
    trainPhase (at31 stAlign) 31 = stAlign ∧ trainPhase (after (.alignDone 31 none) (at31 stAlign)) 31 = stIdent ∧
    flag (put [(port0_STATUS_X4, 31, 1)] (at31 stAlign)) port0_STATUS_X4 31 = true ∧
    getF (after (.alignDone 31 (some true)) (put [(port0_STATUS_X4, 31, 1)] (at31 stAlign))) port0_TRAIN_FAIL 31 = 1 ∧
    trainPhase (after (.alignDone 31 (some false)) (put [(port0_STATUS_X4, 31, 1)] (at31 stAlign))) 31 = stIdent ∧
    flag (after (.alignDone 31 (some true)) (put [(port0_CTRL_ALLOW_X4, 31, 1)] (at31 stAlign))) port0_STATUS_UPPER 31 = true ∧
    trainPhase (at31 stIdent) 31 = stIdent ∧ peerWrong (at31 stIdent) 31 id = false ∧ getF (after (.ident 31 id) (at31 stIdent)) port0_PEER_ID_DEVICE 31 = 0x1FFFF ∧
    peerWrong strict 31 id = true ∧ (portX (after (.ident 31 id) strict) 31).held = true ∧
    ((after (.alignDone 31 none) (at31 stAlign)).outbox.drop 1) = [.control 31 0x10 (deviceId up31 3) 31 0] ∧
    ((after (.measureRequest 31 5 9) up31).outbox.drop 1) = [.control 31 0x12 4 0 0] ∧
    trainPhase (at31 stMeasure) 31 = stMeasure ∧ (portX (after (.measureResponse 31 0 2000 4) (at31 stMeasure)) 31).sum = 1996 ∧
    trainPhase last 31 = stMeasure ∧ 63 ≤ (portX last 31).rounds ∧ getF (after (.measureResponse 31 0 2064 64) last) port0_DELAY 31 = 1000 ∧
    rawBit (after (.measureResponse 31 0 2064 64) last) ⟨.port0, 31⟩ 5 = true := by decide +kernel

theorem test_witness_FlitsSent :
    let fl : Flit := { vlen := 4, som := true, eom := true, payload := [1, 2, 3, 4] }
    let q := port31 (fun x => { x with txSeq := 4095, credits := [1, 0, 0, 0], q0 := [⟨3, fl, 0⟩], q2 := [⟨3, fl, 0⟩] }) up31
    let r := port31 (fun x => { x with replay := [rep 4095 0, rep 0 7], toReplay := [0] }) up31
    portUp up31 31 = true ∧ (portX up31 31).toReplay = [] ∧ pickVc (portX up31 31) = none ∧ (after (.flitSlot 31 0) up31).outbox.length = 1 ∧
    pickVc (portX q 31) = some 0 ∧ chanQ (portX q 31) 0 = [⟨3, fl, 0⟩] ∧ (portX q 31).credits.length = 4 ∧
    (portX (after (.flitSlot 31 0) q) 31).txSeq = 0 ∧ (portX (after (.flitSlot 31 0) q) 31).credits = [0, 0, 0, 0] ∧
    (portX r 31).replay.find? (fun y => y.f.seq.toNat == 0) = some (rep 0 7) ∧ portState (after (.flitSlot 31 0) r) 31 = stRetrain ∧
    (portX (after (.flitSlot 31 0) (port31 (fun x => { x with everUp := true }) up31)) 31).fecLen = 4096 ∧
    (let tok : Flit := { som := true, vlen := 76, payload := 4 :: List.replicate 75 0 };
      (tok.som && tok.payload.headD 0 == 0x04) = true ∧ 56 ≤ tok.payload.length ∧ ((reformToken tok 3).payload.drop 56).take 4 = leBytes 4 48 ∧
      (fl.som && fl.payload.headD 0 == 0x04) = false) ∧
    (portX (after (.ack 31 4095) r) 31).replay = [rep 0 7] ∧ (portX (after (.nak 31 0) r) 31).toReplay = [0] ∧
    (portX (after (.replayTimeout 31) r) 31).toReplay = [4095, 0] ∧ (portX (after (.credit 31 1 2 3 65535) q) 31).credits = [2, 2, 3, 65535] ∧
    chanQ (portX q 31) 2 ≠ [] ∧ (portX q 31).credits.getD 2 0 = 0 ∧ rawBit (after (.creditStall 31 2) q) ⟨.port1, 31⟩ 2 = true ∧
    chanQ (portX q 31) 3 = [] ∧ (after (.creditStall 31 3) q).regs = q.regs := by decide +kernel

theorem test_witness_FlitsReceived :
    let fl : Flit := { seq := 4095, vc := 3, vlen := 4, som := true, eom := true, payload := [1, 2, 3, 4] }
    let h := port31 (fun x => { x with rxSeq := 4095, rxUsed := [127, 63, 31, 31], replay := [rep 7 0, rep 8 0] }) up31
    let half := port31 (fun x => { x with asmOn := [false, false, false, true] }) h
    let full := port31 (fun x => { x with rxSeq := 4095, rxUsed := [128, 64, 32, 31], toReturn := [0, 0, 0, 1] }) up31
    let lim := put [(port1_FEC_LIMIT, 31, 9)] (port31 (fun x => { x with fecSyms := 10 }) up31)
    portUp h 31 = true ∧ flitReserved fl = false ∧ getF (after (.flitReceive 31 fl false true 3) h) port1_CRC_ERR 31 = 1 ∧
    flitReserved { fl with vlen := 241 } = true ∧ (after (.flitReceive 31 { fl with vlen := 241 } true true 0) h).outbox.length = 2 ∧
    getF (after (.flitReceive 31 fl true true 3 2) h) port1_FEC_UNCORR 31 = 2 ∧
    fl.seq.toNat = (portX h 31).rxSeq ∧ (portX h 31).rxUsed.length = 4 ∧ (portX h 31).rxUsed.getD 3 0 + (portX h 31).toReturn.getD 3 0 < rxSize 3 ∧
    (portX (after (.flitReceive 31 fl true true 0) h) 31).rxSeq = 0 ∧ (portX (after (.flitReceive 31 fl true true 0) h) 31).rxUsed = [127, 63, 31, 32] ∧
    (2046 + 4096 - (portX h 31).rxSeq) % 4096 = 2047 ∧ (after (.flitReceive 31 { fl with seq := 2046 } true true 0) h).outbox.length = 2 ∧
    (2047 + 4096 - (portX h 31).rxSeq) % 4096 = 2048 ∧ (after (.flitReceive 31 { fl with seq := 2047 } true true 0) h).outbox = [] ∧
    rxSize 3 ≤ (portX full 31).rxUsed.getD 3 0 + (portX full 31).toReturn.getD 3 0 ∧ portState (after (.flitReceive 31 fl true true 0) full) 31 = stRetrain ∧
    (portX half 31).asmOn.getD 3 false = true ∧ getF (after (.flitReceive 31 fl true true 0) half) pound_DISCARDS 3 = 1 ∧
    (portX h 31).replay.any (fun r => r.f.seq == 7) = true ∧
    (portX (after (.flitReceive 31 { fl with ackv := true, ackseq := 7 } true true 0) h) 31).replay = [rep 8 0] ∧
    (portX (after (.flitReceive 31 { kind := 1 } true true 3) h) 31).fecSyms = 3 ∧
    getF lim port1_FEC_LIMIT 31 < (portX lim 31).fecSyms ∧ rawBit (after (.fecGroupEnd 31) lim) ⟨.port1, 31⟩ 1 = true ∧
    (portX up31 31).fecSyms ≤ getF up31 port1_FEC_LIMIT 31 := by decide +kernel

/-! Witnesses: the bell, the reeve and the mill -/

def tok (flags : Nat) : Token :=
  { bell := 9, step := 3, attempt := 0, period := 1000, slack := 50, flags := BitVec.ofNat 8 flags, acc := 0, lead := 12000, batch := 7 }
def bellOf (f : BellX → BellX) (h : Hw) : Hw := runE (modBell f) h
def master : Hw := put [(bellMaster_CTRL_MASTER, 0, 1), (bellMaster_STEP_PATTERN_STEP_BELLS, 0, 4), (bellMaster_STEP_PATTERN_VERDICT_IDX, 0, 3),
  (bellMaster_LEAD, 0, 12000), (bellMaster_PERIOD, 0, 1000)] live
def child : Hw := put [(bellMaster_UP_PORT_VALID, 0, 1), (bellMaster_UP_PORT_PORT, 0, 31), (bellMaster_CHILD_PORTS, 0, 1), (port0_STATUS_STATE, 0, 5)] up31

theorem test_witness_BellTokens :
    let running := put [(bellMaster_STATUS_RUNNING, 0, 1)] (bellOf (fun b => { b with lastTok := some (tok 8), nextEdge := some 12000, index := 3 }) master)
    let fwd := bellOf (fun b => { b with forwards := [(0, tok 8, 0)] }) child
    isMaster master = true ∧ flag master bellMaster_STATUS_RUNNING 0 = false ∧ catchingUp master = false ∧
    (after (.bellStart 5) master).bell.pendTok.map (fun p => (p.edge, p.index)) = [(12005, 0)] ∧
    hostAway master = false ∧ master.bell.left = false ∧
    isMaster live = false ∧ (after (.bellStart 0) live).regs = live.regs ∧ hostAway live = false ∧
    (bellOf (fun b => { b with left := true }) master).bell.left = true ∧ (after (.bellStart 5) (bellOf (fun b => { b with left := true }) master)).bell.pendTok = [] ∧
    hostAway running = false ∧
    flag running bellMaster_STATUS_RUNNING 0 = true ∧ running.bell.heldSent = false ∧ flag running bellMaster_STATUS_HELD 0 = false ∧
    (after .holdNow running).bell.holdStep = true ∧
    running.bell.nextEdge = some 12000 ∧ (12000 : Nat) ≤ 0 + getF running bellMaster_LEAD 0 ∧ running.bell.resumed = false ∧ running.bell.pendTok.length < 2 ∧
    4 ≤ running.bell.index + 1 ∧ (after (.tokenSend 0) running).bell.pendTok.map (fun p => (p.tok.bell, p.tok.step, p.index)) = [(10, 4, 0)] ∧
    (bellOf (fun b => { b with index := 2 }) running).bell.index + 1 < 4 ∧
    (after (.tokenSend 0) (bellOf (fun b => { b with index := 2 }) running)).bell.pendTok.map (fun p => (p.tok.step, p.index)) = [(3, 3)] ∧
    portUp child 31 = true ∧ (portX child 31).peerDead = false ∧ tokenBad child 31 (tok 0xC8) = true ∧
    rawBit (after (.bellToken 31 (tok 0xC8) 0) child) ⟨.bellMaster, 0⟩ 7 = true ∧ tokenBad child 31 (tok 8) = false ∧
    (after (.bellToken 31 { tok 8 with acc := 172800 } 0) child).bell.pendTok.map (·.edge) = [1200] ∧
    rawBit (after (.bellToken 31 { tok 8 with acc := 172816 } 0) child) ⟨.bellMaster, 0⟩ 0 = true ∧
    (fwd.bell.forwards.find? (fun f => f.1 == 0)).isSome = true ∧ (after (.tokenForward 0 3) fwd).outbox ≠ [] := by decide +kernel

theorem test_witness_BellTokens_resume :
    let held := put [(bellMaster_STATUS_RUNNING, 0, 1), (bellMaster_STATUS_HELD, 0, 1)] (bellOf (fun b => { b with heldSent := true, index := 2 }) master)
    let resumed := bellOf (fun b => { b with lastTok := some (tok 8) }) (after (.resume 0) held)
    hostAway held = false ∧ isMaster held = true ∧
    flag held bellMaster_STATUS_HELD 0 = true ∧ held.bell.heldSent = true ∧ held.bell.left = false ∧
    (after (.resume 0) held).bell.nextEdge = some 12001 ∧ (after (.resume 0) held).bell.resumed = true ∧ (after (.resume 0) held).bell.pendTok = [] ∧
    resumed.bell.nextEdge = some 12001 ∧ resumed.bell.lastTok = some (tok 8) ∧ isMaster resumed = true ∧ (12001 : Nat) ≤ 1 + getF resumed bellMaster_LEAD 0 ∧
    resumed.bell.index ≠ 0 ∧ resumed.bell.index + 1 < 4 ∧ (now (st resumed) 1).clk = 1 ∧ (now (st resumed) 0).clk + getF resumed bellMaster_LEAD 0 < 12001 ∧
    (after (.tokenSend 1) resumed).bell.pendTok.map (fun p => (p.edge, p.index)) = [(12001, 3)] ∧
    (after (.tokenSend 0) resumed).bell.pendTok = [] ∧
    4 ≤ (bellOf (fun b => { b with index := 3 }) resumed).bell.index + 1 ∧
    (after (.tokenSend 1) (bellOf (fun b => { b with index := 3 }) resumed)).bell.pendTok.map (fun p => (p.tok.step, p.index)) = [(1, 0)] ∧
    (after (.tokenSend 1) (bellOf (fun b => { b with index := 0 }) resumed)).bell.pendTok.map (fun p => (p.tok.step, p.index)) = [(0, 0)] := by decide +kernel

theorem test_witness_BellEdges :
    let h := bellOf (fun b => { b with pendTok := [{ tok := tok 8, edge := 100 }] }) (liveWith [(stream_STATUS_STATE, 191, 5)])
    let shut := put [(bellMaster_STATUS_DEVICE_A, 0, 1)] (bellOf (fun b => { b with closeClk := some 0 }) live)
    shut.bell.closeClk.isSome = true ∧ shut.gate.watchDue = [] ∧ (∀ q, q < 4 → (quarterX shut q).landed = []) ∧
    flag (now (st shut) 1) bellMaster_STATUS_DEVICE_A 0 = false ∧ flag (now (st shut) 0) bellMaster_STATUS_DEVICE_A 0 = true ∧
    h.bell.pendTok.map (·.edge) = [100] ∧ (after (.bellEdge 99) h).regs = h.regs ∧ catchingUp h = false ∧ h.gate.failed = false ∧ h.gate.stewWait = 0 ∧ 63 ∈ liveCrofts (now (st h) 100) ∧
    (streamX (now (st h) 100) 191).passed = false ∧ strmState (now (st h) 100) 191 = 5 ∧
    strmState (after (.bellEdge 100) h) 191 = 2 ∧ getF (after (.bellEdge 100) h) stream_SEGMENT 191 = 1 := by decide +kernel

theorem test_witness_BellAcks :
    let r : AckX := { bell := 9, edge := some 0 }
    let up := bellOf (fun b => { b with acks := [{ r with children := [0] }] }) child
    let top := put [(bellMaster_TREE_SIZE, 0, 2)] (bellOf (fun b => { b with acks := [r] }) master)
    let miss := put [(bellMaster_ACK_WAIT, 0, 5)] (bellOf (fun b => { b with acks := [r] }) child)
    let a : Ack := { bell := 9, count := 0x3FFFF, anom := true, holdReq := true }
    let edge := put [(bellMaster_STATUS_RUNNING, 0, 1), (bellMaster_PERIOD, 0, 1000)] (bellOf (fun b => { b with lastEdge := some 0 }) live)
    let due := fun (h : Hw) (r : AckX) => (match r.edge with | some e => decide (e < h.clk) | none => false) && !r.sent && allChildren h r
    ((now (st up) 1).bell.acks.find? (due (now (st up) 1))) = some { r with children := [0] } ∧ (after (.ackSend 0) up).outbox = [] ∧ isMaster up = false ∧
    flag up bellMaster_UP_PORT_VALID 0 = true ∧ portUp up (getF up bellMaster_UP_PORT_PORT 0) = true ∧ catchingUp up = false ∧
    (after (.ackSend 1) up).outbox ≠ [] ∧
    ((now (st top) 1).bell.acks.find? (due (now (st top) 1))) = some r ∧ r.count < getF top bellMaster_TREE_SIZE 0 ∧
    rawBit (after (.ackSend 1) top) ⟨.bellMaster, 0⟩ 2 = true ∧ (after (.ackSend 1) top).bell.holdNext = true ∧
    portUp child 0 = true ∧ 0 ∈ childPorts child ∧ (after (.bellAck 0 a 0) child).bell.acks.map (·.count) = [0x40000] ∧
    (miss.bell.acks.all (fun x => x.bell != 9 || (!x.sent && !x.children.contains 0))) = true ∧
    (after (.bellAck 0 a 0) miss).bell.acks.map (·.children) = [[0]] ∧
    (up.bell.acks.any (fun r => r.bell == 9 && (r.sent || r.children.contains 0))) = true ∧ (after (.bellAck 0 a 0) up).bell = up.bell ∧
    (0 : Nat) + getF miss bellMaster_ACK_WAIT 0 ≤ (now (st miss) 5).clk ∧ rawBit (after (.ackMissing 5) miss) ⟨.bellMaster, 0⟩ 1 = true ∧
    bit (getF edge bellMaster_FLAGS 0) fHold = false ∧ 0 + 24 * getF edge bellMaster_PERIOD 0 < (now (st edge) 24001).clk ∧
    (after (.bellLost 24001) edge).bell.left = true ∧ (now (st edge) 24000).clk ≤ 24 * getF edge bellMaster_PERIOD 0 ∧
    (after (.bellLost 24000) edge).bell.left = false := by decide +kernel

/-- A message of the reduction from quarter 0 of this device to quarter 3. -/
def sheetMsg (h : Hw) (sub : Nat) : Msg :=
  { typ := 3, sub := BitVec.ofNat 4 sub, hops := 1, ddev := BitVec.ofNat 17 (deviceId h 3), sdev := BitVec.ofNat 17 (deviceId h 3), dq := 3, dunit := 2
    payload := List.replicate 64 0, vc := 1 }

theorem test_witness_SheetsReduced :
    let acc : Sheet := { recs := [(16383, { total := 5 })] }
    let plan := [(reeve0_CTRL_ENABLE, 3, 1), (reeve0_RANGE_HI, 3, 16383)]
    let root := put plan (quarter3 (fun x => { x with closed := [(acc, 0)], accSheet := some acc }) live)
    let node := put [(reeve0_PLAN_PARENT_VALID, 3, 1), (reeve0_PLAN_PARENT_QUARTER, 3, 1)] root
    (quarterX (now (st root) 256) 3).closed = [(acc, 0)] ∧ (quarterX root 3).accSheet = some acc ∧ (quarterX root 3).deliveries.any (·.closing) = false ∧
    (quarterX root 3).sentUp = false ∧ getF root reeve0_PLAN_CTRL 3 ≤ (quarterX root 3).nextChild ∧ quarterGone root 3 = false ∧ root.bell.left = false ∧
    0 + 256 ≤ (now (st root) 256).clk ∧ flag root reeve0_PLAN_PARENT_VALID 3 = false ∧ (quarterX (after (.sheetSend 3 256) root) 3).closed = [] ∧
    (quarterX (after (.sheetSend 3 255) root) 3).closed = [(acc, 0)] ∧ inPlan root 3 16383 = true ∧
    recOf (quarterX (after (.sheetSend 3 256) root) 3).lastFinal 16383 = { total := 5 } ∧
    (quarterX (after (.sheetSend 3 256) (bellOf (fun b => { b with left := true }) root)) 3).closed = [(acc, 0)] ∧
    flag node reeve0_PLAN_PARENT_VALID 3 = true ∧ catchingUp node = false ∧ deviceId node 3 = 0 ∧ getF node reeve0_PLAN_PARENT_DEVICE 3 = 0 ∧
    quarterGone node 1 = false ∧
    hostAway live = false ∧ quarterGone live 3 = false ∧ live.wf = true ∧
    flag (after (.reeveEnableWrite 3 true) live) reeve0_CTRL_ENABLE 3 = true ∧
    (quarterX (after (.reeveEnableWrite 3 false) root) 3).closed = [] ∧
    (quarterX (after (.sheetDataRead 3 false) live) 3).sheetSnap.isSome = true := by decide +kernel

/-- To a parent in this device there is a way, whatever the sheet's bytes are. -/
theorem test_witness_sheet_sendable (h : Hw) (acc : Sheet) (d : deviceId h 3 = 0) (g : quarterGone h 1 = false) :
    sendable h 3 (fillSource h 3 (withPayload { typ := 3, sub := 1, ddev := 0, dq := 1, dunit := 2 } (Config.sheetBytes acc))) = true := by
  have e : ∀ bs : List Byte, (withPayload { typ := 3, sub := 1, ddev := 0, dq := 1, dunit := 2 } bs).ddev = 0 ∧
      (withPayload { typ := 3, sub := 1, ddev := 0, dq := 1, dunit := 2 } bs).dq = 1 ∧
      (withPayload { typ := 3, sub := 1, ddev := 0, dq := 1, dunit := 2 } bs).dunit = 2 := by
    intro bs; unfold withPayload; split
    · exact ⟨rfl, rfl, rfl⟩
    · split
      · exact ⟨rfl, rfl, rfl⟩
      · split <;> exact ⟨rfl, rfl, rfl⟩
  have f := e (Config.sheetBytes acc)
  unfold sendable
  rw [if_pos (by show (BitVec.toNat (withPayload _ _).ddev) = _; rw [f.1, d]; rfl)]
  have a : addressGone h (fillSource h 3 (withPayload { typ := 3, sub := 1, ddev := 0, dq := 1, dunit := 2 } (Config.sheetBytes acc))) = false := by
    have q : (fillSource h 3 (withPayload { typ := 3, sub := 1, ddev := 0, dq := 1, dunit := 2 } (Config.sheetBytes acc))).dq = 1 := f.2.1
    have u : (fillSource h 3 (withPayload { typ := 3, sub := 1, ddev := 0, dq := 1, dunit := 2 } (Config.sheetBytes acc))).dunit = 2 := f.2.2
    unfold addressGone
    rw [q, u]
    simp [g]
  rw [a]; exact Bool.or_true _

theorem test_witness_SheetsReduced_messages :
    let acc : Sheet := { recs := [(16383, { total := 5 })] }
    let plan := [(reeve0_CTRL_ENABLE, 3, 1), (reeve0_RANGE_HI, 3, 16383)]
    let wait := put ((reeve0_PLAN_CTRL, 3, 1) :: plan) live
    let par := quarter3 (fun x => { x with closed := [(acc, 0)], accSheet := some acc }) wait
    let node := put [(reeve0_PLAN_PARENT_VALID, 3, 1)] (put plan live)
    let sent := quarter3 (fun x => { x with closed := [(acc, 0)], sentUp := true }) node
    let up := fun (h : Hw) => after (.partialSheet (.gate 0) (sheetMsg h 1) acc 0) h
    let down := fun (h : Hw) => after (.finalSheet (.gate 0) (sheetMsg h 2) acc 0) h
    (sheetMsg live 1).crcOk = true ∧ msgReserved (sheetMsg live 1) = false ∧ msgReserved (sheetMsg live 2) = false ∧ addressGone live (sheetMsg live 1) = false ∧
    takerOf (.gate 0) (sheetMsg live 1) = 3 ∧ quarterGone live 0 = false ∧
    flag live reeve0_CTRL_ENABLE 3 = false ∧ getF (up live) pound_MSG_RX 3 = 1 ∧ (quarterX (up live) 3).partials = [] ∧
    flag wait reeve0_CTRL_ENABLE 3 = true ∧ childOf wait 3 (sheetMsg live 1) = some 0 ∧ childOf node 3 (sheetMsg live 1) = none ∧
    (quarterX wait 3).closed = [] ∧ (quarterX (up wait) 3).partials = [(0, acc)] ∧
    (quarterX par 3).nextChild = 0 ∧ (quarterX par 3).partials = [] ∧ (quarterX par 3).deliveries.any (·.closing) = false ∧
    (quarterX (up par) 3).accSheet = some { recs := [(16383, { total := 10 })] } ∧ (quarterX (up par) 3).nextChild = 1 ∧
    flag sent reeve0_PLAN_PARENT_VALID 3 = true ∧ (quarterX sent 3).sentUp = true ∧ (quarterX (down sent) 3).finals.length = 1 ∧
    (quarterX (down sent) 3).closed = [] ∧ (quarterX (down node) 3).finals = [] ∧ getF (down node) pound_MSG_RX 3 = 1 := by decide +kernel

theorem test_witness_DecisionsMade :
    let sh : Sheet := { recs := [(0, { total := 4, sat := 1, amax := 0x40000000, nonz := 4 })] }
    let h := put [(reeve0_CTRL_ENABLE, 3, 1)] (quarter3 (fun x => { x with finals := [sh] }) live)
    let e := unpackLedger ledgerReset
    (quarterX h 3).finals = [sh] ∧ (quarterX h 3).decided = none ∧ (sh.recs.map (·.1)).Nodup ∧
    (∀ r ∈ sh.recs, r.1 < 16384) ∧ (quarterX (after (.decisionPassDone 3 5) h) 3).decided = some 5 ∧
    (shadowOf (after (.decisionPassDone 3 5) h) 3 0).isSome = true ∧
    live.wf = true ∧ flag (runE (exchangeBanks 3) (after (.decisionPassDone 3 5) h)) reeve0_STATUS_BANK 3 = true ∧
    shadowOf (runE (exchangeBanks 3) (after (.decisionPassDone 3 5) h)) 3 0 = none ∧
    -127 ≤ e.eoff ∧ e.eoff ≤ 127 ∧ (decideEntry (policyOf h 3 0) e { total := 4, sat := 1 }).1.satf = 16384 ∧
    (grantGo h 3 0 [(0, e)] 0 true).1.map (·.2.2) = [[5]] := by decide +kernel

def words512 (ws : List Nat) : BitVec 512 := BitVec.ofNat 512 (ofLe (ws.flatMap (leBytes 4)))
/-- Layer 8191 of group 4095 (adaptive): one row of two columns on quarter 3, its masters on page 512, its moments on pages 513 and 514, its
working buffers of S32 on pages 0 and 1. -/
def layer8191 : BitVec 512 := words512 [4095 + 8 * 2 ^ 12 + 15 * 2 ^ 16 + 2 ^ 20 + 2 ^ 24, 0, 0, 1, 2, 512, 513, 514, 0, 0, 1]
def group4095 (rule : Nat) (frozen : Nat) : BitVec 512 := words512 [rule + 16 * frozen, 0x3F800000, 0, 0x3F000000, 0x3F000000, 0x3F800000]
def milled (frozen : Nat) : Hw :=
  runE (fun _ => [.mlayers 8191 layer8191, .mgroups 4095 (group4095 0 frozen)])
    (runE (modMill (fun m => { m with region := some [1, 0, 512, 3, 0, 0, 0, 0, 0] })) (put [(mill_CTRL_ENABLE, 0, 1)] hwReset))
def opened (f : MillLayerX → MillLayerX) : Hw :=
  runE (modLayerX 8191 (fun _ => f { opened := true, layer := layer8191.toNat, group := (group4095 0 0).toNat })) (milled 0)
def ones : List (BitVec 16) := List.replicate 128 0x3F80
def held0 : HeldChunk := { layer := 8191, unit := 0, sub := 0, data := [0x3F80, 0x3F80] }

theorem test_witness_MillIntake :
    let tag : BitVec 64 := 8191
    let closed := runE (modMill (fun m => { m with closed := true })) (milled 0)
    let got := opened (fun x => { x with got := [(0, 0)] })
    let ready := runE (modMill (fun m => { m with held := [held0] })) (opened id)
    let done := runE (setLw 8191 15 1 0 1) (opened (fun x => { x with next := 1 }))
    let waits := runE (modMill (fun m => { m with stalled := [(1, 8191)], held := List.replicate 1 held0 })) (opened id)
    let kept := opened (fun x => { x with pend := true })
    hostAway hwReset = false ∧ hostAway (milled 0) = false ∧ flag hwReset mill_CTRL_ENABLE 0 = false ∧ flag (after (.millEnableWrite true) hwReset) mill_CTRL_ENABLE 0 = true ∧
    flag (milled 0) mill_CTRL_ENABLE 0 = true ∧ flag (after (.millLinkDegraded 1 false false) hwReset) mill_STATUS_LINK1_UP 0 = false ∧
    (after (.millLinkDegraded 1 false false) (after (.millLinkDegraded 0 false false) hwReset)).mill.lost = true ∧
    millStalls (milled 0) 8191 = false ∧ (mlayerXOf (milled 0) 8191).opened = false ∧ (milled 0).mill.lost = false ∧
    millLink (milled 0) 8191 = some 1 ∧ linkWaits (milled 0) 1 = false ∧ linkWaits waits 1 = false ∧ millOn (milled 0) = true ∧ millOn done = true ∧
    millLink (after (.millLinkDegraded 1 false false) (milled 0)) 8191 = some 0 ∧ waitingLayers done = [] ∧
    (mlayerXOf kept 8191).pend = true ∧ (after (.chunk tag ones 0) kept).mill.held.map (·.future) = [true] ∧
    (mlayerXOf (after (.chunk tag ones 0) (opened (fun x => { x with stopped := true }))) 8191).recv = 1 ∧ layerBad (milled 0) 8190 = true ∧
    rawBit (after (.chunk 8190 ones 0) (milled 0)) ⟨.mill, 0⟩ 10 = true ∧
    layerBad (milled 1) 8191 = false ∧ grFrozen (mGroup (milled 1) 4095) = true ∧ getF (after (.chunk tag ones 0) (milled 1)) mill_FROZEN_HITS 0 = 1 ∧
    layerBad closed 8191 = false ∧ grFrozen (mGroup closed 4095) = false ∧ closed.mill.closed = true ∧ rawBit (after (.chunk tag ones 0) closed) ⟨.mill, 0⟩ 2 = true ∧
    layerBad (milled 0) 8191 = false ∧ grRule (mGroup (milled 0) 4095) = 0 ∧ chunkLen (mLayer (milled 0) 8191) false 0 0 = 2 ∧
    ((ones.map (·.toNat)).take 2).any isNanInf = false ∧ lyState (mLayer (after (.chunk tag ones 0) (milled 0)) 8191) = 1 ∧
    (mlayerXOf (after (.chunk tag ones 0) (milled 0)) 8191).recv = 1 ∧
    millStalls got 8191 = false ∧ (mlayerXOf got 8191).got = [(0, 0)] ∧ rawBit (after (.chunk tag ones 0) got) ⟨.mill, 0⟩ 4 = true ∧
    (([0x7F80] : List Nat).take 2).any isNanInf = true ∧ (mlayerXOf (opened id) 8191).got = [] ∧
    (mlayerXOf (after (.chunk tag (List.replicate 128 0x7F80) 0) (opened id)) 8191).stopped = true ∧
    (after (.chunk tag ones 0) (opened id)).mill.held.length = 1 ∧
    (after (.chunk tag ones 0) (opened (fun x => { x with stopped := true }))).mill.held = [] ∧
    nextChunk (opened id) 8191 = none ∧ nextChunk ready 8191 = some held0 ∧ momBase layer8191.toNat 0 + 8 * 2 ≤ momBase layer8191.toNat 1 ∧
    rdNat (after (.chunkConsume 8191) ready) .slow (514 * 4096) 4 = 0x3F000000 ∧
    phase1Ready done 8191 = true ∧ lyState (mLayer (after (.phase1Done 8191 0) done) 8191) = 2 ∧ phase1Ready (opened id) 8191 = false := by
  decide +kernel

/-- With 16 factored layers open a chunk of another is turned away, and its link waits. -/
theorem test_witness_MillIntake_stall :
    let full := runE (fun _ => .mgroups 4095 (group4095 1 0) ::
      (List.range 16).flatMap (fun l => [.mlayers l (BitVec.ofNat 512 (2 ^ 480)), .mlayerX l { opened := true, group := 1 }])) (milled 0)
    let tag : BitVec 64 := 8191
    millStalls full 8191 = true ∧ (after (.chunk tag ones 0) full).mill.stalled = [(1, 8191)] ∧
    linkWaits (after (.chunk tag ones 0) full) 1 = true := by decide +kernel

/-- Phase 2 of layer 8191 is next; its format comes from its ledger entry where `led` is given. -/
def phase2 (led : Option Nat) (f : MillX → MillX) : Hw :=
  let l := match led with
    | none => layer8191
    | some _ => layer8191 &&& ~~~(words512 [15 * 2 ^ 16])
  runE (modMill (fun m => f { m with p2 := [8191] }))
    (runE (modLayerX 8191 (fun _ => { layer := l.toNat, group := (group4095 0 0).toNat, pend := true, led := led.map (fun n => (n, false)) })) (milled 0))

theorem test_witness_MillUpdates :
    let s32 := phase2 none id
    let none' := phase2 (some 0) id
    let waits := phase2 none (fun m => { m with sec := some { bell := 0, step := 0, attempt := 0, batch := 0, clk := 0, unacked := [8191] } })
    let ends := phase2 none (fun m => { m with p2 := [], p2run := some 8191 })
    s32.mill.p2 = [8191] ∧ s32.mill.p2run = none ∧ millOn s32 = true ∧ (after (.phase2Layer 0) waits).mill = waits.mill ∧
    lyWfmt (mlayerXOf none' 8191).layer = 0 ∧ millLedger none' 8191 = some (0, false) ∧
    (isShort (workFormat (mlayerXOf none' 8191).layer (0, false)).1 || (workFormat (mlayerXOf none' 8191).layer (0, false)).1 == fmtW16) = false ∧
    rawBit (after (.phase2Layer 0) none') ⟨.mill, 0⟩ 10 = true ∧
    lyWfmt (mlayerXOf s32 8191).layer ≠ 0 ∧ grRule (mlayerXOf s32 8191).group = 0 ∧
    512 * 4096 + 5 * 2 ≤ momBase (mlayerXOf s32 8191).layer 1 ∧ (after (.phase2Layer 0) s32).mill.p2run = some 8191 ∧
    ends.mill.p2run = some 8191 ∧ ends.mill.lost = false ∧ (mlayerXOf (after (.phase2Done 0) ends) 8191).done = true := by decide +kernel

/-! Witnesses: the granary, memories, rings and host commands -/

def mill0 (f : MillX → MillX) (h : Hw) : Hw := runE (modMill f) h
/-- Own region of 512 pages, buddy region of 4096 pages, replay region of 1024 pages; the buddy is device 5. -/
def gran : Hw := put [(mill_CTRL_ENABLE, 0, 1)] (mill0 (fun m => { m with region := some [1, 0, 512, 512, 1024, 4096, 8192, 1024, 2 ^ 31 + 5] }) hwReset)
def secMsg (sub : Nat) (addr : Nat) (bs : List Byte) : Msg :=
  { typ := 6, sub := BitVec.ofNat 4 sub, dunit := 3, sdev := 5, daddr := BitVec.ofNat 40 addr, payload := bs }
/-- The same through the gate from quarter 0, padded as a sender pads it. -/
def inGate (m : Msg) : MsgIn := ⟨.gate 0, withPayload m m.payload⟩
def mine (h : Hw) (i : MsgIn) (typ sub : Nat) : Bool :=
  i.msg.crcOk && !msgReserved i.msg && !quarterGone h 0 && i.src == .gate 0 && i.msg.typ.toNat == typ && i.msg.sub.toNat == sub && !h.mill.lost
theorem mine_atMill (h : Hw) (i : MsgIn) (typ sub : Nat) (a : mine h i typ sub = true) : AtMill h i typ sub := by
  obtain ⟨src, m⟩ := i
  simp only [mine, Bool.and_eq_true, Bool.not_eq_true', beq_iff_eq] at a
  obtain ⟨⟨⟨⟨⟨⟨h1, h2⟩, h3⟩, h4⟩, h5⟩, h6⟩, h7⟩ := a
  subst h4
  exact ⟨⟨h1, h2, h3⟩, h5, h6, h7⟩
def copying (begun : Bool) (toSend unacked : List Nat) : Hw :=
  mill0 (fun m => { m with sec := some { bell := 1, step := 0, attempt := 0, batch := 0, clk := 0, begun := begun, toSend := toSend, unacked := unacked } }) gran

def ones64 : List Byte := List.replicate 64 1

theorem test_witness_CopiesSecured :
    let open' := runE (modLayerX 7 (fun x => { x with pend := true, step := 1 })) (copying true [7] [7])
    let q := (leBytes 4 7 : List Byte)
    buddyDev gran = some 5 ∧ millOn gran = true ∧
    layerSettled (copying true [7] [7]) 0 7 = true ∧ (after .secureLayerSend (copying true [7] [7])).mill.sec.map (·.toSend) = some [] ∧
    layerSettled open' 0 7 = false ∧ (after .secureLayerSend open').mill = open'.mill ∧
    (copying false [] [7]).mill.sec.map (·.toSend) = some [] ∧
    mine gran (inGate (secMsg 0 0 (List.replicate 28 1))) 6 0 = true ∧ secureOk gran (secMsg 0 0 (List.replicate 28 1)) = true ∧ regW gran 5 ≠ 0 ∧ (after (.secureBegin (inGate (secMsg 0 0 (List.replicate 28 1)))) gran).mill.rxHead.length = 28 ∧
    mine gran (inGate (secMsg 1 (smallBit + 64) ones64)) 6 1 = true ∧ secureOk gran (secMsg 1 (smallBit + 64) ones64) = true ∧ rd8 (after (.secureData (inGate (secMsg 1 (smallBit + 64) ones64))) gran) .slow 4096 = 1 ∧
    mine gran (inGate (secMsg 1 (smallBit + 63) ones64)) 6 1 = true ∧ secureOk gran (secMsg 1 (smallBit + 63) ones64) = true ∧ (after (.secureData (inGate (secMsg 1 (smallBit + 63) ones64))) gran).slow = gran.slow ∧
    mine gran (inGate (secMsg 1 (64 * 4096 - 1) ones64)) 6 1 = true ∧ secureOk gran (secMsg 1 (64 * 4096 - 1) ones64) = true ∧ 64 * (64 * 4096 - 1) + 64 ≤ regW gran 5 * 4096 ∧
    rd8 (after (.secureData (inGate (secMsg 1 (64 * 4096 - 1) ones64))) gran) .slow (4096 * (1024 + 4096) - 1) = 1 ∧
    regW gran 5 * 4096 < 64 * (64 * 4096) + 64 ∧ (after (.secureData (inGate (secMsg 1 (64 * 4096) ones64))) gran).slow = gran.slow ∧
    mine gran (inGate (secMsg 2 0 q)) 6 2 = true ∧ secureOk gran (secMsg 2 0 q) = true ∧ (after (.secureLayerEnd (inGate (secMsg 2 0 q))) gran).mill.rxEnds = [7] ∧
    mine gran (inGate (secMsg 4 0 [])) 6 4 = true ∧ secureOk gran (secMsg 4 0 []) = true ∧ flag (after (.secureComplete (inGate (secMsg 4 0 []))) gran) mill_GRAN_STATUS_BUDDY_VALID 0 = true ∧
    secureOk gran { secMsg 4 0 [] with sdev := 6 } = false ∧
    mine (now (st (copying true [] [7, 8])) 0) (inGate (secMsg 3 0 q)) 6 3 = true ∧ secureOk (now (st (copying true [] [7, 8])) 0) (secMsg 3 0 q) = true ∧ [7, 8].filter (· != 7) ≠ [] ∧
    (after (.secureAck (inGate (secMsg 3 0 q)) 0) (copying true [] [7, 8])).mill.sec.map (·.unacked) = some [8] ∧
    [7].filter (· != 7) = [] ∧ flag (after (.secureAck (inGate (secMsg 3 0 q)) 0) (copying true [] [7])) mill_GRAN_STATUS_COPY_VALID 0 = true ∧
    (after .secureAckTimeout (copying true [] [7])).mill.sec = none ∧
    (after .secureAckTimeout (runE (modGate (fun g => { g with stewWait := 2 })) (copying true [] [7]))).gate.failed = true ∧ gran.mill.sec = none ∧ (after .secureAckTimeout gran).mill = gran.mill ∧ hostAway gran = false ∧
    flag (after .secNow gran) mill_GRAN_CTRL_SEC_NOW 0 = true := by decide +kernel

theorem test_witness_SparesFilled :
    let held := put [(bellMaster_STATUS_HELD, 0, 1)] gran
    let fill := fun k => put [(mill_GRAN_STATUS_FILLING, 0, 1), (mill_FILL_SRC_DEVICE, 0, 5), (mill_FILL_SRC_KIND, 0, k)] gran
    let msg := fun (sub a : Nat) (bs : List Byte) => ({ typ := 5, sub := BitVec.ofNat 4 sub, dunit := 3, sdev := 5, daddr := BitVec.ofNat 40 a, payload := bs } : Msg)
    let ask := fun (kind id epoch : Nat) => msg 0 0 (leBytes 4 kind ++ leBytes 4 id ++ leBytes 4 epoch)
    let holder := mem .slow (1024 * 4096 + 32) (leBytes 4 3 ++ leBytes 4 5) (mem .slow (1024 * 4096 + 4) [2] gran)
    let k : Nat × Nat × List Byte := (5, 0, List.replicate 36 0)
    let keeps := mill0 (fun m => { m with toKeep := [k] }) gran
    let full := mill0 (fun m => { m with region := some [1, 0, 512, 512, 1024, 4096, 8192, 0, 2 ^ 31 + 5] }) keeps
    let logs := mill0 (fun m => { m with toLog := [tok 8] }) gran
    hostAway held = false ∧ millOn held = true ∧ jobHeld held = true ∧ flag held mill_GRAN_STATUS_FILLING 0 = false ∧ fillKind held ≠ 3 ∧ flag (after .fillGo held) mill_GRAN_STATUS_FILLING 0 = true ∧
    jobHeld gran = false ∧ (after .fillGo gran).mill = gran.mill ∧
    mine gran (inGate (ask 0 6 0)) 5 0 = true ∧ gran.mill.region.isSome = true ∧ buddyDev gran ≠ some 6 ∧ buddyDev gran = some 5 ∧ holdsCopy gran 5 = false ∧
    holdsCopy holder 5 = true ∧ 2 < rdNat holder .slow (buddyBase holder + 32) 4 ∧ rdNat holder .slow (buddyBase holder + 32) 4 ≤ 3 ∧
    mine gran (inGate (ask 1 5 0)) 5 0 = true ∧ (after (.fillRequest (inGate (ask 1 5 0))) gran).mill = gran.mill ∧ mine gran (inGate (ask 2 5 0)) 5 0 = true ∧
    mine (fill 0) (inGate (msg 1 smallBit ones64)) 5 1 = true ∧ fillOk (fill 0) (msg 1 smallBit ones64) = true ∧ fillKind (fill 0) = 0 ∧ rd8 (after (.fillData (inGate (msg 1 smallBit ones64))) (fill 0)) .slow (8192 * 4096) = 1 ∧
    fillKind (fill 1) ≠ 0 ∧ mine (fill 1) (inGate (msg 1 0 ones64)) 5 1 = true ∧ fillOk (fill 1) (msg 1 0 ones64) = true ∧ (after (.fillData (inGate (msg 1 0 ones64))) (fill 1)).mill.fillBuf = [(0, ones64)] ∧
    mine (fill 1) (inGate (msg 2 0 (leBytes 8 0 ++ leBytes 4 0))) 5 2 = true ∧ fillOk (fill 1) (msg 2 0 (leBytes 8 0 ++ leBytes 4 0)) = true ∧ (fill 1).mill.fillCrc ^^^ 0xFFFFFFFF = 0 ∧
    flag (after (.fillEnd (inGate (msg 2 0 (leBytes 8 0 ++ leBytes 4 0)))) (fill 1)) mill_GRAN_STATUS_FILL_DONE 0 = true ∧
    flag (after (.fillEnd (inGate (msg 2 0 (leBytes 8 1 ++ leBytes 4 0)))) (fill 1)) mill_GRAN_STATUS_FILL_FAIL 0 = true ∧
    mine (fill 1) (inGate (msg 3 0 [])) 5 3 = true ∧ fillOk (fill 1) (msg 3 0 []) = true ∧ flag (after (.fillRefuse (inGate (msg 3 0 []))) (fill 1)) mill_GRAN_STATUS_FILL_FAIL 0 = true ∧
    flag (after .fillTimeout (fill 1)) mill_GRAN_STATUS_FILLING 0 = false ∧ flag gran mill_GRAN_STATUS_FILLING 0 = false ∧ (after .fillTimeout gran).mill = gran.mill ∧ keeps.mill.lost = false ∧
    (after .noSpare gran).gateQ.map (·.code) = [23] ∧
    replayBytes keeps + up64 36 ≤ regW keeps 7 * 4096 ∧ (after .replayAppend keeps).mill.kept = [k] ∧
    regW full 7 * 4096 < replayBytes full + up64 36 ∧ flag (after .replayAppend full) mill_GRAN_STATUS_REPLAY_FULL 0 = true ∧
    logs.mill.toKeep = [] ∧ replayBytes logs + 40 ≤ regW logs 7 * 4096 ∧ (after .replayAppend logs).mill.bellLog = [tok 8] := by decide +kernel

theorem test_witness_SparesFilled_catchup :
    let k := (0, msgBytes put63)
    let h := put [(mill_GRAN_CTRL_CATCHUP, 0, 1), (bellMaster_CTRL_MASTER, 0, 1)]
      (bellOf (fun b => { b with lastEdge := some 0, slack := 50 }) (mill0 (fun m => { m with cuMsgs := [k] }) hwReset))
    h.bell.lastEdge = some 0 ∧ h.mill.cuMsgs.find? (fun k => k.1 == h.bell.edgeBell % 2 ^ 32) = some k ∧ catchingUp h = true ∧
    (now (st h) 50).clk ≤ 0 + h.bell.slack ∧ (after (.catchupDelivery 50) h).mill.cuMsgs = [k] ∧ 0 + h.bell.slack < (now (st h) 51).clk ∧
    (parseMsg k.2).typ = 1 ∧ beyond (parseMsg k.2) (parseMsg k.2).payload.length = false ∧ (parseMsg k.2).dunit.toNat ≤ 1 ∧
    touchesProt h 63 (parseMsg k.2).daddr.toNat (parseMsg k.2).payload.length = false ∧ (after (.catchupDelivery 51) h).mill.cuMsgs = [] := by decide +kernel

theorem test_witness_SparesFilled_sheet :
    let m : Msg := { put63 with typ := 3, sub := 1 }
    let k := (0, msgBytes m)
    let h := put [(mill_GRAN_CTRL_CATCHUP, 0, 1), (bellMaster_CTRL_MASTER, 0, 1), (reeve0_CTRL_ENABLE, 3, 1), (reeve0_PLAN_CTRL, 3, 1)]
      (bellOf (fun b => { b with lastEdge := some 0, slack := 50 }) (mill0 (fun m => { m with cuMsgs := [k] }) hwReset))
    let sh : Sheet := { recs := [(4, { total := 9 })] }
    (parseMsg k.2).typ = 3 ∧ (parseMsg k.2).sub = 1 ∧ (parseMsg k.2).dq.toNat = 3 ∧ 0 + h.bell.slack < (now (st h) 51).clk ∧
    (quarterX (after (.catchupDelivery 51 [] sh) h) 3).partials = [(0, sh)] := by decide +kernel

/-- R434's worked example. -/
theorem test_secure_n : secureN (6 * 10 ^ 9) 18000 (2 * 10 ^ 9) = 232 := by decide +kernel

theorem test_witness_MemoryKept :
    let h := put [(hbm0_CTRL_SCRUB_EN, 11, 1)] hwReset
    let k : Stack := 9
    let on := put [(hbm0_CTRL_SCRUB_EN, 9, 1)] hwReset
    let wb := runE (modGate (fun g => { g with writeBack := [(.commons, 64)] })) hwReset
    let full := runE (modGate (fun g => { g with poison := (List.range 64).map (fun n => (9, 4096 + 64 * n)) })) on
    (after (.eccWriteback .commons) wb).gate.writeBack = [] ∧ flag hwReset hbm0_CTRL_SCRUB_EN 9 = true ∧
    stackOf 3 0 = 9 ∧ quarterGone on 3 = false ∧ 64 * 0 < 96 * 2415919104 ∧
    getF (after (.scrubRead (.hbm k) 0 .corrected 0) on) hbm0_CE_COUNT 9 = 1 ∧
    isPoisoned (after (.scrubRead (.hbm k) 0 .uncorrectable 0) on) 3 0 = true ∧
    64 ≤ (stackPoison full 9).length ∧ isPoisoned full 3 0 = false ∧ (after (.scrubRead (.hbm k) 0 .uncorrectable 0) full).gate.failed = true ∧
    hbmMap (96 * 2415919104 - 1) = (2, 31, 2415919103) ∧ slowMap (slowSize - 1) = (23, 2 ^ 36 - 1) ∧ hbmChannel 31 = 15 ∧
    quarterGone hwReset 3 = false ∧ 64 * 196607 < 0xC00000 ∧ 0xC00000 ≤ 64 * 196608 ∧
    (after (.scrubRead (.barn 63) 196607 .corrected 0) hwReset).gate.writeBack = [(.barn, 64 * 0xC00000 - 64)] ∧
    getF (after (.scrubRead (.barn 63) 196607 .retried 0) hwReset) check_BARN_UE_RETRY_COUNT 63 = 1 ∧
    getF (after (.scrubRead (.barn 63) 196607 .uncorrectable 0) hwReset) check_BARN_ERR_ADDR_ADDR 63 = 0xC00000 / 8 - 8 ∧
    (after (.scrubRead (.barn 63) 196608 .uncorrectable 0) hwReset).gate.faultStep = [] ∧
    64 * 1048575 < 0x4000000 ∧ 0x4000000 ≤ 64 * 1048576 ∧
    getF (after (.scrubRead (.commons 3) 1048575 .corrected 0) hwReset) commons_CE_COUNT 3 = 1 ∧
    (after (.scrubRead (.commons 3) 1048575 .uncorrectable 0) hwReset).gate.dataNow = [(3, 0, 1, 0x4000000 - 64)] ∧
    (after (.scrubRead (.commons 3) 1048576 .uncorrectable 0) hwReset).gate.dataNow = [] ∧
    hwReset.gate.linkDown = false ∧ hwReset.gate.off = false ∧
    (after (.hostMemRead 0 .clean 0) (runE (modGate (fun g => { g with linkDown := true })) hwReset)).outbox = [] ∧
    rd8 (after (.hostMemWrite 1 [7] false [⟨2, 7, .corrected⟩]) hwReset) .hbm 1 = 7 ∧
    getF (after (.hostMemWrite 1 [7] false [⟨2, 7, .corrected⟩]) hwReset) hbm0_CE_COUNT 0 = 1 ∧
    (after (.slowScrubPass 23 1 1) hwReset).mill.lost = true ∧
    getF (after (.hbmTempRead 11 255) h) hbm0_TEMP 11 = 255 ∧ rawBit (after (.hbmTempRead 11 95) h) ⟨.hbm0, 11⟩ 6 = true ∧
    flag (after (.hbmTempRead 11 84) h) hbm0_STATUS_HOT 11 = false ∧
    (after (.slowScrubPass 23 1 1) hwReset).gateQ.map (·.code) = [24, 25] ∧
    (after (.hostMemRead (4 * hbmD - 1) .uncorrectable 0) hwReset).outbox.length = 1 ∧
    isPoisoned (after (.hostMemRead (4 * hbmD - 1) .uncorrectable 0) hwReset) 3 (hbmD - 64) = true ∧
    rd8 (after (.hostMemWrite (4 * hbmD - 64) (List.replicate 64 7) true) hwReset) .hbm (4 * hbmD - 1) = 7 ∧
    isPoisoned (after (.hostMemWrite (4 * hbmD - 64) (List.replicate 64 7) true) hwReset) 3 (hbmD - 64) = true ∧
    quarterInReset (put [(reset_STATUS_IN_RESET, 0, 8)] hwReset) 3 = true ∧
    (after (.hostMemRead (4 * hbmD - 64) .clean 0) (put [(reset_STATUS_IN_RESET, 0, 8)] hwReset)).outbox = [.hostData (List.replicate 64 0xFF) true] ∧
    (after (.hbmTrainFail 11) hwReset).gate.failed = true ∧
    flag (after (.selfRefreshReturn 11) (put [(reset_STATUS_IN_FALLOW, 0, 1)] hwReset)) hbm0_STATUS_SELF_REFRESH 11 = true ∧
    flag hwReset reset_STATUS_IN_FALLOW 0 = false := by decide +kernel

/-- Ring 7 runs, with queues of two entries at host addresses 0 and 4096. -/
def ring7 (f : RingX → RingX) (h : Hw) : Hw :=
  runE (modRing 7 f) (put [(hostRings_RING_CTRL_EN 7, 0, 1), (hostRings_RING_STATUS_STATE 7, 0, rgRunning), (hostRings_RING_CFG_SQ_LOG 7, 0, 1),
    (hostRings_RING_CFG_CQ_LOG 7, 0, 1), (hostRings_CQ_BASE_LO 7, 0, 1)] h)

theorem test_witness_RingsRun :
    let h := ring7 id hwReset
    let cmd := ring7 (fun x => { x with cmd := some [3], moved := 2 }) hwReset
    let ended := ring7 (fun x => { x with cmd := some [0x10001], result := some (1, 5), cqTail := 1, cqUsed := 1 }) hwReset
    let full := ring7 (fun x => { x with cmd := some [0x10001], result := some (1, 5), cqUsed := 2 }) hwReset
    let down := runE (modGate (fun g => { g with linkDown := true, linkLost := true })) hwReset
    hostAway down = true ∧ (after (.sqDoorbell 7 1) down).rings = down.rings ∧ hostAway h = false ∧
    flag hwReset (hostRings_RING_CTRL_EN 7) 0 = false ∧ ringState hwReset 7 = rgDisabled ∧ ringState (after (.ringEnable 7) hwReset) 7 = rgRunning ∧
    flag h (hostRings_RING_CTRL_EN 7) 0 = true ∧ (ringX h 7).cmd = none ∧ ringState (after (.ringDisable 7) h) 7 = rgDisabled ∧
    ringState cmd 7 = rgRunning ∧ (ringX cmd 7).cmd = some [3] ∧ (ringX cmd 7).result = none ∧ (ringX (after (.ringDisable 7) cmd) 7).result = some (4, 8192) ∧
    (ringX (after (.abort 7) cmd) 7).result = some (4, 8192) ∧ rawBit (after (.abort 7) h) ⟨.hostRings, 0⟩ 4 = true ∧
    (1 : Word).toNat < sqSize h 7 ∧ (ringX (after (.sqDoorbell 7 1) h) 7).sqTail = 1 ∧ sqSize h 7 ≤ (2 : Word).toNat ∧
    rawBit (after (.sqDoorbell 7 2) h) ⟨.hostRings, 0⟩ 3 = true ∧ (ringX (after (.cqDoorbell 7 1) full) 7).cqUsed = 1 ∧
    cqSize full 7 ≤ (ringX full 7).cqUsed ∧ (ringX (after (.commandComplete 7 true) full) 7).cqWait = true ∧
    (ringX ended 7).cqUsed < cqSize ended 7 ∧ (ringX (after (.commandComplete 7 true) ended) 7).phase = false ∧
    rdNat (after (.commandComplete 7 true) ended) .hostMem (4096 + 16) 8 ≠ 0 ∧ ringState (after (.commandComplete 7 false) ended) 7 = rgError := by decide +kernel

theorem test_witness_RingsRun_link :
    let h := ring7 id hwReset
    let cmd := ring7 (fun x => { x with cmd := some [3], moved := 2 }) hwReset
    let pend := ring7 (fun x => { x with irqPend := 1 }) (put [(hostRings_IRQ_CFG_IRQ_DELAY 7, 0, 1)] hwReset)
    let msix := fun (on : Bool) (m : Word) => runE (fun _ => [.msix (0x202000 + 16 * 7 + 12) m]) (runE (modGate (fun g => { g with msixOn := on })) pend)
    let irq := msix true 0
    let down := runE (modGate (fun g => { g with linkDown := true, linkLost := true })) hwReset
    let flr := runE (modGate (fun g => { g with flr := true })) hwReset
    (ringX irq 7).irqPend ≠ 0 ∧ getF irq (hostRings_IRQ_CFG_IRQ_DELAY 7) 0 ≠ 0 ∧ 
    irq.gate.msixOn = true ∧ getF irq (hostRings_RING_CFG_VEC 7) 0 = 7 ∧ msixHeld irq 7 = false ∧
    (after (.irqDelayExpire 7) irq).outbox = [.msix 7] ∧ msixHeld (msix true 1) 7 = true ∧
    smGet msixDflt (after (.irqDelayExpire 7) (msix true 1)).msix 0x203000 = 128 ∧ (after (.irqDelayExpire 7) (msix false 0)).outbox = [] ∧
    (ringX (after (.ringDisable 7) pend) 7).irqPend = 1 ∧ cmdOp [2] ∈ [1, 2, 4, 5] ∧
    (ringX (after .hostLinkLoss (ring7 (fun x => { x with cmd := some [2, 0, 64], moved := 64 }) hwReset)) 7).result = some (10, 128) ∧
    (after (.hostLinkUp 16 false false { enable := true, mask := true }) down).gate.msixMask = true ∧
    (after (.flrDone { enable := true }) flr).gate.msixOn = true ∧ (after .flr irq).gate.msixOn = false ∧
    (ringX h 7).irqPend = 0 ∧ h.gate.linkDown = false ∧ (ringX (after .hostLinkLoss cmd) 7).result.map (·.1) = some 10 ∧
    down.gate.linkDown = true ∧ down.gate.perst = false ∧ down.gate.off = false ∧ down.stew.bootFailed = false ∧
    getF (after (.hostLinkUp 8 true true) down) hostRings_RETRAIN_COUNT 0 = 1 ∧ (after (.hostLinkUp 4 true true) down).gate.linkDown = true ∧
    h.gate.warmRuns = false ∧ h.gate.moduleRuns = false ∧ ringX (after .flr cmd) 7 = {} ∧ flr.gate.flr = true ∧
    rawBit (after .flrDone flr) ⟨.hostRings, 0⟩ 7 = true ∧ h.gate.flr = false ∧ (after .flrDone h).gate.msixOn = h.gate.msixOn := by decide +kernel

/-- A command descriptor stands at the head of ring 7's submission queue. -/
def queued (ws : List Nat) (h : Hw) : Hw := mem .hostMem 0 (ws.flatMap (leBytes 8)) (ring7 (fun x => { x with sqTail := 1 }) h)
def running7 (ws : List Nat) (moved : Nat) (h : Hw) : Hw := ring7 (fun x => { x with cmd := some ws, moved := moved }) h

theorem test_witness_HostCommands :
    let bad := queued [9, 0, 0, 0, 0, 0, 0, 0] hwReset
    let nop := queued [0x10000, 0, 0, 0, 0, 0, 0, 0] hwReset
    let hbm := 2 ^ 39 + 3 * 2 ^ 40 + 64
    hostAway nop = false ∧ (ringX nop 7).cmd = none ∧ nextRing nop = some 7 ∧ cmdOp (readSq nop 7) = 0 ∧ cmdStatus nop (readSq nop 7) = 0 ∧
    (ringX (after (.hostNop 7) nop) 7).result = some (0, 0) ∧ sqHead (after (.hostNop 7) nop) 7 = 1 ∧
    nextRing (queued [1, 0, 0, 0, 0, 0, 0, 0] hwReset) = some 7 ∧ cmdStatus hwReset [1, 0, 0, 0, 0, 0, 0, 0] = 2 ∧
    ((ringX (after (.copyIn 7 1 [] false) (queued [1, 0, 0, 0, 0, 0, 0, 0] hwReset)) 7).result.map (·.1)) = some 2 ∧ cmdStatus bad (readSq bad 7) = 1 ∧
    (ringX (after (.seal 7 0 [] true) bad) 7).result.map (·.1) = some 1 ∧
    cmdStatus hwReset [1, 0, hbm + 1, 64] = 3 ∧ cAddr [1, 0, hbm + 1, 64] % 64 ≠ 0 ∧
    (ringX (after (.copyIn 7 1 [] true) (queued [1, 0, hbm + 1, 64, 0, 0, 0, 0] hwReset)) 7).result = some (3, 64) := by decide +kernel

theorem test_witness_HostCommands_copies :
    let hbm := 2 ^ 39 + 3 * 2 ^ 40 + 64
    let cin := mem .hostMem 63 [5] (running7 [1, 2 ^ 64 - 1, hbm, 64] 0 hwReset)
    let cout := mem .hbm (3 * hbmD + 64) [6] (running7 [2, 8192, hbm, 128] 0 hwReset)
    let sl := running7 [3, 0, hbm, 8192] 2 hwReset
    let wr := mem .hostMem 8192 [7] (running7 [4, 8192, 4096, 64] 0 hwReset)
    let rd := mem .slow 4096 [8] (running7 [5, 8192, 4096, 64] 0 hwReset)
    let go := put [(croft_PROG_REGION_SIZE, 63, 1)] (running7 [6, 2 ^ 63, 0, 0] 0 hwReset)
    let stop := running7 [7, 2 ^ 63, 0, 0] 0 live
    let bell := bellOf (fun b => { b with lastEdge := some 0, edgeBell := 9 }) (running7 [8, 9, 0, 0] 0 hwReset)
    let bad2 := runE (modGate (fun g => { g with poison := [(stackOf 3 128, 128)] })) cout
    (ringX (after (.copyIn 7 1 [] true) cin) 7).result = some (5, 64) ∧
    readStop cout 2 3 48 64 64 false [⟨2, 64, .corrected⟩] = none ∧
    ([⟨2, 64, .corrected⟩] : List MemErr).all (fun e => e.case != .uncorrectable) = true ∧
    readStop cout 2 3 48 64 128 false [⟨2, 130, .uncorrectable⟩] = some (128, 128, 6) ∧
    (ringX (after (.copyOut 7 2 [⟨2, 130, .uncorrectable⟩] false) cout) 7).result = some (6, 128) ∧
    (cout.gate.poison = [] ∧ readStop bad2 2 3 48 64 128 false [] = some (128, 128, 6)) ∧ rd8 (after (.copyOut 7 2 [] false) bad2) .hostMem 8192 = 6 ∧
    quarterAway (put [(reset_STATUS_PARKED, 0, 8)] cout) 3 = true ∧
    (ringX (after (.copyOut 7 1 [] false) (put [(reset_STATUS_PARKED, 0, 8)] cout)) 7).result = some (6, 64) ∧
    (ringX (after (.hostNop 7) (running7 [0] 0 hwReset)) 7).result = some (0, 0) ∧
    0 < stepBytes [1, 2 ^ 64 - 1, hbm, 64] (ringX cin 7) 1 ∧ quarterAway cin 3 = false ∧
    rd8 (after (.copyIn 7 1 [] false) (running7 [1, 2 ^ 64 - 1, hbm, 64] 0 cin)) .hbm (3 * hbmD + 128) = 0 ∧
    (ringX (after (.copyIn 7 1 [] false) cin) 7).result = some (0, 64) ∧
    0 < stepBytes [2, 8192, hbm, 128] (ringX cout 7) 1 ∧ bit ([2, 8192, hbm, 128].getD 2 0) 47 = false ∧ cout.gate.poison = [] ∧
    rd8 (after (.copyOut 7 1 [] false) cout) .hostMem 8192 = 6 ∧ (ringX (after (.copyOut 7 1 [] false) cout) 7).moved = 64 ∧
    ((spanTiles [(cAddr [3, 0, hbm, 8192], cLen [3, 0, hbm, 8192])]).drop 2).take (64 / 64) = [2] ∧ (ringX sl 7).moved = 2 ∧
    rd8 (after (.slowWrite 7 1 [] false) wr) .slow 4096 = 7 ∧ rd8 (after (.slowRead 7 1 [] false) rd) .hostMem 8192 = 8 ∧
    63 ∈ crofsOf go (2 ^ 63) ∧ strmState (after (.croftStart 7) go) 191 = 1 ∧ croftRunning stop 63 = true ∧ flag (after (.croftStop 7) stop) croft_STATUS_STOPPING 63 = true ∧
    (crofsOf stop (2 ^ 63)).any (croftRunning (after (.croftStop 7) stop)) = true ∧ (ringX (after (.croftStop 7) stop) 7).result = none ∧
    (crofsOf go (2 ^ 63)).any (croftRunning (after (.croftStop 7) (running7 [7, 2 ^ 63, 0, 0] 0 hwReset))) = false ∧
    bellMet bell 9 = true ∧ (ringX (after (.bellWait 7) bell) 7).result = some (0, 9) ∧ bellMet bell 10 = false := by decide +kernel

/-! Witnesses: the watch, power and resets -/

def chk (d : List Capture) (h : Hw) : Hw := runE (modCroft 63 (fun x => { x with diag := d })) h
def gateOf (f : GateX → GateX) (h : Hw) : Hw := runE (modGate f) h

theorem test_witness_WatchDecides_diagnosis :
    let cell : Capture := { clk := 0, field := 3, row := 255, col := 255, kind := 3 }
    let prod : Capture := { clk := 0, field := 3, row := 255, col := 255, kind := 1, va := 3, vw := -5, p := -15 }
    let one := chk [cell] hwReset
    let again := put [(check_MARK_VALID 7, 63, 1), (check_MARK_ROW 7, 63, 255), (check_MARK_COL 7, 63, 255), (check_MARK_FIELD 7, 63, 3), (check_MARK_KIND 7, 63, 3)] one
    let full := put ((List.range 8).map (fun m => (check_MARK_VALID m, 63, 1))) one
    let bad := fun (f b : Bool) (last : Option Nat) (w : Nat) => gateOf (fun g => { g with faultStep := last.toList.map (fun l => (63, l)) })
      (runE (modBell (fun b => { b with lastStep := some (9, 0) })) (put [(watch_QUAR_WINDOW, 0, w)] (chk [{ cell with stored := 1, forced := f, watch := b }] hwReset)))
    let go := after (.checkDiagnosis 63 0)
    (croftX hwReset 63).diag = [] ∧ (go hwReset).crofts = hwReset.crofts ∧ parityBits cell.value 12 3 = cell.stored ∧ (1 : Nat) ≠ 0 ∧
    rawBit (go (chk [prod] hwReset)) ⟨.check, 63⟩ 0 = true ∧ prod.va * prod.vw = prod.p ∧ (3 : Int) * 5 ≠ 14 ∧
    rawBit (go (chk [{ prod with p := 14 }] hwReset)) ⟨.check, 63⟩ 1 = true ∧
    (croftX one 63).diag = [cell] ∧ markedCell one 63 3 255 255 3 = false ∧ flag one (check_MARK_VALID 7) 63 = false ∧
    markedCell (go one) 63 3 255 255 3 = true ∧ markedCell again 63 3 255 255 3 = true ∧
    (List.range 8).all (fun m => flag full (check_MARK_VALID m) 63) = true ∧ markedCell full 63 3 255 255 3 = false ∧
    quarantined (go full) 63 = true ∧
    (go (bad false false none 0)).bell.reach = List.range 64 ∧ (go (bad true false none 0)).bell.reach = [] ∧ (go (bad false true none 0)).bell.reach = [] ∧
    (bad false false none 0).gate.faultStep.find? (fun y => y.1 == 63) = none ∧ quarantined (go (bad false false none 0)) 63 = false ∧
    (bad true false (some 5) 4).gate.faultStep.find? (fun y => y.1 == 63) = some (63, 5) ∧ (stepAttempt (bad true false (some 5) 4)).1 = 9 ∧
    quarantined (go (bad true false (some 5) 4)) 63 = true ∧ quarantined (go (bad true false (some 5) 3)) 63 = false := by decide +kernel

/-- One slot of the window is left, and some crofts are quarantined. -/
def windowOf (quars : List Nat) (f : GateX → GateX) : Hw :=
  gateOf f (put ((watch_SLOTS, 0, 1) :: quars.map (fun c => (croft_STATUS_QUARANTINED, c, 1))) hwReset)
def voteOf (third : Option Nat) (inj : Bool) : VoteX := { subject := 63, twin := 15, third := third, xs := [1], xt := [2], injected := inj }

theorem test_witness_WatchDecides_slot :
    let h := windowOf [] id
    let two := windowOf ((List.range 64).filter (fun c => c != 47 && c != 63)) id
    let busy := put [(field_STATUS_OWNER, 60, 1)] h
    let none' := windowOf (List.range 64) id
    let go := after (.watchSlot 0)
    hwReset.gate.slotNo = getF hwReset watch_SLOTS 0 ∧ (go hwReset).gate.slotNo = hwReset.gate.slotNo ∧
    h.gate.slot = none ∧ h.gate.slotNo < getF h watch_SLOTS 0 ∧ h.gate.winStart + 2048 * h.gate.slotNo ≤ (now (st h) 0).clk ∧
    flag h bellMaster_STATUS_HELD 0 = false ∧ rotSubject 0 = 0 ∧ rotOthers h 0 = [16, 32, 48] ∧ croftTaken h 0 = false ∧ croftTaken h 16 = false ∧
    (go h).gate.slot = some (0, some 16, 0) ∧ (go h).gate.watchCrofts = [0, 16] ∧ flag (go h) field_STATUS_BUSY 67 = true ∧
    accOf (go h) 67 65535 = 0 ∧  croftTaken h 15 = false ∧ croftTaken busy 15 = true ∧ croftTaken (put [(field_STATUS_OWNER, 0, 1)] h) 0 = true ∧
    (go (put [(field_STATUS_OWNER, 0, 1)] h)).gate.slot = none ∧ getF (go (put [(field_STATUS_OWNER, 64, 1)] h)) watch_MISSED 0 = 1 ∧
    rotSubject 62 = 47 ∧ quarantined two 47 = false ∧ rotOthers two 47 = [63] ∧
    (List.range 62).all (fun k => quarantined two (rotSubject k)) = true ∧ (go two).gate.slot = some (47, some 63, 0) ∧ watchJ (go two) = 62 ∧
    (List.range 64).all (quarantined none') = true ∧ watchJ (go none') = 64 ∧ rawBit (go none') ⟨.watch, 0⟩ 6 = true := by decide +kernel

theorem test_witness_WatchDecides_votes :
    let vote := fun (q : List Nat) (t : Option Nat) (inj : Bool) => windowOf q (fun g => { g with votes := [voteOf t inj] })
    let voteBusy := put [(field_STATUS_OWNER, 4 * 31, 1)] (vote [] (some 31) false)
    let owed := windowOf [] (fun g => { g with owed := [3] })
    let owedBusy := put [(field_STATUS_OWNER, 4 * 48, 1)] owed
    let go := after (.watchSlot 0)
    quarantined (vote [] (some 31) false) 31 = false ∧ croftTaken (vote [] (some 31) false) 31 = false ∧
    (go (vote [] (some 31) false)).gate.slot = some (63, some 31, 1) ∧ croftTaken voteBusy 31 = true ∧ (go voteBusy).gate.slot = none ∧
    (go (vote [] none false)).bell.holdReq = true ∧ quarantined (vote [31] (some 31) true) 31 = true ∧
    (go (vote [31] (some 31) true)).bell.holdReq = false ∧ (go (vote [31] (some 31) true)).gate.votes = [] ∧
    owedSubject owed 3 = some 48 ∧ rotOthers owed 48 = [0, 16, 32] ∧ (go owed).gate.slot = some (48, some 0, 2) ∧
    croftTaken owedBusy 48 = true ∧ (go owedBusy).gate.owed = [3] := by decide +kernel

theorem test_witness_WatchDecides_compare :
    let slot := fun (use : Nat) => gateOf (fun g => { g with slot := some (63, some 15, use) }) hwReset
    let last := put [(watch_SLOT_LO, 0, 63)] (slot 0)
    let inj := put [(watch_CTRL_INJ_TWIN, 0, 1)] (slot 0)
    let vote := fun (b : Bool) => gateOf (fun g => { g with slot := some (63, some 31, 1), votes := [voteOf (some 31) b] }) hwReset
    let go := fun (xs xt : List Word) => after (.watchCompare xs xt 0)
    let hit : WatchErr := ⟨true, 0, { field := 0, row := 0, col := 0, kind := .path, delta := 0 }⟩
    let off := after (.watchCompare [1] [1] 0 [hit]) (slot 0)
    hwReset.gate.slot = none ∧ (go [1] [2] hwReset).gate.votes = hwReset.gate.votes ∧ getF off check_PATH_FAULTS 15 = 1 ∧ getF off check_WATCH_SLOTS 63 = 1 ∧
    inCloseClk (slot 0) = false ∧ off.bell.reach = [] ∧ [hit].any (fun e => (if e.twin then 15 else 63) == 15 && e.err.kind == .path) = true ∧
    flag (vote false) field_CTRL_INJ_RESIDUE (4 * 31 + 3) = false ∧ afterTwin 63 15 = [31, 47] ∧ flag (slot 0) watch_CTRL_INJ_TWIN 0 = false ∧
    (go [1] [1] (slot 0)).gate.votes = [] ∧ ((go [1] [2] (slot 0)).gate.votes.map (·.third)) = [some 31] ∧ hostAway hwReset = false ∧
    watchJ last = 63 ∧ getF (go [1] [1] last) watch_ROTATIONS 0 = 1 ∧ watchJ (go [1] [1] (slot 2)) = 0 ∧
    flag inj watch_CTRL_INJ_TWIN 0 = true ∧ ((go [1] [1] inj).gate.votes.map (·.xt)) = [[0xFFFFFFFE]] ∧
    (voteOf (some 31) false).third = some 31 ∧ quarantined (go [1] [] (vote false)) 15 = true ∧ quarantined (go [1] [] (vote false)) 63 = false ∧
    quarantined (go [2] [] (vote false)) 63 = true ∧ quarantined (go [3] [] (vote false)) 31 = true ∧
    rawBit (go [3] [] (vote true)) ⟨.watch, 0⟩ 3 = true ∧ quarantined (go [3] [] (vote true)) 31 = false ∧
    (vote true).gate.slot = some (63, some 31, 1) ∧
    flag (after .injTwin hwReset) watch_CTRL_INJ_TWIN 0 = true ∧ quarantined hwReset 63 = false ∧
    quarantined (after (.quarantine 63) hwReset) 63 = true ∧ (after (.quarantine 63) (windowOf [63] id)).gate.quarNew = [] ∧
    croftRunning (windowOf [63] id) 63 = false ∧ quarantined (after (.quarantineClr 63) (windowOf [63] id)) 63 = false ∧
    (after (.quarantineClr 63) hwReset).regs = hwReset.regs ∧ croftRunning live 63 = true := by decide +kernel

/-- The input is lost. -/
def dark : Hw := gateOf (fun g => { g with off := true }) hwReset

theorem test_witness_PowerEvents :
    let brown := put [(power_STATUS_BROWNOUT, 0, 1)] hwReset
    let rung := runE (modBell (fun b => { b with lastEdge := some 0 })) hwReset
    dark.gate.off = true ∧ (after .inputLoss dark).regs = dark.regs ∧ (after (.powerOn [] true) hwReset).regs = hwReset.regs ∧
    hwReset.gate.off = false ∧ (after .inputLoss hwReset).stew.alive = false ∧
    dark.stew.seq + 8 < 2 ^ 48 ∧ dark.stew.erasing = none ∧ (after (.powerOn [] false) dark).stew.bootFailed = true ∧
    bookSlot (after (.powerOn [255] false) dark) 0 ≠ 0 ∧ dark.stew.seq ≤ recSeq (bookSlot (after (.powerOn [0] false) dark) 0) ∧
    (after (.brownout 65535) brown).regs = brown.regs ∧ flag (after (.brownout 65535) hwReset) power_STATUS_BROWNOUT 0 = true ∧
    rung.bell.lastEdge.isSome = true ∧ flag (after (.brownout 0) rung) power_STATUS_TOUCHED 0 = true ∧
    flag (after (.brownout 0) hwReset) power_STATUS_TOUCHED 0 = false ∧ (after (.brownoutEnd 0) hwReset).regs = hwReset.regs ∧
    getF (after (.brownoutEnd 65535) brown) power_BROWNOUT_MIN 0 = 65535 ∧ hwReset.stew.alive = true ∧
    getF (after (.undervolt 0) hwReset) reset_LAST_CAUSE 0 = 3 ∧
    (after (.undervolt 0) dark).regs = dark.regs ∧ getF (after (.overvolt 65535) hwReset) power_VIN 0 = 65535 ∧
    rawBit (after (.powerHigh 3001) hwReset) ⟨.power, 0⟩ 3 = true ∧ rawBit (after (.powerHigh 3000) hwReset) ⟨.power, 0⟩ 3 = false := by decide +kernel

theorem test_witness_PowerEvents_samples :
    let sel := put [(power_RAIL_SEL, 0, 56)] hwReset
    let hot := gateOf (fun g => { g with warn := [71], crit := [71] }) hwReset
    railSetpoint 57 = none ∧ (after (.railSample 57 1 1 true) hwReset).regs = hwReset.regs ∧ railSetpoint 56 = some 3300 ∧ railSetpoint 0 = some 750 ∧
    getF sel power_RAIL_SEL 0 = 56 ∧ getF (after (.railSample 56 3201 7 false) sel) power_RAIL_DATA_MV 0 = 3201 ∧
    rawBit (after (.railSample 56 3201 7 false) sel) ⟨.power, 0⟩ 6 = false ∧ rawBit (after (.railSample 56 3200 7 false) sel) ⟨.power, 0⟩ 6 = true ∧
    rawBit (after (.railSample 56 3399 7 false) sel) ⟨.power, 0⟩ 6 = false ∧ rawBit (after (.railSample 56 3400 7 false) sel) ⟨.power, 0⟩ 6 = true ∧
    thresholds 71 = (85, 95, 105) ∧ (after (.tempSample 71 85) hwReset).gate.warn = [71] ∧ (after (.tempSample 71 84) hwReset).gate.warn = [] ∧
    (after (.tempSample 71 81) hot).gate.warn = [71] ∧ (after (.tempSample 71 80) hot).gate.warn = [] ∧
    (after (.tempSample 71 95) hwReset).bell.reach = List.range 64 ∧ (after (.tempSample 71 90) hot).gate.crit = [] ∧
    (after (.tempSample 71 104) hwReset).gate.moduleRuns = false ∧
    getF (after (.tempSample 75 85) hwReset) power_THERM_SENSOR_SENSOR 0 = 0 ∧
    (quarterX (after (.pllUnlock (.quarterTree 3)) hwReset) 3).dead = true ∧ portState (after (.pllUnlock (.causewayRef 3)) up31) 31 = stDark ∧
    (after (.pllUnlock .gatePll) dark).regs = dark.regs ∧
    quarterGone hwReset 3 = false ∧ rawBit (after (.qpowerSample 3 481) hwReset) ⟨.dyke, 3⟩ 1 = true ∧
    rawBit (after (.qpowerSample 3 480) hwReset) ⟨.dyke, 3⟩ 1 = false ∧ quarterGone gone3 3 = true ∧ (after (.qpowerSample 3 1) gone3).regs = gone3.regs := by
  decide +kernel

theorem test_witness_ResetsDone :
    let warming := gateOf (fun g => { g with warmRuns := true, linkDown := true }) hwReset
    let modl := gateOf (fun g => { g with moduleRuns := true, booted := true, linkDown := true }) hwReset
    hwReset.gate.warmRuns = false ∧ hwReset.gate.moduleRuns = false ∧ hwReset.gate.off = false ∧
    (after (.warm 0x5A17) warming).regs = warming.regs ∧ hostAway hwReset = false ∧
    rawBit (after (.warm 0x5A16) hwReset) ⟨.reset, 0⟩ 7 = true ∧ (after .cxlReset warming).regs = warming.regs ∧
    (after .perstFall warming).gate.perst = true ∧ (after .perstRise (after .perstFall warming)).gate.perst = false ∧
    warming.gate.perst = false ∧ warming.stew.bootFailed = false ∧ rawBit (after .warmDone warming) ⟨.reset, 0⟩ 0 = true ∧
    flag (after .warmDone warming) hbm0_STATUS_TRAINED 11 = true ∧ (after .warmDone hwReset).regs = hwReset.regs ∧
    (after (.warmDone { enable := true, mask := true }) warming).gate.msixMask = true ∧ flag (after .warmDone warming) mill_STATUS_LINK1_UP 0 = true ∧
    stewUp hwReset .host = true ∧ stewUp hwReset .mctp = true ∧ hwReset.stew.erasing = none ∧
    (after .moduleResetDone hwReset).regs = hwReset.regs ∧ modl.gate.booted = true ∧ modl.gate.moduleRuns = true ∧ modl.gate.perst = false := by decide +kernel

theorem test_witness_ResetsDone_parts :
    let down := put [(reset_STATUS_IN_RESET, 0, 8), (reset_QUARTER_RESET, 0, 8)] (gateOf (fun g => { g with parkNext := [3] }) hwReset)
    let asked := put [(reset_PARK, 0, 8)] (gateOf (fun g => { g with parking := [3] }) hwReset)
    let parked := put [(reset_STATUS_PARKED, 0, 8), (reset_PARK, 0, 8)] hwReset
    let unpark := gateOf (fun g => { g with unparking := [3] }) parked
    let p2 := runE (modMill (fun m => { m with p2run := some 7 })) (runE (modLayerX 7 (fun x => { x with layer := 2 ^ 512 - 1 })) hwReset)
    let crofts := put [(reset_CROFT_RESET_HI, 0, 2 ^ 31)] hwReset
    quarterInReset hwReset 3 = false ∧ quarterParked hwReset 3 = false ∧ hwReset.gate.watchCrofts = [] ∧ hostAway hwReset = false ∧
    phase2In p2 3 = true ∧ (after (.quarterReset 3) p2).gate.failed = true ∧ portUp up31 31 = true ∧ chanQ (portX up31 31) 3 = [] ∧
    quarterInReset (after (.quarterReset 3) live) 3 = true ∧ strmState (after (.quarterReset 3) live) 191 = 0 ∧
    (after (.quarterReset 3) parked).regs = parked.regs ∧ quarterInReset down 3 = true ∧ (after (.quarterDone 3) down).gate.parking = [3] ∧
    (after (.quarterDone 3) hwReset).regs = hwReset.regs ∧ bit (getF down reset_PARK 0) 3 = false ∧ (after (.park 3 true) down).gate.parkNext = [3, 3] ∧
    (List.range 48).all (fun k => strmState hwReset (144 + k) == 0) = true ∧ (after (.park 3 true) hwReset).gate.parking = [3] ∧
    strmState live (3 * (16 * 3 + 15) + 2) ≠ 0 ∧ rawBit (after (.park 3 true) live) ⟨.reset, 0⟩ 7 = true ∧
    bit (getF parked reset_PARK 0) 3 = true ∧ (after (.park 3 false) parked).gate.unparking = [3] ∧ (after (.park 3 true) parked).regs = parked.regs ∧
    3 ∈ asked.gate.parking ∧ quarterParked (after (.parked 3) asked) 3 = true ∧ (after (.parked 3) hwReset).regs = hwReset.regs ∧
    3 ∈ unpark.gate.unparking ∧ flag (after (.unparked 3) unpark) hbm0_STATUS_TRAINED 11 = true ∧ (after (.unparked 3) hwReset).regs = hwReset.regs ∧
    quarterGone parked 3 = true ∧ (after (.croftReset 63) parked).regs = parked.regs ∧ quarterGone live 3 = false ∧
    strmState (after (.croftReset 63) live) 191 = 0 ∧ bit (getF crofts (croftBitF 63) 0) (63 % 32) = true ∧
    rawBit (after (.croftDone 63) crofts) ⟨.reset, 0⟩ 2 = true ∧ (after (.croftDone 0) crofts).regs = crofts.regs ∧
    (after (.portReset 31) parked).regs = parked.regs ∧ portState (after (.portReset 31) up31) 31 = stDark := by decide +kernel

theorem test_witness_ResetsDone_fallow :
    let on := put [(reset_CTRL_FALLOW, 0, 1), (reset_STATUS_IN_FALLOW, 0, 1)] hwReset
    let going := gateOf (fun g => { g with goingFallow := true }) hwReset
    let leaving := gateOf (fun g => { g with leavingFallow := true }) on
    (List.range 192).all (fun k => strmState hwReset k == 0) = true ∧ flag hwReset bellMaster_STATUS_RUNNING 0 = false ∧
    flag hwReset mill_CTRL_ENABLE 0 = false ∧ (after (.fallow true) hwReset).gate.goingFallow = true ∧
    rawBit (after (.fallow true) live) ⟨.reset, 0⟩ 7 = true ∧ flag on reset_CTRL_FALLOW 0 = true ∧ (after (.fallow false) on).gate.leavingFallow = true ∧
    (after (.fallow true) on).regs = on.regs ∧ (after (.fallow false) hwReset).regs = hwReset.regs ∧ flag (after .fallowEntered going) hbm0_STATUS_SELF_REFRESH 11 = true ∧
    (after .fallowEntered hwReset).regs = hwReset.regs ∧ rawBit (after .fallowLeft leaving) ⟨.reset, 0⟩ 6 = true ∧ (after .fallowLeft on).regs = on.regs := by decide +kernel

/-! Firmware images: the slots hold headers whose certificate and signature are taken to verify, since `Config` leaves cryptography open -/

/-- SHA-256 of no bytes, as its standard gives it. -/
def emptyDigest : List Byte := [0xe3, 0xb0, 0xc4, 0x42, 0x98, 0xfc, 0x1c, 0x14, 0x9a, 0xfb, 0xf4, 0xc8, 0x99, 0x6f, 0xb9, 0x24, 0x27, 0xae, 0x41, 0xe4,
  0x64, 0x9b, 0x93, 0x4c, 0xa4, 0x95, 0x99, 0x1b, 0x78, 0x52, 0xb8, 0x55]
/-- The header of an empty image of a type (R474). -/
def header (ty : Nat) : List Byte := leBytes 4 0x4D495356 ++ leBytes 4 ty ++ leBytes 12 0 ++ emptyDigest ++ leBytes 12 0
def flashed : Hw := runE (modStew (fun s => { s with slots := [1, 2, 3].flatMap (fun ty => [FwSlot.mk (((List.range 64).zip (header ty))) false, {}]) })) hwReset
/-- The certificate permits the image and its signature verifies. -/
def trusted (ty : Nat) : Prop := Config.x509Verify (fwBytes flashed (fwSlot ty 0) 128 1024) ty = true ∧
  Config.ecdsaVerify (Config.certKey (fwBytes flashed (fwSlot ty 0) 128 1024)) (fwBytes flashed (fwSlot ty 0) 0 64) (fwBytes flashed (fwSlot ty 0) 64 64) = true

theorem verifies_stew (h g : Hw) (e : h.stew = g.stew) (ty ab : Nat) : fwVerifies h ty ab = fwVerifies g ty ab := by
  cases h; cases g; cases e; rfl

theorem flashed_verifies (ty : Nat) (m : ty ∈ [1, 2, 3]) (hd : Config.sha256 [] = emptyDigest) (ht : trusted ty) :
    fwVerifies flashed ty 0 = true := by
  obtain ⟨hx, hs⟩ := ht
  have hl : ∀ ty, ty ∈ [1, 2, 3] → fwNat flashed (fwSlot ty 0) 16 4 = 0 := by decide +kernel
  have h0 : fwBytes flashed (fwSlot ty 0) 1152 0 = [] := rfl
  have hh : ∀ ty, ty ∈ [1, 2, 3] → (fwNat flashed (fwSlot ty 0) 0 4 == 0x4D495356 && fwNat flashed (fwSlot ty 0) 4 1 == ty &&
    fwNat flashed (fwSlot ty 0) 5 3 == 0 && fwNat flashed (fwSlot ty 0) 56 8 == 0 && decide (fwNat flashed (fwSlot ty 0) 52 4 < 2) &&
    decide (0 + 1152 ≤ fwSize ty)) = true ∧ emptyDigest = fwBytes flashed (fwSlot ty 0) 20 32 ∧
    flashed.stew.floors.getD (ty - 1) 0 ≤ fwNat flashed (fwSlot ty 0) 12 4 := by decide +kernel
  obtain ⟨a, b, c⟩ := hh ty m
  simp only [fwVerifies, hl ty m, hx, hs, h0, hd, a, ← b, c, decide_true, Bool.and_true, beq_self_eq_true]

theorem test_witness_images (hd : Config.sha256 [] = emptyDigest) (ht : ∀ ty, ty ∈ [1, 2, 3] → trusted ty) :
    (let h := gateOf (fun g => { g with off := true }) flashed
     h.gate.off = true ∧ h.stew.erasing = none ∧ h.stew.bootFailed = false ∧ (∀ ty, 1 ≤ ty → ty ≤ 3 → fwVerifies h ty (fwActive h ty) = true)) ∧
    (let h := gateOf (fun g => { g with moduleRuns := true }) flashed
     h.gate.moduleRuns = true ∧ h.gate.booted = false ∧ (∀ ty, ty = 2 ∨ ty = 3 → fwVerifies h ty (fwActive h ty) = true)) := by
  have act : ∀ ty, ty ∈ [1, 2, 3] → fwActive flashed ty = 0 := by decide +kernel
  have all : ∀ (h : Hw), h.stew = flashed.stew → ∀ ty, ty ∈ [1, 2, 3] → fwVerifies h ty (fwActive h ty) = true := by
    intro h e ty m
    have : fwActive h ty = fwActive flashed ty := by simp only [fwActive, e]
    rw [this, act ty m, verifies_stew h flashed e]
    exact flashed_verifies ty m hd (ht ty m)
  refine ⟨⟨rfl, rfl, rfl, fun ty a b => all _ rfl ty ?_⟩, rfl, rfl, fun ty a => all _ rfl ty ?_⟩
  · simp only [List.mem_cons, List.not_mem_nil, or_false]; omega
  · simp only [List.mem_cons, List.not_mem_nil, or_false]; omega

/-! Witnesses: the steward -/

/-- A request of an owner command: its code, payload and signature; the nonce is 32 bytes of 7, the serial number 7 (R484). -/
def blob (code : Nat) (p sign : List Byte) : List Byte :=
  leBytes 4 0x314E574F ++ leBytes 2 code ++ leBytes 2 p.length ++ leBytes 8 7 ++ List.replicate 32 7 ++ p ++ sign
def sign0 : List Byte := List.replicate 64 0
def key0 : List Byte := List.replicate 64 9
def stewOf (f : StewardX → StewardX) (h : Hw) : Hw := runE (modStew f) h
/-- An owned device with a nonce outstanding. -/
def ownedHw : Hw := stewOf (fun s => { s with owner := key0, nonce := some (List.replicate 32 7) }) hwReset
def unowned : Hw := stewOf (fun s => { s with nonce := some (List.replicate 32 7) }) hwReset

/-- Commands and payloads at the ends of their ranges. -/
def ownerPayloads : List (Nat × List Byte) :=
  [(1, leBytes 2 1), (1, leBytes 2 600), (1, leBytes 2 601), (2, []), (3, []), (4, []), (4, key0), (5, [1]), (5, [3])]

theorem blob_fresh (h : Hw) (b : List Byte) (hs : Config.serial = 7)
    (c : (ofLe (b.take 4) == 0x314E574F && ofLe ((b.drop 8).take 8) == 7 && h.stew.nonce == some ((b.drop 16).take 32)) = true) :
    blobFresh h b = true := by rw [blobFresh, hs]; exact c

theorem test_witness_StewardServes_owner (hs : Config.serial = 7)
    (hv : ∀ x, x ∈ ownerPayloads →
      blobSigned key0 (blob x.1 x.2 sign0) = true) :
    (stewUp ownedHw .host = true ∧ stewUp ownedHw .mctp = true ∧ ownedHw.stew.erasing = none) ∧
    (∀ x, x ∈ ownerPayloads →
      Authorised ownedHw (blob x.1 x.2 sign0) x.1 ∧ blobPayload (blob x.1 x.2 sign0) = x.2) ∧
    blobFresh unowned (blob 4 key0 sign0) = true ∧ unowned.stew.owner = [] ∧ blobSigned (blobPayload (blob 4 key0 sign0)) (blob 4 key0 sign0) = true := by
  have c : ∀ x, x ∈ ownerPayloads →
      (blobSized (blob x.1 x.2 sign0) = true ∧ blobCode (blob x.1 x.2 sign0) = x.1 ∧ blobPayload (blob x.1 x.2 sign0) = x.2 ∧
      (ofLe ((blob x.1 x.2 sign0).take 4) == 0x314E574F && ofLe (((blob x.1 x.2 sign0).drop 8).take 8) == 7 &&
        ownedHw.stew.nonce == some (((blob x.1 x.2 sign0).drop 16).take 32)) = true) := by decide +kernel
  have k : (4, key0) ∈ ownerPayloads := by decide +kernel
  have u : (ofLe ((blob 4 key0 sign0).take 4) == 0x314E574F && ofLe (((blob 4 key0 sign0).drop 8).take 8) == 7 &&
      unowned.stew.nonce == some (((blob 4 key0 sign0).drop 16).take 32)) = true := by decide +kernel
  have ow : ownedHw.stew.owner = key0 := by decide +kernel
  have no : unowned.stew.owner = [] := by decide +kernel
  have pay : blobPayload (blob 4 key0 sign0) = key0 := by decide +kernel
  have ne : key0 ≠ [] := by decide +kernel
  refine ⟨by decide +kernel, fun x m => ?_, blob_fresh _ _ hs u, no, ?_⟩
  · obtain ⟨a, b, d, e⟩ := c x m
    refine ⟨⟨a, b, blob_fresh _ _ hs e, ?_, ?_⟩, d⟩
    · rw [ow]; exact ne
    · rw [ow]; exact hv x m
  · rw [pay]; exact hv (4, key0) k

theorem test_witness_StewardServes_refused (hs : Config.serial = 7) (hv : blobSigned key0 (blob 1 (leBytes 2 1) (List.replicate 64 1)) = false) :
    let late := stewOf (fun s => { s with nonce := none }) ownedHw
    let b := blob 1 (leBytes 2 1) sign0
    blobSized b = true ∧ blobCode b = 1 ∧ blobFresh late b = false ∧ blobSized (b.drop 1) = false ∧
    blobFresh unowned b = true ∧ unowned.stew.owner = [] ∧ ownedHw.stew.owner ≠ [] ∧ blobSigned ownedHw.stew.owner (blob 1 (leBytes 2 1) (List.replicate 64 1)) = false := by
  have ow : ownedHw.stew.owner = key0 := by decide +kernel
  refine ⟨by decide +kernel, by decide +kernel, ?_, by decide +kernel, blob_fresh _ _ hs (by decide +kernel), by decide +kernel, by decide +kernel, ?_⟩
  · rw [blobFresh, hs]; decide +kernel
  · rw [ow]; exact hv

theorem test_witness_StewardServes :
    let lost := stewOf (fun s => { s with alive := false }) hwReset
    let erasing := fun (x : Transport) => stewOf (fun s => { s with erasing := some x, erased := 16384 }) hwReset
    let ready := stewOf (fun s => { s with slots := s.slots.set 5 { bytes := [], verified := true } }) hwReset
    let fwd := stewOf (fun s => { s with forwarded := [(fAddr dyke_BUDGET 3, 0x7FFF, 5), (fAddr dyke_BUDGET 3, 0x7FFF, 6)] }) hwReset
    let window := stewOf (fun s => { s with window := true }) hwReset
    let data := [3, 0, 0, 0] ++ leBytes 4 (0x800000 - 8) ++ List.replicate 8 1
    stewUp lost .mctp = false ∧ (after (.getInfo .mctp []) lost).regs = lost.regs ∧ (erasing .mctp).stew.erasing = some .mctp ∧
    (after (.getNonce .host []) (erasing .mctp)).outbox = [.steward .host 5 []] ∧ (after (.getNonce .host []) (erasing .host)).outbox = [] ∧
    (after (.getNonce .host [0]) hwReset).outbox = [.steward .host 2 []] ∧ (after (.closePersist .mctp []) fwd).stew.forwarded = [] ∧
    storedReg (after (.closePersist .mctp []) fwd) (fAddr dyke_BUDGET 3) = 6 ∧ hwReset.stew.slots.length = 6 ∧
    data.length = 16 ∧ ofLe ((data.drop 4).take 4) + 8 ≤ fwSize 3 ∧ (after (.fwWrite .mctp data) ready).outbox = [.steward .mctp 0 []] ∧
    (after (.fwWrite .mctp (data ++ [1])) ready).outbox = [.steward .mctp 2 []] ∧ ((after (.fwWrite .mctp data) ready).stew.slots.getD 5 {}).verified = false ∧
    badType [4] = true ∧ badType [3] = false ∧ (after (.fwStage .mctp [4]) hwReset).outbox = [.steward .mctp 2 []] ∧
    ownedHw.stew.owner ≠ [] ∧ (after (.fwActivate .mctp [3]) ownedHw).outbox = [.steward .mctp 6 []] ∧
    (after (.fwActivate .mctp [3]) hwReset).outbox = [.steward .mctp 4 []] ∧ (ready.stew.slots.getD (fwSlot 3 1) {}).verified = true ∧
    (after (.fwActivate .mctp [3]) ready).stew.active = [0, 0, 1] ∧ fwd.stew.alive = true ∧ fwd.gate.off = false ∧
    storedReg (after .rwsCommit fwd) (fAddr dyke_BUDGET 3) = 5 ∧ (after .rwsCommit hwReset).regs = hwReset.regs ∧
    recSeq (bookSlot (after .bookEraseDone (erasing .mctp)) 1) = 2 ∧ (after .bookEraseDone hwReset).regs = hwReset.regs ∧
    window.stew.window = true ∧ (after .persistWindowExpire window).stew.window = false ∧ (after .persistWindowExpire hwReset).regs = hwReset.regs ∧
    (after .nonceExpire ownedHw).stew.nonce = none ∧ (after .heartbeat lost).stew.alive = true ∧ (after .heartbeat dark).regs = dark.regs ∧
    rawBit (after .stewardLost hwReset) ⟨.mailbox, 0⟩ 3 = true ∧ (after .stewardLost hwReset).gate.stewWait = 1 ∧ (after .stewardLost (erasing .mctp)).outbox = [.steward .mctp 5 []] ∧
    (after .stewardLost lost).regs = lost.regs := by decide +kernel

theorem test_witness_StewardServes_spdm :
    let at' := fun (n : Nat) => stewOf (fun s => { s with spdmMctp := n }) hwReset
    spdmState (at' 2) .mctp = 2 ∧ (after (.getDigests .mctp) (at' 2)).outbox = [.steward .mctp 0x7F [4]] ∧
    (after (.getVersion .mctp) (at' 0)).stew.spdmMctp = 1 ∧ (after (.getCapabilities .mctp) (at' 1)).stew.spdmMctp = 2 ∧
    (after (.negotiateAlgorithms .mctp) (at' 2)).stew.spdmMctp = 3 ∧ (after (.getCertificate .mctp 255 0 0) (at' 3)).outbox = [.steward .mctp 0x7F [1]] ∧
    (after (.challenge .mctp 1 []) (at' 3)).outbox = [.steward .mctp 0x7F [1]] ∧ (List.replicate 32 (0 : Byte)).length = 32 ∧
    (after (.getMeasurements .mctp 9 false []) (at' 3)).outbox = [.steward .mctp 0x7F [1]] ∧
    (after (.getMeasurements .mctp 0 false []) (at' 3)).outbox = [.steward .mctp 0x60 [8]] ∧
    (after (.getMeasurements .mctp 8 false []) (at' 3)).outbox = [.steward .mctp 0x60 (List.replicate 32 0)] ∧
    (after (.spdmUnsupported .mctp 0) (at' 0)).outbox = [.steward .mctp 0x7F [7]] := by decide +kernel

/-! Witnesses: the parish book -/

def rec3 : QRec := { source := 0x11, code := 2, sev := 3 }
/-- Records of severity 4 in the first n slots, each newer than the one before. -/
def fourths (n : Nat) : List (Nat × Nat) := (List.range n).map (fun k => (k, k + 1 + 4 * 2 ^ 208))
def bookOf (l : List (Nat × Nat)) (h : Hw) : Hw := { h with book := l, gateQ := [rec3], stew := { h.stew with seq := 20000 } }

theorem fourths_sev (n k : Nat) (hk : n < 2 ^ 47) (v : Nat) (m : (k, v) ∈ fourths n) : recSev v = 4 ∧ recSeq v = k + 1 ∧ k < n := by
  simp only [fourths, List.mem_map, List.mem_range, Prod.mk.injEq] at m
  obtain ⟨x, hx, rfl, rfl⟩ := m
  refine ⟨?_, ?_, hx⟩
  · simp only [recSev, bits, Nat.shiftRight_eq_div_pow]; omega
  · simp only [recSeq]; omega

theorem fourths_wf (d : Nat → Nat) (hd : ∀ k, d k = 0) (n : Nat) : smWf d (fourths n) = true := by
  have : ∀ m a lo, lo ≤ a → smWfFrom d lo ((List.range' a m).map (fun k => (k, k + 1 + 4 * 2 ^ 208))) = true := by
    intro m
    induction m with
    | zero => intro a lo _; rfl
    | succ m ih =>
      intro a lo hl
      simp only [List.range'_succ, List.map_cons, smWfFrom, Bool.and_eq_true, decide_eq_true_eq, hd]
      exact ⟨⟨hl, by omega⟩, ih (a + 1) (a + 1) (Nat.le_refl _)⟩
  rw [fourths, List.range_eq_range']
  exact this n 0 0 (Nat.le_refl 0)

theorem fourths_wf_hw (n : Nat) : (bookOf (fourths n) hwReset).wf = true := by
  have w : hwReset.wf = true := by decide +kernel
  simp only [Hw.wf, Maps.wf, Bool.and_eq_true] at w ⊢
  simp_all only [bookOf, Memory.wf, Regs.wf, fourths_wf, memDflt, implies_true, and_self]

theorem fourths_full (n : Nat) (hp : 0 < n) (hn : n < 2 ^ 47) :
    ((fourths n).map (·.1)).Nodup ∧ (fourths n).length = n ∧ (∀ x, x ∈ fourths n → rec3.sev < recSev x.2) ∧ (0, 1 + 4 * 2 ^ 208) ∈ fourths n ∧
    (∀ x, x ∈ fourths n → x ≠ (0, 1 + 4 * 2 ^ 208) → recSeq (1 + 4 * 2 ^ 208) < recSeq x.2) := by
  refine ⟨?_, by simp only [fourths, List.length_map, List.length_range], ?_, ?_, ?_⟩
  · simp only [fourths, List.map_map]
    have : ((fun x : Nat × Nat => x.1) ∘ fun k => (k, k + 1 + 4 * 2 ^ 208)) = id := rfl
    rw [this, List.map_id]; exact List.nodup_range
  · intro x m
    rw [(fourths_sev n x.1 hn x.2 m).1]
    decide
  · simp only [fourths, List.mem_map, List.mem_range]
    exact ⟨0, hp, rfl⟩
  · intro x m ne
    rw [(fourths_sev n x.1 hn x.2 m).2.1, show recSeq (1 + 4 * 2 ^ 208) = 1 by decide +kernel]
    by_cases z : x.1 = 0
    · exfalso; apply ne
      simp only [fourths, List.mem_map, List.mem_range] at m
      obtain ⟨k, _, rfl⟩ := m
      simp only at z; subst z; rfl
    · omega

theorem test_witness_BookKept_full (n : Nat) (hn : n = 16384) :
    (let h := bookOf (fourths (n - 1)) hwReset
     h.wf = true ∧ h.book.length = 16383 ∧ h.stew.wasFull = false ∧ h.stew.seq % 2 ^ 48 ≠ 0) ∧
    (let h := bookOf (fourths n) hwReset
     h.stew.alive = true ∧ h.gate.off = false ∧ h.stew.erasing = none ∧ h.gateQ = [rec3] ∧ h.book.length = 16384 ∧
     (h.book.map (·.1)).Nodup ∧ (∀ x, x ∈ h.book → rec3.sev < recSev x.2) ∧
     (0, 1 + 4 * 2 ^ 208) ∈ h.book ∧ recSev (1 + 4 * 2 ^ 208) ≤ 4 ∧
     (∀ x, x ∈ h.book → x ≠ (0, 1 + 4 * 2 ^ 208) → recSeq (1 + 4 * 2 ^ 208) < recSeq x.2)) := by
  obtain ⟨a, b, c, d, e⟩ := fourths_full n (by omega) (by omega)
  refine ⟨⟨fourths_wf_hw _, ?_, rfl, (by decide : 20000 % 2 ^ 48 ≠ 0)⟩, rfl, rfl, rfl, rfl, b.trans hn, a, c, d, by decide +kernel, e⟩
  simp only [bookOf, fourths, List.length_map, List.length_range]; omega

/-- The device one clk after a command. -/
def moved (i : Instr) (h : Hw) : Hw := now (st (after i h)) ((after i h).clk + 1)

theorem test_witness_BookKept :
    let h := { hwReset with gateQ := [rec3] }
    let lost := stewOf (fun s => { s with alive := false }) h
    let two := { hwReset with book := [(0, 5), (16383, 6 + 4 * 2 ^ 208)] }
    let high := put [(book_CURSOR_SLOT, 0, 16383)] two
    let busy := put [(book_STATUS_BUSY, 0, 1)] two
    let flr := gateOf (fun g => { g with flr := true }) two
    flr.gate.linkDown = false ∧ flr.gate.off = false ∧ flr.gate.flr = true ∧ (after .windowRead flr).outbox = [.regData 0xFFFFFFFF] ∧
    h.stew.alive = true ∧ h.gate.off = false ∧ h.stew.erasing = none ∧ h.gateQ = [rec3] ∧ h.book.length < 16384 ∧ lowestEmpty h.book 0 = 1 ∧
    bookSlot (after (.recordWrite 7) h) 1 = bookRecord 2 7 1 rec3 ∧ (after (.recordWrite 7) h).gateQ = [] ∧ (after (.recordWrite 7) lost).regs = lost.regs ∧
    (after (.recordWrite 7) hwReset).regs = hwReset.regs ∧ (after (.hoursCommit 7) h).stew.committed = 7 ∧ (after (.hoursCommit 7) lost).regs = lost.regs ∧
    hostAway two = false ∧ flag two book_STATUS_BUSY 0 = false ∧ getF (after (.cursorWrite 16383) two) book_CURSOR_SLOT 0 = 16383 ∧
    flag (after (.cursorWrite 1) two) book_CURSOR_VALID 0 = false ∧ recSeq (bookSlot two 0) = 5 ∧
    flag (after .next two) book_STATUS_BUSY 0 = true ∧ (after .next two).gate.bookMove = some (1, 5) ∧
    getF (moved .next two) book_CURSOR_SLOT 0 = 16383 ∧ flag (moved .next two) book_STATUS_BUSY 0 = false ∧
    flag (moved .prev two) book_STATUS_END 0 = true ∧
    flag (moved .next high) book_STATUS_END 0 = true ∧ getF (moved .prev high) book_CURSOR_SLOT 0 = 0 ∧
    getF (moved .oldest high) book_CURSOR_SLOT 0 = 0 ∧ getF (moved .newest two) book_CURSOR_SLOT 0 = 16383 ∧
    flag (moved .oldest { two with book := [] }) book_STATUS_END 0 = true ∧ (after .windowRead two).outbox = [.regData 5] ∧
    (after .windowRead high).gate.bookSeq = some 6 ∧ flag busy book_STATUS_BUSY 0 = true ∧ (after .next busy).regs = busy.regs ∧
    (after (.cursorWrite 1) busy).regs = busy.regs := by decide +kernel

/-- Contacts of the connectors, from the tables of R507 and R510. -/
theorem test_contacts :
    contactA .a 1 = .hostTx 0 false ∧ contactA .a 32 = .hostTx 15 true ∧ contactA .c 31 = .hostRx 15 false ∧ contactA .a 35 = .perst ∧
    contactA .a 40 = .maddr 0 ∧ contactA .c 34 = .maddr 2 ∧ contactA .c 36 = .leakB ∧ contactA .c 37 = .notConnected ∧
    contactA .b 33 = .ground ∧ portWafer 15 = (.b, 15) ∧ portWafer 17 = (.c, 1) ∧ portContact 17 44 = .portTx 17 7 true ∧
    portContact 17 46 = .portRx 17 7 false ∧ portContact 17 48 = .ground ∧
    inputEnabled [.rtn, .p48, .pwrEnA] = false := by decide

end Sys2Proof.Tests
end

/-! PROOFS. Which registers an abandon of the step writes (R267), what a stream's fault leaves in the stream's page (R146 to R148), and
that a stream that is not `RUNNING` issues nothing (R165). -/

section

namespace Sys2Proof.Machine

-- fields of a page

/-- A field of another register of the same page keeps its value. -/
theorem getF_setF_off (f g : Fld) (i v : Nat) (h : Hw) (hp : g.page = f.page) (ho : g.off ≠ f.off) :
    getF (runE (setF f i v) h) g i = getF h g i := by
  refine getF_setF_ne f g i i v h ?_
  simp only [fAddr, hp]
  omega

/-- A field at another offset than 0x10 lies in no page's `EVENT_RAW` (R35). -/
theorem fAddr_ne_rawAddr (f : Fld) (i : Nat) (p : Page) (hi : i < pageCount f.page) (hp : p.inst < pageCount p.kind)
    (ho : f.off < 0x1000) (hr : f.off ≠ 0x10) : fAddr f i ≠ rawAddr p := by
  intro h
  obtain ⟨_, _, hoff⟩ := pageBase_inj f.page p.kind i p.inst f.off 0x10 hi hp ho (by decide) h
  exact hr hoff

/-- No stream's page holds a register where an event counts a dropped record. -/
theorem eventSide_stream (f : Fld) (i : Nat) (hf : f.page = .stream) : eventSide (fAddr f i) = false := by
  simp only [fAddr, hf, pageBase, croftBase, quarterBase, eventSide, Bool.or_eq_false_iff, beq_eq_false_iff_ne, Bool.and_eq_false_iff,
    decide_eq_false_iff_not]
  omega

-- abandons

theorem reg_setA (h : Hw) (a : Nat) (ha : a ≠ fAddr bellMaster_STATUS_DEVICE_A 0) : reg (runE setA h) a = reg h a := by
  unfold setA
  rw [runE_fun (fun h => chain [setFlag bellMaster_STATUS_DEVICE_A 0 true, modBell _, modMill _])]
  simp only [runE_chain_cons, runE_chain_nil]
  rw [reg_keeps (keeps_modMill (by decide) _), reg_keeps (keeps_modBell (by decide) _), setFlag, reg_setF_ne _ _ _ _ _ ha]

theorem reg_captureSrc (p : Page) (q : Nat) (h : Hw) (a : Nat) (ha : a ≠ fAddr bellRcv_ABANDON_SRC q) :
    reg (runE (captureSrc p q) h) a = reg h a := by
  rw [captureSrc, runE_whenE]
  split
  · exact reg_setF_ne _ _ _ _ _ ha
  · rfl

/-- A register after an abandon: unchanged, but for flag A, the quarter's bell receiver and what its event brings with it (R267). -/
theorem reg_abandonQ (p : Page) (q : Nat) (h : Hw) (a : Nat) (hA : a ≠ fAddr bellMaster_STATUS_DEVICE_A 0)
    (hsrc : a ≠ fAddr bellRcv_ABANDON_SRC q) (hanom : a ≠ fAddr bellRcv_STATUS_ANOM q) (hraw : a ≠ rawAddr ⟨.bellRcv, q⟩)
    (hs : eventSide a = false) : reg (runE (abandonQ p q) h) a = reg h a := by
  simp only [abandonQ, runE_chain_cons, runE_chain_nil]
  rw [reg_raise _ _ _ _ _ hraw hs, setFlag, reg_setF_ne _ _ _ _ _ hanom, reg_captureSrc _ _ _ _ hsrc, reg_setA _ _ hA]

/-- An abandon leaves every field of every stream's page but the events'. -/
theorem getF_abandonQ_stream (p : Page) (q : Nat) (h : Hw) (f : Fld) (i : Nat) (hq : q < 4) (hi : i < 192) (hf : f.page = .stream)
    (ho : f.off < 0x1000) (hr : f.off ≠ 0x10) : getF (runE (abandonQ p q) h) f i = getF h f i := by
  have hi' : i < pageCount f.page := by rw [hf]; exact hi
  have other : ∀ (g : Fld) (j : Nat), j < pageCount g.page → g.off < 0x1000 → g.page ≠ .stream → fAddr f i ≠ fAddr g j :=
    fun g j hj hg hne => fAddr_ne g f j i hj hi' hg ho (Or.inl (by rw [hf]; exact hne.symm))
  rw [getF, reg_abandonQ p q h _ (other _ 0 (by decide) (by decide) (by decide)) (other _ q hq (by decide) (by decide))
    (other _ q hq (by decide) (by decide)) (fAddr_ne_rawAddr f i ⟨.bellRcv, q⟩ hi' hq ho hr) (eventSide_stream f i hf), getF]

/-- An event of a stream leaves every field of every stream's page but the events'. -/
theorem getF_raise_stream (k e : Nat) (h : Hw) (f : Fld) (i : Nat) (hk : k < 192) (hi : i < 192) (hf : f.page = .stream)
    (ho : f.off < 0x1000) (hr : f.off ≠ 0x10) : getF (runE (raise .stream k e) h) f i = getF h f i :=
  getF_raise .stream k e h f i (fAddr_ne_rawAddr f i ⟨.stream, k⟩ (by rw [hf]; exact hi) hk ho hr) (eventSide_stream f i hf)

-- a stream's fault

/-- A `FAULTED` stream does not fault again (R147). -/
theorem runE_streamFault_faulted (i cause pc : Nat) (h : Hw) (hs : strmState h i = 7) : runE (streamFault i cause pc) h = h := by
  simp only [runE, streamFault, if_pos hs, applyAll_nil]

/-- What a fault writes into its stream's page (R146, R147). -/
def faultRegs (i cause pc : Nat) : Eff :=
  chain [setState i 7, setFlag stream_STATUS_LATE i false, setF stream_FAULT_INFO i cause, setF stream_FAULT_PC i pc]

/-- A fault writes its stream's page, raises the stream's event and abandons the step (R146 to R148). -/
theorem runE_streamFault (i cause pc : Nat) (h : Hw) (hs : strmState h i ≠ 7) : runE (streamFault i cause pc) h =
    runE (abandonQ ⟨.stream, i⟩ (i / 48)) (runE (raise .stream i 2) (runE (faultRegs i cause pc) h)) := by
  have hc : streamFault i cause pc h = chain [setState i 7, setFlag stream_STATUS_LATE i false, setF stream_FAULT_INFO i cause,
      setF stream_FAULT_PC i pc, raise .stream i 2, abandonQ ⟨.stream, i⟩ (i / 48)] h := by
    simp only [streamFault, if_neg hs]
  rw [runE, hc, ← runE]
  simp only [faultRegs, runE_chain_cons, runE_chain_nil]

/-- The fields of a stream's page after its fault are those that the fault wrote, the events' apart. -/
theorem getF_streamFault (i cause pc : Nat) (h : Hw) (hi : i < 192) (hs : strmState h i ≠ 7) (f : Fld) (hf : f.page = .stream)
    (ho : f.off < 0x1000) (hr : f.off ≠ 0x10) : getF (runE (streamFault i cause pc) h) f i = getF (runE (faultRegs i cause pc) h) f i := by
  rw [runE_streamFault i cause pc h hs, getF_abandonQ_stream _ _ _ f i (by omega) hi hf ho hr, getF_raise_stream i 2 _ f i hi hi hf ho hr]

theorem strmState_faultRegs (i cause pc : Nat) (h : Hw) (hi : i < 192) : strmState (runE (faultRegs i cause pc) h) i = 7 := by
  simp only [strmState, faultRegs, runE_chain_cons, runE_chain_nil, setState, setFlag]
  rw [getF_setF_off stream_FAULT_PC stream_STATUS_STATE _ _ _ rfl (by decide),
    getF_setF_off stream_FAULT_INFO stream_STATUS_STATE _ _ _ rfl (by decide),
    getF_setF_disj stream_STATUS_LATE stream_STATUS_STATE _ _ _ rfl rfl hi (by decide) (by decide) (by decide),
    getF_setF_same _ _ _ _ hi (by decide)]
  rfl

theorem faultInfo_faultRegs (i cause pc : Nat) (h : Hw) (hi : i < 192) (hc : cause < 256) :
    getF (runE (faultRegs i cause pc) h) stream_FAULT_INFO i = cause := by
  simp only [faultRegs, runE_chain_cons, runE_chain_nil]
  rw [getF_setF_off stream_FAULT_PC stream_FAULT_INFO _ _ _ rfl (by decide), getF_setF_same _ _ _ _ hi (by decide)]
  exact Nat.mod_eq_of_lt hc

theorem faultPc_faultRegs (i cause pc : Nat) (h : Hw) (hi : i < 192) (hp : pc < 2 ^ 20) :
    getF (runE (faultRegs i cause pc) h) stream_FAULT_PC i = pc := by
  simp only [faultRegs, runE_chain_cons, runE_chain_nil]
  rw [getF_setF_same _ _ _ _ hi (by decide)]
  exact Nat.mod_eq_of_lt hp

/-- A stream's first fault stops it and records its cause and program counter (R146, R147). -/
theorem streamFault_records (i cause pc : Nat) (h : Hw) (hi : i < 192) (hc : cause < 256) (hp : pc < 2 ^ 20) (hs : strmState h i ≠ 7) :
    strmState (runE (streamFault i cause pc) h) i = 7 ∧ getF (runE (streamFault i cause pc) h) stream_FAULT_INFO i = cause ∧
      getF (runE (streamFault i cause pc) h) stream_FAULT_PC i = pc := by
  have kept := getF_streamFault i cause pc h hi hs
  refine ⟨?_, ?_, ?_⟩
  · rw [strmState, kept stream_STATUS_STATE rfl (by decide) (by decide)]
    exact strmState_faultRegs i cause pc h hi
  · rw [kept stream_FAULT_INFO rfl (by decide) (by decide)]
    exact faultInfo_faultRegs i cause pc h hi hc
  · rw [kept stream_FAULT_PC rfl (by decide) (by decide)]
    exact faultPc_faultRegs i cause pc h hi hp

-- issue

/-- Only a `RUNNING` stream issues a word (R165). -/
theorem runE_issue_notRunning (c : Croft) (st : Strm) (w : BitVec 128) (t op : Nat) (ok : BitVec 128 → Bool) (body : Eff) (h : Hw)
    (hs : strmState h (sIx c st) ≠ 2) : runE (issue c st w t op ok body) h = h := by
  simp only [runE, issue, if_pos (Or.inl hs), applyAll_nil]

/-- Every stream instruction is the issue of its word. -/
theorem exec_streamOp (i : Instr) (s : State) (c : Croft) (st : Strm) (w : BitVec 128) (t op : Nat) (ok : BitVec 128 → Bool)
    (hi : streamOp i = some (c, st, w, t, op, ok)) : ∃ body, exec i s = run (issue c st w t op ok body) s := by
  unfold streamOp at hi
  split at hi
  all_goals cases hi
  all_goals exact ⟨_, rfl⟩

/-- A stream that is not `RUNNING` takes no instruction (R146, R165). -/
theorem exec_streamOp_notRunning (i : Instr) (s : State) (c : Croft) (st : Strm) (w : BitVec 128) (t op : Nat) (ok : BitVec 128 → Bool)
    (hi : streamOp i = some (c, st, w, t, op, ok)) (hs : strmState s.hw (sIx c st) ≠ 2) : exec i s = .next s := by
  obtain ⟨body, hb⟩ := exec_streamOp i s c st w t op ok hi
  rw [hb, run_next, runE_issue_notRunning c st w t op ok body s.hw hs]

end Sys2Proof.Machine

open Sys2Proof Sys2Proof.Machine

/-- Settles O15: a fault of a stream that is not `FAULTED` writes the three fields and what follows leaves them, and a `FAULTED` stream
neither faults nor issues. -/
theorem firstFaultRecorded : Obligations.FirstFaultRecorded := by
  refine ⟨fun h i cause pc hi hc hp => ⟨?_, ?_⟩, fun i s c st w t op ok hi hs => ?_⟩
  · exact streamFault_records i cause pc h hi hc hp
  · exact runE_streamFault_faulted i cause pc h
  · exact exec_streamOp_notRunning i s c st w t op ok hi (by rw [hs]; decide)

end
